-- ==== Sys2Proof/Word.lean ====
section
/-! DEFINITION. The word types of the block: the byte of the source and the sink, the 64-bit lane of values
and operands, the 16-bit command word, and the items of RMEM and OMEM. -/

namespace Sys2Proof

/-- One byte of SRC or SNK, and the width of BITBUF (10_state.md R21). -/
abbrev Byte := BitVec 8

/-- A 64-bit value lane: RSP.VAL, operands A and L, numeric items (00_scope.md R7). -/
abbrev Lane := BitVec 64

/-- The command word CW (30_encoding.md R92). -/
abbrev CmdWord := BitVec 16

/-- A string item: absent, or a sequence of payload bytes (47_strings.md R260). The empty string is
`present []`, a different item from `absent`. -/
inductive StrItem where
  | absent
  | present (p : List Byte)
deriving DecidableEq, Repr

/-- An item of RMEM or OMEM: a numeric lane value or a string item (00_scope.md R14). -/
inductive Item where
  | num (v : Lane)
  | str (s : StrItem)
deriving DecidableEq, Repr

end Sys2Proof
end

