-- ==== Sys2Proof/Syntax.lean ====
section
/-! DEFINITION. The commands as syntax: one constructor per row of spec/opcode_table.json, with the fields the command
word carries (BO or W). Operands A, L and OMEM are side-band and stand in the command transaction, not here
(30_encoding.md R91). -/

namespace Sys2Proof

/-- The byte order of a command, field BO (10_state.md R29, 30_encoding.md R92). -/
inductive ByteOrder where
  | big
  | little
deriving DecidableEq, Repr

/-- The commands of both units (30_encoding.md R94). `w` is the field W as an integer (R93); it is 0..15 in every
instruction that a command word encodes. -/
inductive Instr where
  /-- RD.BITS, 40_rd_bits.md R127. -/
  | rdBits (w : Nat)
  /-- RD.BYTE, 41_rd_scalars.md R142. -/
  | rdByte
  /-- RD.BOOL, 41_rd_scalars.md R143. -/
  | rdBool
  /-- RD.USHORT, 41_rd_scalars.md R144. -/
  | rdUshort (bo : ByteOrder)
  /-- RD.INT, 41_rd_scalars.md R145. -/
  | rdInt (bo : ByteOrder)
  /-- RD.UINT, 41_rd_scalars.md R146. -/
  | rdUint (bo : ByteOrder)
  /-- RD.LONG, 41_rd_scalars.md R147. -/
  | rdLong (bo : ByteOrder)
  /-- RD.FLOAT, 41_rd_scalars.md R148. -/
  | rdFloat (bo : ByteOrder)
  /-- RD.DOUBLE, 41_rd_scalars.md R149. -/
  | rdDouble (bo : ByteOrder)
  /-- RD.STRING, 47_strings.md R266. -/
  | rdString (bo : ByteOrder)
  /-- RD.BITSARR, 42_rd_arrays.md R165. -/
  | rdBitsarr (w : Nat)
  /-- RD.BYTEARR, 42_rd_arrays.md R167. -/
  | rdBytearr (bo : ByteOrder)
  /-- RD.BOOLARR, 42_rd_arrays.md R168. -/
  | rdBoolarr
  /-- RD.SHORTARR, 42_rd_arrays.md R169. -/
  | rdShortarr (bo : ByteOrder)
  /-- RD.USHORTARR, 42_rd_arrays.md R170. -/
  | rdUshortarr (bo : ByteOrder)
  /-- RD.INTARR, 42_rd_arrays.md R171. -/
  | rdIntarr (bo : ByteOrder)
  /-- RD.UINTARR, 42_rd_arrays.md R172. -/
  | rdUintarr (bo : ByteOrder)
  /-- RD.LONGARR, 42_rd_arrays.md R173. -/
  | rdLongarr (bo : ByteOrder)
  /-- RD.FLOATARR, 42_rd_arrays.md R174. -/
  | rdFloatarr (bo : ByteOrder)
  /-- RD.DOUBLEARR, 42_rd_arrays.md R175. -/
  | rdDoublearr (bo : ByteOrder)
  /-- RD.STRARR, 47_strings.md R268. -/
  | rdStrarr (bo : ByteOrder)
  /-- RD.ALIGNBYTE, 43_rd_align_mark.md R191. -/
  | rdAlignbyte
  /-- RD.ALIGN, 43_rd_align_mark.md R192. -/
  | rdAlign
  /-- RD.MARK, 43_rd_align_mark.md R195. -/
  | rdMark
  /-- RD.RESET, 43_rd_align_mark.md R196. -/
  | rdReset
  /-- RD.GETCNT, 48_status.md R281. -/
  | rdGetcnt
  /-- RD.RSTCNT, 48_status.md R282. -/
  | rdRstcnt
  /-- RD.GETORD, 48_status.md R283. -/
  | rdGetord
  /-- RD.GETBUF, 48_status.md R284. -/
  | rdGetbuf
  /-- RD.GETNBITS, 48_status.md R285. -/
  | rdGetnbits
  /-- RD.GETDL, 48_status.md R286. -/
  | rdGetdl
  /-- RD.SETDL, 48_status.md R287. -/
  | rdSetdl
  /-- WR.BITS, 44_wr_bits.md R213. -/
  | wrBits (w : Nat)
  /-- WR.BYTE, 45_wr_scalars_arrays.md R221. -/
  | wrByte
  /-- WR.BOOL, 45_wr_scalars_arrays.md R222. -/
  | wrBool
  /-- WR.SHORT, 45_wr_scalars_arrays.md R223. -/
  | wrShort (bo : ByteOrder)
  /-- WR.INT, 45_wr_scalars_arrays.md R224. -/
  | wrInt (bo : ByteOrder)
  /-- WR.UINT, 45_wr_scalars_arrays.md R225. -/
  | wrUint (bo : ByteOrder)
  /-- WR.LONG, 45_wr_scalars_arrays.md R226. -/
  | wrLong (bo : ByteOrder)
  /-- WR.FLOAT, 45_wr_scalars_arrays.md R227. -/
  | wrFloat (bo : ByteOrder)
  /-- WR.DOUBLE, 45_wr_scalars_arrays.md R228. -/
  | wrDouble (bo : ByteOrder)
  /-- WR.STRING, 47_strings.md R267. -/
  | wrString (bo : ByteOrder)
  /-- WR.BITSARR, 45_wr_scalars_arrays.md R230. -/
  | wrBitsarr (w : Nat)
  /-- WR.BYTES, 45_wr_scalars_arrays.md R231. -/
  | wrBytes (bo : ByteOrder)
  /-- WR.BOOLARR, 45_wr_scalars_arrays.md R232. -/
  | wrBoolarr
  /-- WR.SHORTARR, 45_wr_scalars_arrays.md R233. -/
  | wrShortarr (bo : ByteOrder)
  /-- WR.INTARR, 45_wr_scalars_arrays.md R234. -/
  | wrIntarr (bo : ByteOrder)
  /-- WR.UINTARR, 45_wr_scalars_arrays.md R235. -/
  | wrUintarr (bo : ByteOrder)
  /-- WR.LONGARR, 45_wr_scalars_arrays.md R236. -/
  | wrLongarr (bo : ByteOrder)
  /-- WR.FLOATARR, 45_wr_scalars_arrays.md R237. -/
  | wrFloatarr (bo : ByteOrder)
  /-- WR.DOUBLEARR, 45_wr_scalars_arrays.md R238. -/
  | wrDoublearr (bo : ByteOrder)
  /-- WR.STRARR, 47_strings.md R269. -/
  | wrStrarr (bo : ByteOrder)
  /-- WR.ALIGN, 46_wr_align_flush.md R251. -/
  | wrAlign
  /-- WR.FLUSH, 46_wr_align_flush.md R252. -/
  | wrFlush
  /-- WR.CLOSE, 46_wr_align_flush.md R253. -/
  | wrClose
  /-- WR.GETCNT, 48_status.md R288. -/
  | wrGetcnt
  /-- WR.RSTCNT, 48_status.md R289. -/
  | wrRstcnt
deriving DecidableEq, Repr

end Sys2Proof
end

