-- ==== Sys2Proof/WellFormed.lean ====
section
/-! DEFINITION. When an instruction is one that some command word encodes: a field W must fit its four bits. -/

namespace Sys2Proof

/-- The field W is four bits (30_encoding.md R92): 0..15. Values 0 and 9..15 are well formed and raise InvalidArgument
when executed (R93). -/
def widthEncodable (w : Nat) : Bool := w < 16

/-- The instruction is one that a command word encodes. -/
def Instr.WellFormed : Instr → Bool
  | .rdBits w => widthEncodable w
  | .rdByte => true
  | .rdBool => true
  | .rdUshort _ => true
  | .rdInt _ => true
  | .rdUint _ => true
  | .rdLong _ => true
  | .rdFloat _ => true
  | .rdDouble _ => true
  | .rdString _ => true
  | .rdBitsarr w => widthEncodable w
  | .rdBytearr _ => true
  | .rdBoolarr => true
  | .rdShortarr _ => true
  | .rdUshortarr _ => true
  | .rdIntarr _ => true
  | .rdUintarr _ => true
  | .rdLongarr _ => true
  | .rdFloatarr _ => true
  | .rdDoublearr _ => true
  | .rdStrarr _ => true
  | .rdAlignbyte => true
  | .rdAlign => true
  | .rdMark => true
  | .rdReset => true
  | .rdGetcnt => true
  | .rdRstcnt => true
  | .rdGetord => true
  | .rdGetbuf => true
  | .rdGetnbits => true
  | .rdGetdl => true
  | .rdSetdl => true
  | .wrBits w => widthEncodable w
  | .wrByte => true
  | .wrBool => true
  | .wrShort _ => true
  | .wrInt _ => true
  | .wrUint _ => true
  | .wrLong _ => true
  | .wrFloat _ => true
  | .wrDouble _ => true
  | .wrString _ => true
  | .wrBitsarr w => widthEncodable w
  | .wrBytes _ => true
  | .wrBoolarr => true
  | .wrShortarr _ => true
  | .wrIntarr _ => true
  | .wrUintarr _ => true
  | .wrLongarr _ => true
  | .wrFloatarr _ => true
  | .wrDoublearr _ => true
  | .wrStrarr _ => true
  | .wrAlign => true
  | .wrFlush => true
  | .wrClose => true
  | .wrGetcnt => true
  | .wrRstcnt => true

end Sys2Proof
end

