-- ==== Sys2Proof/Decode.lean ====
section
/-! DEFINITION. The decoder, total on all command words, and the encoder (30_encoding.md R92, R94, R95). -/

namespace Sys2Proof

/-- Why a command word is no command, in the order of the steps of 30_encoding.md R95. Each of them is
IllegalCommand. -/
inductive DecodeError where
  /-- Step 1: OPC is not in the table of R94. -/
  | unassignedOpcode
  /-- Step 3: RSV is not zero. -/
  | reservedBits
  /-- Step 4: the command does not use BO and BO is not zero. -/
  | unusedByteOrder
  /-- Step 5: the command does not use W and W is not zero. -/
  | unusedWidth
deriving DecidableEq, Repr

/-- What a command uses of its word beside OPC: nothing, BO or W (the column "uses" of 30_encoding.md R94). -/
inductive Form where
  | plain (i : Instr)
  | withOrder (mk : ByteOrder → Instr)
  | withWidth (mk : Nat → Instr)

/-- Field OPC, bits 15:8. -/
def fieldOpc (cw : CmdWord) : BitVec 8 := cw.extractLsb' 8 8

/-- Field BO, bit 7. -/
def fieldBo (cw : CmdWord) : BitVec 1 := cw.extractLsb' 7 1

/-- Field RSV, bits 6:4. -/
def fieldRsv (cw : CmdWord) : BitVec 3 := cw.extractLsb' 4 3

/-- Field W, bits 3:0. -/
def fieldW (cw : CmdWord) : BitVec 4 := cw.extractLsb' 0 4

/-- BO = 0 is BIG_ENDIAN, BO = 1 is LITTLE_ENDIAN (30_encoding.md R92). -/
def orderOfBit (b : BitVec 1) : ByteOrder := if b = 0#1 then .big else .little

/-- The bit of a byte order (30_encoding.md R92). -/
def bitOfOrder : ByteOrder → BitVec 1
  | .big => 0#1
  | .little => 1#1

/-- The opcode map (30_encoding.md R94). -/
def opcodeMap : List (BitVec 8 × Form) := [
  (0x01#8, .withWidth .rdBits),
  (0x02#8, .plain .rdByte),
  (0x03#8, .plain .rdBool),
  (0x04#8, .withOrder .rdUshort),
  (0x05#8, .withOrder .rdInt),
  (0x06#8, .withOrder .rdUint),
  (0x07#8, .withOrder .rdLong),
  (0x08#8, .withOrder .rdFloat),
  (0x09#8, .withOrder .rdDouble),
  (0x0A#8, .withOrder .rdString),
  (0x10#8, .withWidth .rdBitsarr),
  (0x11#8, .withOrder .rdBytearr),
  (0x12#8, .plain .rdBoolarr),
  (0x13#8, .withOrder .rdShortarr),
  (0x14#8, .withOrder .rdUshortarr),
  (0x15#8, .withOrder .rdIntarr),
  (0x16#8, .withOrder .rdUintarr),
  (0x17#8, .withOrder .rdLongarr),
  (0x18#8, .withOrder .rdFloatarr),
  (0x19#8, .withOrder .rdDoublearr),
  (0x1A#8, .withOrder .rdStrarr),
  (0x20#8, .plain .rdAlignbyte),
  (0x21#8, .plain .rdAlign),
  (0x22#8, .plain .rdMark),
  (0x23#8, .plain .rdReset),
  (0x28#8, .plain .rdGetcnt),
  (0x29#8, .plain .rdRstcnt),
  (0x2A#8, .plain .rdGetord),
  (0x2B#8, .plain .rdGetbuf),
  (0x2C#8, .plain .rdGetnbits),
  (0x2D#8, .plain .rdGetdl),
  (0x2E#8, .plain .rdSetdl),
  (0x81#8, .withWidth .wrBits),
  (0x82#8, .plain .wrByte),
  (0x83#8, .plain .wrBool),
  (0x84#8, .withOrder .wrShort),
  (0x85#8, .withOrder .wrInt),
  (0x86#8, .withOrder .wrUint),
  (0x87#8, .withOrder .wrLong),
  (0x88#8, .withOrder .wrFloat),
  (0x89#8, .withOrder .wrDouble),
  (0x8A#8, .withOrder .wrString),
  (0x90#8, .withWidth .wrBitsarr),
  (0x91#8, .withOrder .wrBytes),
  (0x92#8, .plain .wrBoolarr),
  (0x93#8, .withOrder .wrShortarr),
  (0x95#8, .withOrder .wrIntarr),
  (0x96#8, .withOrder .wrUintarr),
  (0x97#8, .withOrder .wrLongarr),
  (0x98#8, .withOrder .wrFloatarr),
  (0x99#8, .withOrder .wrDoublearr),
  (0x9A#8, .withOrder .wrStrarr),
  (0xA1#8, .plain .wrAlign),
  (0xA4#8, .plain .wrFlush),
  (0xA5#8, .plain .wrClose),
  (0xA8#8, .plain .wrGetcnt),
  (0xA9#8, .plain .wrRstcnt)]

/-- Steps 3 to 5 of 30_encoding.md R95 for a command of the given form, then the fields it uses. -/
def decodeForm (cw : CmdWord) (f : Form) : Except DecodeError Instr :=
  if fieldRsv cw ≠ 0#3 then .error .reservedBits
  else match f with
    | .plain i =>
      if fieldBo cw ≠ 0#1 then .error .unusedByteOrder
      else if fieldW cw ≠ 0#4 then .error .unusedWidth
      else .ok i
    | .withOrder mk =>
      if fieldW cw ≠ 0#4 then .error .unusedWidth else .ok (mk (orderOfBit (fieldBo cw)))
    | .withWidth mk =>
      if fieldBo cw ≠ 0#1 then .error .unusedByteOrder else .ok (mk (fieldW cw).toNat)

/-- The decoder (30_encoding.md R95 steps 1 and 3 to 5). Step 2, whether the unit is the one the command belongs to, needs
the port and stands in `Machine.issue`. -/
def decode (cw : CmdWord) : Except DecodeError Instr :=
  match opcodeMap.lookup (fieldOpc cw) with
  | none => .error .unassignedOpcode
  | some f => decodeForm cw f

/-- A command word from its fields, RSV zero (30_encoding.md R92). -/
def commandWord (opc : BitVec 8) (bo : BitVec 1) (w : BitVec 4) : CmdWord := opc ++ bo ++ 0#3 ++ w

/-- The command word of an instruction (30_encoding.md R92, R94). -/
def encode : Instr → CmdWord
  | .rdBits w => commandWord 0x01#8 0#1 (BitVec.ofNat 4 w)
  | .rdByte => commandWord 0x02#8 0#1 0#4
  | .rdBool => commandWord 0x03#8 0#1 0#4
  | .rdUshort bo => commandWord 0x04#8 (bitOfOrder bo) 0#4
  | .rdInt bo => commandWord 0x05#8 (bitOfOrder bo) 0#4
  | .rdUint bo => commandWord 0x06#8 (bitOfOrder bo) 0#4
  | .rdLong bo => commandWord 0x07#8 (bitOfOrder bo) 0#4
  | .rdFloat bo => commandWord 0x08#8 (bitOfOrder bo) 0#4
  | .rdDouble bo => commandWord 0x09#8 (bitOfOrder bo) 0#4
  | .rdString bo => commandWord 0x0A#8 (bitOfOrder bo) 0#4
  | .rdBitsarr w => commandWord 0x10#8 0#1 (BitVec.ofNat 4 w)
  | .rdBytearr bo => commandWord 0x11#8 (bitOfOrder bo) 0#4
  | .rdBoolarr => commandWord 0x12#8 0#1 0#4
  | .rdShortarr bo => commandWord 0x13#8 (bitOfOrder bo) 0#4
  | .rdUshortarr bo => commandWord 0x14#8 (bitOfOrder bo) 0#4
  | .rdIntarr bo => commandWord 0x15#8 (bitOfOrder bo) 0#4
  | .rdUintarr bo => commandWord 0x16#8 (bitOfOrder bo) 0#4
  | .rdLongarr bo => commandWord 0x17#8 (bitOfOrder bo) 0#4
  | .rdFloatarr bo => commandWord 0x18#8 (bitOfOrder bo) 0#4
  | .rdDoublearr bo => commandWord 0x19#8 (bitOfOrder bo) 0#4
  | .rdStrarr bo => commandWord 0x1A#8 (bitOfOrder bo) 0#4
  | .rdAlignbyte => commandWord 0x20#8 0#1 0#4
  | .rdAlign => commandWord 0x21#8 0#1 0#4
  | .rdMark => commandWord 0x22#8 0#1 0#4
  | .rdReset => commandWord 0x23#8 0#1 0#4
  | .rdGetcnt => commandWord 0x28#8 0#1 0#4
  | .rdRstcnt => commandWord 0x29#8 0#1 0#4
  | .rdGetord => commandWord 0x2A#8 0#1 0#4
  | .rdGetbuf => commandWord 0x2B#8 0#1 0#4
  | .rdGetnbits => commandWord 0x2C#8 0#1 0#4
  | .rdGetdl => commandWord 0x2D#8 0#1 0#4
  | .rdSetdl => commandWord 0x2E#8 0#1 0#4
  | .wrBits w => commandWord 0x81#8 0#1 (BitVec.ofNat 4 w)
  | .wrByte => commandWord 0x82#8 0#1 0#4
  | .wrBool => commandWord 0x83#8 0#1 0#4
  | .wrShort bo => commandWord 0x84#8 (bitOfOrder bo) 0#4
  | .wrInt bo => commandWord 0x85#8 (bitOfOrder bo) 0#4
  | .wrUint bo => commandWord 0x86#8 (bitOfOrder bo) 0#4
  | .wrLong bo => commandWord 0x87#8 (bitOfOrder bo) 0#4
  | .wrFloat bo => commandWord 0x88#8 (bitOfOrder bo) 0#4
  | .wrDouble bo => commandWord 0x89#8 (bitOfOrder bo) 0#4
  | .wrString bo => commandWord 0x8A#8 (bitOfOrder bo) 0#4
  | .wrBitsarr w => commandWord 0x90#8 0#1 (BitVec.ofNat 4 w)
  | .wrBytes bo => commandWord 0x91#8 (bitOfOrder bo) 0#4
  | .wrBoolarr => commandWord 0x92#8 0#1 0#4
  | .wrShortarr bo => commandWord 0x93#8 (bitOfOrder bo) 0#4
  | .wrIntarr bo => commandWord 0x95#8 (bitOfOrder bo) 0#4
  | .wrUintarr bo => commandWord 0x96#8 (bitOfOrder bo) 0#4
  | .wrLongarr bo => commandWord 0x97#8 (bitOfOrder bo) 0#4
  | .wrFloatarr bo => commandWord 0x98#8 (bitOfOrder bo) 0#4
  | .wrDoublearr bo => commandWord 0x99#8 (bitOfOrder bo) 0#4
  | .wrStrarr bo => commandWord 0x9A#8 (bitOfOrder bo) 0#4
  | .wrAlign => commandWord 0xA1#8 0#1 0#4
  | .wrFlush => commandWord 0xA4#8 0#1 0#4
  | .wrClose => commandWord 0xA5#8 0#1 0#4
  | .wrGetcnt => commandWord 0xA8#8 0#1 0#4
  | .wrRstcnt => commandWord 0xA9#8 0#1 0#4

/-- The instruction that the decoder reads from a table word of `nbits` bits; the table gives every command 16. -/
def decodeTableWord (nbits w : Nat) : Option Instr :=
  if nbits = 16 ∧ w < 65536 then
    match decode (BitVec.ofNat 16 w) with
    | .ok i => some i
    | .error _ => none
  else none

/-- A row of the machine-readable opcode table: a word is the row's command when `word &&& mask = value`
(30_encoding.md R95). -/
structure TableRow where
  mask : CmdWord
  value : CmdWord
deriving DecidableEq, Repr

/-- The `match`/`mask` pairs of spec/opcode_table.json, in its order. -/
def tableRows : List TableRow := [
  ⟨0xFFF0#16, 0x0100#16⟩,
  ⟨0xFFFF#16, 0x0200#16⟩,
  ⟨0xFFFF#16, 0x0300#16⟩,
  ⟨0xFF7F#16, 0x0400#16⟩,
  ⟨0xFF7F#16, 0x0500#16⟩,
  ⟨0xFF7F#16, 0x0600#16⟩,
  ⟨0xFF7F#16, 0x0700#16⟩,
  ⟨0xFF7F#16, 0x0800#16⟩,
  ⟨0xFF7F#16, 0x0900#16⟩,
  ⟨0xFF7F#16, 0x0A00#16⟩,
  ⟨0xFFF0#16, 0x1000#16⟩,
  ⟨0xFF7F#16, 0x1100#16⟩,
  ⟨0xFFFF#16, 0x1200#16⟩,
  ⟨0xFF7F#16, 0x1300#16⟩,
  ⟨0xFF7F#16, 0x1400#16⟩,
  ⟨0xFF7F#16, 0x1500#16⟩,
  ⟨0xFF7F#16, 0x1600#16⟩,
  ⟨0xFF7F#16, 0x1700#16⟩,
  ⟨0xFF7F#16, 0x1800#16⟩,
  ⟨0xFF7F#16, 0x1900#16⟩,
  ⟨0xFF7F#16, 0x1A00#16⟩,
  ⟨0xFFFF#16, 0x2000#16⟩,
  ⟨0xFFFF#16, 0x2100#16⟩,
  ⟨0xFFFF#16, 0x2200#16⟩,
  ⟨0xFFFF#16, 0x2300#16⟩,
  ⟨0xFFFF#16, 0x2800#16⟩,
  ⟨0xFFFF#16, 0x2900#16⟩,
  ⟨0xFFFF#16, 0x2A00#16⟩,
  ⟨0xFFFF#16, 0x2B00#16⟩,
  ⟨0xFFFF#16, 0x2C00#16⟩,
  ⟨0xFFFF#16, 0x2D00#16⟩,
  ⟨0xFFFF#16, 0x2E00#16⟩,
  ⟨0xFFF0#16, 0x8100#16⟩,
  ⟨0xFFFF#16, 0x8200#16⟩,
  ⟨0xFFFF#16, 0x8300#16⟩,
  ⟨0xFF7F#16, 0x8400#16⟩,
  ⟨0xFF7F#16, 0x8500#16⟩,
  ⟨0xFF7F#16, 0x8600#16⟩,
  ⟨0xFF7F#16, 0x8700#16⟩,
  ⟨0xFF7F#16, 0x8800#16⟩,
  ⟨0xFF7F#16, 0x8900#16⟩,
  ⟨0xFF7F#16, 0x8A00#16⟩,
  ⟨0xFFF0#16, 0x9000#16⟩,
  ⟨0xFF7F#16, 0x9100#16⟩,
  ⟨0xFFFF#16, 0x9200#16⟩,
  ⟨0xFF7F#16, 0x9300#16⟩,
  ⟨0xFF7F#16, 0x9500#16⟩,
  ⟨0xFF7F#16, 0x9600#16⟩,
  ⟨0xFF7F#16, 0x9700#16⟩,
  ⟨0xFF7F#16, 0x9800#16⟩,
  ⟨0xFF7F#16, 0x9900#16⟩,
  ⟨0xFF7F#16, 0x9A00#16⟩,
  ⟨0xFFFF#16, 0xA100#16⟩,
  ⟨0xFFFF#16, 0xA400#16⟩,
  ⟨0xFFFF#16, 0xA500#16⟩,
  ⟨0xFFFF#16, 0xA800#16⟩,
  ⟨0xFFFF#16, 0xA900#16⟩]

end Sys2Proof
end

