-- ==== Sys2Proof/Config.lean ====
section
/-! DEFINITION. What the spec leaves open: the parameters RSTCNT_CLEARS_BITS, RMEM_MAX and OMEM_MAX and the free values. None
has a body, so no proof can see a value of one and every theorem holds whatever it is. -/

namespace Sys2Proof

/-- The open parameter RSTCNT_CLEARS_BITS (00_scope.md R7, 92_eei_decisions.md D15): whether RSTCNT also empties the
bit buffer. One constant for both units, as 48_status.md R289 says. Log entry 6. -/
opaque Config.rstcntClearsBits : Bool

/-- The open parameter RMEM_MAX (00_scope.md R7, 92_eei_decisions.md D26): the most items RMEM holds; none where it is
unbounded, the default. A launch premise on a run, never a fault (93_implementation_defined.md U6): `Machine.State.Admitted`
states it and no meaning reads it. Log entry 9. -/
opaque Config.rmemMax : Option Nat

/-- The open parameter OMEM_MAX (00_scope.md R7, 92_eei_decisions.md D26): the most items OMEM holds; none where it is
unbounded. A launch premise like RMEM_MAX. Log entry 9. -/
opaque Config.omemMax : Option Nat

/-- FREE VALUE: RSP.VAL of RD after a fault (30_encoding.md R96, 93_implementation_defined.md U3), at the counter
`RdUnit.draws`. Log entry 7. -/
opaque Config.rdFaultVal : Nat → Lane

/-- FREE VALUE: RSP.NB of RD after a fault (30_encoding.md R96). Log entry 7. -/
opaque Config.rdFaultNb : Nat → BitVec 4

/-- FREE VALUE: RSP.LEN of RD after a fault (30_encoding.md R96). Log entry 7. -/
opaque Config.rdFaultLen : Nat → Nat

/-- FREE VALUE: what RMEM holds once a command is issued to RD and until that command writes it, and after a fault
(20_memory.md R62, 30_encoding.md R96). Log entries 7 and 8. -/
opaque Config.rdOpenRmem : Nat → List Item

/-- FREE VALUE: RSP.VAL of WR after a fault (30_encoding.md R96), at the counter `WrUnit.draws`. Log entry 7. -/
opaque Config.wrFaultVal : Nat → Lane

/-- FREE VALUE: RSP.NB of WR after a fault (30_encoding.md R96). Log entry 7. -/
opaque Config.wrFaultNb : Nat → BitVec 4

/-- FREE VALUE: RSP.LEN of WR after a fault (30_encoding.md R96). Log entry 7. -/
opaque Config.wrFaultLen : Nat → Nat

end Sys2Proof
end

