-- ==== Sys2Proof/Machine/State.lean ====
section
/-! DEFINITION. The state of the block as plain data: both units, their ports, and the commands the hosts will issue
(10_state.md R20 to R40, 20_memory.md R60 to R63, 30_encoding.md R90, R91, R96). -/

namespace Sys2Proof.Machine

/-- The two units (00_scope.md R2). -/
inductive UnitId where
  | rd
  | wr
deriving DecidableEq, Repr

/-- The bit order of a unit (10_state.md R27, R28). The two reserved strap codes have no value of this type: a unit
strapped to one is refused at construction (70_reset_and_hazards.md R331). -/
inductive BitOrder where
  | lsb0
  | msb0
deriving DecidableEq, Repr

/-- What ends a command early (60_exceptions.md R300, R301): the argument of `raise`. -/
inductive Cause where
  | endOfData
  | invalidArgument
  | arraySizeExceeded
  | malformedWireData (p : Byte)
  | illegalCommand
  | illegalState
deriving DecidableEq, Repr

/-- The response status ST (30_encoding.md R96). -/
inductive Status where
  | ok
  | eof
  | endOfData
  | invalidArgument
  | arraySizeExceeded
  | malformedWireData
  | illegalCommand
  | illegalState
deriving DecidableEq, Repr

/-- A response transaction (30_encoding.md R96). The spec gives LEN no width (log entry 16). -/
structure Response where
  st : Status
  val : Lane
  nb : BitVec 4
  len : Nat
deriving DecidableEq, Repr

/-- A command transaction: CW, A, L and the operand memory OMEM, whose length is OLEN (30_encoding.md R91). -/
structure Transaction where
  cw : CmdWord
  a : Lane
  l : Lane
  omem : List Item
deriving DecidableEq, Repr

/-- A command transaction and the unit whose command port it is presented on (30_encoding.md R90). -/
structure HostCommand where
  port : UnitId
  tx : Transaction
deriving DecidableEq, Repr

/-- Unit RD. -/
@[ext]
structure RdUnit where
  /-- BITORDER (10_state.md R27). -/
  bitOrder : BitOrder
  /-- SRC (20_memory.md R60). -/
  src : List Byte
  /-- SRCPOS (10_state.md R30). -/
  srcPos : Nat
  /-- BITBUF (10_state.md R21). -/
  bitBuf : BitVec 8
  /-- BITCNT (10_state.md R22). -/
  bitCnt : BitVec 4
  /-- BYTECNT (10_state.md R31). -/
  byteCnt : BitVec 64
  /-- DETLIM (10_state.md R33). -/
  detLim : Bool
  /-- MARKVALID (10_state.md R34). -/
  markValid : Bool
  /-- MARKPOS (10_state.md R34). -/
  markPos : Nat
  /-- MARKLIM (10_state.md R34). -/
  markLim : BitVec 64
  /-- SNAP.BITBUF (10_state.md R35). -/
  snapBitBuf : BitVec 8
  /-- SNAP.BITCNT (10_state.md R35). -/
  snapBitCnt : BitVec 4
  /-- SNAP.BYTECNT (10_state.md R35). -/
  snapByteCnt : BitVec 64
  /-- RMEM (20_memory.md R62). -/
  rmem : List Item
  /-- The response port (30_encoding.md R90, R96). -/
  rsp : Response
  /-- The command port: the transaction accepted last (30_encoding.md R90, R91). -/
  cmd : Transaction
  /-- The model's own counter of free values drawn (log entry 7). -/
  draws : Nat
deriving DecidableEq, Repr

/-- Unit WR. -/
@[ext]
structure WrUnit where
  /-- BITORDER (10_state.md R27). -/
  bitOrder : BitOrder
  /-- SNK (20_memory.md R61). -/
  snk : List Byte
  /-- BITBUF (10_state.md R21). -/
  bitBuf : BitVec 8
  /-- BITCNT (10_state.md R22). -/
  bitCnt : BitVec 4
  /-- BYTECNT (10_state.md R31). -/
  byteCnt : BitVec 64
  /-- CLOSED (10_state.md R32). -/
  closed : Bool
  /-- FLUSHED (10_state.md R37). -/
  flushed : Nat
  /-- The response port (30_encoding.md R90, R96). -/
  rsp : Response
  /-- The command port, with OMEM (30_encoding.md R91, 20_memory.md R63). -/
  cmd : Transaction
  /-- The model's own counter of free values drawn (log entry 7). -/
  draws : Nat
deriving DecidableEq, Repr

/-- The block: one unit of each kind, and the commands its hosts will issue, in the order of issue (log entry 1). -/
structure State where
  rd : RdUnit
  wr : WrUnit
  host : List HostCommand
deriving DecidableEq, Repr

/-- Why the machine stops with a fault. It never does: every fault of the spec is a response status after which the unit
takes its next command (60_exceptions.md R305, R308), so this type has no constructor. -/
inductive Fault where
deriving DecidableEq, Repr

/-- Why the model gives a step no meaning. -/
inductive Refusal where
  /-- Raised by an arm of `exec` that has no meaning yet. Safe: the model stops. No arm is left that raises it. -/
  | notModelled (mnemonic : String)
  /-- Raised by the WR array and string commands when OMEM holds an item of the other kind. The spec says that such an item
  "cannot be presented" (45_wr_scalars_arrays.md R229) and gives it no effect. Safe: the model stops. Log entry 11. -/
  | omemItemKind
deriving DecidableEq, Repr

/-! ## Construction, the reset of this hardware (70_reset_and_hazards.md R330) -/

/-- The response port before the first response (log entry 5). -/
def Response.none : Response := ⟨.ok, 0#64, 0#4, 0⟩

/-- The command port before the first command (log entry 5). -/
def Transaction.none : Transaction := ⟨0#16, 0#64, 0#64, []⟩

/-- Unit RD after construction over the source `src` (10_state.md R40). The mark registers and the snapshot, which R40
leaves unspecified, are zero (log entry 4). -/
def RdUnit.construct (ord : BitOrder) (src : List Byte) : RdUnit where
  bitOrder := ord
  src := src
  srcPos := 0
  bitBuf := 0#8
  bitCnt := 0#4
  byteCnt := 0#64
  detLim := false
  markValid := false
  markPos := 0
  markLim := 0#64
  snapBitBuf := 0#8
  snapBitCnt := 0#4
  snapByteCnt := 0#64
  rmem := []
  rsp := .none
  cmd := .none
  draws := 0

/-- Unit WR after construction over an empty sink (10_state.md R40). -/
def WrUnit.construct (ord : BitOrder) : WrUnit where
  bitOrder := ord
  snk := []
  bitBuf := 0#8
  bitCnt := 0#4
  byteCnt := 0#64
  closed := false
  flushed := 0
  rsp := .none
  cmd := .none
  draws := 0

/-- The block after construction with the given bit orders and source, no command issued yet
(70_reset_and_hazards.md R330). -/
def State.construct (rdOrd wrOrd : BitOrder) (src : List Byte) : State where
  rd := .construct rdOrd src
  wr := .construct wrOrd
  host := []

/-- The block after construction with no strap given, which is LSB0 (10_state.md R40), and an empty source
(log entry 3). -/
def State.reset : State := .construct .lsb0 .lsb0 []

/-! ## Named updates -/

/-- Write BITBUF and BITCNT. -/
def RdUnit.setBuffer (u : RdUnit) (b : BitVec 8) (c : BitVec 4) : RdUnit := { u with bitBuf := b, bitCnt := c }
/-- Write BYTECNT. -/
def RdUnit.setByteCnt (u : RdUnit) (c : BitVec 64) : RdUnit := { u with byteCnt := c }
/-- Write SRCPOS. -/
def RdUnit.setSrcPos (u : RdUnit) (p : Nat) : RdUnit := { u with srcPos := p }
/-- Write DETLIM. -/
def RdUnit.setDetLim (u : RdUnit) (b : Bool) : RdUnit := { u with detLim := b }
/-- Write MARKVALID, MARKPOS and MARKLIM. -/
def RdUnit.setMark (u : RdUnit) (v : Bool) (p : Nat) (l : BitVec 64) : RdUnit :=
  { u with markValid := v, markPos := p, markLim := l }
/-- Write the three snapshot registers. -/
def RdUnit.setSnap (u : RdUnit) (b : BitVec 8) (c : BitVec 4) (n : BitVec 64) : RdUnit :=
  { u with snapBitBuf := b, snapBitCnt := c, snapByteCnt := n }
/-- Write RMEM. -/
def RdUnit.setRmem (u : RdUnit) (xs : List Item) : RdUnit := { u with rmem := xs }
/-- Return a response. -/
def RdUnit.respond (u : RdUnit) (r : Response) : RdUnit := { u with rsp := r }
/-- Write the command port. -/
def RdUnit.setCmd (u : RdUnit) (tx : Transaction) : RdUnit := { u with cmd := tx }
/-- Write the model's counter of free values. -/
def RdUnit.setDraws (u : RdUnit) (n : Nat) : RdUnit := { u with draws := n }

/-- Write SNK. -/
def WrUnit.setSnk (u : WrUnit) (xs : List Byte) : WrUnit := { u with snk := xs }
/-- Write BITBUF and BITCNT. -/
def WrUnit.setBuffer (u : WrUnit) (b : BitVec 8) (c : BitVec 4) : WrUnit := { u with bitBuf := b, bitCnt := c }
/-- Write BYTECNT. -/
def WrUnit.setByteCnt (u : WrUnit) (c : BitVec 64) : WrUnit := { u with byteCnt := c }
/-- Write CLOSED. -/
def WrUnit.setClosed (u : WrUnit) (b : Bool) : WrUnit := { u with closed := b }
/-- Write FLUSHED. -/
def WrUnit.setFlushed (u : WrUnit) (n : Nat) : WrUnit := { u with flushed := n }
/-- Return a response. -/
def WrUnit.respond (u : WrUnit) (r : Response) : WrUnit := { u with rsp := r }
/-- Write the command port. -/
def WrUnit.setCmd (u : WrUnit) (tx : Transaction) : WrUnit := { u with cmd := tx }
/-- Write the model's counter of free values. -/
def WrUnit.setDraws (u : WrUnit) (n : Nat) : WrUnit := { u with draws := n }

/-- Write unit RD. -/
def State.withRd (s : State) (u : RdUnit) : State := { s with rd := u }
/-- Write unit WR. -/
def State.withWr (s : State) (u : WrUnit) : State := { s with wr := u }
/-- Write the commands still to be issued. -/
def State.withHost (s : State) (cs : List HostCommand) : State := { s with host := cs }

end Sys2Proof.Machine
end

