-- ==== Sys2Proof/Machine/Operands.lean ====
section
/-! DEFINITION. Operand forms and value helpers: W, A, L and OMEM as the commands read them, the bit-reversal and bit-order
transformer, byte order, lane extension, status codes. -/

namespace Sys2Proof.Machine

/-! ## Bits and bit order -/

/-- One bit of value `b` at position `k` of a byte. -/
def bitAt (b : Bool) (k : Nat) : Byte := if b then 1#8 <<< k else 0#8

/-- `rev_n(v, n)` for n in 1..8: bit i of the result is bit n-1-i of `v`, zero at and above n (00_scope.md R10). -/
def revN (v : Byte) (n : Nat) : Byte :=
  (List.range n).foldl (fun r i => r ||| bitAt (v.getLsbD (n - 1 - i)) i) 0#8

/-- `rev8(b)` (00_scope.md R10). -/
def rev8 (b : Byte) : Byte := revN b 8

/-- The bit-order transformer T (20_memory.md R64). -/
def transform (o : BitOrder) (b : Byte) : Byte :=
  match o with
  | .lsb0 => b
  | .msb0 => rev8 b

/-- The strap code of a bit order (10_state.md R27). -/
def bitOrderCode : BitOrder → BitVec 2
  | .lsb0 => 0b00#2
  | .msb0 => 0b01#2

/-- The bit order of a strap code; the reserved codes are refused (10_state.md R27, 70_reset_and_hazards.md R331). -/
def bitOrderOfStrap (c : BitVec 2) : Option BitOrder :=
  if c = 0b00#2 then some .lsb0 else if c = 0b01#2 then some .msb0 else none

/-- Construction from the two straps: none where a strap is reserved (70_reset_and_hazards.md R330, R331). -/
def constructStrapped (rdStrap wrStrap : BitVec 2) (src : List Byte) : Option State :=
  match bitOrderOfStrap rdStrap, bitOrderOfStrap wrStrap with
  | some r, some w => some (State.construct r w src)
  | _, _ => none

/-! ## Responses -/

/-- The code of ST (30_encoding.md R96). -/
def statusCode : Status → BitVec 3
  | .ok => 0#3
  | .eof => 1#3
  | .endOfData => 2#3
  | .invalidArgument => 3#3
  | .arraySizeExceeded => 4#3
  | .malformedWireData => 5#3
  | .illegalCommand => 6#3
  | .illegalState => 7#3

/-- The status a fault responds with (60_exceptions.md R301). -/
def causeStatus : Cause → Status
  | .endOfData => .endOfData
  | .invalidArgument => .invalidArgument
  | .arraySizeExceeded => .arraySizeExceeded
  | .malformedWireData _ => .malformedWireData
  | .illegalCommand => .illegalCommand
  | .illegalState => .illegalState

/-- The response of a completed command that returns the value `v`; NB and LEN are 0 (30_encoding.md R96). -/
def okResponse (v : Lane) : Response := ⟨.ok, v, 0#4, 0⟩

/-- The response of a completed RD.BITS: the value and the number of bits produced (40_rd_bits.md R127). -/
def bitsResponse (v : Byte) (nb : Nat) : Response := ⟨.ok, v.setWidth 64, BitVec.ofNat 4 nb, 0⟩

/-- The EOF response of RD.BITS (40_rd_bits.md R127). -/
def eofResponse : Response := ⟨.eof, BitVec.allOnes 64, 0#4, 0⟩

/-- The response of a completed array read that left `n` items in RMEM (42_rd_arrays.md R161). -/
def arrayResponse (n : Nat) : Response := ⟨.ok, BitVec.ofNat 64 n, 0#4, n⟩

/-! ## The field W and the operands A and L -/

/-- The legal BitWidth values (30_encoding.md R93). -/
def widthLegal (w : Nat) : Bool := 1 ≤ w && w ≤ 8

/-- A Boolean operand or Boolean item (30_encoding.md R93, 45_wr_scalars_arrays.md R232). -/
def laneTrue (v : Lane) : Bool := v ≠ 0#64

/-- The byte a Boolean is written as (45_wr_scalars_arrays.md R222). -/
def boolByte (b : Bool) : Byte := if b then 0x01#8 else 0x00#8

/-- The value a byte read as a Boolean has (41_rd_scalars.md R143). -/
def byteBool (v : Byte) : Lane := if v ≠ 0#8 then 1#64 else 0#64

/-- A one-bit register as a value lane. -/
def flagLane (b : Bool) : Lane := if b then 1#64 else 0#64

/-- Bits 7:0 of a lane. -/
def low8 (v : Lane) : Byte := v.extractLsb' 0 8
/-- Bits 15:0 of a lane. -/
def low16 (v : Lane) : BitVec 16 := v.extractLsb' 0 16
/-- Bits 31:0 of a lane. -/
def low32 (v : Lane) : BitVec 32 := v.extractLsb' 0 32

/-! ## Byte order (20_memory.md R66) -/

/-- A 16-bit value from its two bytes in the order transferred (41_rd_scalars.md R141). -/
def join16 (bo : ByteOrder) (x y : BitVec 8) : BitVec 16 :=
  match bo with
  | .big => x ++ y
  | .little => y ++ x

/-- A 32-bit value from its two halves in the order transferred (41_rd_scalars.md R141). -/
def join32 (bo : ByteOrder) (x y : BitVec 16) : BitVec 32 :=
  match bo with
  | .big => x ++ y
  | .little => y ++ x

/-- A 64-bit value from its two halves in the order transferred (41_rd_scalars.md R141). -/
def join64 (bo : ByteOrder) (x y : BitVec 32) : BitVec 64 :=
  match bo with
  | .big => x ++ y
  | .little => y ++ x

/-- The byte of `n` with weight 256^j: bits 8j+7 to 8j (47_strings.md R263). -/
def lenByte (n j : Nat) : Byte := BitVec.ofNat 8 (n / 256 ^ j)

/-- The length bytes of `n` in the order transferred (`WrLen`, 47_strings.md R263). -/
def lenBytes (n k : Nat) (bo : ByteOrder) : List Byte :=
  match bo with
  | .big => (List.range k).reverse.map (lenByte n)
  | .little => (List.range k).map (lenByte n)

/-! ## Items -/

/-- The number of items, LEN or OLEN, as an operand compares it (mathematical integers, 42_rd_arrays.md R179). -/
def itemCount (xs : List Item) : Int := xs.length

/-- OMEM as numeric lanes; none where an item is a string item (45_wr_scalars_arrays.md R229). -/
def numericItems : List Item → Option (List Lane)
  | [] => some []
  | .num v :: xs => (numericItems xs).map (v :: ·)
  | .str _ :: _ => none

/-- OMEM as string items; none where an item is numeric (47_strings.md R267, R269). -/
def stringItems : List Item → Option (List StrItem)
  | [] => some []
  | .str v :: xs => (stringItems xs).map (v :: ·)
  | .num _ :: _ => none

/-- The longest payload the encoder has a row for (47_strings.md R262). -/
def maxPayload : Nat := 0xFFFFFFFF

/-- The payload is longer than any row of the encoder takes (47_strings.md R262, R267). -/
def payloadTooLong : StrItem → Bool
  | .absent => false
  | .present p => maxPayload < p.length

/-- RSP.VAL of RD.STRING: -1 for an absent string, else the payload length (47_strings.md R266). -/
def stringVal : StrItem → Lane
  | .absent => BitVec.allOnes 64
  | .present p => BitVec.ofNat 64 p.length

end Sys2Proof.Machine
end

