-- ==== Sys2Proof/Machine/Flags.lean ====
section
/-! DEFINITION. The block's only flag, RD.DETLIM, and the array-size limiter that sets it (10_state.md R33,
42_rd_arrays.md R162 to R164). -/

namespace Sys2Proof.Machine

/-- What the limiter says after an item has been read. -/
inductive LimiterVerdict where
  /-- Go on. -/
  | proceed
  /-- Hard cap breached: raise ArraySizeExceeded. -/
  | exceeded
  /-- Soft cap reached: set DETLIM and stop. -/
  | softStop
deriving DecidableEq, Repr

/-- The limiter value `l` consulted after the `n`-th item: 0 never interrupts, a positive value is a hard cap, a negative
one a soft cap of `-l`, all on mathematical integers (42_rd_arrays.md R161, R162, R164, R179). -/
def limiterVerdict (l : Int) (n : Nat) : LimiterVerdict :=
  if 0 < l ∧ l < n then .exceeded
  else if l < 0 ∧ -l ≤ n then .softStop
  else .proceed

/-- DETLIM is cleared at the start of every array read in until-exhaustion mode (42_rd_arrays.md R163). -/
def clearDetLim (u : RdUnit) : RdUnit := u.setDetLim false

/-- DETLIM is set when such a read stops at a soft cap (42_rd_arrays.md R164). -/
def markSoftStop (u : RdUnit) : RdUnit := u.setDetLim true

/-- RD.SETDL writes DETLIM from the Boolean operand A (48_status.md R287). -/
def writeDetLim (a : Lane) (u : RdUnit) : RdUnit := u.setDetLim (laneTrue a)

end Sys2Proof.Machine
end

