-- ==== Sys2Proof/Machine/Ops.lean ====
section
/-! DEFINITION. The shared operations of both units: the streams, the bit transfers, the composed reads and writes, the
array template, the string codec, alignment, and the one operation of each unit that takes a fault. Every meaning is
written over these. -/

namespace Sys2Proof.Machine

/-! ## Taking a fault (60_exceptions.md R305, R306)

A fault ends the command where it stands: what was done stays done, nothing is saved, no control is transferred, and the
response carries the status. There is no return from it (R308). VAL (but VAL[7:0] of MalformedWireData), NB, LEN and
RMEM are free values (30_encoding.md R96, log entry 7). -/

/-- RSP.VAL after a fault: the free value `v`, with the offending first byte in bits 7:0 for MalformedWireData
(30_encoding.md R96). -/
def faultVal (c : Cause) (v : Lane) : Lane :=
  match c with
  | .malformedWireData p => v.extractLsb' 8 56 ++ p
  | _ => v

/-- Unit RD takes a fault. -/
def rdRaise (c : Cause) (u : RdUnit) : RdUnit :=
  ((u.respond ⟨causeStatus c, faultVal c (Config.rdFaultVal u.draws), Config.rdFaultNb u.draws,
      Config.rdFaultLen u.draws⟩).setRmem (Config.rdOpenRmem u.draws)).setDraws (u.draws + 1)

/-- Unit WR takes a fault. RMEM belongs to RD and is not touched. -/
def wrRaise (c : Cause) (u : WrUnit) : WrUnit :=
  (u.respond ⟨causeStatus c, faultVal c (Config.wrFaultVal u.draws), Config.wrFaultNb u.draws,
      Config.wrFaultLen u.draws⟩).setDraws (u.draws + 1)

/-- What a helper of unit RD comes to: a value and the unit after it, or a `raise` and the unit as it was reached
(00_scope.md R13). -/
inductive RdResult (α : Type) where
  | ok (a : α) (u : RdUnit)
  | raise (c : Cause) (u : RdUnit)

/-- Go on with the value; a helper that raises ends the command that called it (00_scope.md R13). -/
def RdResult.bind {α β : Type} (r : RdResult α) (k : α → RdUnit → RdResult β) : RdResult β :=
  match r with
  | .ok a u => k a u
  | .raise c u => .raise c u

/-- Apply a function to the value. -/
def RdResult.map {α β : Type} (f : α → β) (r : RdResult α) : RdResult β :=
  r.bind fun a u => .ok (f a) u

/-- The unit reached. -/
def RdResult.reached {α : Type} : RdResult α → RdUnit
  | .ok _ u => u
  | .raise _ u => u

/-- End a command of unit RD: take the fault, or finish with the value. -/
def rdEnd {α : Type} (r : RdResult α) (finish : α → RdUnit → RdUnit) : RdUnit :=
  match r with
  | .ok a u => finish a u
  | .raise c u => rdRaise c u

/-! ## The byte source (00_scope.md R12, 40_rd_bits.md R121, R122) -/

/-- `SrcNext()`: none is EOS (00_scope.md R12, 20_memory.md R60). -/
def srcNext (u : RdUnit) : Option Byte × RdUnit :=
  match u.src[u.srcPos]? with
  | none => (none, u)
  | some b => (some b, u.setSrcPos (u.srcPos + 1))

/-- `Load()`: the next source byte through the bit-order transformer (40_rd_bits.md R121). -/
def load (u : RdUnit) : Option Byte × RdUnit :=
  match srcNext u with
  | (none, u') => (none, u')
  | (some b, u') => (some (transform u.bitOrder b), u')

/-- `HasData()` (40_rd_bits.md R122). -/
def hasData (u : RdUnit) : Bool := 0#4 < u.bitCnt || u.srcPos < u.src.length

/-- The number of bits that can still be read: the buffered ones and those of the bytes not yet loaded. -/
def pendingBits (u : RdUnit) : Nat := u.bitCnt.toNat + 8 * (u.src.length - u.srcPos)

/-- RD.BYTECNT goes up by one, modulo 2^64 (10_state.md R31). -/
def countByte (u : RdUnit) : RdUnit := u.setByteCnt (u.byteCnt + 1#64)

/-- Empty the bit buffer. -/
def emptyBuffer (u : RdUnit) : RdUnit := u.setBuffer 0#8 0#4

/-! ## Bit reads (40_rd_bits.md R120 to R126) -/

/-- What `ReadBits` answers (40_rd_bits.md R120): EOF, or `nb` bits in the low end of `v`. -/
inductive BitsRead where
  | eof
  | got (v : Byte) (nb : Nat)
deriving DecidableEq, Repr

/-- The fast path (40_rd_bits.md R123). -/
def readFast (u : RdUnit) : BitsRead × RdUnit :=
  match load u with
  | (none, u') => (.eof, u')
  | (some m, u') => (.got m 8, countByte u')

/-- The shortcut (40_rd_bits.md R124). -/
def readShortcut (w : Nat) (u : RdUnit) : BitsRead × RdUnit :=
  (.got u.bitBuf w, countByte (emptyBuffer u))

/-- The head of the general loop: if the buffer is empty, count the byte it held before this call (`had`) and load the
next. The Boolean is false at the end of the source (40_rd_bits.md R125). -/
def refill (had : Bool) (u : RdUnit) : Bool × RdUnit :=
  if u.bitCnt = 0#4 then
    match load (if had then countByte u else u) with
    | (none, u') => (false, u')
    | (some m, u') => (true, u'.setBuffer m 8#4)
  else (true, u)

/-- Bit 0 of the buffer leaves it (40_rd_bits.md R125). -/
def shiftOut (u : RdUnit) : RdUnit := u.setBuffer (u.bitBuf >>> 1) (u.bitCnt - 1#4)

/-- The general loop with `n` bits still to produce, `k` produced so far and gathered in `v` (40_rd_bits.md R125; the k-th
bit lands at bit k, R126). -/
def readLoop : Nat → Bool → Nat → Byte → RdUnit → BitsRead × RdUnit
  | 0, _, k, v, u => (.got v k, u)
  | n + 1, had, k, v, u =>
    match refill had u with
    | (false, u') => (if k = 0 then .eof else .got v k, u')
    | (true, u') => readLoop n had (k + 1) (v ||| bitAt (u'.bitBuf.getLsbD 0) k) (shiftOut u')

/-- The general path (40_rd_bits.md R125). -/
def readGeneral (w : Nat) (u : RdUnit) : BitsRead × RdUnit := readLoop w (u.bitCnt != 0#4) 0 0#8 u

/-- `ReadBits(w)`: the three paths in their order (40_rd_bits.md R120). -/
def readBits (w : Nat) (u : RdUnit) : BitsRead × RdUnit :=
  if u.bitCnt = 0#4 ∧ w = 8 then readFast u
  else if w = u.bitCnt.toNat then readShortcut w u
  else readGeneral w u

/-! ## Composed reads (41_rd_scalars.md R140, R141) -/

/-- `RdByte()`: eight bits, or EndOfData (41_rd_scalars.md R140). -/
def rdByte (u : RdUnit) : RdResult Byte :=
  match readBits 8 u with
  | (.eof, u') => .raise .endOfData u'
  | (.got v nb, u') => if nb < 8 then .raise .endOfData u' else .ok v u'

/-- `RdU16(bo)` (41_rd_scalars.md R141). -/
def rdU16 (bo : ByteOrder) (u : RdUnit) : RdResult (BitVec 16) :=
  (rdByte u).bind fun x u => (rdByte u).map (join16 bo x)

/-- `RdU32(bo)` (41_rd_scalars.md R141). -/
def rdU32 (bo : ByteOrder) (u : RdUnit) : RdResult (BitVec 32) :=
  (rdU16 bo u).bind fun x u => (rdU16 bo u).map (join32 bo x)

/-- `RdU64(bo)` (41_rd_scalars.md R141). -/
def rdU64 (bo : ByteOrder) (u : RdUnit) : RdResult (BitVec 64) :=
  (rdU32 bo u).bind fun x u => (rdU32 bo u).map (join64 bo x)

/-- A run of `n` bytes in stream order: the payload of a string (47_strings.md R265). -/
def rdBytes : Nat → RdUnit → RdResult (List Byte)
  | 0, u => .ok [] u
  | n + 1, u => (rdByte u).bind fun b u => (rdBytes n u).map (b :: ·)

/-! ## The array-read template (42_rd_arrays.md R160 to R164) -/

/-- Fixed mode: `n` items (42_rd_arrays.md R161). -/
def readFixed (item : RdUnit → RdResult Item) : Nat → RdUnit → RdResult (List Item)
  | 0, u => .ok [] u
  | n + 1, u => (item u).bind fun x u => (readFixed item n u).map (x :: ·)

/-- The loop of until-exhaustion mode with the items read so far (42_rd_arrays.md R161). Every item takes at least one bit, so
`fuel`, the number of bits pending, never runs out while there is data. -/
def readUntil (item : RdUnit → RdResult Item) (l : Int) : Nat → List Item → RdUnit → RdResult (List Item)
  | 0, items, u => .ok items u
  | fuel + 1, items, u =>
    if hasData u then
      (item u).bind fun x u =>
        match limiterVerdict l (items.length + 1) with
        | .exceeded => .raise .arraySizeExceeded u
        | .softStop => .ok (items ++ [x]) (markSoftStop u)
        | .proceed => readUntil item l fuel (items ++ [x]) u
    else .ok items u

/-- `ReadArray(ReadItem, A, L)`: the mode is chosen by the sign of A (42_rd_arrays.md R160, R161). -/
def readArray (item : RdUnit → RdResult Item) (a l : Lane) (u : RdUnit) : RdResult (List Item) :=
  if 0 ≤ a.toInt then readFixed item a.toInt.toNat u
  else readUntil item l.toInt (pendingBits u) [] (clearDetLim u)

/-- The element of RD.BITSARR: a short last group is an item, EOF is EndOfData (42_rd_arrays.md R165, R166). -/
def bitsItem (w : Nat) (u : RdUnit) : RdResult Item :=
  match readBits w u with
  | (.eof, u') => .raise .endOfData u'
  | (.got v _, u') => .ok (.num (v.setWidth 64)) u'

/-! ## The string decoder (47_strings.md R263 to R265) -/

/-- One length byte `c` joined to the `j` length bytes composed so far (47_strings.md R263). -/
def lenStep (bo : ByteOrder) (j n : Nat) (c : Byte) : Nat :=
  match bo with
  | .big => n * 256 + c.toNat
  | .little => n + c.toNat * 256 ^ j

/-- The loop of `RdLen(k, bo)` with `k` length bytes still to read, `j` read and `n` composed so far
(47_strings.md R263). -/
def rdLenLoop (bo : ByteOrder) : Nat → Nat → Nat → RdUnit → RdResult Nat
  | 0, _, n, u => .ok n u
  | k + 1, j, n, u => (rdByte u).bind fun c u => rdLenLoop bo k (j + 1) (lenStep bo j n c) u

/-- `RdLen(k, bo)` (47_strings.md R263). -/
def rdLen (k : Nat) (bo : ByteOrder) (u : RdUnit) : RdResult Nat := rdLenLoop bo k 0 0 u

/-- What the first byte of a string says (47_strings.md R262, R264). -/
inductive FirstByte where
  | absent
  | short (n : Nat)
  | long (k : Nat)
  | malformed
deriving DecidableEq, Repr

/-- The dispatch on the first byte (47_strings.md R264). -/
def firstByte (p : Byte) : FirstByte :=
  if p = 0xFF#8 then .absent
  else if p < 0x80#8 then .short p.toNat
  else if p = 0x81#8 then .long 1
  else if p = 0x82#8 then .long 2
  else if p = 0x83#8 then .long 3
  else if p = 0x84#8 then .long 4
  else .malformed

/-- The payload of `n` bytes as a string item (47_strings.md R264, R265). -/
def rdPayload (n : Nat) (u : RdUnit) : RdResult StrItem := (rdBytes n u).map .present

/-- `DecodeString(bo)` (47_strings.md R264). -/
def decodeString (bo : ByteOrder) (u : RdUnit) : RdResult StrItem :=
  (rdByte u).bind fun p u =>
    match firstByte p with
    | .absent => .ok .absent u
    | .short n => rdPayload n u
    | .long k => (rdLen k bo u).bind rdPayload
    | .malformed => .raise (.malformedWireData p) u

/-! ## Reader alignment and mark (43_rd_align_mark.md R191 to R196) -/

/-- `AlignByte()` (43_rd_align_mark.md R191). -/
def alignByte (u : RdUnit) : RdUnit :=
  if 0#4 < u.bitCnt ∧ u.bitCnt < 8#4 then emptyBuffer (countByte u) else u

/-- The skip loop of RD.ALIGN for n = `a` (43_rd_align_mark.md R192). `fuel` is the number of source bytes left: with none
left the next `SrcNext()` is EOS. -/
def skipBytes (a : Nat) : Nat → RdUnit → RdResult Unit
  | 0, u => if u.byteCnt.toNat % a = 0 then .ok () u else .raise .endOfData u
  | fuel + 1, u =>
    if u.byteCnt.toNat % a = 0 then .ok () u
    else match srcNext u with
      | (none, u') => .raise .endOfData u'
      | (some _, u') => skipBytes a fuel (countByte u')

/-- RD.ALIGN's loop from the unit as it stands. -/
def skipToMultiple (a : Nat) (u : RdUnit) : RdResult Unit := skipBytes a (u.src.length - u.srcPos) u

/-- Set the mark and take the snapshot (43_rd_align_mark.md R195). -/
def takeMark (limit : Lane) (u : RdUnit) : RdUnit :=
  (u.setMark true u.srcPos limit).setSnap u.bitBuf u.bitCnt u.byteCnt

/-- More than MARKLIM source bytes were consumed since the mark (43_rd_align_mark.md R194, R196). -/
def markLapsed (u : RdUnit) : Bool := u.markLim.toNat < u.srcPos - u.markPos

/-- Restore the source position and the snapshot together (43_rd_align_mark.md R196). -/
def restoreMark (u : RdUnit) : RdUnit :=
  ((u.setSrcPos u.markPos).setBuffer u.snapBitBuf u.snapBitCnt).setByteCnt u.snapByteCnt

/-- The effect of RD.RSTCNT for a value of RSTCNT_CLEARS_BITS (48_status.md R282). -/
def rdResetCounter (clears : Bool) (u : RdUnit) : RdUnit :=
  if clears then emptyBuffer (u.setByteCnt 0#64) else u.setByteCnt 0#64

/-! ## The byte sink and bit writes (00_scope.md R12, 44_wr_bits.md R211, R212) -/

/-- `SinkPut(b)` (00_scope.md R12, 20_memory.md R61). -/
def sinkPut (b : Byte) (u : WrUnit) : WrUnit := u.setSnk (u.snk ++ [b])

/-- `Emit(b)` (44_wr_bits.md R211); BYTECNT wraps modulo 2^64 (10_state.md R31). -/
def emit (b : Byte) (u : WrUnit) : WrUnit :=
  (sinkPut (transform u.bitOrder b) u).setByteCnt (u.byteCnt + 1#64)

/-- One turn of the general loop: a bit goes in above the buffered ones, and a full buffer is emitted
(44_wr_bits.md R212). -/
def shiftIn (b : Bool) (u : WrUnit) : WrUnit :=
  let full := u.setBuffer (u.bitBuf ||| bitAt b u.bitCnt.toNat) (u.bitCnt + 1#4)
  if full.bitCnt = 8#4 then (emit full.bitBuf full).setBuffer 0#8 0#4 else full

/-- The general loop over the bits of a value, bit 0 first (44_wr_bits.md R212). -/
def shiftInBits : List Bool → WrUnit → WrUnit
  | [], u => u
  | b :: bs, u => shiftInBits bs (shiftIn b u)

/-- The bits 0 to w-1 of a byte, bit 0 first. -/
def lowBits (w : Nat) (v : Byte) : List Bool := (List.range w).map v.getLsbD

/-- `WriteBits(v, w)` (44_wr_bits.md R212). -/
def writeBits (w : Nat) (v : Byte) (u : WrUnit) : WrUnit :=
  if u.bitCnt = 0#4 ∧ w = 8 then emit v u else shiftInBits (lowBits w v) u

/-! ## Composed writes (45_wr_scalars_arrays.md R220) -/

/-- `WrByte(b)` (45_wr_scalars_arrays.md R220). -/
def wrByte (b : Byte) (u : WrUnit) : WrUnit := writeBits 8 b u

/-- `WrU16(v, bo)` (45_wr_scalars_arrays.md R220). -/
def wrU16 (bo : ByteOrder) (v : BitVec 16) (u : WrUnit) : WrUnit :=
  match bo with
  | .big => wrByte (v.extractLsb' 0 8) (wrByte (v.extractLsb' 8 8) u)
  | .little => wrByte (v.extractLsb' 8 8) (wrByte (v.extractLsb' 0 8) u)

/-- `WrU32(v, bo)` (45_wr_scalars_arrays.md R220). -/
def wrU32 (bo : ByteOrder) (v : BitVec 32) (u : WrUnit) : WrUnit :=
  match bo with
  | .big => wrU16 bo (v.extractLsb' 0 16) (wrU16 bo (v.extractLsb' 16 16) u)
  | .little => wrU16 bo (v.extractLsb' 16 16) (wrU16 bo (v.extractLsb' 0 16) u)

/-- `WrU64(v, bo)` (45_wr_scalars_arrays.md R220). -/
def wrU64 (bo : ByteOrder) (v : BitVec 64) (u : WrUnit) : WrUnit :=
  match bo with
  | .big => wrU32 bo (v.extractLsb' 0 32) (wrU32 bo (v.extractLsb' 32 32) u)
  | .little => wrU32 bo (v.extractLsb' 32 32) (wrU32 bo (v.extractLsb' 0 32) u)

/-- Write items one after the other, in index order (45_wr_scalars_arrays.md R229). -/
def writeAll {α : Type} (item : α → WrUnit → WrUnit) : List α → WrUnit → WrUnit
  | [], u => u
  | x :: xs, u => writeAll item xs (item x u)

/-- The items of WR.BYTES in the order written: the first `n`, last first for LITTLE_ENDIAN
(45_wr_scalars_arrays.md R231). -/
def bytesOrder (bo : ByteOrder) (n : Nat) (xs : List Lane) : List Lane :=
  match bo with
  | .big => xs.take n
  | .little => (xs.take n).reverse

/-! ## The string encoder (47_strings.md R262, R263, R267) -/

/-- The first byte and the length bytes of a payload of `n` bytes (47_strings.md R262, R267). -/
def headBytes (n : Nat) (bo : ByteOrder) : List Byte :=
  if n < 0x80 then [BitVec.ofNat 8 n]
  else if n ≤ 0xFF then 0x81#8 :: lenBytes n 1 bo
  else if n ≤ 0xFFFF then 0x82#8 :: lenBytes n 2 bo
  else if n ≤ 0xFFFFFF then 0x83#8 :: lenBytes n 3 bo
  else 0x84#8 :: lenBytes n 4 bo

/-- `EncodeString(s, bo)` after its length check (47_strings.md R267). -/
def encodeString (bo : ByteOrder) (s : StrItem) (u : WrUnit) : WrUnit :=
  match s with
  | .absent => wrByte 0xFF#8 u
  | .present p => writeAll wrByte p (writeAll wrByte (headBytes p.length bo) u)

/-! ## Writer alignment, flush and close (46_wr_align_flush.md R250 to R253) -/

/-- `PadByte()` (46_wr_align_flush.md R250). -/
def padByte (u : WrUnit) : WrUnit :=
  if 0#4 < u.bitCnt then (emit u.bitBuf u).setBuffer 0#8 0#4 else u

/-- The zero bytes of WR.ALIGN for n = `a` (46_wr_align_flush.md R251). `fuel` bounds the loop; BYTECNT meets a multiple of
`a` (0 where it wraps) in fewer than `a` turns, so `a` is enough. -/
def padZeros (a : Nat) : Nat → WrUnit → WrUnit
  | 0, u => u
  | fuel + 1, u => if u.byteCnt.toNat % a = 0 then u else padZeros a fuel (emit 0x00#8 u)

/-- `FLUSHED <- len(SNK)` (46_wr_align_flush.md R252). -/
def publish (u : WrUnit) : WrUnit := u.setFlushed u.snk.length

/-- The effect of WR.RSTCNT for a value of RSTCNT_CLEARS_BITS (48_status.md R289). -/
def wrResetCounter (clears : Bool) (u : WrUnit) : WrUnit :=
  if clears then (u.setByteCnt 0#64).setBuffer 0#8 0#4 else u.setByteCnt 0#64

/-! ## The shape of a command -/

/-- A command of unit RD: it changes unit RD alone. -/
def rdCommand (body : RdUnit → RdUnit) (s : State) : Host.Outcome State Fault Refusal :=
  .next (s.withRd (body s.rd))

/-- A reading command that returns one value (41_rd_scalars.md). -/
def rdScalar (read : RdUnit → RdResult Lane) (s : State) : Host.Outcome State Fault Refusal :=
  rdCommand (fun u => rdEnd (read u) fun v u => u.respond (okResponse v)) s

/-- An array read with its element reader; `arrange` is the order in which the items are left in RMEM
(42_rd_arrays.md R161, R167). -/
def rdArray (item : RdUnit → RdResult Item) (arrange : List Item → List Item) (s : State) :
    Host.Outcome State Fault Refusal :=
  rdCommand (fun u => rdEnd (readArray item u.cmd.a u.cmd.l u) fun items u =>
    (u.setRmem (arrange items)).respond (arrayResponse items.length)) s

/-- A command of unit WR that a closed unit refuses with IllegalState, before its own checks (30_encoding.md R95 step 6,
46_wr_align_flush.md R254). -/
def wrCommand (body : WrUnit → WrUnit) (s : State) : Host.Outcome State Fault Refusal :=
  .next (s.withWr (if s.wr.closed then wrRaise .illegalState s.wr else body s.wr))

/-- A writing command with no argument check, which returns nothing (45_wr_scalars_arrays.md R221 to R228). -/
def wrScalar (write : Lane → WrUnit → WrUnit) (s : State) : Host.Outcome State Fault Refusal :=
  wrCommand (fun u => (write u.cmd.a u).respond (okResponse 0#64)) s

/-- A command of unit WR over OMEM: the closed check, its own argument check, then its effect on the items as `read` takes
them. OMEM with an item of the other kind cannot be presented (45_wr_scalars_arrays.md R229) and is refused
(log entry 11). -/
def wrOmemCommand {α : Type} (check : WrUnit → Bool) (read : List Item → Option (List α))
    (body : List α → WrUnit → WrUnit) (s : State) : Host.Outcome State Fault Refusal :=
  if s.wr.closed then .next (s.withWr (wrRaise .illegalState s.wr))
  else if check s.wr then
    match read s.wr.cmd.omem with
    | none => .refused .omemItemKind
    | some xs => .next (s.withWr (body xs s.wr))
  else .next (s.withWr (wrRaise .invalidArgument s.wr))

/-- `WriteArray(WriteItem)` for numeric items: all of OMEM, VAL = OLEN (45_wr_scalars_arrays.md R229). -/
def wrArray (item : Lane → WrUnit → WrUnit) (s : State) : Host.Outcome State Fault Refusal :=
  wrOmemCommand (fun _ => true) numericItems
    (fun xs u => (writeAll item xs u).respond (okResponse (BitVec.ofNat 64 xs.length))) s

/-! ## Accepting a command (30_encoding.md R90, R91) -/

/-- The unit that the command word selects: OPC[7], bit 15 (30_encoding.md R92). -/
def unitOfWord (cw : CmdWord) : UnitId := if cw.getLsbD 15 then .wr else .rd

/-- Unit RD takes a transaction from its command port. RMEM was valid until this command was issued (20_memory.md R62), so
what it holds from here on is a free value until the command writes it (log entry 8). -/
def rdAccept (tx : Transaction) (u : RdUnit) : RdUnit :=
  ((u.setCmd tx).setRmem (Config.rdOpenRmem u.draws)).setDraws (u.draws + 1)

/-- Unit WR takes a transaction from its command port. -/
def wrAccept (tx : Transaction) (u : WrUnit) : WrUnit := u.setCmd tx

/-- The unit of the port takes the transaction. -/
def accept (c : HostCommand) (s : State) : State :=
  match c.port with
  | .rd => s.withRd (rdAccept c.tx s.rd)
  | .wr => s.withWr (wrAccept c.tx s.wr)

/-- The unit of the port answers IllegalCommand and changes no other state (30_encoding.md R95, R97). -/
def illegalCommand (p : UnitId) (s : State) : State :=
  match p with
  | .rd => s.withRd (rdRaise .illegalCommand s.rd)
  | .wr => s.withWr (wrRaise .illegalCommand s.wr)

end Sys2Proof.Machine
end

