-- ==== Sys2Proof/Machine/RdAlign.lean ====
section
/-! DEFINITION. Reader alignment, mark and reset (43_rd_align_mark.md). -/

namespace Sys2Proof.Machine

/-- RD.ALIGNBYTE: drop the rest of a partly read byte (43_rd_align_mark.md R191). -/
def execRdAlignbyte (s : State) : Host.Outcome State Fault Refusal :=
  rdCommand (fun u => (alignByte u).respond (okResponse 0#64)) s

/-- RD.ALIGN: skip to a multiple of A bytes (43_rd_align_mark.md R192). -/
def execRdAlign (s : State) : Host.Outcome State Fault Refusal :=
  rdCommand (fun u =>
    if u.cmd.a.toInt ≤ 0 then rdRaise .invalidArgument u
    else rdEnd (skipToMultiple u.cmd.a.toNat (alignByte u)) fun _ u => u.respond (okResponse 0#64)) s

/-- RD.MARK: remember the current bit position (43_rd_align_mark.md R195). -/
def execRdMark (s : State) : Host.Outcome State Fault Refusal :=
  rdCommand (fun u =>
    if u.cmd.a.toInt < 0 then rdRaise .invalidArgument u
    else (takeMark u.cmd.a u).respond (okResponse 0#64)) s

/-- RD.RESET: go back to the mark (43_rd_align_mark.md R196). -/
def execRdReset (s : State) : Host.Outcome State Fault Refusal :=
  rdCommand (fun u =>
    if !u.markValid || markLapsed u then rdRaise .illegalState u
    else (restoreMark u).respond (okResponse 0#64)) s

end Sys2Proof.Machine
end

