-- ==== Sys2Proof/Machine/RdArrays.lean ====
section
/-! DEFINITION. The reader array commands over numeric items (42_rd_arrays.md). -/

namespace Sys2Proof.Machine

/-- LITTLE_ENDIAN leaves the bytes read in reverse order (42_rd_arrays.md R167). -/
def arrangeBytes (bo : ByteOrder) (items : List Item) : List Item :=
  match bo with
  | .big => items
  | .little => items.reverse

/-- RD.BITSARR: array of bit groups; the width is checked before anything else (42_rd_arrays.md R165, R176). -/
def execRdBitsarr (w : Nat) (s : State) : Host.Outcome State Fault Refusal :=
  if widthLegal w then rdArray (bitsItem w) id s else rdCommand (rdRaise .invalidArgument) s

/-- RD.BYTEARR: array of bytes, left in reverse order for LITTLE_ENDIAN (42_rd_arrays.md R167). -/
def execRdBytearr (bo : ByteOrder) (s : State) : Host.Outcome State Fault Refusal :=
  rdArray (fun u => (rdByte u).map fun v => .num (v.setWidth 64)) (arrangeBytes bo) s

/-- RD.BOOLARR: array of Booleans (42_rd_arrays.md R168). -/
def execRdBoolarr (s : State) : Host.Outcome State Fault Refusal :=
  rdArray (fun u => (rdByte u).map fun v => .num (byteBool v)) id s

/-- RD.SHORTARR: array of signed 16-bit values (42_rd_arrays.md R169). -/
def execRdShortarr (bo : ByteOrder) (s : State) : Host.Outcome State Fault Refusal :=
  rdArray (fun u => (rdU16 bo u).map fun v => .num (v.signExtend 64)) id s

/-- RD.USHORTARR: array of unsigned 16-bit values (42_rd_arrays.md R170). -/
def execRdUshortarr (bo : ByteOrder) (s : State) : Host.Outcome State Fault Refusal :=
  rdArray (fun u => (rdU16 bo u).map fun v => .num (v.setWidth 64)) id s

/-- RD.INTARR: array of signed 32-bit values (42_rd_arrays.md R171). -/
def execRdIntarr (bo : ByteOrder) (s : State) : Host.Outcome State Fault Refusal :=
  rdArray (fun u => (rdU32 bo u).map fun v => .num (v.signExtend 64)) id s

/-- RD.UINTARR: array of unsigned 32-bit values (42_rd_arrays.md R172). -/
def execRdUintarr (bo : ByteOrder) (s : State) : Host.Outcome State Fault Refusal :=
  rdArray (fun u => (rdU32 bo u).map fun v => .num (v.setWidth 64)) id s

/-- RD.LONGARR: array of 64-bit values (42_rd_arrays.md R173). -/
def execRdLongarr (bo : ByteOrder) (s : State) : Host.Outcome State Fault Refusal :=
  rdArray (fun u => (rdU64 bo u).map .num) id s

/-- RD.FLOATARR: array of 32-bit floating-point patterns (42_rd_arrays.md R174). -/
def execRdFloatarr (bo : ByteOrder) (s : State) : Host.Outcome State Fault Refusal :=
  rdArray (fun u => (rdU32 bo u).map fun v => .num (v.setWidth 64)) id s

/-- RD.DOUBLEARR: array of 64-bit floating-point patterns (42_rd_arrays.md R175). -/
def execRdDoublearr (bo : ByteOrder) (s : State) : Host.Outcome State Fault Refusal :=
  rdArray (fun u => (rdU64 bo u).map .num) id s

end Sys2Proof.Machine
end

