-- ==== Sys2Proof/Machine/RdBits.lean ====
section
/-! DEFINITION. RD.BITS (40_rd_bits.md). -/

namespace Sys2Proof.Machine

/-- The response of RD.BITS for what `ReadBits` answered (40_rd_bits.md R127). -/
def bitsRespond (r : BitsRead × RdUnit) : RdUnit :=
  match r with
  | (.eof, u) => u.respond eofResponse
  | (.got v nb, u) => u.respond (bitsResponse v nb)

/-- RD.BITS: read a bit field (40_rd_bits.md R127). -/
def execRdBits (w : Nat) (s : State) : Host.Outcome State Fault Refusal :=
  rdCommand (fun u => if widthLegal w then bitsRespond (readBits w u) else rdRaise .invalidArgument u) s

end Sys2Proof.Machine
end

