-- ==== Sys2Proof/Machine/RdScalars.lean ====
section
/-! DEFINITION. The reader scalar commands (41_rd_scalars.md). -/

namespace Sys2Proof.Machine

/-- RD.BYTE: read one byte (41_rd_scalars.md R142). -/
def execRdByte (s : State) : Host.Outcome State Fault Refusal :=
  rdScalar (fun u => (rdByte u).map (·.setWidth 64)) s

/-- RD.BOOL: read one byte as a Boolean (41_rd_scalars.md R143). -/
def execRdBool (s : State) : Host.Outcome State Fault Refusal :=
  rdScalar (fun u => (rdByte u).map byteBool) s

/-- RD.USHORT: read an unsigned 16-bit value (41_rd_scalars.md R144). -/
def execRdUshort (bo : ByteOrder) (s : State) : Host.Outcome State Fault Refusal :=
  rdScalar (fun u => (rdU16 bo u).map (·.setWidth 64)) s

/-- RD.INT: read a signed 32-bit value (41_rd_scalars.md R145). -/
def execRdInt (bo : ByteOrder) (s : State) : Host.Outcome State Fault Refusal :=
  rdScalar (fun u => (rdU32 bo u).map (·.signExtend 64)) s

/-- RD.UINT: read an unsigned 32-bit value (41_rd_scalars.md R146). -/
def execRdUint (bo : ByteOrder) (s : State) : Host.Outcome State Fault Refusal :=
  rdScalar (fun u => (rdU32 bo u).map (·.setWidth 64)) s

/-- RD.LONG: read a 64-bit value (41_rd_scalars.md R147). -/
def execRdLong (bo : ByteOrder) (s : State) : Host.Outcome State Fault Refusal :=
  rdScalar (fun u => rdU64 bo u) s

/-- RD.FLOAT: read a 32-bit floating-point pattern, unchanged (41_rd_scalars.md R148). -/
def execRdFloat (bo : ByteOrder) (s : State) : Host.Outcome State Fault Refusal :=
  rdScalar (fun u => (rdU32 bo u).map (·.setWidth 64)) s

/-- RD.DOUBLE: read a 64-bit floating-point pattern, unchanged (41_rd_scalars.md R149). -/
def execRdDouble (bo : ByteOrder) (s : State) : Host.Outcome State Fault Refusal :=
  rdScalar (fun u => rdU64 bo u) s

end Sys2Proof.Machine
end

