-- ==== Sys2Proof/Machine/Status.lean ====
section
/-! DEFINITION. The status and counter commands of both units (48_status.md). -/

namespace Sys2Proof.Machine

/-- RD.GETCNT: read the byte counter (48_status.md R281). -/
def execRdGetcnt (s : State) : Host.Outcome State Fault Refusal :=
  rdCommand (fun u => u.respond (okResponse (u.byteCnt))) s

/-- RD.RSTCNT: reset the byte counter; whether pending bits go too is the parameter RSTCNT_CLEARS_BITS (48_status.md R282,
log entry 6). -/
def execRdRstcnt (s : State) : Host.Outcome State Fault Refusal :=
  rdCommand (fun u => (rdResetCounter Config.rstcntClearsBits u).respond (okResponse 0#64)) s

/-- RD.GETORD: read the bit order (48_status.md R283). -/
def execRdGetord (s : State) : Host.Outcome State Fault Refusal :=
  rdCommand (fun u => u.respond (okResponse ((bitOrderCode u.bitOrder).setWidth 64))) s

/-- RD.GETBUF: read the bit buffer (48_status.md R284). -/
def execRdGetbuf (s : State) : Host.Outcome State Fault Refusal :=
  rdCommand (fun u => u.respond (okResponse (u.bitBuf.setWidth 64))) s

/-- RD.GETNBITS: read the number of buffered bits (48_status.md R285). -/
def execRdGetnbits (s : State) : Host.Outcome State Fault Refusal :=
  rdCommand (fun u => u.respond (okResponse (u.bitCnt.setWidth 64))) s

/-- RD.GETDL: read the detected-array-limit flag (48_status.md R286). -/
def execRdGetdl (s : State) : Host.Outcome State Fault Refusal :=
  rdCommand (fun u => u.respond (okResponse (flagLane u.detLim))) s

/-- RD.SETDL: write the detected-array-limit flag (48_status.md R287). -/
def execRdSetdl (s : State) : Host.Outcome State Fault Refusal :=
  rdCommand (fun u => (writeDetLim u.cmd.a u).respond (okResponse 0#64)) s

/-- WR.GETCNT: read the byte counter; the one WR command that works on a closed unit (48_status.md R288). -/
def execWrGetcnt (s : State) : Host.Outcome State Fault Refusal :=
  .next (s.withWr (s.wr.respond (okResponse s.wr.byteCnt)))

/-- WR.RSTCNT: reset the byte counter (48_status.md R289, log entry 6). -/
def execWrRstcnt (s : State) : Host.Outcome State Fault Refusal :=
  wrCommand (fun u => (wrResetCounter Config.rstcntClearsBits u).respond (okResponse 0#64)) s

end Sys2Proof.Machine
end

