-- ==== Sys2Proof/Machine/Strings.lean ====
section
/-! DEFINITION. The string commands of both units (47_strings.md). -/

namespace Sys2Proof.Machine

/-- RD.STRING: decode one string (47_strings.md R266). -/
def execRdString (bo : ByteOrder) (s : State) : Host.Outcome State Fault Refusal :=
  rdCommand (fun u => rdEnd (decodeString bo u) fun x u =>
    (u.setRmem [.str x]).respond ⟨.ok, stringVal x, 0#4, 1⟩) s

/-- RD.STRARR: decode an array of strings (47_strings.md R268). -/
def execRdStrarr (bo : ByteOrder) (s : State) : Host.Outcome State Fault Refusal :=
  rdArray (fun u => (decodeString bo u).map .str) id s

/-- The effect of WR.STRING on its one item: refused before the first byte where the payload is too long
(47_strings.md R267). -/
def writeOneString (bo : ByteOrder) (xs : List StrItem) (u : WrUnit) : WrUnit :=
  if xs.any payloadTooLong then wrRaise .invalidArgument u
  else (writeAll (encodeString bo) xs u).respond (okResponse 0#64)

/-- The effect of WR.STRARR on its items: all lengths are checked before any write (47_strings.md R269). -/
def writeStrings (bo : ByteOrder) (xs : List StrItem) (u : WrUnit) : WrUnit :=
  if xs.any payloadTooLong then wrRaise .invalidArgument u
  else (writeAll (encodeString bo) xs u).respond (okResponse (BitVec.ofNat 64 xs.length))

/-- WR.STRING: encode one string; OLEN must be 1 (47_strings.md R267). -/
def execWrString (bo : ByteOrder) (s : State) : Host.Outcome State Fault Refusal :=
  wrOmemCommand (fun u => u.cmd.omem.length = 1) stringItems (writeOneString bo) s

/-- WR.STRARR: encode an array of strings (47_strings.md R269). -/
def execWrStrarr (bo : ByteOrder) (s : State) : Host.Outcome State Fault Refusal :=
  wrOmemCommand (fun _ => true) stringItems (writeStrings bo) s

end Sys2Proof.Machine
end

