-- ==== Sys2Proof/Machine/WrArrays.lean ====
section
/-! DEFINITION. The writer array commands over numeric items (45_wr_scalars_arrays.md). -/

namespace Sys2Proof.Machine

/-- WR.BITSARR: write an array of bit groups of W bits (45_wr_scalars_arrays.md R230). -/
def execWrBitsarr (w : Nat) (s : State) : Host.Outcome State Fault Refusal :=
  wrOmemCommand (fun _ => widthLegal w) numericItems (fun xs u =>
    (writeAll (fun v => writeBits w (low8 v)) xs u).respond (okResponse (BitVec.ofNat 64 xs.length))) s

/-- The number of elements WR.BYTES writes: A, or all of them where A is negative (45_wr_scalars_arrays.md R231). -/
def bytesCount (a : Lane) (olen : Nat) : Nat := if a.toInt < 0 then olen else a.toInt.toNat

/-- WR.BYTES: write a byte array or a leading part of it; A greater than OLEN is InvalidArgument (45_wr_scalars_arrays.md R231). -/
def execWrBytes (bo : ByteOrder) (s : State) : Host.Outcome State Fault Refusal :=
  wrOmemCommand (fun u => u.cmd.a.toInt ≤ itemCount u.cmd.omem) numericItems (fun xs u =>
    let n := bytesCount u.cmd.a xs.length
    (writeAll (fun v => wrByte (low8 v)) (bytesOrder bo n xs) u).respond (okResponse (BitVec.ofNat 64 n))) s

/-- WR.BOOLARR: write an array of Booleans, one byte each (45_wr_scalars_arrays.md R232). -/
def execWrBoolarr (s : State) : Host.Outcome State Fault Refusal :=
  wrArray (fun v => wrByte (boolByte (laneTrue v))) s

/-- WR.SHORTARR: write an array of 16-bit values (45_wr_scalars_arrays.md R233). -/
def execWrShortarr (bo : ByteOrder) (s : State) : Host.Outcome State Fault Refusal :=
  wrArray (fun v => wrU16 bo (low16 v)) s

/-- WR.INTARR: write an array of 32-bit values (45_wr_scalars_arrays.md R234). -/
def execWrIntarr (bo : ByteOrder) (s : State) : Host.Outcome State Fault Refusal :=
  wrArray (fun v => wrU32 bo (low32 v)) s

/-- WR.UINTARR: write an array of unsigned 32-bit values (45_wr_scalars_arrays.md R235). -/
def execWrUintarr (bo : ByteOrder) (s : State) : Host.Outcome State Fault Refusal :=
  wrArray (fun v => wrU32 bo (low32 v)) s

/-- WR.LONGARR: write an array of 64-bit values (45_wr_scalars_arrays.md R236). -/
def execWrLongarr (bo : ByteOrder) (s : State) : Host.Outcome State Fault Refusal :=
  wrArray (wrU64 bo) s

/-- WR.FLOATARR: write an array of 32-bit floating-point patterns (45_wr_scalars_arrays.md R237). -/
def execWrFloatarr (bo : ByteOrder) (s : State) : Host.Outcome State Fault Refusal :=
  wrArray (fun v => wrU32 bo (low32 v)) s

/-- WR.DOUBLEARR: write an array of 64-bit floating-point patterns (45_wr_scalars_arrays.md R238). -/
def execWrDoublearr (bo : ByteOrder) (s : State) : Host.Outcome State Fault Refusal :=
  wrArray (wrU64 bo) s

end Sys2Proof.Machine
end

