-- ==== Sys2Proof/Machine/WrBits.lean ====
section
/-! DEFINITION. WR.BITS (44_wr_bits.md). -/

namespace Sys2Proof.Machine

/-- WR.BITS: write a bit field (44_wr_bits.md R213). -/
def execWrBits (w : Nat) (s : State) : Host.Outcome State Fault Refusal :=
  wrCommand (fun u =>
    if widthLegal w then (writeBits w (low8 u.cmd.a) u).respond (okResponse 0#64)
    else wrRaise .invalidArgument u) s

end Sys2Proof.Machine
end

