-- ==== Sys2Proof/Machine/WrFlush.lean ====
section
/-! DEFINITION. Writer alignment, flush and close (46_wr_align_flush.md). -/

namespace Sys2Proof.Machine

/-- WR.ALIGN: pad with zeros to a multiple of A bytes (46_wr_align_flush.md R251). -/
def execWrAlign (s : State) : Host.Outcome State Fault Refusal :=
  wrCommand (fun u =>
    if u.cmd.a.toInt ≤ 0 then wrRaise .invalidArgument u
    else (padZeros u.cmd.a.toNat u.cmd.a.toNat (padByte u)).respond (okResponse 0#64)) s

/-- WR.FLUSH: publish everything written so far (46_wr_align_flush.md R252). -/
def execWrFlush (s : State) : Host.Outcome State Fault Refusal :=
  wrCommand (fun u => (publish (padByte u)).respond (okResponse 0#64)) s

/-- WR.CLOSE: flush and end the life of the unit (46_wr_align_flush.md R253). -/
def execWrClose (s : State) : Host.Outcome State Fault Refusal :=
  wrCommand (fun u => ((publish (padByte u)).setClosed true).respond (okResponse 0#64)) s

end Sys2Proof.Machine
end

