-- ==== Sys2Proof/Machine/WrScalars.lean ====
section
/-! DEFINITION. The writer scalar commands (45_wr_scalars_arrays.md). -/

namespace Sys2Proof.Machine

/-- WR.BYTE: write one byte (45_wr_scalars_arrays.md R221). -/
def execWrByte (s : State) : Host.Outcome State Fault Refusal :=
  wrScalar (fun a => wrByte (low8 a)) s

/-- WR.BOOL: write a Boolean as one byte (45_wr_scalars_arrays.md R222). -/
def execWrBool (s : State) : Host.Outcome State Fault Refusal :=
  wrScalar (fun a => wrByte (boolByte (laneTrue a))) s

/-- WR.SHORT: write a 16-bit value (45_wr_scalars_arrays.md R223). -/
def execWrShort (bo : ByteOrder) (s : State) : Host.Outcome State Fault Refusal :=
  wrScalar (fun a => wrU16 bo (low16 a)) s

/-- WR.INT: write a 32-bit value (45_wr_scalars_arrays.md R224). -/
def execWrInt (bo : ByteOrder) (s : State) : Host.Outcome State Fault Refusal :=
  wrScalar (fun a => wrU32 bo (low32 a)) s

/-- WR.UINT: write an unsigned 32-bit value (45_wr_scalars_arrays.md R225). -/
def execWrUint (bo : ByteOrder) (s : State) : Host.Outcome State Fault Refusal :=
  wrScalar (fun a => wrU32 bo (low32 a)) s

/-- WR.LONG: write a 64-bit value (45_wr_scalars_arrays.md R226). -/
def execWrLong (bo : ByteOrder) (s : State) : Host.Outcome State Fault Refusal :=
  wrScalar (wrU64 bo) s

/-- WR.FLOAT: write a 32-bit floating-point pattern, unchanged (45_wr_scalars_arrays.md R227). -/
def execWrFloat (bo : ByteOrder) (s : State) : Host.Outcome State Fault Refusal :=
  wrScalar (fun a => wrU32 bo (low32 a)) s

/-- WR.DOUBLE: write a 64-bit floating-point pattern, unchanged (45_wr_scalars_arrays.md R228). -/
def execWrDouble (bo : ByteOrder) (s : State) : Host.Outcome State Fault Refusal :=
  wrScalar (wrU64 bo) s

end Sys2Proof.Machine
end

