-- ==== Sys2Proof/Machine/Dispatch.lean ====
section
/-! DEFINITION. The meaning of every instruction, one arm each. The unit of the instruction runs it; whether its word was
presented to that unit is checked before (`issue`). -/

namespace Sys2Proof.Machine

def exec (i : Instr) (s : State) : Host.Outcome State Fault Refusal :=
  match i with
  | .rdBits w => Sys2Proof.Machine.execRdBits w s
  | .rdByte => Sys2Proof.Machine.execRdByte s
  | .rdBool => Sys2Proof.Machine.execRdBool s
  | .rdUshort bo => Sys2Proof.Machine.execRdUshort bo s
  | .rdInt bo => Sys2Proof.Machine.execRdInt bo s
  | .rdUint bo => Sys2Proof.Machine.execRdUint bo s
  | .rdLong bo => Sys2Proof.Machine.execRdLong bo s
  | .rdFloat bo => Sys2Proof.Machine.execRdFloat bo s
  | .rdDouble bo => Sys2Proof.Machine.execRdDouble bo s
  | .rdString bo => Sys2Proof.Machine.execRdString bo s
  | .rdBitsarr w => Sys2Proof.Machine.execRdBitsarr w s
  | .rdBytearr bo => Sys2Proof.Machine.execRdBytearr bo s
  | .rdBoolarr => Sys2Proof.Machine.execRdBoolarr s
  | .rdShortarr bo => Sys2Proof.Machine.execRdShortarr bo s
  | .rdUshortarr bo => Sys2Proof.Machine.execRdUshortarr bo s
  | .rdIntarr bo => Sys2Proof.Machine.execRdIntarr bo s
  | .rdUintarr bo => Sys2Proof.Machine.execRdUintarr bo s
  | .rdLongarr bo => Sys2Proof.Machine.execRdLongarr bo s
  | .rdFloatarr bo => Sys2Proof.Machine.execRdFloatarr bo s
  | .rdDoublearr bo => Sys2Proof.Machine.execRdDoublearr bo s
  | .rdStrarr bo => Sys2Proof.Machine.execRdStrarr bo s
  | .rdAlignbyte => Sys2Proof.Machine.execRdAlignbyte s
  | .rdAlign => Sys2Proof.Machine.execRdAlign s
  | .rdMark => Sys2Proof.Machine.execRdMark s
  | .rdReset => Sys2Proof.Machine.execRdReset s
  | .rdGetcnt => Sys2Proof.Machine.execRdGetcnt s
  | .rdRstcnt => Sys2Proof.Machine.execRdRstcnt s
  | .rdGetord => Sys2Proof.Machine.execRdGetord s
  | .rdGetbuf => Sys2Proof.Machine.execRdGetbuf s
  | .rdGetnbits => Sys2Proof.Machine.execRdGetnbits s
  | .rdGetdl => Sys2Proof.Machine.execRdGetdl s
  | .rdSetdl => Sys2Proof.Machine.execRdSetdl s
  | .wrBits w => Sys2Proof.Machine.execWrBits w s
  | .wrByte => Sys2Proof.Machine.execWrByte s
  | .wrBool => Sys2Proof.Machine.execWrBool s
  | .wrShort bo => Sys2Proof.Machine.execWrShort bo s
  | .wrInt bo => Sys2Proof.Machine.execWrInt bo s
  | .wrUint bo => Sys2Proof.Machine.execWrUint bo s
  | .wrLong bo => Sys2Proof.Machine.execWrLong bo s
  | .wrFloat bo => Sys2Proof.Machine.execWrFloat bo s
  | .wrDouble bo => Sys2Proof.Machine.execWrDouble bo s
  | .wrString bo => Sys2Proof.Machine.execWrString bo s
  | .wrBitsarr w => Sys2Proof.Machine.execWrBitsarr w s
  | .wrBytes bo => Sys2Proof.Machine.execWrBytes bo s
  | .wrBoolarr => Sys2Proof.Machine.execWrBoolarr s
  | .wrShortarr bo => Sys2Proof.Machine.execWrShortarr bo s
  | .wrIntarr bo => Sys2Proof.Machine.execWrIntarr bo s
  | .wrUintarr bo => Sys2Proof.Machine.execWrUintarr bo s
  | .wrLongarr bo => Sys2Proof.Machine.execWrLongarr bo s
  | .wrFloatarr bo => Sys2Proof.Machine.execWrFloatarr bo s
  | .wrDoublearr bo => Sys2Proof.Machine.execWrDoublearr bo s
  | .wrStrarr bo => Sys2Proof.Machine.execWrStrarr bo s
  | .wrAlign => Sys2Proof.Machine.execWrAlign s
  | .wrFlush => Sys2Proof.Machine.execWrFlush s
  | .wrClose => Sys2Proof.Machine.execWrClose s
  | .wrGetcnt => Sys2Proof.Machine.execWrGetcnt s
  | .wrRstcnt => Sys2Proof.Machine.execWrRstcnt s

end Sys2Proof.Machine
end

