-- ==== Sys2Proof/Machine/Issue.lean ====
section
/-! DEFINITION. What happens to a command the host issues: the unit of the port accepts it, checks its word and runs it
(30_encoding.md R95). -/

namespace Sys2Proof.Machine

/-- Steps 1 to 7 of 30_encoding.md R95 for a transaction that the unit of port `p` has accepted. Steps 6 and 7 are in the
meanings. -/
def runWord (p : UnitId) (cw : CmdWord) (s : State) : Host.Outcome State Fault Refusal :=
  match decode cw with
  | .error _ => .next (illegalCommand p s)
  | .ok i => if unitOfWord cw = p then exec i s else .next (illegalCommand p s)

/-- One command from its issue to its response (20_memory.md R71, 70_reset_and_hazards.md R340). -/
def issue (c : HostCommand) (s : State) : Host.Outcome State Fault Refusal :=
  runWord c.port c.tx.cw (accept c s)

/-- The command a host issues to run the command word `w` with operands zero: on the port of the unit that the word
selects. -/
def commandOfWord (w : Nat) : HostCommand :=
  let cw : CmdWord := BitVec.ofNat 16 w
  ⟨unitOfWord cw, ⟨cw, 0#64, 0#64, []⟩⟩

end Sys2Proof.Machine
end

