-- ==== Sys2Proof/Machine/Step.lean ====
section
/-! DEFINITION. One step of the block: the next command its hosts issue, from issue to response. -/

namespace Sys2Proof.Machine

/-- One step: the first command of the host's list is issued and runs to its response. With no command left the block is
idle and keeps all its state (60_exceptions.md R303, R315). -/
def step (s : State) : Host.Outcome State Fault Refusal :=
  match s.host with
  | [] => .next s
  | c :: cs => issue c (s.withHost cs)

/-- The state in which the host issues the table word `w` next, with operands zero, on the port of the unit that the word
selects. A command word is all there is to a fetch on this block (log entry 2); `nbits` is 16 for every row. -/
def State.withFetchWord (s : State) (_nbits w : Nat) : State := s.withHost (commandOfWord w :: s.host)

end Sys2Proof.Machine
end

