-- ==== Sys2Proof/Safety.lean ====
section
/-! DEFINITION. The terms in which claims speak of the block: its invariant, the flat view of each stream (the reader as a
cursor at a bit position of SRC, the writer as a sequence of bits written), and what a command leaves alone. -/

namespace Sys2Proof.Machine

/-! ## The invariant -/

/-- A bit buffer of RD that belongs to the source position `pos`: at most seven bits are left between commands, they are the
high bits of the byte loaded last, and nothing stands above them (10_state.md R23, R24, R30). -/
abbrev BufferOk (ord : BitOrder) (src : List Byte) (pos : Nat) (buf : BitVec 8) (cnt : BitVec 4) : Prop :=
  cnt.toNat ≤ 7 ∧ pos ≤ src.length ∧ (cnt.toNat = 0 → buf = 0#8) ∧
  (0 < cnt.toNat → 0 < pos ∧ (src[pos - 1]?).map (fun b => transform ord b >>> (8 - cnt.toNat)) = some buf)

/-- The invariant of RD between commands. A mark that is set belongs to a position already passed, and its snapshot is a bit
buffer of that position (43_rd_align_mark.md R193). -/
abbrev RdUnit.Inv (u : RdUnit) : Prop :=
  BufferOk u.bitOrder u.src u.srcPos u.bitBuf u.bitCnt ∧
  (u.markValid = true → u.markPos ≤ u.srcPos ∧ BufferOk u.bitOrder u.src u.markPos u.snapBitBuf u.snapBitCnt)

/-- The invariant of WR between commands (10_state.md R23, R37); a closed unit has everything published
(46_wr_align_flush.md R253). -/
abbrev WrUnit.Inv (u : WrUnit) : Prop :=
  u.bitCnt.toNat ≤ 7 ∧ u.bitBuf.toNat < 2 ^ u.bitCnt.toNat ∧ u.flushed ≤ u.snk.length ∧
  (u.closed = true → u.bitCnt = 0#4 ∧ u.flushed = u.snk.length)

/-- The invariant of the block between commands. -/
abbrev State.Inv (s : State) : Prop := s.rd.Inv ∧ s.wr.Inv

/-! ## The launch premise of a finite RMEM_MAX or OMEM_MAX (93_implementation_defined.md U6) -/

/-- A number of items within a capacity; none is no bound (00_scope.md R7). -/
def withinMax : Option Nat → Nat → Prop
  | none, _ => True
  | some m, n => n ≤ m

/-- The launch premise of U6: the source is short enough that no read makes more than RMEM_MAX items, an item being at least
one bit, and every OMEM the host of WR has presented or will present has at most OMEM_MAX items. -/
structure State.Admitted (s : State) : Prop where
  source : withinMax Config.rmemMax (8 * s.rd.src.length)
  presented : withinMax Config.omemMax s.wr.cmd.omem.length
  commands : ∀ c ∈ s.host, c.port = .wr → withinMax Config.omemMax c.tx.omem.length

/-! ## The reader as a cursor at a bit position -/

/-- The position in SRC, counted in bits, of the next bit to hand out (20_memory.md R64). -/
def RdUnit.bitPos (u : RdUnit) : Nat := 8 * u.srcPos - u.bitCnt.toNat

/-- Bit `q` of the source in transferred order (20_memory.md R64); false past its end. -/
def RdUnit.srcBit (u : RdUnit) (q : Nat) : Bool :=
  match u.src[q / 8]? with
  | none => false
  | some b => (transform u.bitOrder b).getLsbD (q % 8)

/-- The value of the `n` source bits from position `p`, the first of them at bit 0 (40_rd_bits.md R126). -/
def RdUnit.bitsAt (u : RdUnit) : Nat → Nat → Nat
  | _, 0 => 0
  | p, n + 1 => (u.srcBit p).toNat + 2 * u.bitsAt (p + 1) n

/-- The `n` stream bytes from bit position `p`. -/
def RdUnit.bytesAt (u : RdUnit) : Nat → Nat → List Byte
  | _, 0 => []
  | p, n + 1 => BitVec.ofNat 8 (u.bitsAt p 8) :: u.bytesAt (p + 8) n

/-- The pending stream (40_rd_bits.md R129): the buffered bits, then those of every source byte not yet loaded, in transferred
order. -/
def RdUnit.pending (u : RdUnit) : List Bool :=
  lowBits u.bitCnt.toNat u.bitBuf ++ (u.src.drop u.srcPos).flatMap fun b => lowBits 8 (transform u.bitOrder b)

/-- The value of bits, the first of them at bit 0 (40_rd_bits.md R126). -/
def valueOfBits : List Bool → Nat
  | [] => 0
  | b :: bs => b.toNat + 2 * valueOfBits bs

/-- The value of stream bytes s0, s1, ... in a byte order (20_memory.md R66). -/
def valueOfBytes (bo : ByteOrder) : List Byte → Nat
  | [] => 0
  | b :: bs =>
    match bo with
    | .big => b.toNat * 256 ^ bs.length + valueOfBytes bo bs
    | .little => b.toNat + 256 * valueOfBytes bo bs

/-- The value of the `n` stream bytes from bit position `p` in a byte order. -/
def RdUnit.wordAt (u : RdUnit) (bo : ByteOrder) (p n : Nat) : Nat := valueOfBytes bo (u.bytesAt p n)

/-- RD with its cursor at bit position `p`: the byte that holds bit `p`, unless `p` is its first bit, is in the buffer
without the bits before `p` (10_state.md R24, R30). -/
def RdUnit.moveTo (u : RdUnit) (p : Nat) : RdUnit :=
  (u.setSrcPos ((p + 7) / 8)).setBuffer
    (match u.src[p / 8]? with
      | none => 0#8
      | some b => if p % 8 = 0 then 0#8 else transform u.bitOrder b >>> (p % 8))
    (BitVec.ofNat 4 ((8 - p % 8) % 8))

/-- RD after `n` more bits have been handed out or discarded: the cursor is `n` bits further and BYTECNT has counted the bytes
whose last bit is among them (40_rd_bits.md R128). -/
def RdUnit.consume (u : RdUnit) (n : Nat) : RdUnit :=
  (u.moveTo (u.bitPos + n)).setByteCnt (u.byteCnt + BitVec.ofNat 64 ((u.bitPos + n) / 8 - u.bitPos / 8))

/-- The items of an array of `n` elements of `m` bits from the cursor, `val` being the element at a bit position. -/
def RdUnit.elements (u : RdUnit) (val : Nat → Item) (m n : Nat) : List Item :=
  (List.range n).map fun i => val (u.bitPos + i * m)

/-- The next bytes of the stream are `bs`. -/
def RdUnit.Upcoming (u : RdUnit) (bs : List Byte) : Prop :=
  8 * bs.length ≤ pendingBits u ∧ u.bytesAt u.bitPos bs.length = bs

/-! ## The writer as a sequence of bits -/

/-- The bits of a byte, bit 0 first. -/
def byteBits (b : Byte) : List Bool := lowBits 8 b

/-- The written stream (44_wr_bits.md R214): the bits of SNK in transferred order, then the buffered ones. -/
def WrUnit.written (u : WrUnit) : List Bool :=
  u.snk.flatMap (fun b => byteBits (transform u.bitOrder b)) ++ lowBits u.bitCnt.toNat u.bitBuf

/-- The `k` stream bytes of a value in a byte order (20_memory.md R66, 45_wr_scalars_arrays.md R220). -/
def wordBytes (bo : ByteOrder) (k v : Nat) : List Byte := lenBytes v k bo

/-- The bits of a run of bytes. -/
def bytesBits (bs : List Byte) : List Bool := bs.flatMap byteBits

/-- WR has written exactly `bits` more: they are appended to the written stream, BYTECNT has counted the bytes emitted, the
registers keep their invariant, and every other register is as before. -/
structure Wrote (u v : WrUnit) (bits : List Bool) : Prop where
  written : v.written = u.written ++ bits
  grows : u.snk <+: v.snk
  byteCnt : v.byteCnt = u.byteCnt + BitVec.ofNat 64 (v.snk.length - u.snk.length)
  bufferCount : v.bitCnt.toNat ≤ 7
  bufferClean : v.bitBuf.toNat < 2 ^ v.bitCnt.toNat
  bitOrder : v.bitOrder = u.bitOrder
  closed : v.closed = u.closed
  flushed : v.flushed = u.flushed
  cmd : v.cmd = u.cmd
  draws : v.draws = u.draws

/-! ## Strings on the wire -/

/-- The bytes `bs` are a well-formed encoding of the string item `x`, of the shortest length or not (47_strings.md R261,
R263, R264, R265). -/
inductive StringWire (bo : ByteOrder) : StrItem → List Byte → Prop where
  | absent : StringWire bo .absent [0xFF#8]
  | short (p : List Byte) (h : p.length < 0x80) : StringWire bo (.present p) (BitVec.ofNat 8 p.length :: p)
  | long (k : Nat) (ls p : List Byte) (hk : 1 ≤ k ∧ k ≤ 4) (hl : ls.length = k) (h : valueOfBytes bo ls = p.length) :
    StringWire bo (.present p) (BitVec.ofNat 8 (0x80 + k) :: (ls ++ p))

/-- The bytes `bs` are the encoding of `x` that the encoder chooses: the shortest of them all (47_strings.md R262, "the encoder
always produces the shortest prefix"). -/
def ShortestWire (bo : ByteOrder) (x : StrItem) (bs : List Byte) : Prop :=
  StringWire bo x bs ∧ ∀ bs', StringWire bo x bs' → bs.length ≤ bs'.length

/-- The number of bytes of the encoding of a string item (47_strings.md R262, R272). -/
def encodedSize : StrItem → Nat
  | .absent => 1
  | .present p =>
    1 + (if p.length < 0x80 then 0 else if p.length ≤ 0xFF then 1 else if p.length ≤ 0xFFFF then 2
      else if p.length ≤ 0xFFFFFF then 3 else 4) + p.length

/-! ## Shapes of the numeric commands

Each table says, from the command's own rule, how many stream bytes its value has, in which byte order, and how the value
becomes a 64-bit lane or a lane becomes bytes. -/

/-- A numeric value read from the stream: `bytes` bytes in byte order `order`, put into a lane by `lane`. -/
structure ReadShape where
  bytes : Nat
  order : ByteOrder
  lane : Nat → Lane

/-- The lane of the value at bit position `p`. -/
def ReadShape.laneAt (sh : ReadShape) (u : RdUnit) (p : Nat) : Lane := sh.lane (u.wordAt sh.order p sh.bytes)

/-- Extension with zeros to 64 bits of a value that fits (00_scope.md R9). -/
def zextLane (v : Nat) : Lane := BitVec.ofNat 64 v

/-- Extension to 64 bits of an n-bit value by its top bit (00_scope.md R9). -/
def sextLane (n v : Nat) : Lane := (BitVec.ofNat n v).signExtend 64

/-- 1 for a byte that is not zero, else 0 (41_rd_scalars.md R143). -/
def boolLane (v : Nat) : Lane := if v = 0 then 0#64 else 1#64

/-- The scalar reads (41_rd_scalars.md R142 to R149). -/
def scalarRead : Instr → Option ReadShape
  | .rdByte => some ⟨1, .big, zextLane⟩
  | .rdBool => some ⟨1, .big, boolLane⟩
  | .rdUshort bo => some ⟨2, bo, zextLane⟩
  | .rdInt bo => some ⟨4, bo, sextLane 32⟩
  | .rdUint bo => some ⟨4, bo, zextLane⟩
  | .rdLong bo => some ⟨8, bo, zextLane⟩
  | .rdFloat bo => some ⟨4, bo, zextLane⟩
  | .rdDouble bo => some ⟨8, bo, zextLane⟩
  | _ => none

/-- The array reads over elements of whole bytes (42_rd_arrays.md R167 to R175). -/
def arrayRead : Instr → Option ReadShape
  | .rdBytearr _ => some ⟨1, .big, zextLane⟩
  | .rdBoolarr => some ⟨1, .big, boolLane⟩
  | .rdShortarr bo => some ⟨2, bo, sextLane 16⟩
  | .rdUshortarr bo => some ⟨2, bo, zextLane⟩
  | .rdIntarr bo => some ⟨4, bo, sextLane 32⟩
  | .rdUintarr bo => some ⟨4, bo, zextLane⟩
  | .rdLongarr bo => some ⟨8, bo, zextLane⟩
  | .rdFloatarr bo => some ⟨4, bo, zextLane⟩
  | .rdDoublearr bo => some ⟨8, bo, zextLane⟩
  | _ => none

/-- The order in which the items read are left in RMEM: reversed by RD.BYTEARR with LITTLE_ENDIAN, else as read
(42_rd_arrays.md R161, R167). -/
def leftInRmem : Instr → List Item → List Item
  | .rdBytearr .little, items => items.reverse
  | _, items => items

/-- The items of an array of `n` numeric elements from the cursor, in the order read. -/
def RdUnit.numericElements (u : RdUnit) (sh : ReadShape) (n : Nat) : List Item :=
  u.elements (fun p => .num (sh.laneAt u p)) (8 * sh.bytes) n

/-- The items of `n` bit groups of width `w` from the cursor with `c` bits pending: the last one may be short
(42_rd_arrays.md R165, R166). -/
def RdUnit.bitGroups (u : RdUnit) (w c n : Nat) : List Item :=
  (List.range n).map fun i => .num (BitVec.ofNat 64 (u.bitsAt (u.bitPos + i * w) (min w (c - i * w))))

/-- The stream bytes a scalar write makes of A (45_wr_scalars_arrays.md R221 to R228). -/
def scalarWrite : Instr → Option (Lane → List Byte)
  | .wrByte => some fun a => wordBytes .big 1 a.toNat
  | .wrBool => some fun a => [if a = 0#64 then 0x00#8 else 0x01#8]
  | .wrShort bo => some fun a => wordBytes bo 2 a.toNat
  | .wrInt bo => some fun a => wordBytes bo 4 a.toNat
  | .wrUint bo => some fun a => wordBytes bo 4 a.toNat
  | .wrLong bo => some fun a => wordBytes bo 8 a.toNat
  | .wrFloat bo => some fun a => wordBytes bo 4 a.toNat
  | .wrDouble bo => some fun a => wordBytes bo 8 a.toNat
  | _ => none

/-- The stream bytes an array write of whole-byte elements makes of an item (45_wr_scalars_arrays.md R232 to R238). -/
def arrayWrite : Instr → Option (Lane → List Byte)
  | .wrBoolarr => some fun a => [if a = 0#64 then 0x00#8 else 0x01#8]
  | .wrShortarr bo => some fun a => wordBytes bo 2 a.toNat
  | .wrIntarr bo => some fun a => wordBytes bo 4 a.toNat
  | .wrUintarr bo => some fun a => wordBytes bo 4 a.toNat
  | .wrLongarr bo => some fun a => wordBytes bo 8 a.toNat
  | .wrFloatarr bo => some fun a => wordBytes bo 4 a.toNat
  | .wrDoublearr bo => some fun a => wordBytes bo 8 a.toNat
  | _ => none

/-- The scalar read that reads back what a scalar write wrote (45_wr_scalars_arrays.md R241). -/
def readsBack : Instr → Option Instr
  | .wrByte => some .rdByte
  | .wrBool => some .rdBool
  | .wrShort bo => some (.rdUshort bo)
  | .wrInt bo => some (.rdInt bo)
  | .wrUint bo => some (.rdUint bo)
  | .wrLong bo => some (.rdLong bo)
  | .wrFloat bo => some (.rdFloat bo)
  | .wrDouble bo => some (.rdDouble bo)
  | _ => none

/-- The value a scalar write and the read that reads it back give for A: truncated to the command's width, then extended as
the read says (45_wr_scalars_arrays.md R241). -/
def roundTripLane : Instr → Lane → Lane
  | .wrByte, a => zextLane (a.toNat % 2 ^ 8)
  | .wrBool, a => boolLane a.toNat
  | .wrShort _, a => zextLane (a.toNat % 2 ^ 16)
  | .wrInt _, a => sextLane 32 (a.toNat % 2 ^ 32)
  | .wrUint _, a => zextLane (a.toNat % 2 ^ 32)
  | .wrLong _, a => a
  | .wrFloat _, a => zextLane (a.toNat % 2 ^ 32)
  | .wrDouble _, a => a
  | _, a => a

/-! ## What a command leaves alone -/

/-- All of RD but the response, RMEM and the model's counter is the same: what a fault raised before any state change leaves
(60_exceptions.md R306). -/
def RdUnit.SameRegs (u v : RdUnit) : Prop :=
  v.bitOrder = u.bitOrder ∧ v.src = u.src ∧ v.srcPos = u.srcPos ∧ v.bitBuf = u.bitBuf ∧ v.bitCnt = u.bitCnt ∧
  v.byteCnt = u.byteCnt ∧ v.detLim = u.detLim ∧ v.markValid = u.markValid ∧ v.markPos = u.markPos ∧
  v.markLim = u.markLim ∧ v.snapBitBuf = u.snapBitBuf ∧ v.snapBitCnt = u.snapBitCnt ∧
  v.snapByteCnt = u.snapByteCnt ∧ v.cmd = u.cmd

/-- All of WR but the response and the model's counter is the same. -/
def WrUnit.SameRegs (u v : WrUnit) : Prop :=
  v.bitOrder = u.bitOrder ∧ v.snk = u.snk ∧ v.bitBuf = u.bitBuf ∧ v.bitCnt = u.bitCnt ∧ v.byteCnt = u.byteCnt ∧
  v.closed = u.closed ∧ v.flushed = u.flushed ∧ v.cmd = u.cmd

/-- The command ends in the fault `st` of RD with its registers as in `u`, and WR and the hosts' commands untouched. -/
def RdFaults (o : Host.Outcome State Fault Refusal) (s : State) (st : Status) (u : RdUnit) : Prop :=
  ∃ t, o = .next t ∧ t.wr = s.wr ∧ t.host = s.host ∧ t.rd.rsp.st = st ∧ u.SameRegs t.rd

/-- The command ends in the fault `st` of WR with its registers as in `u`, and RD and the hosts' commands untouched. -/
def WrFaults (o : Host.Outcome State Fault Refusal) (s : State) (st : Status) (u : WrUnit) : Prop :=
  ∃ t, o = .next t ∧ t.rd = s.rd ∧ t.host = s.host ∧ t.wr.rsp.st = st ∧ u.SameRegs t.wr

/-- The unit that runs an instruction: OPC[7] of its word (30_encoding.md R92). -/
def unitOf (i : Instr) : UnitId := unitOfWord (encode i)

/-- The array reads, whose until-exhaustion mode clears and sets DETLIM (42_rd_arrays.md R163, R164). -/
def isArrayRead : Instr → Bool
  | .rdBitsarr _ | .rdBytearr _ | .rdBoolarr | .rdShortarr _ | .rdUshortarr _ | .rdIntarr _ | .rdUintarr _
  | .rdLongarr _ | .rdFloatarr _ | .rdDoublearr _ | .rdStrarr _ => true
  | _ => false

/-- The commands that read OMEM as numeric items (45_wr_scalars_arrays.md R229, R230, R231). -/
def readsNumericOmem : Instr → Bool
  | .wrBitsarr _ | .wrBytes _ | .wrBoolarr | .wrShortarr _ | .wrIntarr _ | .wrUintarr _ | .wrLongarr _
  | .wrFloatarr _ | .wrDoublearr _ => true
  | _ => false

/-- The commands that read OMEM as string items (47_strings.md R267, R269). -/
def readsStringOmem : Instr → Bool
  | .wrString _ | .wrStrarr _ => true
  | _ => false

/-- OMEM holds the kind of items the command takes ("the item kind being fixed by the command", 45_wr_scalars_arrays.md
R229). -/
def OmemFits (i : Instr) (s : State) : Prop :=
  (readsNumericOmem i = true → (numericItems s.wr.cmd.omem).isSome = true) ∧
  (readsStringOmem i = true → (stringItems s.wr.cmd.omem).isSome = true)

/-! ## The bits a command of WR writes, counted from the command alone -/

/-- A string item whose payload no row of the encoder takes (47_strings.md R262). -/
def noRowFor : Item → Bool
  | .str (.present p) => 0xFFFFFFFF < p.length
  | _ => false

/-- The bits of the encoding of a string item. -/
def encodingBits : Item → Nat
  | .str x => 8 * encodedSize x
  | .num _ => 0

/-- The bits of the encodings of the string items of OMEM; none where a payload is too long (47_strings.md R267, R269). -/
def stringBits (omem : List Item) : Nat :=
  if omem.any noRowFor then 0 else (omem.map encodingBits).sum

/-- The bits an instruction writes to an open unit, from its operands: what each rule of 44_wr_bits.md,
45_wr_scalars_arrays.md and 47_strings.md says, and none where an argument check turns the command away. Padding is not
counted: WR.ALIGN, WR.FLUSH and WR.CLOSE count nothing. -/
def bitsOfCommand (i : Instr) (tx : Transaction) : Nat :=
  match i with
  | .wrBits w => if 1 ≤ w ∧ w ≤ 8 then w else 0
  | .wrByte | .wrBool => 8
  | .wrShort _ => 16
  | .wrInt _ | .wrUint _ | .wrFloat _ => 32
  | .wrLong _ | .wrDouble _ => 64
  | .wrBitsarr w => if 1 ≤ w ∧ w ≤ 8 then tx.omem.length * w else 0
  | .wrBytes _ =>
    if tx.a.toInt < 0 then 8 * tx.omem.length
    else if (tx.omem.length : Int) < tx.a.toInt then 0 else 8 * tx.a.toInt.toNat
  | .wrBoolarr => 8 * tx.omem.length
  | .wrShortarr _ => 16 * tx.omem.length
  | .wrIntarr _ | .wrUintarr _ | .wrFloatarr _ => 32 * tx.omem.length
  | .wrLongarr _ | .wrDoublearr _ => 64 * tx.omem.length
  | .wrString _ => if tx.omem.length = 1 then stringBits tx.omem else 0
  | .wrStrarr _ => stringBits tx.omem
  | _ => 0

/-- The bits a host command writes to an open unit; none where it is no command of WR on the port of WR. -/
def HostCommand.bitsWritten (c : HostCommand) : Nat :=
  if c.port = .wr then
    match decode c.tx.cw with
    | .ok i => bitsOfCommand i c.tx
    | .error _ => 0
  else 0

/-! ## Runs -/

/-- `n` steps, up to the first that answers no next state. -/
def runSteps : Nat → State → Host.Outcome State Fault Refusal
  | 0, s => .next s
  | n + 1, s =>
    match step s with
    | .next t => runSteps n t
    | o => o

/-- The command a host issues to run an instruction with operands A, L and OMEM. -/
def commandOf (i : Instr) (a l : Lane) (omem : List Item) : HostCommand := ⟨unitOf i, ⟨encode i, a, l, omem⟩⟩

/-- The host command, on its port, is the instruction. -/
def HostCommand.Is (c : HostCommand) (i : Instr) : Prop := decode c.tx.cw = .ok i ∧ unitOfWord c.tx.cw = c.port

end Sys2Proof.Machine
end

