-- ==== Sys2Proof/Certificates/Slice0/Obligations.lean ====
section
/-! DEFINITION. The statements for the provers, in the order of OBLIGATIONS.json. A premise `Inv` is the invariant of
`StepKeepsTheInvariant`; a premise on `closed` is the writer's life cycle (46_wr_align_flush.md R254). -/

open Sys2Proof Sys2Proof.Machine

/-! ## Encoding -/

/-- 30_encoding.md R92, R94, R95: the word of every instruction that a command word encodes decodes to that instruction. -/
def Obligations.DecodeOfEncode : Prop :=
  ∀ i : Instr, i.WellFormed = true → decode (encode i) = .ok i

/-- 30_encoding.md R92, R94, R95: a word that decodes is the word of the instruction it decodes to, so no bit of it is
dropped. -/
def Obligations.EncodeOfDecode : Prop :=
  ∀ (cw : CmdWord) (i : Instr), decode cw = .ok i → i.WellFormed = true ∧ encode i = cw

/-- 30_encoding.md R95, R97: a word decodes exactly where it is a word of one row of the opcode table, and it is never a word
of two. -/
def Obligations.DecodesExactlyTheTable : Prop :=
  ∀ cw : CmdWord, (tableRows.filter fun r => cw &&& r.mask == r.value).length = if (decode cw).isOk then 1 else 0

/-- Words written out from the fields of 30_encoding.md R92 and the opcodes of R94, one of each form, and words that R97 says
are illegal. -/
def Obligations.SampleWords : Prop :=
  decode 0b0000000100000100#16 = .ok (.rdBits 4) ∧
  decode 0b0000010110000000#16 = .ok (.rdInt .little) ∧
  decode 0b0000101000000000#16 = .ok (.rdString .big) ∧
  decode 0b0001000000000011#16 = .ok (.rdBitsarr 3) ∧
  decode 0b0010000100000000#16 = .ok .rdAlign ∧
  decode 0b1000010000000000#16 = .ok (.wrShort .big) ∧
  decode 0b1001000110000000#16 = .ok (.wrBytes .little) ∧
  decode 0b1010010000000000#16 = .ok .wrFlush ∧
  decode 0b1010100000000000#16 = .ok .wrGetcnt ∧
  decode 0b0000000000000000#16 = .error .unassignedOpcode ∧
  decode 0b1001010000000000#16 = .error .unassignedOpcode ∧
  decode 0b0000001000010000#16 = .error .reservedBits ∧
  decode 0b0000000110001000#16 = .error .unusedByteOrder ∧
  decode 0b1010010000000001#16 = .error .unusedWidth

/-! ## A step -/

/-- 30_encoding.md R90, R95, 60_exceptions.md R315: a step runs the instruction that the host's next command decodes to, on the
state in which the unit of the port has taken the command; taking it writes the unit's command port and, for RD, opens RMEM
(20_memory.md R62). With no command left the block keeps all its state. Two things here are the model's choice: the list of the
hosts' commands (log entry 1), and the counter of free values of RD, which accepting a command raises by one (log entry 7). No
other field changes. -/
def Obligations.StepRunsTheDecodedCommand : Prop :=
  (∀ (s : State) (c : HostCommand) (cs : List HostCommand) (i : Instr),
    s.host = c :: cs → decode c.tx.cw = .ok i → unitOfWord c.tx.cw = c.port →
      step s = exec i (accept c (s.withHost cs)) ∧
      (c.port = .wr → accept c (s.withHost cs) = { rd := s.rd, wr := { s.wr with cmd := c.tx }, host := cs }) ∧
      (c.port = .rd → ∃ xs, accept c (s.withHost cs) =
        { rd := { s.rd with cmd := c.tx, rmem := xs, draws := s.rd.draws + 1 }, wr := s.wr, host := cs })) ∧
  (∀ s : State, s.host = [] → step s = .next s)

/-- 30_encoding.md R95, R97: a word that does not decode, and a command of the other unit, is answered with IllegalCommand by
the unit of the port; no register of either unit changes. -/
def Obligations.IllegalCommandsChangeNothing : Prop :=
  ∀ (s : State) (c : HostCommand) (cs : List HostCommand), s.host = c :: cs →
    ((∃ e, decode c.tx.cw = .error e) ∨ unitOfWord c.tx.cw ≠ c.port) →
    ∃ t, step s = .next t ∧ t.host = cs ∧
      (c.port = .rd → t.wr = s.wr ∧ t.rd.rsp.st = .illegalCommand ∧ RdUnit.SameRegs { s.rd with cmd := c.tx } t.rd) ∧
      (c.port = .wr → t.rd = s.rd ∧ t.wr.rsp.st = .illegalCommand ∧ WrUnit.SameRegs { s.wr with cmd := c.tx } t.wr)

/-- 60_exceptions.md R308: from every state the block goes on to a next state, fault responses included, and takes the host's
commands one by one; the premise is that OMEM holds the kind of items the command takes (45_wr_scalars_arrays.md R229). -/
def Obligations.StepCompletes : Prop :=
  ∀ s : State,
    (∀ (c : HostCommand) (cs : List HostCommand) (i : Instr), s.host = c :: cs → c.Is i →
      OmemFits i (accept c (s.withHost cs))) →
    ∃ t, step s = .next t ∧ t.host = s.host.tail

/-- The model's choice of log entry 11, on 45_wr_scalars_arrays.md R229 "a string item cannot be presented to them": the one
stop of an instruction is the refusal of an OMEM of the other kind on an open writer. -/
def Obligations.StopsOnlyOnOmemItemKind : Prop :=
  ∀ (i : Instr) (s : State),
    (∀ t, exec i s ≠ .next t) →
      exec i s = .refused .omemItemKind ∧ s.wr.closed = false ∧ ¬ OmemFits i s

/-! ## Reading bits -/

/-- 40_rd_bits.md R129, the bit-stream law. -/
def Obligations.BitStreamLaw : Prop :=
  ∀ (s : State) (w : Nat), s.rd.Inv → 1 ≤ w → w ≤ 8 →
    ∃ v : RdUnit, exec (.rdBits w) s = .next (s.withRd v) ∧
      (v.rsp.st = .eof ↔ s.rd.pending = []) ∧
      v.pending = s.rd.pending.drop (min w s.rd.pending.length) ∧
      (s.rd.pending ≠ [] →
        v.rsp = ⟨.ok, BitVec.ofNat 64 (valueOfBits (s.rd.pending.take (min w s.rd.pending.length))),
          BitVec.ofNat 4 (min w s.rd.pending.length), 0⟩)

/-- 40_rd_bits.md R123 to R128: RD.BITS in full. With nothing pending, EOF and no other change; else the next bits, the first
of them at bit 0, their number, and the cursor and BYTECNT moved past them. -/
def Obligations.ReadBitField : Prop :=
  ∀ (s : State) (w : Nat), s.rd.Inv → 1 ≤ w → w ≤ 8 →
    (pendingBits s.rd = 0 →
      exec (.rdBits w) s = .next (s.withRd (s.rd.respond ⟨.eof, 0xFFFFFFFFFFFFFFFF#64, 0#4, 0⟩))) ∧
    (0 < pendingBits s.rd →
      exec (.rdBits w) s = .next (s.withRd ((s.rd.consume (min w (pendingBits s.rd))).respond
        ⟨.ok, BitVec.ofNat 64 (s.rd.bitsAt s.rd.bitPos (min w (pendingBits s.rd))),
          BitVec.ofNat 4 (min w (pendingBits s.rd)), 0⟩)))

/-- 40_rd_bits.md R130, the mirroring property, on a fresh unit. -/
def Obligations.MirroringExample : Prop :=
  exec (.rdBits 8) (State.construct .msb0 .lsb0 [0x80#8]) = .next ((State.construct .msb0 .lsb0 [0x80#8]).withRd
    ((RdUnit.construct .msb0 [0x80#8]).consume 8 |>.respond ⟨.ok, 0x01#64, 8#4, 0⟩)) ∧
  exec (.rdBits 8) (State.construct .lsb0 .lsb0 [0x80#8]) = .next ((State.construct .lsb0 .lsb0 [0x80#8]).withRd
    ((RdUnit.construct .lsb0 [0x80#8]).consume 8 |>.respond ⟨.ok, 0x80#64, 8#4, 0⟩))

/-- 30_encoding.md R93, 60_exceptions.md R301: the four commands with a width raise InvalidArgument for W outside 1..8, before
any state change. -/
def Obligations.WidthOutsideRange : Prop :=
  ∀ (s : State) (w : Nat), ¬ (1 ≤ w ∧ w ≤ 8) →
    RdFaults (exec (.rdBits w) s) s .invalidArgument s.rd ∧
    RdFaults (exec (.rdBitsarr w) s) s .invalidArgument s.rd ∧
    (s.wr.closed = false →
      WrFaults (exec (.wrBits w) s) s .invalidArgument s.wr ∧
      WrFaults (exec (.wrBitsarr w) s) s .invalidArgument s.wr)

/-! ## Reading values -/

/-- 41_rd_scalars.md R142 to R149: RD.BYTE, RD.BOOL, RD.USHORT, RD.INT, RD.UINT, RD.LONG, RD.FLOAT and RD.DOUBLE with enough
bits pending, at any bit position. -/
def Obligations.ReadScalar : Prop :=
  ∀ (i : Instr) (sh : ReadShape) (s : State), scalarRead i = some sh → s.rd.Inv →
    8 * sh.bytes ≤ pendingBits s.rd →
    exec i s = .next (s.withRd ((s.rd.consume (8 * sh.bytes)).respond (okResponse (sh.laneAt s.rd s.rd.bitPos))))

/-- 41_rd_scalars.md R140, R141: the same commands cut off by the end of the source: EndOfData, and every bit that was left is
consumed. -/
def Obligations.ReadScalarCutOff : Prop :=
  ∀ (i : Instr) (sh : ReadShape) (s : State), scalarRead i = some sh → s.rd.Inv →
    pendingBits s.rd < 8 * sh.bytes →
    RdFaults (exec i s) s .endOfData (s.rd.consume (pendingBits s.rd))

/-- 42_rd_arrays.md R160, R161, R167 to R175: the nine array reads over whole-byte elements in fixed mode, L and DETLIM
untouched. -/
def Obligations.ReadArrayFixed : Prop :=
  ∀ (i : Instr) (sh : ReadShape) (s : State), arrayRead i = some sh → s.rd.Inv → 0 ≤ s.rd.cmd.a.toInt →
    s.rd.cmd.a.toInt.toNat * (8 * sh.bytes) ≤ pendingBits s.rd →
    exec i s = .next (s.withRd
      (((s.rd.consume (s.rd.cmd.a.toInt.toNat * (8 * sh.bytes))).setRmem
        (leftInRmem i (s.rd.numericElements sh s.rd.cmd.a.toInt.toNat))).respond
          (arrayResponse s.rd.cmd.a.toInt.toNat)))

/-- 42_rd_arrays.md R160, R178: the same reads short of items: EndOfData, every bit that was left is consumed, DETLIM
unchanged. -/
def Obligations.ReadArrayFixedCutOff : Prop :=
  ∀ (i : Instr) (sh : ReadShape) (s : State), arrayRead i = some sh → s.rd.Inv → 0 ≤ s.rd.cmd.a.toInt →
    pendingBits s.rd < s.rd.cmd.a.toInt.toNat * (8 * sh.bytes) →
    RdFaults (exec i s) s .endOfData (s.rd.consume (pendingBits s.rd))

/-- 42_rd_arrays.md R161 to R164: the nine array reads in until-exhaustion mode that complete. With a soft cap of N and at
least N whole elements pending: N items, DETLIM 1. Where the limiter does not interrupt and the source holds whole elements
only: all of them, DETLIM 0. -/
def Obligations.ReadArrayUntilExhaustion : Prop :=
  ∀ (i : Instr) (sh : ReadShape) (s : State), arrayRead i = some sh → s.rd.Inv → s.rd.cmd.a.toInt < 0 →
    (s.rd.cmd.l.toInt < 0 → -s.rd.cmd.l.toInt ≤ ((pendingBits s.rd / (8 * sh.bytes) : Nat) : Int) →
      exec i s = .next (s.withRd
        ((((s.rd.consume ((-s.rd.cmd.l.toInt).toNat * (8 * sh.bytes))).setDetLim true).setRmem
          (leftInRmem i (s.rd.numericElements sh (-s.rd.cmd.l.toInt).toNat))).respond
            (arrayResponse (-s.rd.cmd.l.toInt).toNat)))) ∧
    ((0 < s.rd.cmd.l.toInt → ((pendingBits s.rd / (8 * sh.bytes) : Nat) : Int) ≤ s.rd.cmd.l.toInt) →
      (s.rd.cmd.l.toInt < 0 → ((pendingBits s.rd / (8 * sh.bytes) : Nat) : Int) < -s.rd.cmd.l.toInt) →
      pendingBits s.rd % (8 * sh.bytes) = 0 →
      exec i s = .next (s.withRd
        ((((s.rd.consume (pendingBits s.rd)).setDetLim false).setRmem
          (leftInRmem i (s.rd.numericElements sh (pendingBits s.rd / (8 * sh.bytes))))).respond
            (arrayResponse (pendingBits s.rd / (8 * sh.bytes))))))

/-- 42_rd_arrays.md R161, R164, R178, 60_exceptions.md R304: the same reads that fault. A hard cap of N and more than N whole
elements pending: ArraySizeExceeded when item N+1 has been read. Where the limiter does not interrupt and the last element is
cut off: EndOfData with everything consumed. DETLIM is 0 after either. -/
def Obligations.ReadArrayUntilExhaustionFaults : Prop :=
  ∀ (i : Instr) (sh : ReadShape) (s : State), arrayRead i = some sh → s.rd.Inv → s.rd.cmd.a.toInt < 0 →
    (0 < s.rd.cmd.l.toInt → s.rd.cmd.l.toInt < ((pendingBits s.rd / (8 * sh.bytes) : Nat) : Int) →
      RdFaults (exec i s) s .arraySizeExceeded
        ((s.rd.consume ((s.rd.cmd.l.toInt.toNat + 1) * (8 * sh.bytes))).setDetLim false)) ∧
    ((0 < s.rd.cmd.l.toInt → ((pendingBits s.rd / (8 * sh.bytes) : Nat) : Int) ≤ s.rd.cmd.l.toInt) →
      (s.rd.cmd.l.toInt < 0 → ((pendingBits s.rd / (8 * sh.bytes) : Nat) : Int) < -s.rd.cmd.l.toInt) →
      pendingBits s.rd % (8 * sh.bytes) ≠ 0 →
      RdFaults (exec i s) s .endOfData ((s.rd.consume (pendingBits s.rd)).setDetLim false))

/-- 42_rd_arrays.md R165, R166, R178: RD.BITSARR in fixed mode. A short last group is an item; a group with no bit left is
EndOfData. -/
def Obligations.ReadBitGroupsFixed : Prop :=
  ∀ (s : State) (w : Nat), s.rd.Inv → 1 ≤ w → w ≤ 8 → 0 ≤ s.rd.cmd.a.toInt →
    (s.rd.cmd.a.toInt.toNat * w < pendingBits s.rd + w →
      exec (.rdBitsarr w) s = .next (s.withRd
        (((s.rd.consume (min (s.rd.cmd.a.toInt.toNat * w) (pendingBits s.rd))).setRmem
          (s.rd.bitGroups w (pendingBits s.rd) s.rd.cmd.a.toInt.toNat)).respond
            (arrayResponse s.rd.cmd.a.toInt.toNat)))) ∧
    (pendingBits s.rd + w ≤ s.rd.cmd.a.toInt.toNat * w →
      RdFaults (exec (.rdBitsarr w) s) s .endOfData (s.rd.consume (pendingBits s.rd)))

/-- 42_rd_arrays.md R161 to R166: RD.BITSARR in until-exhaustion mode, `q` being the number of groups pending with the short
one: stopped by a hard cap, by a soft cap, or by the end of the source. -/
def Obligations.ReadBitGroupsUntilExhaustion : Prop :=
  ∀ (s : State) (w q : Nat), s.rd.Inv → 1 ≤ w → w ≤ 8 → s.rd.cmd.a.toInt < 0 →
    q = (pendingBits s.rd + w - 1) / w →
    (0 < s.rd.cmd.l.toInt → s.rd.cmd.l.toInt < (q : Int) →
      RdFaults (exec (.rdBitsarr w) s) s .arraySizeExceeded
        ((s.rd.consume (min ((s.rd.cmd.l.toInt.toNat + 1) * w) (pendingBits s.rd))).setDetLim false)) ∧
    (s.rd.cmd.l.toInt < 0 → -s.rd.cmd.l.toInt ≤ (q : Int) →
      exec (.rdBitsarr w) s = .next (s.withRd
        ((((s.rd.consume (min ((-s.rd.cmd.l.toInt).toNat * w) (pendingBits s.rd))).setDetLim true).setRmem
          (s.rd.bitGroups w (pendingBits s.rd) (-s.rd.cmd.l.toInt).toNat)).respond
            (arrayResponse (-s.rd.cmd.l.toInt).toNat)))) ∧
    ((0 < s.rd.cmd.l.toInt → (q : Int) ≤ s.rd.cmd.l.toInt) → (s.rd.cmd.l.toInt < 0 → (q : Int) < -s.rd.cmd.l.toInt) →
      exec (.rdBitsarr w) s = .next (s.withRd
        ((((s.rd.consume (pendingBits s.rd)).setDetLim false).setRmem
          (s.rd.bitGroups w (pendingBits s.rd) q)).respond (arrayResponse q))))

/-! ## Reading strings -/

/-- 47_strings.md R263 to R266: RD.STRING over a well-formed encoding, of the shortest length or not, at any bit position. -/
def Obligations.ReadString : Prop :=
  ∀ (s : State) (bo : ByteOrder) (x : StrItem) (bs : List Byte), s.rd.Inv → StringWire bo x bs → s.rd.Upcoming bs →
    exec (.rdString bo) s = .next (s.withRd
      (((s.rd.consume (8 * bs.length)).setRmem [.str x]).respond ⟨.ok, stringVal x, 0#4, 1⟩))

/-- 47_strings.md R264, R266: RD.STRING over a first byte that is no prefix: MalformedWireData with that byte in VAL[7:0], the
byte consumed. Over anything else that is no encoding: EndOfData, and every bit that was left is consumed. -/
def Obligations.ReadStringFaults : Prop :=
  ∀ (s : State) (bo : ByteOrder), s.rd.Inv →
    (∀ b : Byte, b = 0x80#8 ∨ (0x85 ≤ b.toNat ∧ b.toNat ≤ 0xFE) → s.rd.Upcoming [b] →
      RdFaults (exec (.rdString bo) s) s .malformedWireData (s.rd.consume 8) ∧
      ∀ t, exec (.rdString bo) s = .next t → low8 t.rd.rsp.val = b) ∧
    ((∀ b : Byte, b = 0x80#8 ∨ (0x85 ≤ b.toNat ∧ b.toNat ≤ 0xFE) → ¬ s.rd.Upcoming [b]) →
      (∀ (x : StrItem) (bs : List Byte), StringWire bo x bs → ¬ s.rd.Upcoming bs) →
      RdFaults (exec (.rdString bo) s) s .endOfData (s.rd.consume (pendingBits s.rd)))

/-- 47_strings.md R268: RD.STRARR over encodings in a row: in fixed mode; stopped by a soft cap; or to the end of the source. -/
def Obligations.ReadStringArray : Prop :=
  ∀ (s : State) (bo : ByteOrder) (xs : List StrItem) (wires : List (List Byte)), s.rd.Inv →
    List.Forall₂ (StringWire bo) xs wires → s.rd.Upcoming wires.flatten →
    (s.rd.cmd.a.toInt = (xs.length : Int) →
      exec (.rdStrarr bo) s = .next (s.withRd
        (((s.rd.consume (8 * wires.flatten.length)).setRmem (xs.map .str)).respond (arrayResponse xs.length)))) ∧
    (s.rd.cmd.a.toInt < 0 → s.rd.cmd.l.toInt < 0 → -s.rd.cmd.l.toInt = (xs.length : Int) →
      exec (.rdStrarr bo) s = .next (s.withRd
        ((((s.rd.consume (8 * wires.flatten.length)).setDetLim true).setRmem (xs.map .str)).respond
          (arrayResponse xs.length)))) ∧
    (s.rd.cmd.a.toInt < 0 → (0 < s.rd.cmd.l.toInt → (xs.length : Int) ≤ s.rd.cmd.l.toInt) →
      (s.rd.cmd.l.toInt < 0 → (xs.length : Int) < -s.rd.cmd.l.toInt) → 8 * wires.flatten.length = pendingBits s.rd →
      exec (.rdStrarr bo) s = .next (s.withRd
        ((((s.rd.consume (8 * wires.flatten.length)).setDetLim false).setRmem (xs.map .str)).respond
          (arrayResponse xs.length))))

/-- 47_strings.md R264, R268, 42_rd_arrays.md R160, R164, R178: RD.STRARR that faults after the strings `xs`: one string more
than a hard cap; or, where it asks for another string, a first byte that is no prefix, which VAL[7:0] holds
(30_encoding.md R96), or no whole encoding, which is EndOfData: no bit left in fixed mode, 1 to 7 bits left, or a string cut off
in its length bytes or its payload. -/
def Obligations.ReadStringArrayFaults : Prop :=
  ∀ (s : State) (bo : ByteOrder) (xs : List StrItem) (wires : List (List Byte)), s.rd.Inv →
    List.Forall₂ (StringWire bo) xs wires → s.rd.Upcoming wires.flatten →
    (s.rd.cmd.a.toInt < 0 → 0 < s.rd.cmd.l.toInt → (xs.length : Int) = s.rd.cmd.l.toInt + 1 →
      RdFaults (exec (.rdStrarr bo) s) s .arraySizeExceeded
        ((s.rd.consume (8 * wires.flatten.length)).setDetLim false)) ∧
    (((0 ≤ s.rd.cmd.a.toInt ∧ (xs.length : Int) < s.rd.cmd.a.toInt) ∨
      (s.rd.cmd.a.toInt < 0 ∧ 8 * wires.flatten.length < pendingBits s.rd ∧
        (0 < s.rd.cmd.l.toInt → (xs.length : Int) ≤ s.rd.cmd.l.toInt) ∧
        (s.rd.cmd.l.toInt < 0 → (xs.length : Int) < -s.rd.cmd.l.toInt))) →
      (∀ b : Byte, b = 0x80#8 ∨ (0x85 ≤ b.toNat ∧ b.toNat ≤ 0xFE) → s.rd.Upcoming (wires.flatten ++ [b]) →
        RdFaults (exec (.rdStrarr bo) s) s .malformedWireData
          ((s.rd.consume (8 * (wires.flatten.length + 1))).setDetLim (decide (0 ≤ s.rd.cmd.a.toInt) && s.rd.detLim)) ∧
        ∀ t, exec (.rdStrarr bo) s = .next t → low8 t.rd.rsp.val = b) ∧
      ((∀ b : Byte, b = 0x80#8 ∨ (0x85 ≤ b.toNat ∧ b.toNat ≤ 0xFE) → ¬ s.rd.Upcoming (wires.flatten ++ [b])) →
        (∀ (x : StrItem) (bs : List Byte), StringWire bo x bs → ¬ s.rd.Upcoming (wires.flatten ++ bs)) →
        RdFaults (exec (.rdStrarr bo) s) s .endOfData
          ((s.rd.consume (pendingBits s.rd)).setDetLim (decide (0 ≤ s.rd.cmd.a.toInt) && s.rd.detLim))))

/-! ## Reader alignment, mark and reset -/

/-- 43_rd_align_mark.md R191: RD.ALIGNBYTE drops the rest of a partly read byte and counts it; with none it changes nothing. -/
def Obligations.AlignByteDropsTheRest : Prop :=
  ∀ s : State, s.rd.Inv →
    exec .rdAlignbyte s = .next (s.withRd { s.rd with
      bitBuf := 0#8
      bitCnt := 0#4
      byteCnt := s.rd.byteCnt + (if s.rd.bitCnt = 0#4 then 0#64 else 1#64)
      rsp := okResponse 0#64 })

/-- 43_rd_align_mark.md R192: RD.ALIGN refuses A <= 0; else it drops the rest of a partly read byte and skips bytes up to the
first at which BYTECNT is a multiple of A, or to the end of the source, which is EndOfData. -/
def Obligations.AlignReader : Prop :=
  ∀ s : State, s.rd.Inv →
    (s.rd.cmd.a.toInt ≤ 0 → RdFaults (exec .rdAlign s) s .invalidArgument s.rd) ∧
    (0 < s.rd.cmd.a.toInt → ∀ k : Nat, s.rd.bitCnt.toNat + 8 * k ≤ pendingBits s.rd →
      ((s.rd.consume s.rd.bitCnt.toNat).byteCnt + BitVec.ofNat 64 k).toNat % s.rd.cmd.a.toInt.toNat = 0 →
      (∀ j, j < k →
        ((s.rd.consume s.rd.bitCnt.toNat).byteCnt + BitVec.ofNat 64 j).toNat % s.rd.cmd.a.toInt.toNat ≠ 0) →
      exec .rdAlign s = .next (s.withRd ((s.rd.consume (s.rd.bitCnt.toNat + 8 * k)).respond (okResponse 0#64)))) ∧
    (0 < s.rd.cmd.a.toInt →
      (∀ j, s.rd.bitCnt.toNat + 8 * j ≤ pendingBits s.rd →
        ((s.rd.consume s.rd.bitCnt.toNat).byteCnt + BitVec.ofNat 64 j).toNat % s.rd.cmd.a.toInt.toNat ≠ 0) →
      RdFaults (exec .rdAlign s) s .endOfData (s.rd.consume (pendingBits s.rd)))

/-- 43_rd_align_mark.md R195: RD.MARK records the position, the limit and the bit buffer; a negative limit is refused before
any state change. -/
def Obligations.MarkRecordsThePosition : Prop :=
  ∀ s : State,
    (0 ≤ s.rd.cmd.a.toInt → exec .rdMark s = .next (s.withRd { s.rd with
      markValid := true
      markPos := s.rd.srcPos
      markLim := s.rd.cmd.a
      snapBitBuf := s.rd.bitBuf
      snapBitCnt := s.rd.bitCnt
      snapByteCnt := s.rd.byteCnt
      rsp := okResponse 0#64 })) ∧
    (s.rd.cmd.a.toInt < 0 → RdFaults (exec .rdMark s) s .invalidArgument s.rd)

/-- 43_rd_align_mark.md R194, R196: RD.RESET restores the four registers together while the mark holds, and is refused with
IllegalState and no change where no mark is set or more than MARKLIM bytes were consumed since. -/
def Obligations.ResetRestoresTheMark : Prop :=
  ∀ s : State,
    (s.rd.markValid = true → (s.rd.srcPos : Int) - s.rd.markPos ≤ s.rd.markLim.toNat →
      exec .rdReset s = .next (s.withRd { s.rd with
        srcPos := s.rd.markPos
        bitBuf := s.rd.snapBitBuf
        bitCnt := s.rd.snapBitCnt
        byteCnt := s.rd.snapByteCnt
        rsp := okResponse 0#64 })) ∧
    (s.rd.markValid = false ∨ (s.rd.markLim.toNat : Int) < (s.rd.srcPos : Int) - s.rd.markPos →
      RdFaults (exec .rdReset s) s .illegalState s.rd)

/-! ## Status and counters -/

/-- 48_status.md R281, R283 to R288: every get command answers its register and changes nothing but the response, WR.GETCNT on
a closed unit too; RD.SETDL writes DETLIM alone. -/
def Obligations.StatusCommands : Prop :=
  ∀ s : State,
    exec .rdGetcnt s = .next (s.withRd { s.rd with rsp := ⟨.ok, s.rd.byteCnt, 0#4, 0⟩ }) ∧
    exec .rdGetord s = .next (s.withRd { s.rd with
      rsp := ⟨.ok, if s.rd.bitOrder = .lsb0 then 0#64 else 1#64, 0#4, 0⟩ }) ∧
    exec .rdGetbuf s = .next (s.withRd { s.rd with rsp := ⟨.ok, BitVec.ofNat 64 s.rd.bitBuf.toNat, 0#4, 0⟩ }) ∧
    exec .rdGetnbits s = .next (s.withRd { s.rd with rsp := ⟨.ok, BitVec.ofNat 64 s.rd.bitCnt.toNat, 0#4, 0⟩ }) ∧
    exec .rdGetdl s = .next (s.withRd { s.rd with rsp := ⟨.ok, if s.rd.detLim then 1#64 else 0#64, 0#4, 0⟩ }) ∧
    exec .rdSetdl s = .next (s.withRd { s.rd with
      detLim := decide (s.rd.cmd.a ≠ 0#64)
      rsp := ⟨.ok, 0#64, 0#4, 0⟩ }) ∧
    exec .wrGetcnt s = .next (s.withWr { s.wr with rsp := ⟨.ok, s.wr.byteCnt, 0#4, 0⟩ })

/-- 48_status.md R284, R285: between commands RD.GETBUF answers 0..127 and RD.GETNBITS 0..7, and the buffer holds no bit at
or above the count. -/
def Obligations.BufferReadsInRange : Prop :=
  ∀ s t u : State, s.rd.Inv → exec .rdGetbuf s = .next t → exec .rdGetnbits s = .next u →
    t.rd.rsp.val.toNat < 2 ^ u.rd.rsp.val.toNat ∧ u.rd.rsp.val.toNat ≤ 7

/-- 48_status.md R282, R289: RSTCNT of either unit clears BYTECNT; the parameter RSTCNT_CLEARS_BITS alone decides whether the
pending bits go too. The statement holds for both values of the parameter (log entry 6). -/
def Obligations.CounterReset : Prop :=
  ∀ s : State,
    exec .rdRstcnt s = .next (s.withRd { s.rd with
      byteCnt := 0#64
      bitBuf := if Config.rstcntClearsBits then 0#8 else s.rd.bitBuf
      bitCnt := if Config.rstcntClearsBits then 0#4 else s.rd.bitCnt
      rsp := okResponse 0#64 }) ∧
    (s.wr.closed = false → exec .wrRstcnt s = .next (s.withWr { s.wr with
      byteCnt := 0#64
      bitBuf := if Config.rstcntClearsBits then 0#8 else s.wr.bitBuf
      bitCnt := if Config.rstcntClearsBits then 0#4 else s.wr.bitCnt
      rsp := okResponse 0#64 }))

/-! ## Writing -/

/-- 44_wr_bits.md R214, the bit-stream law of the writer: WR.BITS appends A[0] to A[W-1] to the written stream and changes
nothing else of it. -/
def Obligations.WrittenStreamLaw : Prop :=
  ∀ (s : State) (w : Nat), s.wr.Inv → s.wr.closed = false → 1 ≤ w → w ≤ 8 →
    ∃ v : WrUnit, exec (.wrBits w) s = .next (s.withWr v) ∧
      Wrote s.wr v ((List.range w).map s.wr.cmd.a.getLsbD) ∧ v.rsp = okResponse 0#64

/-- 45_wr_scalars_arrays.md R220 to R228: WR.BYTE, WR.BOOL, WR.SHORT, WR.INT, WR.UINT, WR.LONG, WR.FLOAT and WR.DOUBLE append
the bytes of A's low bits in the byte order of the command, at any bit position. -/
def Obligations.WriteScalar : Prop :=
  ∀ (i : Instr) (f : Lane → List Byte) (s : State), scalarWrite i = some f → s.wr.Inv → s.wr.closed = false →
    ∃ v : WrUnit, exec i s = .next (s.withWr v) ∧ Wrote s.wr v (bytesBits (f s.wr.cmd.a)) ∧ v.rsp = okResponse 0#64

/-- 45_wr_scalars_arrays.md R229, R230: WR.BITSARR appends W bits of every item in index order. -/
def Obligations.WriteBitGroups : Prop :=
  ∀ (s : State) (w : Nat) (xs : List Lane), s.wr.Inv → s.wr.closed = false → 1 ≤ w → w ≤ 8 →
    s.wr.cmd.omem = xs.map .num →
    ∃ v : WrUnit, exec (.wrBitsarr w) s = .next (s.withWr v) ∧
      Wrote s.wr v (xs.flatMap fun x => (List.range w).map x.getLsbD) ∧ v.rsp = okResponse (BitVec.ofNat 64 xs.length)

/-- 45_wr_scalars_arrays.md R231: WR.BYTES appends the low bytes of the first A items, or of all for a negative A, last first
for LITTLE_ENDIAN. -/
def Obligations.WriteBytes : Prop :=
  ∀ (s : State) (bo : ByteOrder) (xs : List Lane) (n : Nat), s.wr.Inv → s.wr.closed = false →
    s.wr.cmd.omem = xs.map .num → s.wr.cmd.a.toInt ≤ (xs.length : Int) →
    n = (if s.wr.cmd.a.toInt < 0 then xs.length else s.wr.cmd.a.toInt.toNat) →
    ∃ v : WrUnit, exec (.wrBytes bo) s = .next (s.withWr v) ∧
      Wrote s.wr v (bytesBits ((if bo = .big then xs.take n else (xs.take n).reverse).map
        fun x => BitVec.ofNat 8 x.toNat)) ∧
      v.rsp = okResponse (BitVec.ofNat 64 n)

/-- 45_wr_scalars_arrays.md R229, R232 to R238: WR.BOOLARR, WR.SHORTARR, WR.INTARR, WR.UINTARR, WR.LONGARR, WR.FLOATARR and
WR.DOUBLEARR append the bytes of every item in index order. -/
def Obligations.WriteArray : Prop :=
  ∀ (i : Instr) (f : Lane → List Byte) (s : State) (xs : List Lane), arrayWrite i = some f → s.wr.Inv →
    s.wr.closed = false → s.wr.cmd.omem = xs.map .num →
    ∃ v : WrUnit, exec i s = .next (s.withWr v) ∧ Wrote s.wr v (bytesBits (xs.flatMap f)) ∧
      v.rsp = okResponse (BitVec.ofNat 64 xs.length)

/-- 47_strings.md R262, R263, R267, R269: WR.STRING and WR.STRARR append the encodings of the strings in index order, each the
shortest of all its encodings. -/
def Obligations.WriteStrings : Prop :=
  ∀ (s : State) (bo : ByteOrder) (xs : List StrItem), s.wr.Inv → s.wr.closed = false →
    s.wr.cmd.omem = xs.map .str → (∀ x ∈ xs, ∀ p, x = .present p → p.length ≤ 0xFFFFFFFF) →
    ∃ wires : List (List Byte), List.Forall₂ (ShortestWire bo) xs wires ∧
      (∃ v : WrUnit, exec (.wrStrarr bo) s = .next (s.withWr v) ∧
        Wrote s.wr v (bytesBits wires.flatten) ∧ v.rsp = okResponse (BitVec.ofNat 64 xs.length)) ∧
      (xs.length = 1 → ∃ v : WrUnit, exec (.wrString bo) s = .next (s.withWr v) ∧
        Wrote s.wr v (bytesBits wires.flatten) ∧ v.rsp = okResponse 0#64)

/-- 60_exceptions.md R301, R306, 45_wr_scalars_arrays.md R231, R239, 46_wr_align_flush.md R251, 47_strings.md R267, R269: the
argument checks of an open writer raise InvalidArgument before any state change. -/
def Obligations.WriterArgumentChecks : Prop :=
  ∀ (s : State) (bo : ByteOrder), s.wr.closed = false →
    ((s.wr.cmd.omem.length : Int) < s.wr.cmd.a.toInt → WrFaults (exec (.wrBytes bo) s) s .invalidArgument s.wr) ∧
    (s.wr.cmd.a.toInt ≤ 0 → WrFaults (exec .wrAlign s) s .invalidArgument s.wr) ∧
    (s.wr.cmd.omem.length ≠ 1 → WrFaults (exec (.wrString bo) s) s .invalidArgument s.wr) ∧
    (∀ p : List Byte, s.wr.cmd.omem = [.str (.present p)] → 0xFFFFFFFF < p.length →
      WrFaults (exec (.wrString bo) s) s .invalidArgument s.wr) ∧
    (∀ (xs : List StrItem) (p : List Byte), s.wr.cmd.omem = xs.map .str → .present p ∈ xs → 0xFFFFFFFF < p.length →
      WrFaults (exec (.wrStrarr bo) s) s .invalidArgument s.wr)

/-- 46_wr_align_flush.md R254, the closed rule: every WR command but WR.GETCNT is IllegalState and changes no state, bad
arguments or not; WR.GETCNT works; an illegal word is still IllegalCommand; nothing reopens the unit. -/
def Obligations.ClosedRule : Prop :=
  ∀ s : State, s.wr.closed = true →
    (∀ i : Instr, unitOf i = .wr → i ≠ .wrGetcnt → WrFaults (exec i s) s .illegalState s.wr) ∧
    exec .wrGetcnt s = .next (s.withWr { s.wr with rsp := ⟨.ok, s.wr.byteCnt, 0#4, 0⟩ }) ∧
    (∀ (c : HostCommand) (cs : List HostCommand) (t : State), s.host = c :: cs → c.port = .wr →
      ((∃ e, decode c.tx.cw = .error e) ∨ unitOfWord c.tx.cw = .rd) → step s = .next t →
      t.wr.rsp.st = .illegalCommand) ∧
    (∀ t : State, step s = .next t → t.wr.closed = true)

/-- 46_wr_align_flush.md R250, R251: WR.ALIGN fills the byte in progress with zero bits and appends fewer than A zero bytes, up
to the first at which BYTECNT is a multiple of A. -/
def Obligations.AlignWriter : Prop :=
  ∀ s : State, s.wr.Inv → s.wr.closed = false → 0 < s.wr.cmd.a.toInt →
    ∃ (v : WrUnit) (k : Nat), exec .wrAlign s = .next (s.withWr v) ∧ (k : Int) < s.wr.cmd.a.toInt ∧
      Wrote s.wr v (List.replicate ((8 - s.wr.bitCnt.toNat) % 8 + 8 * k) false) ∧ v.bitCnt = 0#4 ∧
      v.byteCnt.toNat % s.wr.cmd.a.toInt.toNat = 0 ∧
      (∀ j, j < k → (s.wr.byteCnt + (if s.wr.bitCnt = 0#4 then 0#64 else 1#64) + BitVec.ofNat 64 j).toNat
        % s.wr.cmd.a.toInt.toNat ≠ 0) ∧
      v.rsp = okResponse 0#64

/-- 46_wr_align_flush.md R250, R252, R253: WR.FLUSH and WR.CLOSE fill the byte in progress with zero bits and publish the whole
sink; WR.CLOSE closes the unit. -/
def Obligations.FlushAndClose : Prop :=
  ∀ s : State, s.wr.Inv → s.wr.closed = false →
    (∃ v : WrUnit, exec .wrFlush s = .next (s.withWr v) ∧
      Wrote s.wr { v with flushed := s.wr.flushed } (List.replicate ((8 - s.wr.bitCnt.toNat) % 8) false) ∧
      v.bitCnt = 0#4 ∧ v.flushed = v.snk.length ∧ v.rsp = okResponse 0#64) ∧
    (∃ v : WrUnit, exec .wrClose s = .next (s.withWr v) ∧
      Wrote s.wr { v with flushed := s.wr.flushed, closed := false }
        (List.replicate ((8 - s.wr.bitCnt.toNat) % 8) false) ∧
      v.bitCnt = 0#4 ∧ v.flushed = v.snk.length ∧ v.closed = true ∧ v.rsp = okResponse 0#64)

/-- 45_wr_scalars_arrays.md R240: a write of N whole bytes raises BYTECNT by N and leaves BITCNT as it was; WR.BITSARR raises
it by floor((BITCNT + OLEN*W) / 8) and leaves the remainder pending. -/
def Obligations.WriteByteCounts : Prop :=
  ∀ s : State, s.wr.Inv → s.wr.closed = false →
    (∀ (i : Instr) (f : Lane → List Byte) (t : State), scalarWrite i = some f → exec i s = .next t →
      t.wr.byteCnt = s.wr.byteCnt + BitVec.ofNat 64 (f s.wr.cmd.a).length ∧ t.wr.bitCnt = s.wr.bitCnt) ∧
    (∀ (i : Instr) (f : Lane → List Byte) (xs : List Lane) (t : State), arrayWrite i = some f →
      s.wr.cmd.omem = xs.map .num → exec i s = .next t →
      t.wr.byteCnt = s.wr.byteCnt + BitVec.ofNat 64 (xs.flatMap f).length ∧ t.wr.bitCnt = s.wr.bitCnt) ∧
    (∀ (w : Nat) (xs : List Lane) (t : State), 1 ≤ w → w ≤ 8 → s.wr.cmd.omem = xs.map .num →
      exec (.wrBitsarr w) s = .next t →
      t.wr.byteCnt = s.wr.byteCnt + BitVec.ofNat 64 ((s.wr.bitCnt.toNat + xs.length * w) / 8) ∧
      t.wr.bitCnt.toNat = (s.wr.bitCnt.toNat + xs.length * w) % 8)

/-- 47_strings.md R272, the size law. -/
def Obligations.StringSizeLaw : Prop :=
  ∀ (s t : State) (bo : ByteOrder) (x : StrItem) (n : Nat), s.wr.Inv → s.wr.closed = false →
    s.wr.cmd.omem = [.str x] → exec (.wrString bo) s = .next t → t.wr.rsp.st = .ok →
    (x = .absent → n = 1) →
    (∀ p : List Byte, x = .present p →
      n = 1 + (if p.length < 0x80 then 0 else if p.length ≤ 0xFF then 1 else if p.length ≤ 0xFFFF then 2
        else if p.length ≤ 0xFFFFFF then 3 else 4) + p.length) →
    t.wr.snk.length = s.wr.snk.length + n ∧ t.wr.byteCnt = s.wr.byteCnt + BitVec.ofNat 64 n ∧
      t.wr.bitCnt = s.wr.bitCnt

/-! ## The whole machine -/

/-- Every step keeps the invariant: the bit buffers of both units (10_state.md R22, R23, R24), the cursor of the source (R30), a
mark that is set (R34, R35, 43_rd_align_mark.md R193), FLUSHED (R37) and the finality of a closed sink (46_wr_align_flush.md
R253). -/
def Obligations.StepKeepsTheInvariant : Prop :=
  ∀ s t : State, s.Inv → step s = .next t → t.Inv

/-- The state after construction has the invariant, for every bit order and every source, State.reset among them. -/
def Obligations.ConstructionHasTheInvariant : Prop :=
  (∀ (r w : BitOrder) (src : List Byte), (State.construct r w src).Inv) ∧ State.reset.Inv

/-- 10_state.md R40, 70_reset_and_hazards.md R330, R331: what construction leaves, that a reserved strap is refused, that no
strap is LSB0, and that the mark registers cannot be read before a mark. That RMEM and OMEM, which R40 gives no content, are
empty lists is the model's choice of log entry 5; what State.reset takes for the source is the model's choice of log entry 3. -/
def Obligations.ConstructionValues : Prop :=
  (∀ (r w : BitOrder) (src : List Byte),
    constructStrapped (bitOrderCode r) (bitOrderCode w) src = some (State.construct r w src) ∧
    (State.construct r w src).rd.bitOrder = r ∧ (State.construct r w src).wr.bitOrder = w ∧
    (State.construct r w src).rd.bitBuf = 0#8 ∧ (State.construct r w src).wr.bitBuf = 0#8 ∧
    (State.construct r w src).rd.bitCnt = 0#4 ∧ (State.construct r w src).wr.bitCnt = 0#4 ∧
    (State.construct r w src).rd.byteCnt = 0#64 ∧ (State.construct r w src).wr.byteCnt = 0#64 ∧
    (State.construct r w src).rd.detLim = false ∧ (State.construct r w src).rd.srcPos = 0 ∧
    (State.construct r w src).rd.markValid = false ∧ (State.construct r w src).wr.closed = false ∧
    (State.construct r w src).wr.snk = [] ∧ (State.construct r w src).wr.flushed = 0 ∧
    (State.construct r w src).rd.src = src ∧ (State.construct r w src).rd.rmem = [] ∧
    (State.construct r w src).wr.cmd.omem = [] ∧
    RdFaults (exec .rdReset (State.construct r w src)) (State.construct r w src) .illegalState
      (State.construct r w src).rd) ∧
  (∀ (r w : BitVec 2) (src : List Byte),
    constructStrapped r w src = none ↔ r = 0b10#2 ∨ r = 0b11#2 ∨ w = 0b10#2 ∨ w = 0b11#2) ∧
  State.reset = State.construct .lsb0 .lsb0 []

/-- 10_state.md R27, 20_memory.md R60, 00_scope.md R7, 93_implementation_defined.md U6: no step changes a bit order or the content
of the source. A run that starts within RMEM_MAX and OMEM_MAX stays within them, and within them no array read or string read
that answers OK makes more than RMEM_MAX items (20_memory.md R62), whatever the parameters are (log entry 9). -/
def Obligations.StrapsAndSourceFixed : Prop :=
  ∀ s t : State, step s = .next t →
    t.rd.bitOrder = s.rd.bitOrder ∧ t.wr.bitOrder = s.wr.bitOrder ∧ t.rd.src = s.rd.src ∧
    (s.Admitted → t.Admitted) ∧
    (s.rd.Inv → ∀ (c : HostCommand) (cs : List HostCommand) (i : Instr), s.host = c :: cs → c.Is i →
      (isArrayRead i = true ∨ ∃ bo, i = .rdString bo) → t.rd.rsp.st = .ok →
      t.rd.rmem.length = t.rd.rsp.len ∧ t.rd.rmem.length ≤ 8 * s.rd.src.length ∧
      (s.Admitted → withinMax Config.rmemMax t.rd.rmem.length))

/-- 20_memory.md R61, 10_state.md R31, R37, 46_wr_align_flush.md R253: the sink only grows; FLUSHED is written by WR.FLUSH and
WR.CLOSE alone and never shrinks; BYTECNT counts the bytes appended but where WR.RSTCNT clears it; a closed sink is final. -/
def Obligations.SinkOnlyGrows : Prop :=
  ∀ s t : State, s.wr.Inv → step s = .next t →
    s.wr.snk <+: t.wr.snk ∧ s.wr.flushed ≤ t.wr.flushed ∧
    (t.wr.flushed = s.wr.flushed ∨ ∃ c cs, s.host = c :: cs ∧ (c.Is .wrFlush ∨ c.Is .wrClose)) ∧
    (t.wr.byteCnt = s.wr.byteCnt + BitVec.ofNat 64 (t.wr.snk.length - s.wr.snk.length) ∨
      ∃ c cs, s.host = c :: cs ∧ c.Is .wrRstcnt) ∧
    (s.wr.closed = true → t.wr.closed = true ∧ t.wr.snk = s.wr.snk ∧ t.wr.flushed = s.wr.flushed ∧
      s.wr.flushed = s.wr.snk.length)

/-- 00_scope.md R2, 20_memory.md R75: a step of one unit leaves the other as it is, and what it does depends on its own unit
and the command alone. -/
def Obligations.UnitsShareNoState : Prop :=
  ∀ (s s' : State) (c : HostCommand) (cs cs' : List HostCommand) (t : State), s.host = c :: cs → s'.host = c :: cs' →
    step s = .next t →
    (c.port = .rd → t.wr = s.wr ∧ (s'.rd = s.rd → ∃ t', step s' = .next t' ∧ t'.rd = t.rd)) ∧
    (c.port = .wr → t.rd = s.rd ∧ (s'.wr = s.wr → ∃ t', step s' = .next t' ∧ t'.wr = t.wr))

/-- 10_state.md R33, R34, R35: DETLIM changes only by an array read in until-exhaustion mode or RD.SETDL, and becomes 1 by such
a read only with a soft cap; the mark registers and the snapshot change only by RD.MARK. -/
def Obligations.WhoWritesTheFlagAndTheMark : Prop :=
  ∀ s t : State, step s = .next t →
    (t.rd.detLim ≠ s.rd.detLim → ∃ c cs i, s.host = c :: cs ∧ c.Is i ∧ c.port = .rd ∧
      (i = .rdSetdl ∨ (isArrayRead i = true ∧ c.tx.a.toInt < 0 ∧ (t.rd.detLim = true → c.tx.l.toInt < 0)))) ∧
    ((t.rd.markValid ≠ s.rd.markValid ∨ t.rd.markPos ≠ s.rd.markPos ∨ t.rd.markLim ≠ s.rd.markLim ∨
      t.rd.snapBitBuf ≠ s.rd.snapBitBuf ∨ t.rd.snapBitCnt ≠ s.rd.snapBitCnt ∨
      t.rd.snapByteCnt ≠ s.rd.snapByteCnt) → ∃ c cs, s.host = c :: cs ∧ c.Is .rdMark)

/-- 10_state.md R30: SRCPOS never goes back but by RD.RESET. -/
def Obligations.SourcePositionAdvances : Prop :=
  ∀ s t : State, s.rd.Inv → step s = .next t →
    (s.rd.srcPos ≤ t.rd.srcPos ∧ t.rd.srcPos ≤ t.rd.src.length) ∨
      ∃ c cs, s.host = c :: cs ∧ c.Is .rdReset ∧ t.rd.srcPos = s.rd.markPos

/-- 40_rd_bits.md R128, the byte counter law: but for RD.RSTCNT and RD.RESET, a step raises BYTECNT by the number of source
bytes whose last bit it handed out or discarded, that is by the growth of (source bytes fetched) - (1 if BITCNT > 0 else 0). -/
def Obligations.ByteCounterLaw : Prop :=
  ∀ (s t : State), s.rd.Inv → step s = .next t →
    (∀ c cs, s.host = c :: cs → ¬ c.Is .rdRstcnt ∧ ¬ c.Is .rdReset) →
    s.rd.srcPos - (if s.rd.bitCnt = 0#4 then 0 else 1) ≤ t.rd.srcPos - (if t.rd.bitCnt = 0#4 then 0 else 1) ∧
    t.rd.byteCnt = s.rd.byteCnt + BitVec.ofNat 64
      ((t.rd.srcPos - (if t.rd.bitCnt = 0#4 then 0 else 1)) - (s.rd.srcPos - (if s.rd.bitCnt = 0#4 then 0 else 1)))

/-- 60_exceptions.md R306, 42_rd_arrays.md R163, R178: a fault of the classes (1) to (4) leaves every register of its unit as it
was, and no fault of RD touches the mark. An until-exhaustion array read that has begun and faults leaves DETLIM 0; every other
fault leaves DETLIM as it was. -/
def Obligations.FaultsArePrecise : Prop :=
  ∀ (i : Instr) (s t : State), exec i s = .next t →
    (unitOf i = .rd → t.rd.rsp.st = .invalidArgument ∨ t.rd.rsp.st = .illegalState → s.rd.SameRegs t.rd) ∧
    (unitOf i = .wr → t.wr.rsp.st = .invalidArgument ∨ t.wr.rsp.st = .illegalState → s.wr.SameRegs t.wr) ∧
    (unitOf i = .rd → t.rd.rsp.st ≠ .ok → t.rd.rsp.st ≠ .eof →
      t.rd.markValid = s.rd.markValid ∧ t.rd.markPos = s.rd.markPos ∧ t.rd.markLim = s.rd.markLim ∧
      t.rd.snapBitBuf = s.rd.snapBitBuf ∧ t.rd.snapBitCnt = s.rd.snapBitCnt ∧
      t.rd.snapByteCnt = s.rd.snapByteCnt ∧
      (isArrayRead i = true ∧ s.rd.cmd.a.toInt < 0 ∧ t.rd.rsp.st ≠ .invalidArgument → t.rd.detLim = false) ∧
      (¬ (isArrayRead i = true ∧ s.rd.cmd.a.toInt < 0 ∧ t.rd.rsp.st ≠ .invalidArgument) →
        t.rd.detLim = s.rd.detLim))

/-- 60_exceptions.md R301, the cause table read backwards: which commands of either unit can end in which fault, and for which
operands. -/
def Obligations.CausesOfFaults : Prop :=
  ∀ (i : Instr) (s t : State), exec i s = .next t →
    (unitOf i = .rd →
      t.rd.rsp.st ≠ .illegalCommand ∧
      (t.rd.rsp.st = .eof → ∃ w, i = .rdBits w) ∧
      (t.rd.rsp.st = .illegalState → i = .rdReset ∧
        (s.rd.markValid = false ∨ (s.rd.markLim.toNat : Int) < (s.rd.srcPos : Int) - s.rd.markPos)) ∧
      (t.rd.rsp.st = .invalidArgument → (∃ w, (i = .rdBits w ∨ i = .rdBitsarr w) ∧ ¬ (1 ≤ w ∧ w ≤ 8)) ∨
        (i = .rdAlign ∧ s.rd.cmd.a.toInt ≤ 0) ∨ (i = .rdMark ∧ s.rd.cmd.a.toInt < 0)) ∧
      (t.rd.rsp.st = .arraySizeExceeded → isArrayRead i = true ∧ s.rd.cmd.a.toInt < 0 ∧ 0 < s.rd.cmd.l.toInt) ∧
      (t.rd.rsp.st = .malformedWireData → ∃ bo, i = .rdString bo ∨ i = .rdStrarr bo) ∧
      (t.rd.rsp.st = .endOfData → (scalarRead i).isSome = true ∨ isArrayRead i = true ∨ i = .rdAlign ∨
        ∃ bo, i = .rdString bo)) ∧
    (unitOf i = .wr →
      t.wr.rsp.st = .ok ∨
      (t.wr.rsp.st = .illegalState ∧ s.wr.closed = true ∧ i ≠ .wrGetcnt) ∨
      (t.wr.rsp.st = .invalidArgument ∧ s.wr.closed = false ∧
        ((∃ w, (i = .wrBits w ∨ i = .wrBitsarr w) ∧ ¬ (1 ≤ w ∧ w ≤ 8)) ∨
          (i = .wrAlign ∧ s.wr.cmd.a.toInt ≤ 0) ∨
          (∃ bo, i = .wrBytes bo ∧ (s.wr.cmd.omem.length : Int) < s.wr.cmd.a.toInt) ∨
          (∃ bo, i = .wrString bo ∧ (s.wr.cmd.omem.length ≠ 1 ∨ ∃ x ∈ s.wr.cmd.omem, noRowFor x = true)) ∨
          (∃ bo, i = .wrStrarr bo ∧ ∃ x ∈ s.wr.cmd.omem, noRowFor x = true))))

/-- 70_reset_and_hazards.md R347, 20_memory.md R60: after EndOfData nothing is pending, and RD.BITS answers EOF and every scalar
read and RD.STRING EndOfData again. -/
def Obligations.EndOfDataIsFinal : Prop :=
  ∀ (i : Instr) (s t : State), s.rd.Inv → unitOf i = .rd → exec i s = .next t → t.rd.rsp.st = .endOfData →
    pendingBits t.rd = 0 ∧
    (∀ w : Nat, 1 ≤ w → w ≤ 8 →
      exec (.rdBits w) t = .next (t.withRd (t.rd.respond ⟨.eof, 0xFFFFFFFFFFFFFFFF#64, 0#4, 0⟩))) ∧
    (∀ j : Instr, (scalarRead j).isSome = true → RdFaults (exec j t) t .endOfData t.rd) ∧
    (∀ bo : ByteOrder, RdFaults (exec (.rdString bo) t) t .endOfData t.rd)

/-! ## Runs and round trips -/

/-- 43_rd_align_mark.md R193, R196: whatever commands run after RD.MARK, but another RD.MARK, RD.RESET comes back to the marked
bit position and byte count as long as no more than the limit of source bytes was consumed, and changes nothing else; where
more was, it is refused and moves nothing. -/
def Obligations.ResetReturnsToTheMark : Prop :=
  ∀ (s m t : State) (n : Nat), 0 ≤ s.rd.cmd.a.toInt → exec .rdMark s = .next m →
    (∀ c ∈ m.host.take n, ¬ c.Is .rdMark) → runSteps n m = .next t →
    ((t.rd.srcPos : Int) - s.rd.srcPos ≤ s.rd.cmd.a.toInt →
      exec .rdReset t = .next (t.withRd { t.rd with
        srcPos := s.rd.srcPos
        bitBuf := s.rd.bitBuf
        bitCnt := s.rd.bitCnt
        byteCnt := s.rd.byteCnt
        rsp := okResponse 0#64 })) ∧
    (s.rd.cmd.a.toInt < (t.rd.srcPos : Int) - s.rd.srcPos → RdFaults (exec .rdReset t) t .illegalState t.rd)

/-- 44_wr_bits.md R215, the round trip of bit fields, for any sequence of legal widths and either bit order. -/
def Obligations.BitFieldRoundTrip : Prop :=
  ∀ (ord : BitOrder) (fields : List (Nat × Lane)), (∀ f ∈ fields, 1 ≤ f.1 ∧ f.1 ≤ 8) →
    ∃ t : State,
      runSteps (fields.length + 1) ((State.construct ord ord []).withHost
        (fields.map (fun f => commandOf (.wrBits f.1) f.2 0#64 []) ++ [commandOf .wrFlush 0#64 0#64 []])) = .next t ∧
      t.wr.snk.length = ((fields.map Prod.fst).sum + 7) / 8 ∧
      ∀ (k : Nat) (w : Nat) (v : Lane), fields[k]? = some (w, v) →
        ∃ r : State,
          runSteps (k + 1) ((State.construct ord ord t.wr.snk).withHost
            (fields.map fun f => commandOf (.rdBits f.1) 0#64 0#64 [])) = .next r ∧
          r.rd.rsp = ⟨.ok, BitVec.ofNat 64 (v.toNat % 2 ^ w), BitVec.ofNat 4 w, 0⟩ ∧
          (k + 1 = fields.length → r.rd.bitCnt.toNat ≤ 7 ∧ r.rd.bitBuf = 0#8 ∧ r.rd.srcPos = r.rd.src.length)

/-- 47_strings.md R271, the round trip of strings: what WR.STRING wrote, at whatever bit position, RD.STRING of the same byte
order reads back from a reader of the same bit order at the same position of the flushed sink, consuming exactly those bits. -/
def Obligations.StringRoundTrip : Prop :=
  ∀ (s t f r : State) (bo : ByteOrder) (x : StrItem), s.wr.Inv → s.wr.cmd.omem = [.str x] →
    exec (.wrString bo) s = .next t → t.wr.rsp.st = .ok → exec .wrFlush t = .next f →
    r.rd.Inv → r.rd.bitOrder = s.wr.bitOrder → r.rd.src = f.wr.snk → r.rd.bitPos = s.wr.written.length →
    exec (.rdString bo) r = .next (r.withRd
      (((r.rd.consume (t.wr.written.length - s.wr.written.length)).setRmem [.str x]).respond
        ⟨.ok, stringVal x, 0#4, 1⟩))

/-- 41_rd_scalars.md R150, 45_wr_scalars_arrays.md R241, the round trip of scalars: what a scalar write wrote, at whatever bit
position, its read of the same byte order reads back, truncated to the width and extended as the read says. -/
def Obligations.ScalarRoundTrip : Prop :=
  ∀ (i j : Instr) (s t f r : State), readsBack i = some j → s.wr.Inv → s.wr.closed = false →
    exec i s = .next t → exec .wrFlush t = .next f →
    r.rd.Inv → r.rd.bitOrder = s.wr.bitOrder → r.rd.src = f.wr.snk → r.rd.bitPos = s.wr.written.length →
    exec j r = .next (r.withRd
      ((r.rd.consume (t.wr.written.length - s.wr.written.length)).respond (okResponse (roundTripLane i s.wr.cmd.a))))

/-- 46_wr_align_flush.md R255, the byte count at flush: after any commands of the writer from construction but WR.ALIGN,
WR.RSTCNT, WR.FLUSH and WR.CLOSE, one WR.FLUSH leaves len(SNK) = FLUSHED = BYTECNT (modulo 2^64) = ceil(total_bits / 8), where
total_bits is counted from the commands and their operands. -/
def Obligations.ByteCountAtFlush : Prop :=
  ∀ (r w : BitOrder) (src : List Byte) (cmds : List HostCommand) (n total : Nat) (s t : State),
    (∀ c ∈ cmds, ¬ c.Is .wrAlign ∧ ¬ c.Is .wrRstcnt ∧ ¬ c.Is .wrFlush ∧ ¬ c.Is .wrClose) →
    runSteps n ((State.construct r w src).withHost cmds) = .next s → exec .wrFlush s = .next t →
    total = ((cmds.take n).map HostCommand.bitsWritten).sum →
    t.wr.snk.length = (total + 7) / 8 ∧ t.wr.flushed = (total + 7) / 8 ∧
      t.wr.byteCnt = BitVec.ofNat 64 ((total + 7) / 8)
end

