-- ==== Sys2Proof/Laws/State.lean ====
section
/-! SUPPORT. What every named update of the state does to every field, so that no later proof unfolds one. -/

namespace Sys2Proof.Machine

section
variable (u : RdUnit)

@[simp] theorem RdUnit.setBuffer_bitOrder (b : BitVec 8) (c : BitVec 4) : (u.setBuffer b c).bitOrder = u.bitOrder := rfl
@[simp] theorem RdUnit.setBuffer_src (b : BitVec 8) (c : BitVec 4) : (u.setBuffer b c).src = u.src := rfl
@[simp] theorem RdUnit.setBuffer_srcPos (b : BitVec 8) (c : BitVec 4) : (u.setBuffer b c).srcPos = u.srcPos := rfl
@[simp] theorem RdUnit.setBuffer_bitBuf (b : BitVec 8) (c : BitVec 4) : (u.setBuffer b c).bitBuf = b := rfl
@[simp] theorem RdUnit.setBuffer_bitCnt (b : BitVec 8) (c : BitVec 4) : (u.setBuffer b c).bitCnt = c := rfl
@[simp] theorem RdUnit.setBuffer_byteCnt (b : BitVec 8) (c : BitVec 4) : (u.setBuffer b c).byteCnt = u.byteCnt := rfl
@[simp] theorem RdUnit.setBuffer_detLim (b : BitVec 8) (c : BitVec 4) : (u.setBuffer b c).detLim = u.detLim := rfl
@[simp] theorem RdUnit.setBuffer_markValid (b : BitVec 8) (c : BitVec 4) : (u.setBuffer b c).markValid = u.markValid := rfl
@[simp] theorem RdUnit.setBuffer_markPos (b : BitVec 8) (c : BitVec 4) : (u.setBuffer b c).markPos = u.markPos := rfl
@[simp] theorem RdUnit.setBuffer_markLim (b : BitVec 8) (c : BitVec 4) : (u.setBuffer b c).markLim = u.markLim := rfl
@[simp] theorem RdUnit.setBuffer_snapBitBuf (b : BitVec 8) (c : BitVec 4) : (u.setBuffer b c).snapBitBuf = u.snapBitBuf := rfl
@[simp] theorem RdUnit.setBuffer_snapBitCnt (b : BitVec 8) (c : BitVec 4) : (u.setBuffer b c).snapBitCnt = u.snapBitCnt := rfl
@[simp] theorem RdUnit.setBuffer_snapByteCnt (b : BitVec 8) (c : BitVec 4) : (u.setBuffer b c).snapByteCnt = u.snapByteCnt := rfl
@[simp] theorem RdUnit.setBuffer_rmem (b : BitVec 8) (c : BitVec 4) : (u.setBuffer b c).rmem = u.rmem := rfl
@[simp] theorem RdUnit.setBuffer_rsp (b : BitVec 8) (c : BitVec 4) : (u.setBuffer b c).rsp = u.rsp := rfl
@[simp] theorem RdUnit.setBuffer_cmd (b : BitVec 8) (c : BitVec 4) : (u.setBuffer b c).cmd = u.cmd := rfl
@[simp] theorem RdUnit.setBuffer_draws (b : BitVec 8) (c : BitVec 4) : (u.setBuffer b c).draws = u.draws := rfl

@[simp] theorem RdUnit.setByteCnt_bitOrder (c : BitVec 64) : (u.setByteCnt c).bitOrder = u.bitOrder := rfl
@[simp] theorem RdUnit.setByteCnt_src (c : BitVec 64) : (u.setByteCnt c).src = u.src := rfl
@[simp] theorem RdUnit.setByteCnt_srcPos (c : BitVec 64) : (u.setByteCnt c).srcPos = u.srcPos := rfl
@[simp] theorem RdUnit.setByteCnt_bitBuf (c : BitVec 64) : (u.setByteCnt c).bitBuf = u.bitBuf := rfl
@[simp] theorem RdUnit.setByteCnt_bitCnt (c : BitVec 64) : (u.setByteCnt c).bitCnt = u.bitCnt := rfl
@[simp] theorem RdUnit.setByteCnt_byteCnt (c : BitVec 64) : (u.setByteCnt c).byteCnt = c := rfl
@[simp] theorem RdUnit.setByteCnt_detLim (c : BitVec 64) : (u.setByteCnt c).detLim = u.detLim := rfl
@[simp] theorem RdUnit.setByteCnt_markValid (c : BitVec 64) : (u.setByteCnt c).markValid = u.markValid := rfl
@[simp] theorem RdUnit.setByteCnt_markPos (c : BitVec 64) : (u.setByteCnt c).markPos = u.markPos := rfl
@[simp] theorem RdUnit.setByteCnt_markLim (c : BitVec 64) : (u.setByteCnt c).markLim = u.markLim := rfl
@[simp] theorem RdUnit.setByteCnt_snapBitBuf (c : BitVec 64) : (u.setByteCnt c).snapBitBuf = u.snapBitBuf := rfl
@[simp] theorem RdUnit.setByteCnt_snapBitCnt (c : BitVec 64) : (u.setByteCnt c).snapBitCnt = u.snapBitCnt := rfl
@[simp] theorem RdUnit.setByteCnt_snapByteCnt (c : BitVec 64) : (u.setByteCnt c).snapByteCnt = u.snapByteCnt := rfl
@[simp] theorem RdUnit.setByteCnt_rmem (c : BitVec 64) : (u.setByteCnt c).rmem = u.rmem := rfl
@[simp] theorem RdUnit.setByteCnt_rsp (c : BitVec 64) : (u.setByteCnt c).rsp = u.rsp := rfl
@[simp] theorem RdUnit.setByteCnt_cmd (c : BitVec 64) : (u.setByteCnt c).cmd = u.cmd := rfl
@[simp] theorem RdUnit.setByteCnt_draws (c : BitVec 64) : (u.setByteCnt c).draws = u.draws := rfl

@[simp] theorem RdUnit.setSrcPos_bitOrder (p : Nat) : (u.setSrcPos p).bitOrder = u.bitOrder := rfl
@[simp] theorem RdUnit.setSrcPos_src (p : Nat) : (u.setSrcPos p).src = u.src := rfl
@[simp] theorem RdUnit.setSrcPos_srcPos (p : Nat) : (u.setSrcPos p).srcPos = p := rfl
@[simp] theorem RdUnit.setSrcPos_bitBuf (p : Nat) : (u.setSrcPos p).bitBuf = u.bitBuf := rfl
@[simp] theorem RdUnit.setSrcPos_bitCnt (p : Nat) : (u.setSrcPos p).bitCnt = u.bitCnt := rfl
@[simp] theorem RdUnit.setSrcPos_byteCnt (p : Nat) : (u.setSrcPos p).byteCnt = u.byteCnt := rfl
@[simp] theorem RdUnit.setSrcPos_detLim (p : Nat) : (u.setSrcPos p).detLim = u.detLim := rfl
@[simp] theorem RdUnit.setSrcPos_markValid (p : Nat) : (u.setSrcPos p).markValid = u.markValid := rfl
@[simp] theorem RdUnit.setSrcPos_markPos (p : Nat) : (u.setSrcPos p).markPos = u.markPos := rfl
@[simp] theorem RdUnit.setSrcPos_markLim (p : Nat) : (u.setSrcPos p).markLim = u.markLim := rfl
@[simp] theorem RdUnit.setSrcPos_snapBitBuf (p : Nat) : (u.setSrcPos p).snapBitBuf = u.snapBitBuf := rfl
@[simp] theorem RdUnit.setSrcPos_snapBitCnt (p : Nat) : (u.setSrcPos p).snapBitCnt = u.snapBitCnt := rfl
@[simp] theorem RdUnit.setSrcPos_snapByteCnt (p : Nat) : (u.setSrcPos p).snapByteCnt = u.snapByteCnt := rfl
@[simp] theorem RdUnit.setSrcPos_rmem (p : Nat) : (u.setSrcPos p).rmem = u.rmem := rfl
@[simp] theorem RdUnit.setSrcPos_rsp (p : Nat) : (u.setSrcPos p).rsp = u.rsp := rfl
@[simp] theorem RdUnit.setSrcPos_cmd (p : Nat) : (u.setSrcPos p).cmd = u.cmd := rfl
@[simp] theorem RdUnit.setSrcPos_draws (p : Nat) : (u.setSrcPos p).draws = u.draws := rfl

@[simp] theorem RdUnit.setDetLim_bitOrder (b : Bool) : (u.setDetLim b).bitOrder = u.bitOrder := rfl
@[simp] theorem RdUnit.setDetLim_src (b : Bool) : (u.setDetLim b).src = u.src := rfl
@[simp] theorem RdUnit.setDetLim_srcPos (b : Bool) : (u.setDetLim b).srcPos = u.srcPos := rfl
@[simp] theorem RdUnit.setDetLim_bitBuf (b : Bool) : (u.setDetLim b).bitBuf = u.bitBuf := rfl
@[simp] theorem RdUnit.setDetLim_bitCnt (b : Bool) : (u.setDetLim b).bitCnt = u.bitCnt := rfl
@[simp] theorem RdUnit.setDetLim_byteCnt (b : Bool) : (u.setDetLim b).byteCnt = u.byteCnt := rfl
@[simp] theorem RdUnit.setDetLim_detLim (b : Bool) : (u.setDetLim b).detLim = b := rfl
@[simp] theorem RdUnit.setDetLim_markValid (b : Bool) : (u.setDetLim b).markValid = u.markValid := rfl
@[simp] theorem RdUnit.setDetLim_markPos (b : Bool) : (u.setDetLim b).markPos = u.markPos := rfl
@[simp] theorem RdUnit.setDetLim_markLim (b : Bool) : (u.setDetLim b).markLim = u.markLim := rfl
@[simp] theorem RdUnit.setDetLim_snapBitBuf (b : Bool) : (u.setDetLim b).snapBitBuf = u.snapBitBuf := rfl
@[simp] theorem RdUnit.setDetLim_snapBitCnt (b : Bool) : (u.setDetLim b).snapBitCnt = u.snapBitCnt := rfl
@[simp] theorem RdUnit.setDetLim_snapByteCnt (b : Bool) : (u.setDetLim b).snapByteCnt = u.snapByteCnt := rfl
@[simp] theorem RdUnit.setDetLim_rmem (b : Bool) : (u.setDetLim b).rmem = u.rmem := rfl
@[simp] theorem RdUnit.setDetLim_rsp (b : Bool) : (u.setDetLim b).rsp = u.rsp := rfl
@[simp] theorem RdUnit.setDetLim_cmd (b : Bool) : (u.setDetLim b).cmd = u.cmd := rfl
@[simp] theorem RdUnit.setDetLim_draws (b : Bool) : (u.setDetLim b).draws = u.draws := rfl

@[simp] theorem RdUnit.setMark_bitOrder (v : Bool) (p : Nat) (l : BitVec 64) : (u.setMark v p l).bitOrder = u.bitOrder := rfl
@[simp] theorem RdUnit.setMark_src (v : Bool) (p : Nat) (l : BitVec 64) : (u.setMark v p l).src = u.src := rfl
@[simp] theorem RdUnit.setMark_srcPos (v : Bool) (p : Nat) (l : BitVec 64) : (u.setMark v p l).srcPos = u.srcPos := rfl
@[simp] theorem RdUnit.setMark_bitBuf (v : Bool) (p : Nat) (l : BitVec 64) : (u.setMark v p l).bitBuf = u.bitBuf := rfl
@[simp] theorem RdUnit.setMark_bitCnt (v : Bool) (p : Nat) (l : BitVec 64) : (u.setMark v p l).bitCnt = u.bitCnt := rfl
@[simp] theorem RdUnit.setMark_byteCnt (v : Bool) (p : Nat) (l : BitVec 64) : (u.setMark v p l).byteCnt = u.byteCnt := rfl
@[simp] theorem RdUnit.setMark_detLim (v : Bool) (p : Nat) (l : BitVec 64) : (u.setMark v p l).detLim = u.detLim := rfl
@[simp] theorem RdUnit.setMark_markValid (v : Bool) (p : Nat) (l : BitVec 64) : (u.setMark v p l).markValid = v := rfl
@[simp] theorem RdUnit.setMark_markPos (v : Bool) (p : Nat) (l : BitVec 64) : (u.setMark v p l).markPos = p := rfl
@[simp] theorem RdUnit.setMark_markLim (v : Bool) (p : Nat) (l : BitVec 64) : (u.setMark v p l).markLim = l := rfl
@[simp] theorem RdUnit.setMark_snapBitBuf (v : Bool) (p : Nat) (l : BitVec 64) : (u.setMark v p l).snapBitBuf = u.snapBitBuf := rfl
@[simp] theorem RdUnit.setMark_snapBitCnt (v : Bool) (p : Nat) (l : BitVec 64) : (u.setMark v p l).snapBitCnt = u.snapBitCnt := rfl
@[simp] theorem RdUnit.setMark_snapByteCnt (v : Bool) (p : Nat) (l : BitVec 64) : (u.setMark v p l).snapByteCnt = u.snapByteCnt := rfl
@[simp] theorem RdUnit.setMark_rmem (v : Bool) (p : Nat) (l : BitVec 64) : (u.setMark v p l).rmem = u.rmem := rfl
@[simp] theorem RdUnit.setMark_rsp (v : Bool) (p : Nat) (l : BitVec 64) : (u.setMark v p l).rsp = u.rsp := rfl
@[simp] theorem RdUnit.setMark_cmd (v : Bool) (p : Nat) (l : BitVec 64) : (u.setMark v p l).cmd = u.cmd := rfl
@[simp] theorem RdUnit.setMark_draws (v : Bool) (p : Nat) (l : BitVec 64) : (u.setMark v p l).draws = u.draws := rfl

@[simp] theorem RdUnit.setSnap_bitOrder (b : BitVec 8) (c : BitVec 4) (n : BitVec 64) : (u.setSnap b c n).bitOrder = u.bitOrder := rfl
@[simp] theorem RdUnit.setSnap_src (b : BitVec 8) (c : BitVec 4) (n : BitVec 64) : (u.setSnap b c n).src = u.src := rfl
@[simp] theorem RdUnit.setSnap_srcPos (b : BitVec 8) (c : BitVec 4) (n : BitVec 64) : (u.setSnap b c n).srcPos = u.srcPos := rfl
@[simp] theorem RdUnit.setSnap_bitBuf (b : BitVec 8) (c : BitVec 4) (n : BitVec 64) : (u.setSnap b c n).bitBuf = u.bitBuf := rfl
@[simp] theorem RdUnit.setSnap_bitCnt (b : BitVec 8) (c : BitVec 4) (n : BitVec 64) : (u.setSnap b c n).bitCnt = u.bitCnt := rfl
@[simp] theorem RdUnit.setSnap_byteCnt (b : BitVec 8) (c : BitVec 4) (n : BitVec 64) : (u.setSnap b c n).byteCnt = u.byteCnt := rfl
@[simp] theorem RdUnit.setSnap_detLim (b : BitVec 8) (c : BitVec 4) (n : BitVec 64) : (u.setSnap b c n).detLim = u.detLim := rfl
@[simp] theorem RdUnit.setSnap_markValid (b : BitVec 8) (c : BitVec 4) (n : BitVec 64) : (u.setSnap b c n).markValid = u.markValid := rfl
@[simp] theorem RdUnit.setSnap_markPos (b : BitVec 8) (c : BitVec 4) (n : BitVec 64) : (u.setSnap b c n).markPos = u.markPos := rfl
@[simp] theorem RdUnit.setSnap_markLim (b : BitVec 8) (c : BitVec 4) (n : BitVec 64) : (u.setSnap b c n).markLim = u.markLim := rfl
@[simp] theorem RdUnit.setSnap_snapBitBuf (b : BitVec 8) (c : BitVec 4) (n : BitVec 64) : (u.setSnap b c n).snapBitBuf = b := rfl
@[simp] theorem RdUnit.setSnap_snapBitCnt (b : BitVec 8) (c : BitVec 4) (n : BitVec 64) : (u.setSnap b c n).snapBitCnt = c := rfl
@[simp] theorem RdUnit.setSnap_snapByteCnt (b : BitVec 8) (c : BitVec 4) (n : BitVec 64) : (u.setSnap b c n).snapByteCnt = n := rfl
@[simp] theorem RdUnit.setSnap_rmem (b : BitVec 8) (c : BitVec 4) (n : BitVec 64) : (u.setSnap b c n).rmem = u.rmem := rfl
@[simp] theorem RdUnit.setSnap_rsp (b : BitVec 8) (c : BitVec 4) (n : BitVec 64) : (u.setSnap b c n).rsp = u.rsp := rfl
@[simp] theorem RdUnit.setSnap_cmd (b : BitVec 8) (c : BitVec 4) (n : BitVec 64) : (u.setSnap b c n).cmd = u.cmd := rfl
@[simp] theorem RdUnit.setSnap_draws (b : BitVec 8) (c : BitVec 4) (n : BitVec 64) : (u.setSnap b c n).draws = u.draws := rfl

@[simp] theorem RdUnit.setRmem_bitOrder (xs : List Item) : (u.setRmem xs).bitOrder = u.bitOrder := rfl
@[simp] theorem RdUnit.setRmem_src (xs : List Item) : (u.setRmem xs).src = u.src := rfl
@[simp] theorem RdUnit.setRmem_srcPos (xs : List Item) : (u.setRmem xs).srcPos = u.srcPos := rfl
@[simp] theorem RdUnit.setRmem_bitBuf (xs : List Item) : (u.setRmem xs).bitBuf = u.bitBuf := rfl
@[simp] theorem RdUnit.setRmem_bitCnt (xs : List Item) : (u.setRmem xs).bitCnt = u.bitCnt := rfl
@[simp] theorem RdUnit.setRmem_byteCnt (xs : List Item) : (u.setRmem xs).byteCnt = u.byteCnt := rfl
@[simp] theorem RdUnit.setRmem_detLim (xs : List Item) : (u.setRmem xs).detLim = u.detLim := rfl
@[simp] theorem RdUnit.setRmem_markValid (xs : List Item) : (u.setRmem xs).markValid = u.markValid := rfl
@[simp] theorem RdUnit.setRmem_markPos (xs : List Item) : (u.setRmem xs).markPos = u.markPos := rfl
@[simp] theorem RdUnit.setRmem_markLim (xs : List Item) : (u.setRmem xs).markLim = u.markLim := rfl
@[simp] theorem RdUnit.setRmem_snapBitBuf (xs : List Item) : (u.setRmem xs).snapBitBuf = u.snapBitBuf := rfl
@[simp] theorem RdUnit.setRmem_snapBitCnt (xs : List Item) : (u.setRmem xs).snapBitCnt = u.snapBitCnt := rfl
@[simp] theorem RdUnit.setRmem_snapByteCnt (xs : List Item) : (u.setRmem xs).snapByteCnt = u.snapByteCnt := rfl
@[simp] theorem RdUnit.setRmem_rmem (xs : List Item) : (u.setRmem xs).rmem = xs := rfl
@[simp] theorem RdUnit.setRmem_rsp (xs : List Item) : (u.setRmem xs).rsp = u.rsp := rfl
@[simp] theorem RdUnit.setRmem_cmd (xs : List Item) : (u.setRmem xs).cmd = u.cmd := rfl
@[simp] theorem RdUnit.setRmem_draws (xs : List Item) : (u.setRmem xs).draws = u.draws := rfl

@[simp] theorem RdUnit.respond_bitOrder (r : Response) : (u.respond r).bitOrder = u.bitOrder := rfl
@[simp] theorem RdUnit.respond_src (r : Response) : (u.respond r).src = u.src := rfl
@[simp] theorem RdUnit.respond_srcPos (r : Response) : (u.respond r).srcPos = u.srcPos := rfl
@[simp] theorem RdUnit.respond_bitBuf (r : Response) : (u.respond r).bitBuf = u.bitBuf := rfl
@[simp] theorem RdUnit.respond_bitCnt (r : Response) : (u.respond r).bitCnt = u.bitCnt := rfl
@[simp] theorem RdUnit.respond_byteCnt (r : Response) : (u.respond r).byteCnt = u.byteCnt := rfl
@[simp] theorem RdUnit.respond_detLim (r : Response) : (u.respond r).detLim = u.detLim := rfl
@[simp] theorem RdUnit.respond_markValid (r : Response) : (u.respond r).markValid = u.markValid := rfl
@[simp] theorem RdUnit.respond_markPos (r : Response) : (u.respond r).markPos = u.markPos := rfl
@[simp] theorem RdUnit.respond_markLim (r : Response) : (u.respond r).markLim = u.markLim := rfl
@[simp] theorem RdUnit.respond_snapBitBuf (r : Response) : (u.respond r).snapBitBuf = u.snapBitBuf := rfl
@[simp] theorem RdUnit.respond_snapBitCnt (r : Response) : (u.respond r).snapBitCnt = u.snapBitCnt := rfl
@[simp] theorem RdUnit.respond_snapByteCnt (r : Response) : (u.respond r).snapByteCnt = u.snapByteCnt := rfl
@[simp] theorem RdUnit.respond_rmem (r : Response) : (u.respond r).rmem = u.rmem := rfl
@[simp] theorem RdUnit.respond_rsp (r : Response) : (u.respond r).rsp = r := rfl
@[simp] theorem RdUnit.respond_cmd (r : Response) : (u.respond r).cmd = u.cmd := rfl
@[simp] theorem RdUnit.respond_draws (r : Response) : (u.respond r).draws = u.draws := rfl

@[simp] theorem RdUnit.setCmd_bitOrder (tx : Transaction) : (u.setCmd tx).bitOrder = u.bitOrder := rfl
@[simp] theorem RdUnit.setCmd_src (tx : Transaction) : (u.setCmd tx).src = u.src := rfl
@[simp] theorem RdUnit.setCmd_srcPos (tx : Transaction) : (u.setCmd tx).srcPos = u.srcPos := rfl
@[simp] theorem RdUnit.setCmd_bitBuf (tx : Transaction) : (u.setCmd tx).bitBuf = u.bitBuf := rfl
@[simp] theorem RdUnit.setCmd_bitCnt (tx : Transaction) : (u.setCmd tx).bitCnt = u.bitCnt := rfl
@[simp] theorem RdUnit.setCmd_byteCnt (tx : Transaction) : (u.setCmd tx).byteCnt = u.byteCnt := rfl
@[simp] theorem RdUnit.setCmd_detLim (tx : Transaction) : (u.setCmd tx).detLim = u.detLim := rfl
@[simp] theorem RdUnit.setCmd_markValid (tx : Transaction) : (u.setCmd tx).markValid = u.markValid := rfl
@[simp] theorem RdUnit.setCmd_markPos (tx : Transaction) : (u.setCmd tx).markPos = u.markPos := rfl
@[simp] theorem RdUnit.setCmd_markLim (tx : Transaction) : (u.setCmd tx).markLim = u.markLim := rfl
@[simp] theorem RdUnit.setCmd_snapBitBuf (tx : Transaction) : (u.setCmd tx).snapBitBuf = u.snapBitBuf := rfl
@[simp] theorem RdUnit.setCmd_snapBitCnt (tx : Transaction) : (u.setCmd tx).snapBitCnt = u.snapBitCnt := rfl
@[simp] theorem RdUnit.setCmd_snapByteCnt (tx : Transaction) : (u.setCmd tx).snapByteCnt = u.snapByteCnt := rfl
@[simp] theorem RdUnit.setCmd_rmem (tx : Transaction) : (u.setCmd tx).rmem = u.rmem := rfl
@[simp] theorem RdUnit.setCmd_rsp (tx : Transaction) : (u.setCmd tx).rsp = u.rsp := rfl
@[simp] theorem RdUnit.setCmd_cmd (tx : Transaction) : (u.setCmd tx).cmd = tx := rfl
@[simp] theorem RdUnit.setCmd_draws (tx : Transaction) : (u.setCmd tx).draws = u.draws := rfl

@[simp] theorem RdUnit.setDraws_bitOrder (n : Nat) : (u.setDraws n).bitOrder = u.bitOrder := rfl
@[simp] theorem RdUnit.setDraws_src (n : Nat) : (u.setDraws n).src = u.src := rfl
@[simp] theorem RdUnit.setDraws_srcPos (n : Nat) : (u.setDraws n).srcPos = u.srcPos := rfl
@[simp] theorem RdUnit.setDraws_bitBuf (n : Nat) : (u.setDraws n).bitBuf = u.bitBuf := rfl
@[simp] theorem RdUnit.setDraws_bitCnt (n : Nat) : (u.setDraws n).bitCnt = u.bitCnt := rfl
@[simp] theorem RdUnit.setDraws_byteCnt (n : Nat) : (u.setDraws n).byteCnt = u.byteCnt := rfl
@[simp] theorem RdUnit.setDraws_detLim (n : Nat) : (u.setDraws n).detLim = u.detLim := rfl
@[simp] theorem RdUnit.setDraws_markValid (n : Nat) : (u.setDraws n).markValid = u.markValid := rfl
@[simp] theorem RdUnit.setDraws_markPos (n : Nat) : (u.setDraws n).markPos = u.markPos := rfl
@[simp] theorem RdUnit.setDraws_markLim (n : Nat) : (u.setDraws n).markLim = u.markLim := rfl
@[simp] theorem RdUnit.setDraws_snapBitBuf (n : Nat) : (u.setDraws n).snapBitBuf = u.snapBitBuf := rfl
@[simp] theorem RdUnit.setDraws_snapBitCnt (n : Nat) : (u.setDraws n).snapBitCnt = u.snapBitCnt := rfl
@[simp] theorem RdUnit.setDraws_snapByteCnt (n : Nat) : (u.setDraws n).snapByteCnt = u.snapByteCnt := rfl
@[simp] theorem RdUnit.setDraws_rmem (n : Nat) : (u.setDraws n).rmem = u.rmem := rfl
@[simp] theorem RdUnit.setDraws_rsp (n : Nat) : (u.setDraws n).rsp = u.rsp := rfl
@[simp] theorem RdUnit.setDraws_cmd (n : Nat) : (u.setDraws n).cmd = u.cmd := rfl
@[simp] theorem RdUnit.setDraws_draws (n : Nat) : (u.setDraws n).draws = n := rfl
end

section
variable (u : WrUnit)

@[simp] theorem WrUnit.setSnk_bitOrder (xs : List Byte) : (u.setSnk xs).bitOrder = u.bitOrder := rfl
@[simp] theorem WrUnit.setSnk_snk (xs : List Byte) : (u.setSnk xs).snk = xs := rfl
@[simp] theorem WrUnit.setSnk_bitBuf (xs : List Byte) : (u.setSnk xs).bitBuf = u.bitBuf := rfl
@[simp] theorem WrUnit.setSnk_bitCnt (xs : List Byte) : (u.setSnk xs).bitCnt = u.bitCnt := rfl
@[simp] theorem WrUnit.setSnk_byteCnt (xs : List Byte) : (u.setSnk xs).byteCnt = u.byteCnt := rfl
@[simp] theorem WrUnit.setSnk_closed (xs : List Byte) : (u.setSnk xs).closed = u.closed := rfl
@[simp] theorem WrUnit.setSnk_flushed (xs : List Byte) : (u.setSnk xs).flushed = u.flushed := rfl
@[simp] theorem WrUnit.setSnk_rsp (xs : List Byte) : (u.setSnk xs).rsp = u.rsp := rfl
@[simp] theorem WrUnit.setSnk_cmd (xs : List Byte) : (u.setSnk xs).cmd = u.cmd := rfl
@[simp] theorem WrUnit.setSnk_draws (xs : List Byte) : (u.setSnk xs).draws = u.draws := rfl

@[simp] theorem WrUnit.setBuffer_bitOrder (b : BitVec 8) (c : BitVec 4) : (u.setBuffer b c).bitOrder = u.bitOrder := rfl
@[simp] theorem WrUnit.setBuffer_snk (b : BitVec 8) (c : BitVec 4) : (u.setBuffer b c).snk = u.snk := rfl
@[simp] theorem WrUnit.setBuffer_bitBuf (b : BitVec 8) (c : BitVec 4) : (u.setBuffer b c).bitBuf = b := rfl
@[simp] theorem WrUnit.setBuffer_bitCnt (b : BitVec 8) (c : BitVec 4) : (u.setBuffer b c).bitCnt = c := rfl
@[simp] theorem WrUnit.setBuffer_byteCnt (b : BitVec 8) (c : BitVec 4) : (u.setBuffer b c).byteCnt = u.byteCnt := rfl
@[simp] theorem WrUnit.setBuffer_closed (b : BitVec 8) (c : BitVec 4) : (u.setBuffer b c).closed = u.closed := rfl
@[simp] theorem WrUnit.setBuffer_flushed (b : BitVec 8) (c : BitVec 4) : (u.setBuffer b c).flushed = u.flushed := rfl
@[simp] theorem WrUnit.setBuffer_rsp (b : BitVec 8) (c : BitVec 4) : (u.setBuffer b c).rsp = u.rsp := rfl
@[simp] theorem WrUnit.setBuffer_cmd (b : BitVec 8) (c : BitVec 4) : (u.setBuffer b c).cmd = u.cmd := rfl
@[simp] theorem WrUnit.setBuffer_draws (b : BitVec 8) (c : BitVec 4) : (u.setBuffer b c).draws = u.draws := rfl

@[simp] theorem WrUnit.setByteCnt_bitOrder (c : BitVec 64) : (u.setByteCnt c).bitOrder = u.bitOrder := rfl
@[simp] theorem WrUnit.setByteCnt_snk (c : BitVec 64) : (u.setByteCnt c).snk = u.snk := rfl
@[simp] theorem WrUnit.setByteCnt_bitBuf (c : BitVec 64) : (u.setByteCnt c).bitBuf = u.bitBuf := rfl
@[simp] theorem WrUnit.setByteCnt_bitCnt (c : BitVec 64) : (u.setByteCnt c).bitCnt = u.bitCnt := rfl
@[simp] theorem WrUnit.setByteCnt_byteCnt (c : BitVec 64) : (u.setByteCnt c).byteCnt = c := rfl
@[simp] theorem WrUnit.setByteCnt_closed (c : BitVec 64) : (u.setByteCnt c).closed = u.closed := rfl
@[simp] theorem WrUnit.setByteCnt_flushed (c : BitVec 64) : (u.setByteCnt c).flushed = u.flushed := rfl
@[simp] theorem WrUnit.setByteCnt_rsp (c : BitVec 64) : (u.setByteCnt c).rsp = u.rsp := rfl
@[simp] theorem WrUnit.setByteCnt_cmd (c : BitVec 64) : (u.setByteCnt c).cmd = u.cmd := rfl
@[simp] theorem WrUnit.setByteCnt_draws (c : BitVec 64) : (u.setByteCnt c).draws = u.draws := rfl

@[simp] theorem WrUnit.setClosed_bitOrder (b : Bool) : (u.setClosed b).bitOrder = u.bitOrder := rfl
@[simp] theorem WrUnit.setClosed_snk (b : Bool) : (u.setClosed b).snk = u.snk := rfl
@[simp] theorem WrUnit.setClosed_bitBuf (b : Bool) : (u.setClosed b).bitBuf = u.bitBuf := rfl
@[simp] theorem WrUnit.setClosed_bitCnt (b : Bool) : (u.setClosed b).bitCnt = u.bitCnt := rfl
@[simp] theorem WrUnit.setClosed_byteCnt (b : Bool) : (u.setClosed b).byteCnt = u.byteCnt := rfl
@[simp] theorem WrUnit.setClosed_closed (b : Bool) : (u.setClosed b).closed = b := rfl
@[simp] theorem WrUnit.setClosed_flushed (b : Bool) : (u.setClosed b).flushed = u.flushed := rfl
@[simp] theorem WrUnit.setClosed_rsp (b : Bool) : (u.setClosed b).rsp = u.rsp := rfl
@[simp] theorem WrUnit.setClosed_cmd (b : Bool) : (u.setClosed b).cmd = u.cmd := rfl
@[simp] theorem WrUnit.setClosed_draws (b : Bool) : (u.setClosed b).draws = u.draws := rfl

@[simp] theorem WrUnit.setFlushed_bitOrder (n : Nat) : (u.setFlushed n).bitOrder = u.bitOrder := rfl
@[simp] theorem WrUnit.setFlushed_snk (n : Nat) : (u.setFlushed n).snk = u.snk := rfl
@[simp] theorem WrUnit.setFlushed_bitBuf (n : Nat) : (u.setFlushed n).bitBuf = u.bitBuf := rfl
@[simp] theorem WrUnit.setFlushed_bitCnt (n : Nat) : (u.setFlushed n).bitCnt = u.bitCnt := rfl
@[simp] theorem WrUnit.setFlushed_byteCnt (n : Nat) : (u.setFlushed n).byteCnt = u.byteCnt := rfl
@[simp] theorem WrUnit.setFlushed_closed (n : Nat) : (u.setFlushed n).closed = u.closed := rfl
@[simp] theorem WrUnit.setFlushed_flushed (n : Nat) : (u.setFlushed n).flushed = n := rfl
@[simp] theorem WrUnit.setFlushed_rsp (n : Nat) : (u.setFlushed n).rsp = u.rsp := rfl
@[simp] theorem WrUnit.setFlushed_cmd (n : Nat) : (u.setFlushed n).cmd = u.cmd := rfl
@[simp] theorem WrUnit.setFlushed_draws (n : Nat) : (u.setFlushed n).draws = u.draws := rfl

@[simp] theorem WrUnit.respond_bitOrder (r : Response) : (u.respond r).bitOrder = u.bitOrder := rfl
@[simp] theorem WrUnit.respond_snk (r : Response) : (u.respond r).snk = u.snk := rfl
@[simp] theorem WrUnit.respond_bitBuf (r : Response) : (u.respond r).bitBuf = u.bitBuf := rfl
@[simp] theorem WrUnit.respond_bitCnt (r : Response) : (u.respond r).bitCnt = u.bitCnt := rfl
@[simp] theorem WrUnit.respond_byteCnt (r : Response) : (u.respond r).byteCnt = u.byteCnt := rfl
@[simp] theorem WrUnit.respond_closed (r : Response) : (u.respond r).closed = u.closed := rfl
@[simp] theorem WrUnit.respond_flushed (r : Response) : (u.respond r).flushed = u.flushed := rfl
@[simp] theorem WrUnit.respond_rsp (r : Response) : (u.respond r).rsp = r := rfl
@[simp] theorem WrUnit.respond_cmd (r : Response) : (u.respond r).cmd = u.cmd := rfl
@[simp] theorem WrUnit.respond_draws (r : Response) : (u.respond r).draws = u.draws := rfl

@[simp] theorem WrUnit.setCmd_bitOrder (tx : Transaction) : (u.setCmd tx).bitOrder = u.bitOrder := rfl
@[simp] theorem WrUnit.setCmd_snk (tx : Transaction) : (u.setCmd tx).snk = u.snk := rfl
@[simp] theorem WrUnit.setCmd_bitBuf (tx : Transaction) : (u.setCmd tx).bitBuf = u.bitBuf := rfl
@[simp] theorem WrUnit.setCmd_bitCnt (tx : Transaction) : (u.setCmd tx).bitCnt = u.bitCnt := rfl
@[simp] theorem WrUnit.setCmd_byteCnt (tx : Transaction) : (u.setCmd tx).byteCnt = u.byteCnt := rfl
@[simp] theorem WrUnit.setCmd_closed (tx : Transaction) : (u.setCmd tx).closed = u.closed := rfl
@[simp] theorem WrUnit.setCmd_flushed (tx : Transaction) : (u.setCmd tx).flushed = u.flushed := rfl
@[simp] theorem WrUnit.setCmd_rsp (tx : Transaction) : (u.setCmd tx).rsp = u.rsp := rfl
@[simp] theorem WrUnit.setCmd_cmd (tx : Transaction) : (u.setCmd tx).cmd = tx := rfl
@[simp] theorem WrUnit.setCmd_draws (tx : Transaction) : (u.setCmd tx).draws = u.draws := rfl

@[simp] theorem WrUnit.setDraws_bitOrder (n : Nat) : (u.setDraws n).bitOrder = u.bitOrder := rfl
@[simp] theorem WrUnit.setDraws_snk (n : Nat) : (u.setDraws n).snk = u.snk := rfl
@[simp] theorem WrUnit.setDraws_bitBuf (n : Nat) : (u.setDraws n).bitBuf = u.bitBuf := rfl
@[simp] theorem WrUnit.setDraws_bitCnt (n : Nat) : (u.setDraws n).bitCnt = u.bitCnt := rfl
@[simp] theorem WrUnit.setDraws_byteCnt (n : Nat) : (u.setDraws n).byteCnt = u.byteCnt := rfl
@[simp] theorem WrUnit.setDraws_closed (n : Nat) : (u.setDraws n).closed = u.closed := rfl
@[simp] theorem WrUnit.setDraws_flushed (n : Nat) : (u.setDraws n).flushed = u.flushed := rfl
@[simp] theorem WrUnit.setDraws_rsp (n : Nat) : (u.setDraws n).rsp = u.rsp := rfl
@[simp] theorem WrUnit.setDraws_cmd (n : Nat) : (u.setDraws n).cmd = u.cmd := rfl
@[simp] theorem WrUnit.setDraws_draws (n : Nat) : (u.setDraws n).draws = n := rfl
end

section
variable (s : State)

@[simp] theorem State.withRd_rd (u : RdUnit) : (s.withRd u).rd = u := rfl
@[simp] theorem State.withRd_wr (u : RdUnit) : (s.withRd u).wr = s.wr := rfl
@[simp] theorem State.withRd_host (u : RdUnit) : (s.withRd u).host = s.host := rfl

@[simp] theorem State.withWr_rd (u : WrUnit) : (s.withWr u).rd = s.rd := rfl
@[simp] theorem State.withWr_wr (u : WrUnit) : (s.withWr u).wr = u := rfl
@[simp] theorem State.withWr_host (u : WrUnit) : (s.withWr u).host = s.host := rfl

@[simp] theorem State.withHost_rd (cs : List HostCommand) : (s.withHost cs).rd = s.rd := rfl
@[simp] theorem State.withHost_wr (cs : List HostCommand) : (s.withHost cs).wr = s.wr := rfl
@[simp] theorem State.withHost_host (cs : List HostCommand) : (s.withHost cs).host = cs := rfl
end

end Sys2Proof.Machine
end

