-- ==== Sys2Proof/Laws/Cursor.lean ====
section
/-! SUPPORT. The reader as a cursor: BITBUF, BITCNT and SRCPOS of a unit that keeps the invariant are determined by the bit
position, and one turn of the general loop moves the cursor by one bit. -/

namespace Sys2Proof.Machine

/-! ## What the flat view depends on -/

theorem srcBit_congr {u v : RdUnit} (hs : v.src = u.src) (ho : v.bitOrder = u.bitOrder) (q : Nat) :
    v.srcBit q = u.srcBit q := by
  simp [RdUnit.srcBit, hs, ho]

theorem bitsAt_congr {u v : RdUnit} (hs : v.src = u.src) (ho : v.bitOrder = u.bitOrder) (p n : Nat) :
    v.bitsAt p n = u.bitsAt p n := by
  induction n generalizing p with
  | zero => rfl
  | succ n ih => simp [RdUnit.bitsAt, srcBit_congr hs ho, ih]

theorem bytesAt_congr {u v : RdUnit} (hs : v.src = u.src) (ho : v.bitOrder = u.bitOrder) (p n : Nat) :
    v.bytesAt p n = u.bytesAt p n := by
  induction n generalizing p with
  | zero => rfl
  | succ n ih => simp [RdUnit.bytesAt, bitsAt_congr hs ho, ih]

theorem wordAt_congr {u v : RdUnit} (hs : v.src = u.src) (ho : v.bitOrder = u.bitOrder) (bo : ByteOrder)
    (p n : Nat) : v.wordAt bo p n = u.wordAt bo p n := by
  simp [RdUnit.wordAt, bytesAt_congr hs ho]

theorem bitsAt_lt (u : RdUnit) (p n : Nat) : u.bitsAt p n < 2 ^ n := by
  induction n generalizing p with
  | zero => simp [RdUnit.bitsAt]
  | succ n ih =>
    have h := ih (p + 1)
    have hb : (u.srcBit p).toNat ≤ 1 := Bool.toNat_le _
    simp only [RdUnit.bitsAt, Nat.pow_succ]
    omega

/-! ## The unit at a bit position -/

/-- The cursor of `u` is at bit position `p` of its source. -/
structure RdUnit.At (u : RdUnit) (p : Nat) : Prop where
  inside : p ≤ 8 * u.src.length
  srcPos : u.srcPos = (p + 7) / 8
  bitCnt : u.bitCnt = BitVec.ofNat 4 ((8 - p % 8) % 8)
  bitBuf : u.bitBuf = (u.moveTo p).bitBuf

theorem moveTo_srcPos (u : RdUnit) (p : Nat) : (u.moveTo p).srcPos = (p + 7) / 8 := rfl

theorem moveTo_bitCnt (u : RdUnit) (p : Nat) : (u.moveTo p).bitCnt = BitVec.ofNat 4 ((8 - p % 8) % 8) := rfl

/-- A unit at position `p` is where the cursor at `p` puts it. -/
theorem RdUnit.At.eq_moveTo {u : RdUnit} {p : Nat} (h : u.At p) : u.moveTo p = u := by
  ext1 <;> first | rfl | exact h.srcPos.symm | exact h.bitCnt.symm | exact h.bitBuf.symm

theorem moveTo_at (u : RdUnit) {p : Nat} (h : p ≤ 8 * u.src.length) : (u.moveTo p).At p :=
  ⟨h, rfl, rfl, rfl⟩

theorem RdUnit.At.bitCnt_toNat {u : RdUnit} {p : Nat} (h : u.At p) : u.bitCnt.toNat = (8 - p % 8) % 8 := by
  rw [h.bitCnt, BitVec.toNat_ofNat]
  omega

theorem RdUnit.At.bitPos {u : RdUnit} {p : Nat} (h : u.At p) : u.bitPos = p := by
  rw [RdUnit.bitPos, h.bitCnt_toNat, h.srcPos]
  omega

theorem RdUnit.At.pendingBits {u : RdUnit} {p : Nat} (h : u.At p) :
    Machine.pendingBits u = 8 * u.src.length - p := by
  have hi := h.inside
  rw [Machine.pendingBits, h.bitCnt_toNat, h.srcPos]
  omega

/-- The invariant of the buffer puts the cursor at the bit position. -/
theorem at_of_bufferOk {u : RdUnit} (h : BufferOk u.bitOrder u.src u.srcPos u.bitBuf u.bitCnt) :
    u.At u.bitPos := by
  obtain ⟨hc, hl, h0, hb⟩ := h
  by_cases hz : u.bitCnt.toNat = 0
  · have hp : u.bitPos = 8 * u.srcPos := by simp [RdUnit.bitPos, hz]
    refine ⟨by omega, by omega, ?_, ?_⟩
    · apply BitVec.eq_of_toNat_eq
      rw [BitVec.toNat_ofNat, hz]
      omega
    · rw [h0 hz]
      have h8 : u.bitPos % 8 = 0 := by omega
      simp only [RdUnit.moveTo, RdUnit.setBuffer_bitBuf, h8, if_true]
      split <;> rfl
  · obtain ⟨hpos, hbuf⟩ := hb (by omega)
    have hp : u.bitPos = 8 * u.srcPos - u.bitCnt.toNat := rfl
    refine ⟨by omega, by omega, ?_, ?_⟩
    · apply BitVec.eq_of_toNat_eq
      rw [BitVec.toNat_ofNat]
      omega
    · have hd : u.bitPos / 8 = u.srcPos - 1 := by omega
      have hm : u.bitPos % 8 = 8 - u.bitCnt.toNat := by omega
      have hne : ¬ u.bitPos % 8 = 0 := by omega
      simp only [RdUnit.moveTo, RdUnit.setBuffer_bitBuf, hne, if_false, hd]
      rw [hm]
      cases hx : u.src[u.srcPos - 1]? with
      | none => simp [hx] at hbuf
      | some b => simpa [hx] using hbuf.symm

theorem RdUnit.Inv.at {u : RdUnit} (h : u.Inv) : u.At u.bitPos := at_of_bufferOk h.1

/-- At a bit position the invariant of the buffer holds. -/
theorem RdUnit.At.bufferOk {u : RdUnit} {p : Nat} (h : u.At p) :
    BufferOk u.bitOrder u.src u.srcPos u.bitBuf u.bitCnt := by
  have hi := h.inside
  have hc := h.bitCnt_toNat
  have hs := h.srcPos
  refine ⟨by omega, by omega, fun hz => ?_, fun hz => ⟨by omega, ?_⟩⟩
  · have h8 : p % 8 = 0 := by omega
    rw [h.bitBuf]
    simp only [RdUnit.moveTo, RdUnit.setBuffer_bitBuf, h8, if_true]
    split <;> rfl
  · have hne : ¬ p % 8 = 0 := by omega
    have hd : u.srcPos - 1 = p / 8 := by omega
    have hlt : p / 8 < u.src.length := by omega
    rw [h.bitBuf, hd]
    simp only [RdUnit.moveTo, RdUnit.setBuffer_bitBuf, hne, if_false, List.getElem?_eq_getElem hlt, Option.map_some]
    rw [show 8 - u.bitCnt.toNat = p % 8 by omega]

/-! ## Bits of one byte -/

theorem srcBit_of_byte {u : RdUnit} {p : Nat} {b : Byte} (hb : u.src[p / 8]? = some b) :
    u.srcBit p = (transform u.bitOrder b).getLsbD (p % 8) := by
  simp [RdUnit.srcBit, hb]

/-- Bits that stand in one source byte are that byte shifted. -/
theorem bitsAt_within {u : RdUnit} {b : Byte} (n p : Nat) (hn : p % 8 + n ≤ 8) (hb : u.src[p / 8]? = some b) :
    u.bitsAt p n = (transform u.bitOrder b).toNat / 2 ^ (p % 8) % 2 ^ n := by
  induction n generalizing p with
  | zero => simp [RdUnit.bitsAt, Nat.mod_one]
  | succ n ih =>
    have hbit : (u.srcBit p).toNat = (transform u.bitOrder b).toNat / 2 ^ (p % 8) % 2 := by
      rw [srcBit_of_byte hb, BitVec.getLsbD, Nat.testBit_eq_decide_div_mod_eq]
      rcases Nat.mod_two_eq_zero_or_one ((transform u.bitOrder b).toNat / 2 ^ (p % 8)) with h | h <;> simp [h]
    rw [RdUnit.bitsAt, hbit]
    rcases Nat.eq_zero_or_pos n with h0 | hpos
    · subst h0
      simp [RdUnit.bitsAt]
    · have hd : (p + 1) / 8 = p / 8 := by omega
      have hm : (p + 1) % 8 = p % 8 + 1 := by omega
      rw [ih (p + 1) (by omega) (by rw [hd]; exact hb), hm, Nat.pow_succ, Nat.pow_succ, ← Nat.div_div_eq_div_mul]
      generalize (transform u.bitOrder b).toNat / 2 ^ (p % 8) = x
      rw [Nat.mul_comm (2 ^ n) 2, Nat.mod_mul]

/-- The buffer of a unit at a position inside a byte. -/
theorem RdUnit.At.bitBuf_of_byte {u : RdUnit} {p : Nat} (h : u.At p) (hne : p % 8 ≠ 0) {b : Byte}
    (hb : u.src[p / 8]? = some b) : u.bitBuf = transform u.bitOrder b >>> (p % 8) := by
  rw [h.bitBuf]
  simp [RdUnit.moveTo, hb, hne]

theorem exists_byte {u : RdUnit} {p : Nat} (h : p < 8 * u.src.length) : ∃ b, u.src[p / 8]? = some b :=
  ⟨_, List.getElem?_eq_getElem (by omega)⟩

/-! ## The source -/

theorem srcNext_end {u : RdUnit} (h : u.src.length ≤ u.srcPos) : srcNext u = (none, u) := by
  simp [srcNext, List.getElem?_eq_none h]

theorem srcNext_some {u : RdUnit} {b : Byte} (h : u.src[u.srcPos]? = some b) :
    srcNext u = (some b, u.setSrcPos (u.srcPos + 1)) := by
  simp [srcNext, h]

theorem load_end {u : RdUnit} (h : u.src.length ≤ u.srcPos) : load u = (none, u) := by
  simp [load, srcNext_end h]

theorem load_some {u : RdUnit} {b : Byte} (h : u.src[u.srcPos]? = some b) :
    load u = (some (transform u.bitOrder b), u.setSrcPos (u.srcPos + 1)) := by
  simp [load, srcNext_some h]

/-! ## One turn of the general loop (40_rd_bits.md R125) -/

/-- Count one byte if `b`. -/
def countIf (b : Bool) (u : RdUnit) : RdUnit := if b then countByte u else u

theorem countIf_at {u : RdUnit} {p : Nat} (h : u.At p) (b : Bool) : (countIf b u).At p := by
  cases b
  · exact h
  · exact ⟨h.inside, h.srcPos, h.bitCnt, h.bitBuf⟩

/-- At the end of the source the loop finds no byte. -/
theorem refill_end {u : RdUnit} {p : Nat} (h : u.At p) (hp : p = 8 * u.src.length) (had : Bool) :
    refill had u = (false, countIf had u) := by
  have hz : u.bitCnt = 0#4 := by
    apply BitVec.eq_of_toNat_eq
    rw [h.bitCnt_toNat]
    simp
    omega
  have hs := h.srcPos
  have hl : load (if had then countByte u else u) = (none, if had then countByte u else u) := by
    apply load_end
    cases had <;> simp [countByte] <;> omega
  simp [refill, hz, hl, countIf]

/-- Before the end one turn hands out the bit at the cursor and moves the cursor by one bit; a byte is counted where the cursor
stands at its first bit and an earlier one was held before the call. -/
theorem refill_turn {u : RdUnit} {p : Nat} (h : u.At p) (hp : p < 8 * u.src.length) (had : Bool) :
    ∃ v, refill had u = (true, v) ∧ v.bitBuf.getLsbD 0 = u.srcBit p ∧
      shiftOut v = (countIf (had && p % 8 == 0) u).moveTo (p + 1) := by
  obtain ⟨b, hb⟩ := exists_byte hp
  have hc := h.bitCnt_toNat
  have hs := h.srcPos
  by_cases h8 : p % 8 = 0
  · have hz : u.bitCnt = 0#4 := by
      apply BitVec.eq_of_toNat_eq
      rw [hc]
      simp
      omega
    have hsp : u.srcPos = p / 8 := by omega
    have hl : load (if had then countByte u else u)
        = (some (transform u.bitOrder b), (countIf had u).setSrcPos (u.srcPos + 1)) := by
      cases had
      · exact load_some (u := u) (by rw [hsp]; exact hb)
      · exact load_some (u := countByte u) (by simp only [countByte, RdUnit.setByteCnt_src, RdUnit.setByteCnt_srcPos, hsp]; exact hb)
    refine ⟨((countIf had u).setSrcPos (u.srcPos + 1)).setBuffer (transform u.bitOrder b) 8#4, ?_, ?_, ?_⟩
    · simp [refill, hz, hl]
    · simp [srcBit_of_byte hb, h8]
    · have hd : (p + 1) / 8 = p / 8 := by omega
      have hm : (p + 1) % 8 = 1 := by omega
      have hsrc : (countIf had u).src = u.src := by cases had <;> rfl
      have hord : (countIf had u).bitOrder = u.bitOrder := by cases had <;> rfl
      have h88 : (p % 8 == 0) = true := by simp [h8]
      rw [h88, Bool.and_true]
      simp only [shiftOut, RdUnit.moveTo, hsrc, hord, hd, hb, hm, RdUnit.setBuffer_bitBuf, RdUnit.setBuffer_bitCnt]
      ext1 <;> simp
      omega
  · have hnz : u.bitCnt ≠ 0#4 := by
      intro hz
      rw [hz] at hc
      simp at hc
      omega
    refine ⟨u, by simp [refill, hnz], ?_, ?_⟩
    · rw [h.bitBuf_of_byte h8 hb, srcBit_of_byte hb]
      simp
    · have h88 : (p % 8 == 0) = false := by simp [h8]
      rw [h88, Bool.and_false]
      have hcnt : u.bitCnt - 1#4 = BitVec.ofNat 4 ((8 - (p + 1) % 8) % 8) := by
        apply BitVec.eq_of_toNat_eq
        rw [BitVec.toNat_sub, hc, BitVec.toNat_ofNat]
        simp
        omega
      have hbuf : u.bitBuf >>> 1 = ((u.moveTo (p + 1)).bitBuf) := by
        rw [h.bitBuf_of_byte h8 hb]
        by_cases h7 : p % 8 = 7
        · have hm : (p + 1) % 8 = 0 := by omega
          have hx : (transform u.bitOrder b) >>> (p % 8) >>> 1 = 0#8 := by
            rw [h7]
            apply BitVec.eq_of_toNat_eq
            have := (transform u.bitOrder b).isLt
            simp [Nat.shiftRight_eq_div_pow]
            omega
          rw [hx]
          simp only [RdUnit.moveTo, RdUnit.setBuffer_bitBuf, hm, if_true]
          split <;> rfl
        · have hd : (p + 1) / 8 = p / 8 := by omega
          have hm : (p + 1) % 8 = p % 8 + 1 := by omega
          simp only [RdUnit.moveTo, RdUnit.setBuffer_bitBuf, hd, hb, hm]
          rw [if_neg (by omega), BitVec.shiftRight_add]
      ext1 <;> simp [shiftOut, countIf, hcnt, hbuf, moveTo_bitCnt, moveTo_srcPos] <;> first | rfl | omega

end Sys2Proof.Machine
end

