-- ==== Sys2Proof/Laws/BitReads.lean ====
section
/-! SUPPORT. What `ReadBits` can do, said once: on a unit that keeps the invariant its three paths hand out the bits at the
cursor and move it (40_rd_bits.md R126, R128, R129). -/

namespace Sys2Proof.Machine

/-! ## Updates of the cursor -/

theorem moveTo_moveTo (u : RdUnit) (p q : Nat) : (u.moveTo p).moveTo q = u.moveTo q := rfl

theorem moveTo_setByteCnt (u : RdUnit) (c : BitVec 64) (p : Nat) :
    (u.setByteCnt c).moveTo p = (u.moveTo p).setByteCnt c := rfl

theorem countIf_eq (b : Bool) (u : RdUnit) :
    countIf b u = u.setByteCnt (u.byteCnt + BitVec.ofNat 64 b.toNat) := by
  cases b
  · ext1 <;> simp [countIf]
  · rfl

theorem setByteCnt_self (u : RdUnit) : u.setByteCnt u.byteCnt = u := rfl

theorem setByteCnt_setByteCnt (u : RdUnit) (a b : BitVec 64) : (u.setByteCnt a).setByteCnt b = u.setByteCnt b := rfl

/-! ## The general loop -/

/-- The next bit and the rest of a value, placed at bit `k`. -/
theorem place_bit (b : Bool) (r k : Nat) :
    BitVec.ofNat 8 (b.toNat + 2 * r) <<< k = bitAt b k ||| BitVec.ofNat 8 r <<< (k + 1) := by
  have hbit : b.toNat + 2 * r = Nat.bit b r := by cases b <;> (simp [Nat.bit]; try omega)
  apply BitVec.eq_of_getLsbD_eq
  intro i hi
  rw [hbit]
  simp only [BitVec.getLsbD_shiftLeft, BitVec.getLsbD_or, BitVec.getLsbD_ofNat, bitAt, hi, decide_true, Bool.true_and]
  have h1 : (if b = true then 1#8 <<< k else 0#8).getLsbD i = (b && decide (i = k)) := by
    cases b
    · simp
    · simp [hi]
      by_cases hik : i < k
      · simp [hik]
        omega
      · by_cases heq : i = k <;> (simp [heq]; try omega)
  rw [h1]
  by_cases hik : i < k
  · simp [hik, show i < k + 1 by omega, show i ≠ k by omega]
  · by_cases heq : i = k
    · subst heq
      simp
    · obtain ⟨j, rfl⟩ : ∃ j, i = k + 1 + j := ⟨i - (k + 1), by omega⟩
      have e1 : k + 1 + j - k = j + 1 := by omega
      have e2 : k + 1 + j - (k + 1) = j := by omega
      simp [e1, e2, Nat.testBit_bit_succ, show ¬ k + 1 + j < k by omega, show k + 1 + j ≠ k by omega,
        show j + 1 < 8 by omega, show j < 8 by omega]
      omega

/-- How many bytes the general loop counts when it hands out `m` of the `n` bits asked from position `p`. -/
def loopCount (had : Bool) (p m n : Nat) : Nat :=
  if had then (p + m + 7) / 8 - (p + 7) / 8 + (if m < n then 1 else 0) else 0

/-- The general loop hands out the bits at the cursor, as many as there are. -/
theorem readLoop_spec (n : Nat) (had : Bool) (k : Nat) (v : Byte) {u : RdUnit} {p : Nat} (h : u.At p) :
    readLoop n had k v u =
      (if 0 < n ∧ p = 8 * u.src.length ∧ k = 0 then .eof
        else .got (v ||| BitVec.ofNat 8 (u.bitsAt p (min n (8 * u.src.length - p))) <<< k)
          (k + min n (8 * u.src.length - p)),
       (u.moveTo (p + min n (8 * u.src.length - p))).setByteCnt
         (u.byteCnt + BitVec.ofNat 64 (loopCount had p (min n (8 * u.src.length - p)) n))) := by
  induction n generalizing k v u p with
  | zero =>
    simp only [readLoop, Nat.zero_min, RdUnit.bitsAt, loopCount, Nat.add_zero, h.eq_moveTo]
    ext1 <;> simp
    ext1 <;> simp
  | succ n ih =>
    have hi := h.inside
    by_cases hp : p = 8 * u.src.length
    · rw [readLoop, refill_end h hp]
      have hz : 8 * u.src.length - p = 0 := by omega
      simp only [hz, Nat.min_zero, RdUnit.bitsAt, Nat.add_zero, h.eq_moveTo, countIf_eq]
      have hcount : loopCount had p 0 (n + 1) = had.toNat := by cases had <;> simp [loopCount]
      rw [hcount]
      by_cases hk : k = 0 <;> simp [hp, hk]
    · obtain ⟨w, hw, hbit, hmove⟩ := refill_turn h (by omega : p < 8 * u.src.length) had
      rw [readLoop, hw]
      simp only
      have hb := countIf_at h (had && p % 8 == 0)
      have hsrc : (countIf (had && p % 8 == 0) u).src = u.src := by rw [countIf_eq]; rfl
      have hord : (countIf (had && p % 8 == 0) u).bitOrder = u.bitOrder := by rw [countIf_eq]; rfl
      have hnext : ((countIf (had && p % 8 == 0) u).moveTo (p + 1)).At (p + 1) :=
        moveTo_at _ (by rw [hsrc]; omega)
      rw [hmove, ih (k + 1) _ hnext, hbit]
      have hs2 : ((countIf (had && p % 8 == 0) u).moveTo (p + 1)).src = u.src := hsrc
      have ho2 : ((countIf (had && p % 8 == 0) u).moveTo (p + 1)).bitOrder = u.bitOrder := hord
      have hmin : min (n + 1) (8 * u.src.length - p) = min n (8 * u.src.length - (p + 1)) + 1 := by omega
      have hadd : p + 1 + min n (8 * u.src.length - (p + 1)) = p + min (n + 1) (8 * u.src.length - p) := by omega
      simp only [hs2, bitsAt_congr hs2 ho2, moveTo_moveTo, hadd]
      rw [hmin]
      generalize hm : min n (8 * u.src.length - (p + 1)) = m
      rw [hm] at hmin
      refine Prod.ext ?_ ?_
      · simp only [RdUnit.bitsAt]
        rw [if_neg (by omega), if_neg (by omega), place_bit, BitVec.or_assoc]
        congr 1
        omega
      · simp only [countIf_eq, moveTo_setByteCnt, setByteCnt_setByteCnt, RdUnit.setByteCnt_byteCnt]
        congr 1
        have hb1 : ((u.setByteCnt (u.byteCnt + BitVec.ofNat 64 (had && p % 8 == 0).toNat)).moveTo (p + 1)).byteCnt
            = u.byteCnt + BitVec.ofNat 64 (had && p % 8 == 0).toNat := rfl
        rw [moveTo_setByteCnt] at hb1
        simp only [BitVec.add_assoc]
        congr 1
        rw [← BitVec.ofNat_add]
        congr 1
        cases had
        · simp [loopCount]
        · simp only [loopCount, if_true, Bool.true_and]
          by_cases h8 : p % 8 = 0
          · simp only [h8, beq_self_eq_true, Bool.toNat_true]
            by_cases hmn : m < n
            · simp only [hmn, if_true, show m + 1 < n + 1 by omega]
              omega
            · simp only [hmn, if_false, show ¬ m + 1 < n + 1 by omega]
              omega
          · have : (p % 8 == 0) = false := by simp [h8]
            simp only [this, Bool.toNat_false]
            by_cases hmn : m < n
            · simp only [hmn, if_true, show m + 1 < n + 1 by omega]
              omega
            · simp only [hmn, if_false, show ¬ m + 1 < n + 1 by omega]
              omega

/-! ## ReadBits -/

theorem consume_at {u : RdUnit} {p n : Nat} (h : u.At p) (hn : p + n ≤ 8 * u.src.length) :
    (u.consume n).At (p + n) := by
  rw [RdUnit.consume, h.bitPos]
  exact ⟨hn, rfl, rfl, rfl⟩

theorem consume_zero {u : RdUnit} {p : Nat} (h : u.At p) : u.consume 0 = u := by
  rw [RdUnit.consume, h.bitPos, Nat.add_zero, h.eq_moveTo]
  ext1 <;> simp

theorem consume_src (u : RdUnit) (n : Nat) : (u.consume n).src = u.src := rfl

theorem consume_bitOrder (u : RdUnit) (n : Nat) : (u.consume n).bitOrder = u.bitOrder := rfl

/-- Two consumptions in a row. -/
theorem consume_consume {u : RdUnit} {p : Nat} (h : u.At p) (m n : Nat) (hm : p + m ≤ 8 * u.src.length) :
    (u.consume m).consume n = u.consume (m + n) := by
  have h1 := consume_at h hm
  rw [RdUnit.consume, h1.bitPos]
  rw [RdUnit.consume, RdUnit.consume, h.bitPos, moveTo_setByteCnt, setByteCnt_setByteCnt, moveTo_moveTo, Nat.add_assoc]
  congr 1
  simp only [RdUnit.setByteCnt_byteCnt]
  rw [BitVec.add_assoc, ← BitVec.ofNat_add]
  congr 2
  omega

/-- `ReadBits(w)` on a unit at position `p`: EOF where nothing is pending, else the bits at the cursor, as many of the `w` as
there are, whichever path ran. -/
theorem readBits_spec {u : RdUnit} {p : Nat} (h : u.At p) {w : Nat} (hw : 1 ≤ w ∧ w ≤ 8) :
    readBits w u =
      if p = 8 * u.src.length then (.eof, u)
      else (.got (BitVec.ofNat 8 (u.bitsAt p (min w (8 * u.src.length - p)))) (min w (8 * u.src.length - p)),
        u.consume (min w (8 * u.src.length - p))) := by
  have hi := h.inside
  have hc := h.bitCnt_toNat
  have hs := h.srcPos
  have hcz : u.bitCnt = 0#4 ↔ p % 8 = 0 := by
    constructor
    · intro hz
      rw [hz] at hc
      simp at hc
      omega
    · intro hz
      apply BitVec.eq_of_toNat_eq
      rw [hc]
      simp
      omega
  by_cases hfast : u.bitCnt = 0#4 ∧ w = 8
  · obtain ⟨hz, rfl⟩ := hfast
    have h8 := hcz.mp hz
    rw [readBits, if_pos ⟨hz, rfl⟩]
    by_cases hp : p = 8 * u.src.length
    · rw [if_pos hp, readFast, load_end (by omega)]
    · obtain ⟨b, hb⟩ := exists_byte (by omega : p < 8 * u.src.length)
      have hsp : u.srcPos = p / 8 := by omega
      have hmin : min 8 (8 * u.src.length - p) = 8 := by omega
      rw [if_neg hp, readFast, load_some (by rw [hsp]; exact hb), hmin]
      refine Prod.ext ?_ ?_
      · rw [bitsAt_within 8 p (by omega) hb, h8]
        refine congrArg (BitsRead.got · 8) (BitVec.eq_of_toNat_eq ?_)
        have := (transform u.bitOrder b).isLt
        simp
        omega
      · simp only [RdUnit.consume, h.bitPos]
        have hm8 : (p + 8) % 8 = 0 := by omega
        have hbuf : ((u.moveTo (p + 8)).bitBuf) = 0#8 := by
          simp only [RdUnit.moveTo, RdUnit.setBuffer_bitBuf, hm8, if_true]
          split <;> rfl
        have hbuf0 : u.bitBuf = 0#8 := by
          rw [h.bitBuf]
          simp only [RdUnit.moveTo, RdUnit.setBuffer_bitBuf, h8, if_true]
          split <;> rfl
        have hone : (p + 8) / 8 - p / 8 = 1 := by omega
        rw [hone]
        ext1 <;> simp [countByte, hbuf, hbuf0, moveTo_srcPos, moveTo_bitCnt, hz, h8] <;> first | rfl | omega
  · rw [readBits, if_neg hfast]
    by_cases hshort : w = u.bitCnt.toNat
    · rw [if_pos hshort]
      rw [hc] at hshort
      have h8 : p % 8 ≠ 0 := by omega
      have hlt : p < 8 * u.src.length := by omega
      obtain ⟨b, hb⟩ := exists_byte hlt
      have hmin : min w (8 * u.src.length - p) = w := by omega
      rw [if_neg (by omega), hmin, readShortcut]
      refine Prod.ext ?_ ?_
      · rw [bitsAt_within w p (by omega) hb, h.bitBuf_of_byte h8 hb]
        refine congrArg (BitsRead.got · w) ?_
        apply BitVec.eq_of_toNat_eq
        have hT := (transform u.bitOrder b).isLt
        have hle : (transform u.bitOrder b).toNat / 2 ^ (p % 8) < 2 ^ w := by
          rw [Nat.div_lt_iff_lt_mul (by positivity), ← Nat.pow_add, show w + p % 8 = 8 by omega]
          exact hT
        rw [Nat.mod_eq_of_lt hle, BitVec.toNat_ushiftRight, Nat.shiftRight_eq_div_pow, BitVec.toNat_ofNat,
          Nat.mod_eq_of_lt (lt_of_le_of_lt (Nat.div_le_self _ _) hT)]
      · simp only [RdUnit.consume, h.bitPos]
        have hm8 : (p + w) % 8 = 0 := by omega
        have hbuf : ((u.moveTo (p + w)).bitBuf) = 0#8 := by
          simp only [RdUnit.moveTo, RdUnit.setBuffer_bitBuf, hm8, if_true]
          split <;> rfl
        have hone : (p + w) / 8 - p / 8 = 1 := by omega
        ext1 <;> simp [countByte, emptyBuffer, hbuf, hone, moveTo_srcPos, moveTo_bitCnt, hm8] <;> first | rfl | omega
    · rw [if_neg hshort, readGeneral, readLoop_spec w _ 0 0#8 h]
      rw [hc] at hshort
      by_cases hp : p = 8 * u.src.length
      · have hz := hcz.mpr (by omega)
        have hmin : min w (8 * u.src.length - p) = 0 := by omega
        have hb : (u.bitCnt != 0#4) = false := by simp [hz]
        rw [if_pos hp, hmin, hb, if_pos ⟨by omega, hp, rfl⟩, Nat.add_zero, h.eq_moveTo]
        simp [loopCount, setByteCnt_self]
      · rw [if_neg hp, if_neg (by omega)]
        refine Prod.ext ?_ ?_
        · simp
        · simp only [RdUnit.consume, h.bitPos]
          congr 2
          congr 1
          by_cases h8 : p % 8 = 0
          · have hb : (u.bitCnt != 0#4) = false := by simp [hcz.mpr h8]
            have hw8 : w ≠ 8 := fun e => hfast ⟨hcz.mpr h8, e⟩
            rw [hb]
            simp only [loopCount, Bool.false_eq_true, if_false]
            omega
          · have hb : (u.bitCnt != 0#4) = true := by simpa using fun e => h8 (hcz.mp e)
            rw [hb]
            simp only [loopCount, if_true]
            split <;> omega

end Sys2Proof.Machine
end

