-- ==== Sys2Proof/Laws/Bytes.lean ====
section
/-! SUPPORT. Bytes and numbers: the bytes of a value in a byte order and the value of bytes undo each other, and the bit-order
transformer undoes itself. -/

namespace Sys2Proof.Machine

/-- rev8 is its own inverse (00_scope.md R10). -/
theorem rev8_rev8 (b : Byte) : rev8 (rev8 b) = b := by
  revert b
  decide

/-- T is its own inverse (44_wr_bits.md R214). -/
@[simp] theorem transform_transform (o : BitOrder) (b : Byte) : transform o (transform o b) = b := by
  cases o
  · rfl
  · exact rev8_rev8 b

/-! ## The bytes of a value (20_memory.md R66, 47_strings.md R263) -/

theorem lenByte_succ (n j : Nat) : lenByte n (j + 1) = lenByte (n / 256) j := by
  rw [lenByte, lenByte, Nat.div_div_eq_div_mul, Nat.pow_succ, Nat.mul_comm]

theorem lenBytes_little_succ (n k : Nat) :
    lenBytes n (k + 1) .little = BitVec.ofNat 8 n :: lenBytes (n / 256) k .little := by
  simp only [lenBytes, List.range_succ_eq_map, List.map_cons, List.map_map]
  refine congr (congrArg _ (by simp [lenByte])) ?_
  apply List.map_congr_left
  intro j _
  exact lenByte_succ n j

theorem lenBytes_big (n k : Nat) : lenBytes n k .big = (lenBytes n k .little).reverse := by
  simp [lenBytes]

theorem lenBytes_length (n k : Nat) (bo : ByteOrder) : (lenBytes n k bo).length = k := by
  cases bo <;> simp [lenBytes]

theorem valueOfBytes_big (bs : List Byte) : valueOfBytes .big bs = valueOfBytes .little bs.reverse := by
  have happ : ∀ xs ys : List Byte,
      valueOfBytes .little (xs ++ ys) = valueOfBytes .little xs + 256 ^ xs.length * valueOfBytes .little ys := by
    intro xs ys
    induction xs with
    | nil => simp [valueOfBytes]
    | cons x xs ih =>
      simp only [List.cons_append, valueOfBytes, ih, List.length_cons, Nat.pow_succ]
      ring
  induction bs with
  | nil => rfl
  | cons b bs ih =>
    rw [List.reverse_cons, happ, valueOfBytes, ih, List.length_reverse]
    simp only [valueOfBytes]
    ring

theorem valueOfBytes_lenBytes_little (n k : Nat) : valueOfBytes .little (lenBytes n k .little) = n % 256 ^ k := by
  induction k generalizing n with
  | zero => simp [lenBytes, valueOfBytes, Nat.mod_one]
  | succ k ih =>
    rw [lenBytes_little_succ, valueOfBytes, ih, BitVec.toNat_ofNat]
    have := Nat.mod_mul (x := n) (a := 256) (b := 256 ^ k)
    rw [show 256 ^ (k + 1) = 256 * 256 ^ k from Nat.pow_succ']
    exact this.symm

/-- The value of the `k` bytes of `n` is `n` modulo 256^k. -/
theorem valueOfBytes_lenBytes (bo : ByteOrder) (n k : Nat) : valueOfBytes bo (lenBytes n k bo) = n % 256 ^ k := by
  cases bo
  · rw [valueOfBytes_big, lenBytes_big, List.reverse_reverse, valueOfBytes_lenBytes_little]
  · exact valueOfBytes_lenBytes_little n k

theorem valueOfBytes_lt (bo : ByteOrder) (bs : List Byte) : valueOfBytes bo bs < 256 ^ bs.length := by
  induction bs with
  | nil => simp [valueOfBytes]
  | cons b bs ih =>
    have hb : b.toNat ≤ 255 := by have := b.isLt; omega
    have hmul := Nat.mul_le_mul_right (256 ^ bs.length) hb
    cases bo <;> simp only [valueOfBytes, List.length_cons, Nat.pow_succ] <;> omega

theorem lenBytes_valueOfBytes_little (bs : List Byte) :
    lenBytes (valueOfBytes .little bs) bs.length .little = bs := by
  induction bs with
  | nil => rfl
  | cons b bs ih =>
    have hb := b.isLt
    have hd : (b.toNat + 256 * valueOfBytes .little bs) / 256 = valueOfBytes .little bs := by omega
    rw [List.length_cons, lenBytes_little_succ, valueOfBytes, hd, ih]
    congr 1
    apply BitVec.eq_of_toNat_eq
    rw [BitVec.toNat_ofNat]
    omega

/-- The bytes of the value of some bytes are those bytes. -/
theorem lenBytes_valueOfBytes (bo : ByteOrder) (bs : List Byte) :
    lenBytes (valueOfBytes bo bs) bs.length bo = bs := by
  cases bo
  · rw [lenBytes_big, valueOfBytes_big]
    have := lenBytes_valueOfBytes_little bs.reverse
    rw [List.length_reverse] at this
    rw [this, List.reverse_reverse]
  · exact lenBytes_valueOfBytes_little bs

/-- The lower and the upper bytes of a value, lowest byte first. -/
theorem lenBytes_little_add (n i j : Nat) :
    lenBytes n (i + j) .little = lenBytes n i .little ++ lenBytes (n / 256 ^ i) j .little := by
  induction i generalizing n with
  | zero => simp [lenBytes]
  | succ i ih =>
    rw [show i + 1 + j = (i + j) + 1 by omega, lenBytes_little_succ, lenBytes_little_succ, ih, Nat.div_div_eq_div_mul,
      Nat.pow_succ', List.cons_append]

theorem lenBytes_mod (n k : Nat) (bo : ByteOrder) : lenBytes (n % 256 ^ k) k bo = lenBytes n k bo := by
  have h := lenBytes_valueOfBytes bo (lenBytes n k bo)
  rwa [valueOfBytes_lenBytes, lenBytes_length] at h

/-- A value of `i + j` bytes, `i` of them low, in either byte order. -/
theorem lenBytes_big_add (n i j : Nat) :
    lenBytes n (i + j) .big = lenBytes (n / 256 ^ i) j .big ++ lenBytes n i .big := by
  rw [lenBytes_big, lenBytes_little_add, List.reverse_append, ← lenBytes_big, ← lenBytes_big]

end Sys2Proof.Machine
end

