-- ==== Sys2Proof/Laws/Reads.lean ====
section
/-! SUPPORT. What the composed reads and the array template can do, said once each, on a unit whose cursor is at a bit
position (41_rd_scalars.md R140, R141, 42_rd_arrays.md R161 to R164). -/

namespace Sys2Proof.Machine

/-! ## Readers of a fixed number of bits -/

/-- `read` takes `m` bits and answers `val` of them; with fewer than `m` left it raises EndOfData, and all that was left is
gone. -/
structure Takes {α : Type} (read : RdUnit → RdResult α) (m : Nat) (val : RdUnit → Nat → α) : Prop where
  enough : ∀ {u : RdUnit} {p : Nat}, u.At p → p + m ≤ 8 * u.src.length → read u = .ok (val u p) (u.consume m)
  short : ∀ {u : RdUnit} {p : Nat}, u.At p → 8 * u.src.length < p + m →
    read u = .raise .endOfData (u.consume (8 * u.src.length - p))
  stable : ∀ (u : RdUnit) (n p : Nat), val (u.consume n) p = val u p

theorem consume_bitsAt (u : RdUnit) (k p n : Nat) : (u.consume k).bitsAt p n = u.bitsAt p n :=
  bitsAt_congr (u := u) (v := u.consume k) rfl rfl p n

theorem consume_bytesAt (u : RdUnit) (k p n : Nat) : (u.consume k).bytesAt p n = u.bytesAt p n :=
  bytesAt_congr (u := u) (v := u.consume k) rfl rfl p n

theorem consume_wordAt (u : RdUnit) (bo : ByteOrder) (k p n : Nat) : (u.consume k).wordAt bo p n = u.wordAt bo p n :=
  wordAt_congr (u := u) (v := u.consume k) rfl rfl bo p n

/-- `RdByte()` (41_rd_scalars.md R140). -/
theorem rdByte_takes : Takes rdByte 8 (fun u p => BitVec.ofNat 8 (u.bitsAt p 8)) where
  enough := by
    intro u p h hp
    rw [rdByte, readBits_spec h (by omega), if_neg (by omega), show min 8 (8 * u.src.length - p) = 8 by omega]
    simp
  short := by
    intro u p h hp
    have hi := h.inside
    rw [rdByte, readBits_spec h (by omega)]
    by_cases he : p = 8 * u.src.length
    · rw [if_pos he, show 8 * u.src.length - p = 0 by omega, consume_zero h]
    · rw [if_neg he, show min 8 (8 * u.src.length - p) = 8 * u.src.length - p by omega]
      simp only
      rw [if_pos (by omega)]
  stable u n p := by rw [consume_bitsAt]

/-- One read after the other. -/
theorem Takes.bind {α β γ : Type} {f : RdUnit → RdResult α} {g : RdUnit → RdResult β} {m n : Nat}
    {v : RdUnit → Nat → α} {w : RdUnit → Nat → β} (hf : Takes f m v) (hg : Takes g n w) (k : α → β → γ) :
    Takes (fun u => (f u).bind fun x u => (g u).map (k x)) (m + n) (fun u p => k (v u p) (w u (p + m))) where
  enough := by
    intro u p h hp
    have h1 := consume_at h (show p + m ≤ 8 * u.src.length by omega)
    simp only [hf.enough h (by omega), RdResult.bind, RdResult.map]
    rw [hg.enough h1 (by rw [consume_src]; omega)]
    simp only [hg.stable]
    rw [consume_consume h m n (by omega)]
  short := by
    intro u p h hp
    have hi := h.inside
    simp only [RdResult.bind, RdResult.map]
    by_cases hm : p + m ≤ 8 * u.src.length
    · have h1 := consume_at h hm
      rw [hf.enough h hm]
      simp only
      rw [hg.short h1 (by rw [consume_src]; omega), consume_src]
      simp only
      rw [consume_consume h m _ hm, show m + (8 * u.src.length - (p + m)) = 8 * u.src.length - p by omega]
    · rw [hf.short h (by omega)]
  stable u j p := by rw [hf.stable, hg.stable]

/-- A function of what was read. -/
theorem Takes.map {α β : Type} {f : RdUnit → RdResult α} {m : Nat} {v : RdUnit → Nat → α} (hf : Takes f m v)
    (k : α → β) : Takes (fun u => (f u).map k) m (fun u p => k (v u p)) where
  enough := by
    intro u p h hp
    simp only [hf.enough h hp, RdResult.map, RdResult.bind]
  short := by
    intro u p h hp
    simp only [hf.short h hp, RdResult.map, RdResult.bind]
  stable u j p := by rw [hf.stable]

theorem Takes.congr {α : Type} {f : RdUnit → RdResult α} {m : Nat} {v w : RdUnit → Nat → α} (hf : Takes f m v)
    (hvw : ∀ u p, v u p = w u p) : Takes f m w := by
  have : v = w := funext fun u => funext fun p => hvw u p
  exact this ▸ hf

/-! ## Values of several bytes (20_memory.md R66) -/

theorem valueOfBytes_big_append (xs ys : List Byte) :
    valueOfBytes .big (xs ++ ys) = valueOfBytes .big xs * 256 ^ ys.length + valueOfBytes .big ys := by
  induction xs with
  | nil => simp [valueOfBytes]
  | cons x xs ih =>
    simp only [List.cons_append, valueOfBytes, ih, List.length_append, Nat.pow_add]
    ring

theorem valueOfBytes_little_append (xs ys : List Byte) :
    valueOfBytes .little (xs ++ ys) = valueOfBytes .little xs + 256 ^ xs.length * valueOfBytes .little ys := by
  induction xs with
  | nil => simp [valueOfBytes]
  | cons x xs ih =>
    simp only [List.cons_append, valueOfBytes, ih, List.length_cons, Nat.pow_succ]
    ring

theorem bytesAt_length (u : RdUnit) (p n : Nat) : (u.bytesAt p n).length = n := by
  induction n generalizing p with
  | zero => rfl
  | succ n ih => simp [RdUnit.bytesAt, ih]

theorem bytesAt_append (u : RdUnit) (p m n : Nat) :
    u.bytesAt p (m + n) = u.bytesAt p m ++ u.bytesAt (p + 8 * m) n := by
  induction m generalizing p with
  | zero => simp [RdUnit.bytesAt]
  | succ m ih =>
    rw [show m + 1 + n = (m + n) + 1 by omega, RdUnit.bytesAt, RdUnit.bytesAt, ih,
      show p + 8 + 8 * m = p + 8 * (m + 1) by omega]
    rfl

theorem wordAt_lt (u : RdUnit) (bo : ByteOrder) (p n : Nat) : u.wordAt bo p n < 256 ^ n := by
  have := valueOfBytes_lt bo (u.bytesAt p n)
  rwa [bytesAt_length] at this

theorem wordAt_big_add (u : RdUnit) (p m n : Nat) :
    u.wordAt .big p (m + n) = u.wordAt .big p m * 256 ^ n + u.wordAt .big (p + 8 * m) n := by
  rw [RdUnit.wordAt, bytesAt_append, valueOfBytes_big_append, bytesAt_length]
  rfl

theorem wordAt_little_add (u : RdUnit) (p m n : Nat) :
    u.wordAt .little p (m + n) = u.wordAt .little p m + 256 ^ m * u.wordAt .little (p + 8 * m) n := by
  rw [RdUnit.wordAt, bytesAt_append, valueOfBytes_little_append, bytesAt_length]
  rfl

theorem wordAt_one (u : RdUnit) (bo : ByteOrder) (p : Nat) : u.wordAt bo p 1 = u.bitsAt p 8 := by
  have := bitsAt_lt u p 8
  cases bo <;> simp [RdUnit.wordAt, RdUnit.bytesAt, valueOfBytes] <;> omega

/-- Two halves side by side, as numbers. -/
theorem append_ofNat {m n x y : Nat} (hx : x < 2 ^ m) (hy : y < 2 ^ n) :
    BitVec.ofNat m x ++ BitVec.ofNat n y = BitVec.ofNat (m + n) (x * 2 ^ n + y) := by
  apply BitVec.eq_of_toNat_eq
  rw [BitVec.toNat_append, BitVec.toNat_ofNat, BitVec.toNat_ofNat, BitVec.toNat_ofNat, Nat.mod_eq_of_lt hx,
    Nat.mod_eq_of_lt hy, Nat.mod_eq_of_lt, ← Nat.shiftLeft_add_eq_or_of_lt hy, Nat.shiftLeft_eq]
  rw [Nat.pow_add]
  have := Nat.mul_le_mul_right (2 ^ n) (show x ≤ 2 ^ m - 1 by omega)
  have h2 : (2 ^ m - 1) * 2 ^ n + 2 ^ n = 2 ^ m * 2 ^ n := by
    have : 0 < 2 ^ m := by positivity
    rw [← Nat.succ_mul]
    congr 1
    omega
  omega

theorem append8 {x y : Nat} (hx : x < 2 ^ 8) (hy : y < 2 ^ 8) :
    (BitVec.ofNat 8 x ++ BitVec.ofNat 8 y : BitVec 16) = BitVec.ofNat 16 (x * 2 ^ 8 + y) := append_ofNat hx hy

theorem append16 {x y : Nat} (hx : x < 2 ^ 16) (hy : y < 2 ^ 16) :
    (BitVec.ofNat 16 x ++ BitVec.ofNat 16 y : BitVec 32) = BitVec.ofNat 32 (x * 2 ^ 16 + y) := append_ofNat hx hy

theorem append32 {x y : Nat} (hx : x < 2 ^ 32) (hy : y < 2 ^ 32) :
    (BitVec.ofNat 32 x ++ BitVec.ofNat 32 y : BitVec 64) = BitVec.ofNat 64 (x * 2 ^ 32 + y) := append_ofNat hx hy

/-- `RdU16(bo)` (41_rd_scalars.md R141). -/
theorem rdU16_takes (bo : ByteOrder) : Takes (rdU16 bo) 16 (fun u p => BitVec.ofNat 16 (u.wordAt bo p 2)) := by
  refine (rdByte_takes.bind rdByte_takes (join16 bo)).congr fun u p => ?_
  have h1 := bitsAt_lt u p 8
  have h2 := bitsAt_lt u (p + 8) 8
  have e : (256 : Nat) ^ 1 = 2 ^ 8 := by norm_num
  cases bo
  · rw [join16, append8 h1 h2, wordAt_big_add u p 1 1, wordAt_one, wordAt_one, e]
  · rw [join16, append8 h2 h1, wordAt_little_add u p 1 1, wordAt_one, wordAt_one, e, Nat.add_comm, Nat.mul_comm]

/-- `RdU32(bo)` (41_rd_scalars.md R141). -/
theorem rdU32_takes (bo : ByteOrder) : Takes (rdU32 bo) 32 (fun u p => BitVec.ofNat 32 (u.wordAt bo p 4)) := by
  refine ((rdU16_takes bo).bind (rdU16_takes bo) (join32 bo)).congr fun u p => ?_
  have h1 : u.wordAt bo p 2 < 2 ^ 16 := wordAt_lt u bo p 2
  have h2 : u.wordAt bo (p + 16) 2 < 2 ^ 16 := wordAt_lt u bo (p + 16) 2
  have e : (256 : Nat) ^ 2 = 2 ^ 16 := by norm_num
  cases bo
  · rw [join32, append16 h1 h2, wordAt_big_add u p 2 2, e]
  · rw [join32, append16 h2 h1, wordAt_little_add u p 2 2, e, Nat.add_comm, Nat.mul_comm]

/-- `RdU64(bo)` (41_rd_scalars.md R141). -/
theorem rdU64_takes (bo : ByteOrder) : Takes (rdU64 bo) 64 (fun u p => BitVec.ofNat 64 (u.wordAt bo p 8)) := by
  refine ((rdU32_takes bo).bind (rdU32_takes bo) (join64 bo)).congr fun u p => ?_
  have h1 : u.wordAt bo p 4 < 2 ^ 32 := wordAt_lt u bo p 4
  have h2 : u.wordAt bo (p + 32) 4 < 2 ^ 32 := wordAt_lt u bo (p + 32) 4
  have e : (256 : Nat) ^ 4 = 2 ^ 32 := by norm_num
  cases bo
  · rw [join64, append32 h1 h2, wordAt_big_add u p 4 4, e]
  · rw [join64, append32 h2 h1, wordAt_little_add u p 4 4, e, Nat.add_comm, Nat.mul_comm]

/-- A run of bytes (47_strings.md R265). -/
theorem rdBytes_takes (n : Nat) : Takes (rdBytes n) (8 * n) (fun u p => u.bytesAt p n) := by
  induction n with
  | zero =>
    exact ⟨fun h _ => by rw [rdBytes, consume_zero h]; rfl, fun h hp => absurd hp (by have := h.inside; omega),
      fun u n p => consume_bytesAt u n p 0⟩
  | succ n ih =>
    have := rdByte_takes.bind ih (fun b bs => b :: bs)
    rw [show 8 + 8 * n = 8 * (n + 1) by omega] at this
    exact this

/-! ## The array template (42_rd_arrays.md R161) -/

/-- The items of `n` elements of `m` bits from position `p`. -/
def itemsFrom (val : RdUnit → Nat → Item) (u : RdUnit) (p m n : Nat) : List Item :=
  (List.range n).map fun i => val u (p + i * m)

theorem itemsFrom_succ (val : RdUnit → Nat → Item) (u : RdUnit) (p m n : Nat) :
    itemsFrom val u p m (n + 1) = val u p :: itemsFrom val u (p + m) m n := by
  rw [itemsFrom, List.range_succ_eq_map, List.map_cons, List.map_map, itemsFrom]
  simp only [Nat.zero_mul, Nat.add_zero, List.cons.injEq, true_and]
  apply List.map_congr_left
  intro i _
  simp only [Function.comp, Nat.succ_eq_add_one]
  congr 1
  ring

theorem itemsFrom_length (val : RdUnit → Nat → Item) (u : RdUnit) (p m n : Nat) :
    (itemsFrom val u p m n).length = n := by simp [itemsFrom]

theorem itemsFrom_congr {val : RdUnit → Nat → Item} {u v : RdUnit} (h : ∀ p, val v p = val u p) (p m n : Nat) :
    itemsFrom val v p m n = itemsFrom val u p m n := by simp [itemsFrom, h]

/-- `item` answers `val` of the next `m` bits where there are that many. -/
structure Elem (item : RdUnit → RdResult Item) (m : Nat) (val : RdUnit → Nat → Item) : Prop where
  enough : ∀ {u : RdUnit} {p : Nat}, u.At p → p + m ≤ 8 * u.src.length → item u = .ok (val u p) (u.consume m)
  stable : ∀ (u : RdUnit) (n p : Nat), val (u.consume n) p = val u p

theorem Takes.elem {item : RdUnit → RdResult Item} {m : Nat} {val : RdUnit → Nat → Item} (h : Takes item m val) :
    Elem item m val := ⟨h.enough, h.stable⟩

/-- Fixed mode over the first `j` of its elements. -/
theorem readFixed_run {item : RdUnit → RdResult Item} {m : Nat} {val : RdUnit → Nat → Item} (he : Elem item m val)
    (j n : Nat) {u : RdUnit} {p : Nat} (h : u.At p) (hp : p + j * m ≤ 8 * u.src.length) :
    readFixed item (j + n) u = (readFixed item n (u.consume (j * m))).map (itemsFrom val u p m j ++ ·) := by
  induction j generalizing u p with
  | zero =>
    rw [Nat.zero_mul, consume_zero h, Nat.zero_add]
    cases readFixed item n u <;> simp [RdResult.map, RdResult.bind, itemsFrom]
  | succ j ih =>
    rw [Nat.add_one_mul] at hp ⊢
    have h1 := consume_at h (show p + m ≤ 8 * u.src.length by omega)
    rw [show j + 1 + n = (j + n) + 1 by omega, readFixed, he.enough h (by omega)]
    simp only [RdResult.bind]
    rw [ih h1 (by rw [consume_src]; omega), consume_consume h _ _ (by omega), Nat.add_comm m (j * m), itemsFrom_succ,
      itemsFrom_congr (he.stable u m)]
    cases readFixed item n (u.consume (j * m + m)) <;> simp [RdResult.map, RdResult.bind]

/-- Fixed mode with enough bits for all its elements. -/
theorem readFixed_enough {item : RdUnit → RdResult Item} {m : Nat} {val : RdUnit → Nat → Item} (he : Elem item m val)
    (n : Nat) {u : RdUnit} {p : Nat} (h : u.At p) (hp : p + n * m ≤ 8 * u.src.length) :
    readFixed item n u = .ok (itemsFrom val u p m n) (u.consume (n * m)) := by
  have := readFixed_run he n 0 h hp
  simpa [readFixed, RdResult.map, RdResult.bind] using this

/-- Fixed mode that runs out: EndOfData, and all that was left is gone (42_rd_arrays.md R178). -/
theorem readFixed_short {item : RdUnit → RdResult Item} {m : Nat} {val : RdUnit → Nat → Item}
    (ht : Takes item m val) (n : Nat) {u : RdUnit} {p : Nat} (h : u.At p) (hp : 8 * u.src.length < p + n * m) :
    readFixed item n u = .raise .endOfData (u.consume (8 * u.src.length - p)) := by
  induction n generalizing u p with
  | zero =>
    have hi := h.inside
    omega
  | succ n ih =>
    rw [Nat.add_one_mul n m] at hp
    by_cases hm : p + m ≤ 8 * u.src.length
    · have h1 := consume_at h hm
      rw [readFixed, ht.enough h hm]
      simp only [RdResult.bind]
      rw [ih h1 (by rw [consume_src]; omega), consume_src, consume_consume h _ _ hm,
        show m + (8 * u.src.length - (p + m)) = 8 * u.src.length - p by omega]
      rfl
    · rw [readFixed, ht.short h (by omega)]
      rfl

theorem hasData_at {u : RdUnit} {p : Nat} (h : u.At p) : hasData u = decide (p < 8 * u.src.length) := by
  have hi := h.inside
  have hc := h.bitCnt_toNat
  have hs := h.srcPos
  have hlt : (0#4 < u.bitCnt) ↔ 0 < u.bitCnt.toNat := by simp [BitVec.lt_def]
  rw [hasData, Bool.eq_iff_iff]
  simp only [Bool.or_eq_true, decide_eq_true_eq, hlt]
  omega

/-- The loop of until-exhaustion mode over its next `j` elements, none of which the limiter interrupts. -/
theorem readUntil_run {item : RdUnit → RdResult Item} {m : Nat} {val : RdUnit → Nat → Item} (he : Elem item m val)
    (l : Int) (j fuel : Nat) (acc : List Item) {u : RdUnit} {p : Nat} (h : u.At p) (hm : 0 < m)
    (hp : p + j * m ≤ 8 * u.src.length)
    (hl : ∀ i, 1 ≤ i → i ≤ j → limiterVerdict l (acc.length + i) = .proceed) :
    readUntil item l (j + fuel) acc u
      = readUntil item l fuel (acc ++ itemsFrom val u p m j) (u.consume (j * m)) := by
  induction j generalizing u p acc with
  | zero => simp [itemsFrom, consume_zero h]
  | succ j ih =>
    rw [Nat.add_one_mul] at hp ⊢
    have h1 := consume_at h (show p + m ≤ 8 * u.src.length by omega)
    rw [show j + 1 + fuel = (j + fuel) + 1 by omega, readUntil, hasData_at h, decide_eq_true (by omega), if_pos rfl,
      he.enough h (by omega)]
    simp only [RdResult.bind, hl 1 (by omega) (by omega)]
    rw [ih _ h1 (by rw [consume_src]; omega) (fun i h1 h2 => by
      rw [List.length_append, List.length_singleton, Nat.add_assoc, Nat.add_comm 1 i]
      exact hl (i + 1) (by omega) (by omega)), consume_consume h _ _ (by omega), itemsFrom_succ,
      itemsFrom_congr (he.stable u m), Nat.add_comm m (j * m)]
    simp

/-- The loop ends where the source does. -/
theorem readUntil_exhausted (item : RdUnit → RdResult Item) (l : Int) (fuel : Nat) (acc : List Item) {u : RdUnit} {p : Nat}
    (h : u.At p) (hp : p = 8 * u.src.length) : readUntil item l fuel acc u = .ok acc u := by
  cases fuel with
  | zero => rfl
  | succ fuel => rw [readUntil, hasData_at h, decide_eq_false (by omega), if_neg (by simp)]

/-- One element after which the limiter interrupts, or goes on. -/
theorem readUntil_one {item : RdUnit → RdResult Item} (l : Int) (fuel : Nat) (acc : List Item) {u v : RdUnit} {p : Nat}
    {x : Item} (h : u.At p) (hp : p < 8 * u.src.length) (hx : item u = .ok x v) :
    readUntil item l (fuel + 1) acc u =
      match limiterVerdict l (acc.length + 1) with
      | .exceeded => .raise .arraySizeExceeded v
      | .softStop => .ok (acc ++ [x]) (markSoftStop v)
      | .proceed => readUntil item l fuel (acc ++ [x]) v := by
  rw [readUntil, hasData_at h, decide_eq_true hp, if_pos rfl, hx]
  rfl

/-- An element that raises ends the array. -/
theorem readUntil_raise {item : RdUnit → RdResult Item} (l : Int) (fuel : Nat) (acc : List Item) {u v : RdUnit} {p : Nat}
    {c : Cause} (h : u.At p) (hp : p < 8 * u.src.length) (hx : item u = .raise c v) :
    readUntil item l (fuel + 1) acc u = .raise c v := by
  rw [readUntil, hasData_at h, decide_eq_true hp, if_pos rfl, hx]
  rfl

end Sys2Proof.Machine
end

