-- ==== Sys2Proof/Laws/Align.lean ====
section
/-! SUPPORT. What reader alignment and the mark can do, said once each (43_rd_align_mark.md R191 to R196). -/

namespace Sys2Proof.Machine

theorem moveTo_byte_bitBuf (u : RdUnit) {p : Nat} (h : p % 8 = 0) : (u.moveTo p).bitBuf = 0#8 := by
  rw [RdUnit.moveTo, RdUnit.setBuffer_bitBuf]
  cases u.src[p / 8]? <;> simp [h]

theorem moveTo_byte_bitCnt (u : RdUnit) {p : Nat} (h : p % 8 = 0) : (u.moveTo p).bitCnt = 0#4 := by
  rw [moveTo_bitCnt, h]

/-- `AlignByte()` discards what is left of a partly read byte and counts it (43_rd_align_mark.md R191). -/
theorem alignByte_eq {u : RdUnit} {p : Nat} (h : u.At p) : alignByte u = u.consume ((8 - p % 8) % 8) := by
  have hc := h.bitCnt_toNat
  have hi := h.inside
  by_cases hz : p % 8 = 0
  · have h0 : ¬ 0#4 < u.bitCnt := by rw [BitVec.lt_def, hc]; simp [hz]
    rw [alignByte, if_neg (fun hh => h0 hh.1), show (8 - p % 8) % 8 = 0 by omega, consume_zero h]
  · have h0 : 0#4 < u.bitCnt ∧ u.bitCnt < 8#4 := by
      simp only [BitVec.lt_def, hc, BitVec.toNat_ofNat]
      omega
    have hq : (p + (8 - p % 8) % 8) % 8 = 0 := by omega
    rw [alignByte, if_pos h0, RdUnit.consume, h.bitPos]
    ext1 <;> try rfl
    · show u.srcPos = (p + (8 - p % 8) % 8 + 7) / 8
      rw [h.srcPos]
      omega
    · exact (moveTo_byte_bitBuf u hq).symm
    · exact (moveTo_byte_bitCnt u hq).symm
    · show u.byteCnt + 1#64 = u.byteCnt + BitVec.ofNat 64 ((p + (8 - p % 8) % 8) / 8 - p / 8)
      rw [show (p + (8 - p % 8) % 8) / 8 - p / 8 = 1 by omega]

/-- One byte skipped by RD.ALIGN. -/
theorem skipOne {u : RdUnit} {p : Nat} (h : u.At p) (hz : p % 8 = 0) (hp : p < 8 * u.src.length) :
    ∃ b, srcNext u = (some b, u.setSrcPos (u.srcPos + 1)) ∧
      countByte (u.setSrcPos (u.srcPos + 1)) = u.consume 8 := by
  have hs := h.srcPos
  obtain ⟨b, hb⟩ := exists_byte (u := u) hp
  refine ⟨b, srcNext_some (by rwa [hs, show (p + 7) / 8 = p / 8 by omega]), ?_⟩
  have hq : (p + 8) % 8 = 0 := by omega
  rw [RdUnit.consume, h.bitPos]
  ext1 <;> try rfl
  · show u.srcPos + 1 = (p + 8 + 7) / 8
    omega
  · have := h.bitBuf
    rw [moveTo_byte_bitBuf u hz] at this
    exact this.trans (moveTo_byte_bitBuf u hq).symm
  · have := h.bitCnt
    rw [hz] at this
    exact this.trans (moveTo_byte_bitCnt u hq).symm
  · show u.byteCnt + 1#64 = u.byteCnt + BitVec.ofNat 64 ((p + 8) / 8 - p / 8)
    rw [show (p + 8) / 8 - p / 8 = 1 by omega]

theorem consume_byte_byteCnt {u : RdUnit} {p : Nat} (h : u.At p) (k : Nat) :
    (u.consume (8 * k)).byteCnt = u.byteCnt + BitVec.ofNat 64 k := by
  rw [RdUnit.consume, RdUnit.setByteCnt_byteCnt, h.bitPos, show (p + 8 * k) / 8 - p / 8 = k by omega]

/-- The loop of RD.ALIGN over its first `k` bytes, none of which ends on a multiple. -/
theorem skipBytes_run {a k : Nat} {u : RdUnit} {p : Nat} (h : u.At p) (hz : p % 8 = 0)
    (hp : p + 8 * k ≤ 8 * u.src.length)
    (hlt : ∀ j, j < k → (u.byteCnt + BitVec.ofNat 64 j).toNat % a ≠ 0) (fuel : Nat) :
    skipBytes a (k + fuel) u = skipBytes a fuel (u.consume (8 * k)) := by
  induction k generalizing u p with
  | zero => rw [Nat.zero_add, Nat.mul_zero, consume_zero h]
  | succ k ih =>
    obtain ⟨b, hb, hc⟩ := skipOne h hz (by omega)
    have h1 := consume_at h (show p + 8 ≤ 8 * u.src.length by omega)
    have hb8 : (u.consume 8).byteCnt = u.byteCnt + 1#64 := consume_byte_byteCnt h 1
    have hadd : ∀ j, (u.consume 8).byteCnt + BitVec.ofNat 64 j = u.byteCnt + BitVec.ofNat 64 (j + 1) := by
      intro j
      rw [hb8, BitVec.add_assoc, Nat.add_comm j 1, BitVec.ofNat_add]
    have h0 : ¬ u.byteCnt.toNat % a = 0 := by simpa using hlt 0 (by omega)
    rw [show k + 1 + fuel = (k + fuel) + 1 by omega, skipBytes, if_neg h0, hb]
    simp only
    rw [hc, ih h1 (by omega) (by rw [consume_src]; omega) (fun j hj => by rw [hadd]; exact hlt (j + 1) (by omega)),
      consume_consume h _ _ (by omega), show 8 + 8 * k = 8 * (k + 1) by omega]

/-- RD.ALIGN's loop that meets a multiple after `k` bytes (43_rd_align_mark.md R192). -/
theorem skipToMultiple_enough {a k : Nat} {u : RdUnit} {p : Nat} (h : u.At p) (hz : p % 8 = 0)
    (hp : p + 8 * k ≤ 8 * u.src.length) (hk : (u.byteCnt + BitVec.ofNat 64 k).toNat % a = 0)
    (hlt : ∀ j, j < k → (u.byteCnt + BitVec.ofNat 64 j).toNat % a ≠ 0) :
    skipToMultiple a u = .ok () (u.consume (8 * k)) := by
  have hs := h.srcPos
  have hm : (u.consume (8 * k)).byteCnt.toNat % a = 0 := by rw [consume_byte_byteCnt h]; exact hk
  rw [skipToMultiple, show u.src.length - u.srcPos = k + (u.src.length - u.srcPos - k) by omega,
    skipBytes_run h hz hp hlt]
  cases u.src.length - u.srcPos - k with
  | zero => rw [skipBytes, if_pos hm]
  | succ f => rw [skipBytes, if_pos hm]

/-- RD.ALIGN's loop that meets the end of the source first: every byte left is skipped and counted
(43_rd_align_mark.md R192). -/
theorem skipToMultiple_short {a : Nat} {u : RdUnit} {p : Nat} (h : u.At p) (hz : p % 8 = 0)
    (hlt : ∀ j, 8 * j ≤ 8 * u.src.length - p → (u.byteCnt + BitVec.ofNat 64 j).toNat % a ≠ 0) :
    skipToMultiple a u = .raise .endOfData (u.consume (8 * u.src.length - p)) := by
  have hs := h.srcPos
  have hi := h.inside
  have hk : 8 * u.src.length - p = 8 * (u.src.length - u.srcPos) := by omega
  have hm : ¬ (u.consume (8 * (u.src.length - u.srcPos))).byteCnt.toNat % a = 0 := by
    rw [consume_byte_byteCnt h]
    exact hlt _ (by omega)
  rw [skipToMultiple, hk, ← Nat.add_zero (u.src.length - u.srcPos),
    skipBytes_run h hz (by omega) (fun j hj => hlt j (by omega)), Nat.add_zero, skipBytes, if_neg hm]

/-! ## The mark -/

@[simp] theorem takeMark_markValid (l : Lane) (u : RdUnit) : (takeMark l u).markValid = true := rfl
@[simp] theorem takeMark_markPos (l : Lane) (u : RdUnit) : (takeMark l u).markPos = u.srcPos := rfl
@[simp] theorem takeMark_markLim (l : Lane) (u : RdUnit) : (takeMark l u).markLim = l := rfl
@[simp] theorem takeMark_snapBitBuf (l : Lane) (u : RdUnit) : (takeMark l u).snapBitBuf = u.bitBuf := rfl
@[simp] theorem takeMark_snapBitCnt (l : Lane) (u : RdUnit) : (takeMark l u).snapBitCnt = u.bitCnt := rfl
@[simp] theorem takeMark_snapByteCnt (l : Lane) (u : RdUnit) : (takeMark l u).snapByteCnt = u.byteCnt := rfl
@[simp] theorem restoreMark_srcPos (u : RdUnit) : (restoreMark u).srcPos = u.markPos := rfl
@[simp] theorem restoreMark_bitBuf (u : RdUnit) : (restoreMark u).bitBuf = u.snapBitBuf := rfl
@[simp] theorem restoreMark_bitCnt (u : RdUnit) : (restoreMark u).bitCnt = u.snapBitCnt := rfl
@[simp] theorem restoreMark_byteCnt (u : RdUnit) : (restoreMark u).byteCnt = u.snapByteCnt := rfl

/-- Going back to a mark just taken changes no position. -/
theorem restoreMark_takeMark (l : Lane) (u : RdUnit) : restoreMark (takeMark l u) = takeMark l u := rfl

/-- A mark that is set belongs to a unit at the bit position of its snapshot once it is restored. -/
theorem restoreMark_bufferOk {u : RdUnit} (h : u.Inv) (hv : u.markValid = true) :
    BufferOk (restoreMark u).bitOrder (restoreMark u).src (restoreMark u).srcPos (restoreMark u).bitBuf
      (restoreMark u).bitCnt := (h.2 hv).2

end Sys2Proof.Machine
end

