-- ==== Sys2Proof/Laws/StringReads.lean ====
section
/-! SUPPORT. What the string decoder can do, said once (47_strings.md R263 to R266). -/

namespace Sys2Proof.Machine

/-- The loop of `RdLen`, from `n` composed of `j` length bytes. -/
theorem rdLenLoop_takes (bo : ByteOrder) (k j n : Nat) :
    Takes (rdLenLoop bo k j n) (8 * k) (fun u p =>
      match bo with
      | .big => n * 256 ^ k + u.wordAt .big p k
      | .little => n + 256 ^ j * u.wordAt .little p k) := by
  induction k generalizing j n with
  | zero =>
    refine ⟨fun h _ => ?_, fun h hp => absurd hp (by have := h.inside; omega), fun u m p => ?_⟩
    · rw [rdLenLoop, Nat.mul_zero, consume_zero h]
      cases bo <;> simp [RdUnit.wordAt, RdUnit.bytesAt, valueOfBytes]
    · cases bo <;> simp [consume_wordAt]
  | succ k ih =>
    refine ⟨?_, ?_, fun u m p => by cases bo <;> simp [consume_wordAt]⟩
    · intro u p h hp
      have h1 := consume_at h (show p + 8 ≤ 8 * u.src.length by omega)
      rw [rdLenLoop, rdByte_takes.enough h (by omega)]
      simp only [RdResult.bind]
      rw [(ih (j + 1) _).enough h1 (by rw [consume_src]; omega), consume_consume h _ _ (by omega),
        show 8 + 8 * k = 8 * (k + 1) by omega]
      have hb := bitsAt_lt u p 8
      congr 1
      cases bo
      · simp only [lenStep, consume_wordAt, BitVec.toNat_ofNat]
        rw [Nat.mod_eq_of_lt hb, Nat.add_comm k 1, wordAt_big_add u p 1 k, wordAt_one]
        ring
      · simp only [lenStep, consume_wordAt, BitVec.toNat_ofNat]
        rw [Nat.mod_eq_of_lt hb, Nat.add_comm k 1, wordAt_little_add u p 1 k, wordAt_one]
        ring
    · intro u p h hp
      have hi := h.inside
      rw [rdLenLoop]
      by_cases hm : p + 8 ≤ 8 * u.src.length
      · have h1 := consume_at h hm
        rw [rdByte_takes.enough h hm]
        simp only [RdResult.bind]
        rw [(ih (j + 1) _).short h1 (by rw [consume_src]; omega), consume_src, consume_consume h _ _ hm,
          show 8 + (8 * u.src.length - (p + 8)) = 8 * u.src.length - p by omega]
      · rw [rdByte_takes.short h (by omega)]
        rfl

/-- `RdLen(k, bo)` (47_strings.md R263). -/
theorem rdLen_takes (k : Nat) (bo : ByteOrder) : Takes (rdLen k bo) (8 * k) (fun u p => u.wordAt bo p k) :=
  (rdLenLoop_takes bo k 0 0).congr fun u p => by cases bo <;> simp

/-- The payload as a string item (47_strings.md R265). -/
theorem rdPayload_takes (n : Nat) : Takes (rdPayload n) (8 * n) (fun u p => StrItem.present (u.bytesAt p n)) :=
  (rdBytes_takes n).map _

/-! ## The first byte (47_strings.md R264) -/

theorem firstByte_absent : firstByte 0xFF#8 = .absent := by decide

theorem firstByte_short {n : Nat} (h : n < 0x80) : firstByte (BitVec.ofNat 8 n) = .short n := by
  have : ∀ m : Fin 0x80, firstByte (BitVec.ofNat 8 m.val) = .short m.val := by decide
  exact this ⟨n, h⟩

theorem firstByte_long {k : Nat} (h : 1 ≤ k ∧ k ≤ 4) : firstByte (BitVec.ofNat 8 (0x80 + k)) = .long k := by
  obtain ⟨h1, h2⟩ := h
  interval_cases k <;> decide

/-- What a first byte can say. -/
theorem firstByte_cases (b : Byte) :
    (b = 0xFF#8 ∧ firstByte b = .absent) ∨ (b.toNat < 0x80 ∧ firstByte b = .short b.toNat) ∨
      (∃ k, 1 ≤ k ∧ k ≤ 4 ∧ b = BitVec.ofNat 8 (0x80 + k) ∧ firstByte b = .long k) ∨
      ((b = 0x80#8 ∨ 0x85 ≤ b.toNat ∧ b.toNat ≤ 0xFE) ∧ firstByte b = .malformed) := by
  by_cases h0 : b = 0xFF#8
  · exact .inl ⟨h0, by rw [h0]; decide⟩
  by_cases h1 : b.toNat < 0x80
  · refine .inr (.inl ⟨h1, ?_⟩)
    rw [firstByte, if_neg h0, if_pos (by simpa [BitVec.lt_def] using h1)]
  have hn1 : ¬ b < 0x80#8 := by simpa [BitVec.lt_def] using h1
  by_cases h2 : b = 0x81#8
  · exact .inr (.inr (.inl ⟨1, by omega, by omega, h2, by rw [h2]; decide⟩))
  by_cases h3 : b = 0x82#8
  · exact .inr (.inr (.inl ⟨2, by omega, by omega, h3, by rw [h3]; decide⟩))
  by_cases h4 : b = 0x83#8
  · exact .inr (.inr (.inl ⟨3, by omega, by omega, h4, by rw [h4]; decide⟩))
  by_cases h5 : b = 0x84#8
  · exact .inr (.inr (.inl ⟨4, by omega, by omega, h5, by rw [h5]; decide⟩))
  refine .inr (.inr (.inr ⟨?_, by rw [firstByte, if_neg h0, if_neg hn1, if_neg h2, if_neg h3, if_neg h4, if_neg h5]⟩))
  have hb := b.isLt
  simp only [← BitVec.toNat_inj, BitVec.toNat_ofNat] at h0 h2 h3 h4 h5 ⊢
  omega

/-! ## DecodeString -/

theorem bytesAt_head {u : RdUnit} {p : Nat} {b : Byte} {bs : List Byte}
    (h : u.bytesAt p (b :: bs).length = b :: bs) :
    BitVec.ofNat 8 (u.bitsAt p 8) = b ∧ u.bytesAt (p + 8) bs.length = bs := by
  rw [List.length_cons, RdUnit.bytesAt] at h
  exact List.cons.inj h

theorem bytesAt_split {u : RdUnit} {p : Nat} {xs ys : List Byte} (h : u.bytesAt p (xs ++ ys).length = xs ++ ys) :
    u.bytesAt p xs.length = xs ∧ u.bytesAt (p + 8 * xs.length) ys.length = ys := by
  rw [List.length_append, bytesAt_append] at h
  exact List.append_inj h (bytesAt_length _ _ _)

/-- The decoder answers the item whose encoding, of the shortest length or not, stands at the cursor, and consumes exactly that
encoding (47_strings.md R264, R265). -/
theorem decodeString_wire {bo : ByteOrder} {u : RdUnit} {p : Nat} (h : u.At p) {x : StrItem} {bs : List Byte}
    (hw : StringWire bo x bs) (hl : p + 8 * bs.length ≤ 8 * u.src.length) (hb : u.bytesAt p bs.length = bs) :
    decodeString bo u = .ok x (u.consume (8 * bs.length)) := by
  have hpos : 8 * 1 ≤ 8 * bs.length := by cases hw <;> simp
  have h1 := consume_at h (show p + 8 ≤ 8 * u.src.length by omega)
  rw [decodeString, rdByte_takes.enough h (by omega)]
  simp only [RdResult.bind]
  cases hw with
  | absent =>
    rw [(bytesAt_head hb).1, firstByte_absent]
    rfl
  | short q hq =>
    obtain ⟨e1, e2⟩ := bytesAt_head hb
    rw [List.length_cons] at hl ⊢
    rw [e1, firstByte_short hq]
    simp only
    rw [(rdPayload_takes _).enough h1 (by rw [consume_src]; omega), consume_consume h _ _ (by omega), consume_bytesAt, e2,
      show 8 + 8 * q.length = 8 * (q.length + 1) by omega]
  | long k ls q hk hk' hq =>
    subst hk'
    obtain ⟨e1, e2⟩ := bytesAt_head hb
    obtain ⟨e3, e4⟩ := bytesAt_split e2
    rw [List.length_cons, List.length_append] at hl ⊢
    have h2 := consume_at h1 (show p + 8 + 8 * ls.length ≤ 8 * (u.consume 8).src.length by rw [consume_src]; omega)
    rw [e1, firstByte_long hk]
    simp only
    have hlen : u.wordAt bo (p + 8) ls.length = q.length := by rw [RdUnit.wordAt, e3, hq]
    rw [(rdLen_takes ls.length bo).enough h1 (by rw [consume_src]; omega), consume_wordAt, hlen]
    simp only
    rw [(rdPayload_takes _).enough h2 (by simp only [consume_src]; omega), consume_bytesAt, consume_bytesAt, e4,
      consume_consume h _ _ (by omega), consume_consume h _ _ (by omega),
      show 8 + 8 * ls.length + 8 * q.length = 8 * (ls.length + q.length + 1) by omega]

/-- What the decoder does after its first byte. -/
theorem decodeString_after_first (bo : ByteOrder) {u : RdUnit} {p : Nat} {b : Byte} (h : u.At p)
    (hp : p + 8 ≤ 8 * u.src.length) (hb : BitVec.ofNat 8 (u.bitsAt p 8) = b) :
    (firstByte b = .absent → decodeString bo u = .ok .absent (u.consume 8)) ∧
    (∀ n, firstByte b = .short n → decodeString bo u = rdPayload n (u.consume 8)) ∧
    (∀ k, firstByte b = .long k → decodeString bo u = (rdLen k bo (u.consume 8)).bind rdPayload) ∧
    (firstByte b = .malformed → decodeString bo u = .raise (.malformedWireData b) (u.consume 8)) := by
  have e : rdByte u = .ok b (u.consume 8) := by rw [rdByte_takes.enough h hp, hb]
  refine ⟨fun hf => ?_, fun n hf => ?_, fun k hf => ?_, fun hf => ?_⟩ <;>
    rw [decodeString, e, RdResult.bind, hf]

/-- A short payload: the item, or EndOfData. -/
theorem decodeString_short_payload (bo : ByteOrder) {u : RdUnit} {p n : Nat} (h : u.At p)
    (hp : p + 8 ≤ 8 * u.src.length) (hn : n < 0x80) (hb : BitVec.ofNat 8 (u.bitsAt p 8) = BitVec.ofNat 8 n) :
    (∃ x bs, StringWire bo x bs ∧ p + 8 * bs.length ≤ 8 * u.src.length ∧ u.bytesAt p bs.length = bs) ∨
    decodeString bo u = .raise .endOfData (u.consume (8 * u.src.length - p)) := by
  have h1 := consume_at h hp
  have hl : (u.bytesAt (p + 8) n).length = n := bytesAt_length _ _ _
  by_cases hf : p + 8 + 8 * n ≤ 8 * u.src.length
  · refine .inl ⟨_, _, .short (u.bytesAt (p + 8) n) (by rwa [hl]), ?_, ?_⟩
    · rw [List.length_cons, hl]
      omega
    · rw [List.length_cons, hl, RdUnit.bytesAt, hb]
  · refine .inr ?_
    rw [(decodeString_after_first bo h hp hb).2.1 n (firstByte_short hn),
      (rdPayload_takes _).short h1 (by rw [consume_src]; omega), consume_src, consume_consume h _ _ hp,
      show 8 + (8 * u.src.length - (p + 8)) = 8 * u.src.length - p by omega]

/-- A payload with length bytes: the item, or EndOfData. -/
theorem decodeString_long_payload (bo : ByteOrder) {u : RdUnit} {p k : Nat} (h : u.At p)
    (hp : p + 8 ≤ 8 * u.src.length) (hk : 1 ≤ k ∧ k ≤ 4)
    (hb : BitVec.ofNat 8 (u.bitsAt p 8) = BitVec.ofNat 8 (0x80 + k)) :
    (∃ x bs, StringWire bo x bs ∧ p + 8 * bs.length ≤ 8 * u.src.length ∧ u.bytesAt p bs.length = bs) ∨
    decodeString bo u = .raise .endOfData (u.consume (8 * u.src.length - p)) := by
  have h1 := consume_at h hp
  have hdec := (decodeString_after_first bo h hp hb).2.2.1 k (firstByte_long hk)
  by_cases hf : p + 8 + 8 * k ≤ 8 * u.src.length
  · have h2 := consume_at h1 (show p + 8 + 8 * k ≤ 8 * (u.consume 8).src.length by rw [consume_src]; omega)
    rw [(rdLen_takes k bo).enough h1 (by rw [consume_src]; omega), consume_wordAt, RdResult.bind] at hdec
    have hval : valueOfBytes bo (u.bytesAt (p + 8) k) = u.wordAt bo (p + 8) k := rfl
    have hk' : (u.bytesAt (p + 8) k).length = k := bytesAt_length _ _ _
    generalize u.wordAt bo (p + 8) k = n at hdec hval
    have hl : (u.bytesAt (p + 8 + 8 * k) n).length = n := bytesAt_length _ _ _
    by_cases hq : p + 8 + 8 * k + 8 * n ≤ 8 * u.src.length
    · refine .inl ⟨_, _, .long k (u.bytesAt (p + 8) k) (u.bytesAt (p + 8 + 8 * k) n) hk hk' (hval.trans hl.symm), ?_, ?_⟩
      · rw [List.length_cons, List.length_append, hk', hl]
        omega
      · rw [List.length_cons, List.length_append, hk', hl, RdUnit.bytesAt, hb, bytesAt_append]
    · refine .inr ?_
      rw [hdec, (rdPayload_takes _).short h2 (by simp only [consume_src]; omega)]
      simp only [consume_src]
      rw [consume_consume h _ _ hp, consume_consume h _ _ (by omega),
        show 8 + 8 * k + (8 * u.src.length - (p + 8 + 8 * k)) = 8 * u.src.length - p by omega]
  · refine .inr ?_
    rw [hdec, (rdLen_takes k bo).short h1 (by rw [consume_src]; omega), RdResult.bind, consume_src,
      consume_consume h _ _ hp, show 8 + (8 * u.src.length - (p + 8)) = 8 * u.src.length - p by omega]

/-- Everything the decoder can do: the item whose encoding stands at the cursor; MalformedWireData for a first byte that is
no prefix, which is consumed; or EndOfData, and all that was left is gone (47_strings.md R264, R266). -/
theorem decodeString_cases (bo : ByteOrder) {u : RdUnit} {p : Nat} (h : u.At p) :
    (∃ x bs, StringWire bo x bs ∧ p + 8 * bs.length ≤ 8 * u.src.length ∧ u.bytesAt p bs.length = bs ∧
      decodeString bo u = .ok x (u.consume (8 * bs.length))) ∨
    (∃ b : Byte, p + 8 ≤ 8 * u.src.length ∧ b = BitVec.ofNat 8 (u.bitsAt p 8) ∧
      (b = 0x80#8 ∨ 0x85 ≤ b.toNat ∧ b.toNat ≤ 0xFE) ∧
      decodeString bo u = .raise (.malformedWireData b) (u.consume 8)) ∨
    decodeString bo u = .raise .endOfData (u.consume (8 * u.src.length - p)) := by
  have wire : ∀ {q : Prop}, (∃ x bs, StringWire bo x bs ∧ p + 8 * bs.length ≤ 8 * u.src.length ∧
      u.bytesAt p bs.length = bs) ∨ decodeString bo u = .raise .endOfData (u.consume (8 * u.src.length - p)) →
      (∃ x bs, StringWire bo x bs ∧ p + 8 * bs.length ≤ 8 * u.src.length ∧ u.bytesAt p bs.length = bs ∧
        decodeString bo u = .ok x (u.consume (8 * bs.length))) ∨ q ∨
      decodeString bo u = .raise .endOfData (u.consume (8 * u.src.length - p)) := by
    intro q hq
    rcases hq with ⟨x, bs, hw, hl, hb⟩ | hq
    · exact .inl ⟨x, bs, hw, hl, hb, decodeString_wire h hw hl hb⟩
    · exact .inr (.inr hq)
  by_cases h8 : p + 8 ≤ 8 * u.src.length
  · rcases firstByte_cases (BitVec.ofNat 8 (u.bitsAt p 8)) with ⟨hb, -⟩ | ⟨hn, -⟩ | ⟨k, hk1, hk4, hb, -⟩ | ⟨hm, hf⟩
    · exact wire (.inl ⟨_, _, .absent, h8, by rw [List.length_singleton, RdUnit.bytesAt, hb]; rfl⟩)
    · exact wire (decodeString_short_payload bo h h8 hn (by rw [BitVec.ofNat_toNat, BitVec.setWidth_eq]))
    · exact wire (decodeString_long_payload bo h h8 ⟨hk1, hk4⟩ hb)
    · exact .inr (.inl ⟨_, h8, rfl, hm, (decodeString_after_first bo h h8 rfl).2.2.2 hf⟩)
  · refine .inr (.inr ?_)
    rw [decodeString, rdByte_takes.short h (by omega), RdResult.bind]

end Sys2Proof.Machine
end

