-- ==== Sys2Proof/Laws/Arrays.lean ====
section
/-! SUPPORT. What the array template can do with elements of a fixed size, and with bit groups, said once each
(42_rd_arrays.md R160 to R166). -/

namespace Sys2Proof.Machine

/-! ## The limiter -/

theorem limiterVerdict_proceed {l : Int} {n : Nat} (h1 : 0 < l → (n : Int) ≤ l) (h2 : l < 0 → (n : Int) < -l) :
    limiterVerdict l n = .proceed := by
  rw [limiterVerdict, if_neg (by omega), if_neg (by omega)]

theorem limiterVerdict_exceeded {l : Int} {n : Nat} (h : 0 < l) (hn : l < n) : limiterVerdict l n = .exceeded := by
  rw [limiterVerdict, if_pos ⟨h, hn⟩]

theorem limiterVerdict_softStop {l : Int} {n : Nat} (h : l < 0) (hn : -l ≤ n) : limiterVerdict l n = .softStop := by
  rw [limiterVerdict, if_neg (by omega), if_pos ⟨h, hn⟩]

/-! ## Until-exhaustion mode over elements of `m` bits -/

theorem itemsFrom_concat (val : RdUnit → Nat → Item) (u : RdUnit) (p m n : Nat) :
    itemsFrom val u p m (n + 1) = itemsFrom val u p m n ++ [val u (p + n * m)] := by
  simp [itemsFrom, List.range_succ]

/-- A positive limiter: the element after the last one allowed has been read when ArraySizeExceeded is raised
(42_rd_arrays.md R164 (a)). -/
theorem readUntil_hardCap {item : RdUnit → RdResult Item} {m : Nat} {val : RdUnit → Nat → Item} (he : Elem item m val)
    {u : RdUnit} {p n : Nat} (h : u.At p) (hm : 0 < m) (hn : 0 < n) (hp : p + (n + 1) * m ≤ 8 * u.src.length)
    (fuel : Nat) (hf : n + 1 ≤ fuel) :
    readUntil item (n : Int) fuel [] u = .raise .arraySizeExceeded (u.consume ((n + 1) * m)) := by
  rw [Nat.add_one_mul n m] at hp ⊢
  have h1 := consume_at h (show p + n * m ≤ 8 * u.src.length by omega)
  rw [show fuel = n + ((fuel - n - 1) + 1) by omega,
    readUntil_run he n n _ [] h hm (by omega) (fun i h1 h2 => limiterVerdict_proceed
      (fun _ => by simp only [List.length_nil, Nat.zero_add]; omega) (fun hh => by omega)),
    readUntil_one n _ _ h1 (by rw [consume_src]; omega) (he.enough h1 (by rw [consume_src]; omega)),
    List.nil_append, itemsFrom_length, limiterVerdict_exceeded (by omega) (by omega),
    consume_consume h _ _ (by omega)]

/-- A negative limiter -N: the read ends after N elements with DETLIM set (42_rd_arrays.md R164 (b)). -/
theorem readUntil_softCap {item : RdUnit → RdResult Item} {m : Nat} {val : RdUnit → Nat → Item} (he : Elem item m val)
    {u : RdUnit} {p n : Nat} (h : u.At p) (hm : 0 < m) (hp : p + (n + 1) * m ≤ 8 * u.src.length)
    (fuel : Nat) (hf : n + 1 ≤ fuel) :
    readUntil item (-((n : Int) + 1)) fuel [] u
      = .ok (itemsFrom val u p m (n + 1)) (markSoftStop (u.consume ((n + 1) * m))) := by
  rw [Nat.add_one_mul n m] at hp ⊢
  have h1 := consume_at h (show p + n * m ≤ 8 * u.src.length by omega)
  rw [show fuel = n + ((fuel - n - 1) + 1) by omega,
    readUntil_run he _ n _ [] h hm (by omega) (fun i h1 h2 => limiterVerdict_proceed (fun hh => by omega)
      (fun hh => by simp only [List.length_nil, Nat.zero_add]; omega)),
    readUntil_one _ _ _ h1 (by rw [consume_src]; omega) (he.enough h1 (by rw [consume_src]; omega)),
    List.nil_append, itemsFrom_length, limiterVerdict_softStop (by omega) (by omega),
    consume_consume h _ _ (by omega), itemsFrom_concat, he.stable]

/-- The limiter lets `n` items through. -/
def AllowsItems (l : Int) (n : Nat) : Prop := (0 < l → (n : Int) ≤ l) ∧ (l < 0 → (n : Int) < -l)

/-- A read that ends with the source, which holds whole elements (42_rd_arrays.md R161). -/
theorem readUntil_whole {item : RdUnit → RdResult Item} {m : Nat} {val : RdUnit → Nat → Item} (he : Elem item m val)
    {u : RdUnit} {p n : Nat} (h : u.At p) (hm : 0 < m) (hp : p + n * m = 8 * u.src.length) {l : Int}
    (hl : AllowsItems l n) (fuel : Nat) (hf : n ≤ fuel) :
    readUntil item l fuel [] u = .ok (itemsFrom val u p m n) (u.consume (n * m)) := by
  have h1 := consume_at h (show p + n * m ≤ 8 * u.src.length by omega)
  rw [show fuel = n + (fuel - n) by omega,
    readUntil_run he l n _ [] h hm (by omega) (fun i h1 h2 => limiterVerdict_proceed
      (fun hh => by have := hl.1 hh; simp only [List.length_nil, Nat.zero_add]; omega)
      (fun hh => by have := hl.2 hh; simp only [List.length_nil, Nat.zero_add]; omega)),
    readUntil_exhausted item l _ _ h1 (by rw [consume_src]; omega), List.nil_append]

/-- A read whose last element is cut off: EndOfData, and all that was left is gone (42_rd_arrays.md R161, R178). -/
theorem readUntil_cut {item : RdUnit → RdResult Item} {m : Nat} {val : RdUnit → Nat → Item} (ht : Takes item m val)
    {u : RdUnit} {p n : Nat} (h : u.At p) (hm : 0 < m) (hp : p + n * m < 8 * u.src.length)
    (hq : 8 * u.src.length < p + (n + 1) * m) {l : Int} (hl : AllowsItems l n) (fuel : Nat) (hf : n + 1 ≤ fuel) :
    readUntil item l fuel [] u = .raise .endOfData (u.consume (8 * u.src.length - p)) := by
  rw [Nat.add_one_mul n m] at hq
  have h1 := consume_at h (show p + n * m ≤ 8 * u.src.length by omega)
  rw [show fuel = n + ((fuel - n - 1) + 1) by omega,
    readUntil_run ht.elem l n _ [] h hm (by omega) (fun i h1 h2 => limiterVerdict_proceed
      (fun hh => by have := hl.1 hh; simp only [List.length_nil, Nat.zero_add]; omega)
      (fun hh => by have := hl.2 hh; simp only [List.length_nil, Nat.zero_add]; omega)),
    readUntil_raise l _ _ h1 (by rw [consume_src]; omega) (ht.short h1 (by rw [consume_src]; omega)), consume_src,
    consume_consume h _ _ (by omega), show n * m + (8 * u.src.length - (p + n * m)) = 8 * u.src.length - p by omega]

/-! ## Bit groups (42_rd_arrays.md R165, R166) -/

/-- The item of a bit group of `m` bits at a position. -/
def bitsVal (m : Nat) (u : RdUnit) (p : Nat) : Item := .num (BitVec.ofNat 64 (u.bitsAt p m))

theorem setWidth_ofNat8 {n : Nat} (h : n < 256) : (BitVec.ofNat 8 n).setWidth 64 = BitVec.ofNat 64 n := by
  apply BitVec.eq_of_toNat_eq
  simp only [BitVec.toNat_setWidth, BitVec.toNat_ofNat]
  omega

/-- The element reader of RD.BITSARR: the next bits, up to `w` of them, or EndOfData where none is left. -/
theorem bitsItem_spec {u : RdUnit} {p : Nat} (h : u.At p) {w : Nat} (hw : 1 ≤ w ∧ w ≤ 8) :
    bitsItem w u =
      if p = 8 * u.src.length then .raise .endOfData u
      else .ok (bitsVal (min w (8 * u.src.length - p)) u p) (u.consume (min w (8 * u.src.length - p))) := by
  rw [bitsItem, readBits_spec h hw]
  by_cases he : p = 8 * u.src.length
  · rw [if_pos he, if_pos he]
  · rw [if_neg he, if_neg he]
    have hlt := bitsAt_lt u p (min w (8 * u.src.length - p))
    have hle : 2 ^ min w (8 * u.src.length - p) ≤ 2 ^ 8 := Nat.pow_le_pow_right (by omega) (by omega)
    simp only [bitsVal, setWidth_ofNat8 (Nat.lt_of_lt_of_le hlt hle)]

/-- A whole bit group. -/
theorem bitsItem_elem {w : Nat} (hw : 1 ≤ w ∧ w ≤ 8) : Elem (bitsItem w) w (bitsVal w) where
  enough := by
    intro u p h hp
    rw [bitsItem_spec h hw, if_neg (by omega), show min w (8 * u.src.length - p) = w by omega]
  stable u n p := by rw [bitsVal, bitsVal, consume_bitsAt]

end Sys2Proof.Machine
end

