-- ==== Sys2Proof/Laws/Shapes.lean ====
section
/-! SUPPORT. Every numeric read command in terms of the table of its shape: what its element reader takes and answers. -/

namespace Sys2Proof.Machine

/-- The bits pending reach from the cursor to the end of the source. -/
theorem RdUnit.Inv.pending {u : RdUnit} (h : u.Inv) : u.bitPos + pendingBits u = 8 * u.src.length := by
  have h1 := h.at.inside
  have h2 := h.at.pendingBits
  omega

/-- A value that fits `n` bits, extended with zeros. -/
theorem zext_word (n k v : Nat) (hn : n ≤ 64) (hv : v < 256 ^ k) (hk : 256 ^ k = 2 ^ n) :
    (BitVec.ofNat n v).setWidth 64 = BitVec.ofNat 64 v := by
  apply BitVec.eq_of_toNat_eq
  have hle : 2 ^ n ≤ 2 ^ 64 := Nat.pow_le_pow_right (by omega) hn
  simp only [BitVec.toNat_setWidth, BitVec.toNat_ofNat]
  rw [Nat.mod_eq_of_lt (show v < 2 ^ n by omega)]

/-- The Boolean reading of a byte (41_rd_scalars.md R143). -/
theorem boolLane_byte (u : RdUnit) (p : Nat) :
    byteBool (BitVec.ofNat 8 (u.bitsAt p 8)) = boolLane (u.wordAt .big p 1) := by
  have hlt := bitsAt_lt u p 8
  simp only [boolLane, wordAt_one, byteBool]
  by_cases hz : u.bitsAt p 8 = 0
  · simp [hz]
  · rw [if_neg hz, if_pos]
    intro hb
    have hb' := congrArg BitVec.toNat hb
    simp only [BitVec.toNat_ofNat] at hb'
    omega

/-- A scalar read takes the bytes of its shape and answers their lane (41_rd_scalars.md R142 to R149). -/
theorem scalarRead_takes {i : Instr} {sh : ReadShape} (h : scalarRead i = some sh) :
    ∃ f : RdUnit → RdResult Lane, (∀ s, exec i s = rdScalar f s) ∧ Takes f (8 * sh.bytes) (fun u p => sh.laneAt u p) := by
  cases i <;> simp only [scalarRead, Option.some.injEq, reduceCtorEq] at h <;> subst h
  · refine ⟨_, fun s => rfl, (rdByte_takes.map _).congr fun u p => ?_⟩
    have := bitsAt_lt u p 8
    simp only [ReadShape.laneAt, zextLane, wordAt_one]
    exact setWidth_ofNat8 this
  · refine ⟨_, fun s => rfl, (rdByte_takes.map _).congr fun u p => ?_⟩
    simp only [ReadShape.laneAt, boolLane_byte]
  · refine ⟨_, fun s => rfl, ((rdU16_takes _).map _).congr fun u p => ?_⟩
    exact zext_word 16 2 _ (by omega) (wordAt_lt ..) (by norm_num)
  · exact ⟨_, fun s => rfl, ((rdU32_takes _).map _).congr fun u p => rfl⟩
  · refine ⟨_, fun s => rfl, ((rdU32_takes _).map _).congr fun u p => ?_⟩
    exact zext_word 32 4 _ (by omega) (wordAt_lt ..) (by norm_num)
  · exact ⟨_, fun s => rfl, (rdU64_takes _).congr fun u p => rfl⟩
  · refine ⟨_, fun s => rfl, ((rdU32_takes _).map _).congr fun u p => ?_⟩
    exact zext_word 32 4 _ (by omega) (wordAt_lt ..) (by norm_num)
  · exact ⟨_, fun s => rfl, (rdU64_takes _).congr fun u p => rfl⟩

/-- The element reader of an array read takes the bytes of its shape and answers their lane (42_rd_arrays.md R167 to R175). -/
theorem arrayRead_takes {i : Instr} {sh : ReadShape} (h : arrayRead i = some sh) :
    0 < sh.bytes ∧ ∃ f : RdUnit → RdResult Item, (∀ s, exec i s = rdArray f (leftInRmem i) s) ∧
      Takes f (8 * sh.bytes) (fun u p => .num (sh.laneAt u p)) := by
  cases i <;> simp only [arrayRead, Option.some.injEq, reduceCtorEq] at h <;> subst h <;> refine ⟨by simp, ?_⟩
  · rename_i bo
    refine ⟨fun u => (rdByte u).map fun v => .num (v.setWidth 64), fun s => ?_,
      (rdByte_takes.map fun v => Item.num (v.setWidth 64)).congr fun u p => ?_⟩
    · cases bo <;> rfl
    have := bitsAt_lt u p 8
    simp only [ReadShape.laneAt, zextLane, wordAt_one]
    exact congrArg _ (setWidth_ofNat8 this)
  · refine ⟨_, fun s => rfl, (rdByte_takes.map _).congr fun u p => ?_⟩
    simp only [ReadShape.laneAt, boolLane_byte]
  · exact ⟨_, fun s => rfl, ((rdU16_takes _).map _).congr fun u p => rfl⟩
  · refine ⟨_, fun s => rfl, ((rdU16_takes _).map _).congr fun u p => ?_⟩
    exact congrArg _ (zext_word 16 2 _ (by omega) (wordAt_lt ..) (by norm_num))
  · exact ⟨_, fun s => rfl, ((rdU32_takes _).map _).congr fun u p => rfl⟩
  · refine ⟨_, fun s => rfl, ((rdU32_takes _).map _).congr fun u p => ?_⟩
    exact congrArg _ (zext_word 32 4 _ (by omega) (wordAt_lt ..) (by norm_num))
  · exact ⟨_, fun s => rfl, ((rdU64_takes _).map _).congr fun u p => rfl⟩
  · refine ⟨_, fun s => rfl, ((rdU32_takes _).map _).congr fun u p => ?_⟩
    exact congrArg _ (zext_word 32 4 _ (by omega) (wordAt_lt ..) (by norm_num))
  · exact ⟨_, fun s => rfl, ((rdU64_takes _).map _).congr fun u p => rfl⟩

/-! ## DETLIM and the cursor (42_rd_arrays.md R163) -/

/-- Clearing DETLIM moves no cursor. -/
theorem RdUnit.At.clearDetLim {u : RdUnit} {p : Nat} (h : u.At p) : (clearDetLim u).At p := ⟨h.1, h.2, h.3, h.4⟩

theorem laneAt_clearDetLim (sh : ReadShape) (u : RdUnit) (p : Nat) : sh.laneAt (clearDetLim u) p = sh.laneAt u p := by
  rw [ReadShape.laneAt, ReadShape.laneAt, wordAt_congr (u := u) (v := clearDetLim u) rfl rfl]

theorem consume_clearDetLim (u : RdUnit) (n : Nat) : (clearDetLim u).consume n = (u.consume n).setDetLim false := rfl

theorem markSoftStop_consume (u : RdUnit) (n : Nat) :
    markSoftStop ((clearDetLim u).consume n) = (u.consume n).setDetLim true := rfl

/-- The items an array read gathers are the elements of its shape. -/
theorem itemsFrom_numericElements (u : RdUnit) (sh : ReadShape) (n : Nat) :
    itemsFrom (fun u p => .num (sh.laneAt u p)) u u.bitPos (8 * sh.bytes) n = u.numericElements sh n := rfl

theorem itemsFrom_clearDetLim (u : RdUnit) (sh : ReadShape) (p n : Nat) :
    itemsFrom (fun u p => .num (sh.laneAt u p)) (clearDetLim u) p (8 * sh.bytes) n
      = itemsFrom (fun u p => .num (sh.laneAt u p)) u p (8 * sh.bytes) n := by
  simp only [itemsFrom, laneAt_clearDetLim]

end Sys2Proof.Machine
end

