-- ==== Sys2Proof/Laws/BitGroups.lean ====
section
/-! SUPPORT. What RD.BITSARR can do in both modes, said once (42_rd_arrays.md R161 to R166). A run of bit groups may end in a
short one. -/

namespace Sys2Proof.Machine

/-- The items of `n` groups of width `w` from position `p` with `c` bits left. -/
def groupsFrom (u : RdUnit) (p w c n : Nat) : List Item :=
  (List.range n).map fun i => .num (BitVec.ofNat 64 (u.bitsAt (p + i * w) (min w (c - i * w))))

theorem groupsFrom_length (u : RdUnit) (p w c n : Nat) : (groupsFrom u p w c n).length = n := by simp [groupsFrom]

theorem groupsFrom_zero (u : RdUnit) (p w c : Nat) : groupsFrom u p w c 0 = [] := rfl

/-- A group and the groups after it; after a short group there is none. -/
theorem groupsFrom_succ (u : RdUnit) {p w c n : Nat} (h : n * w < c) :
    groupsFrom u p w c (n + 1) = bitsVal (min w c) u p :: groupsFrom u (p + min w c) w (c - min w c) n := by
  rw [groupsFrom, List.range_succ_eq_map, List.map_cons, List.map_map, groupsFrom]
  simp only [Nat.zero_mul, Nat.add_zero, Nat.sub_zero, bitsVal, List.cons.injEq, true_and]
  apply List.map_congr_left
  intro i hi
  have hi' : i < n := List.mem_range.1 hi
  have hw : w ≤ c := by
    have := Nat.mul_le_mul_right w (show 1 ≤ n by omega)
    omega
  simp only [Function.comp, Nat.succ_eq_add_one, Nat.add_one_mul i w, Nat.min_eq_left hw]
  rw [show p + (i * w + w) = p + w + i * w by omega, show c - (i * w + w) = c - w - i * w by omega]

theorem groupsFrom_congr {u v : RdUnit} (hs : v.src = u.src) (ho : v.bitOrder = u.bitOrder) (p w c n : Nat) :
    groupsFrom v p w c n = groupsFrom u p w c n := by
  simp only [groupsFrom, bitsAt_congr hs ho]

/-- One group more at the end. -/
theorem groupsFrom_concat (u : RdUnit) (p w c n : Nat) :
    groupsFrom u p w c (n + 1) = groupsFrom u p w c n ++ [bitsVal (min w (c - n * w)) u (p + n * w)] := by
  simp [groupsFrom, List.range_succ, bitsVal]

/-- Fixed mode. -/
theorem readFixed_bits {w : Nat} (hw : 1 ≤ w ∧ w ≤ 8) (n : Nat) {u : RdUnit} {p : Nat} (h : u.At p) :
    readFixed (bitsItem w) n u =
      if n * w < 8 * u.src.length - p + w then
        .ok (groupsFrom u p w (8 * u.src.length - p) n) (u.consume (min (n * w) (8 * u.src.length - p)))
      else .raise .endOfData (u.consume (8 * u.src.length - p)) := by
  induction n generalizing u p with
  | zero => rw [if_pos (by omega), Nat.zero_mul, Nat.zero_min, consume_zero h]; rfl
  | succ n ih =>
    have hi := h.inside
    rw [readFixed, bitsItem_spec h hw, Nat.add_one_mul n w]
    by_cases he : p = 8 * u.src.length
    · rw [if_pos he, if_neg (by omega), show 8 * u.src.length - p = 0 by omega, consume_zero h]
      rfl
    · have h1 := consume_at h (show p + min w (8 * u.src.length - p) ≤ 8 * u.src.length by omega)
      rw [if_neg he]
      simp only [RdResult.bind]
      rw [ih h1, consume_src, consume_consume h _ _ (by omega), consume_consume h _ _ (by omega)]
      have hrest : 8 * u.src.length - (p + min w (8 * u.src.length - p))
          = 8 * u.src.length - p - min w (8 * u.src.length - p) := by omega
      rw [hrest]
      by_cases hn : n * w < 8 * u.src.length - p
      · rw [if_pos (by omega), if_pos (by omega), groupsFrom_succ u hn]
        have hm : min w (8 * u.src.length - p)
            + min (n * w) (8 * u.src.length - p - min w (8 * u.src.length - p))
            = min (n * w + w) (8 * u.src.length - p) := by omega
        rw [hm, groupsFrom_congr (u := u) (v := u.consume _) rfl rfl]
        rfl
      · have hn0 : n ≠ 0 := by
          rintro rfl
          omega
        have hwn := Nat.mul_le_mul_right w (show 1 ≤ n by omega)
        rw [if_neg (by omega), if_neg (by omega),
          show min w (8 * u.src.length - p) + (8 * u.src.length - p - min w (8 * u.src.length - p))
            = 8 * u.src.length - p by omega]
        rfl

/-- The loop of until-exhaustion mode over its next `j` groups, none of which the limiter interrupts. -/
theorem readUntil_bits {w : Nat} (hw : 1 ≤ w ∧ w ≤ 8) (l : Int) (j fuel : Nat) (acc : List Item) {u : RdUnit} {p : Nat}
    (h : u.At p) (hj : j * w < 8 * u.src.length - p + w)
    (hl : ∀ i, 1 ≤ i → i ≤ j → limiterVerdict l (acc.length + i) = .proceed) :
    readUntil (bitsItem w) l (j + fuel) acc u =
      readUntil (bitsItem w) l fuel (acc ++ groupsFrom u p w (8 * u.src.length - p) j)
        (u.consume (min (j * w) (8 * u.src.length - p))) := by
  induction j generalizing u p acc with
  | zero => rw [Nat.zero_mul, Nat.zero_min, consume_zero h, groupsFrom_zero, List.append_nil, Nat.zero_add]
  | succ j ih =>
    have hi := h.inside
    rw [Nat.add_one_mul j w] at hj ⊢
    have h1 := consume_at h (show p + min w (8 * u.src.length - p) ≤ 8 * u.src.length by omega)
    have hx : bitsItem w u = .ok (bitsVal (min w (8 * u.src.length - p)) u p)
        (u.consume (min w (8 * u.src.length - p))) := by rw [bitsItem_spec h hw, if_neg (by omega)]
    rw [show j + 1 + fuel = (j + fuel) + 1 by omega, readUntil_one l _ acc h (by omega) hx, hl 1 (by omega) (by omega)]
    simp only
    have hrest : 8 * u.src.length - (p + min w (8 * u.src.length - p))
        = 8 * u.src.length - p - min w (8 * u.src.length - p) := by omega
    rw [ih _ h1 (by rw [consume_src]; omega) (fun i h1 h2 => by
      rw [List.length_append, List.length_singleton, Nat.add_assoc, Nat.add_comm 1 i]
      exact hl (i + 1) (by omega) (by omega)), consume_src, consume_consume h _ _ (by omega), hrest,
      groupsFrom_congr (u := u) (v := u.consume _) rfl rfl, groupsFrom_succ u (show j * w < 8 * u.src.length - p by omega)]
    have hm : min w (8 * u.src.length - p)
        + min (j * w) (8 * u.src.length - p - min w (8 * u.src.length - p))
        = min (j * w + w) (8 * u.src.length - p) := by omega
    rw [hm, List.append_assoc]
    rfl

/-- One group more, at which the limiter speaks. -/
theorem readUntil_bits_last {w : Nat} (hw : 1 ≤ w ∧ w ≤ 8) (l : Int) (n fuel : Nat) {u : RdUnit} {p : Nat} (h : u.At p)
    (hn : n * w < 8 * u.src.length - p) (hf : n + 1 ≤ fuel)
    (hl : ∀ i, 1 ≤ i → i ≤ n → limiterVerdict l i = .proceed) :
    readUntil (bitsItem w) l fuel [] u =
      match limiterVerdict l (n + 1) with
      | .exceeded => .raise .arraySizeExceeded (u.consume (min ((n + 1) * w) (8 * u.src.length - p)))
      | .softStop => .ok (groupsFrom u p w (8 * u.src.length - p) (n + 1))
          (markSoftStop (u.consume (min ((n + 1) * w) (8 * u.src.length - p))))
      | .proceed => readUntil (bitsItem w) l (fuel - n - 1) (groupsFrom u p w (8 * u.src.length - p) (n + 1))
          (u.consume (min ((n + 1) * w) (8 * u.src.length - p))) := by
  have hi := h.inside
  have h1 := consume_at h (show p + min (n * w) (8 * u.src.length - p) ≤ 8 * u.src.length by omega)
  have hmin : min (n * w) (8 * u.src.length - p) = n * w := by omega
  rw [show fuel = n + ((fuel - n - 1) + 1) by omega,
    readUntil_bits hw l n _ [] h (by omega) (fun i h1 h2 => by
      rw [List.length_nil, Nat.zero_add]; exact hl i h1 h2), List.nil_append]
  rw [hmin] at h1 ⊢
  have hx : bitsItem w (u.consume (n * w)) = .ok (bitsVal (min w (8 * u.src.length - p - n * w)) u (p + n * w))
      (u.consume (min ((n + 1) * w) (8 * u.src.length - p))) := by
    rw [bitsItem_spec h1 hw, consume_src, if_neg (by omega), consume_consume h _ _ (by omega), bitsVal, bitsVal,
      consume_bitsAt, Nat.add_one_mul n w, show 8 * u.src.length - (p + n * w) = 8 * u.src.length - p - n * w by omega,
      show n * w + min w (8 * u.src.length - p - n * w) = min (n * w + w) (8 * u.src.length - p) by omega]
  rw [readUntil_one l _ _ h1 (by rw [consume_src]; omega) hx, groupsFrom_length, groupsFrom_concat,
    show n + (fuel - n - 1 + 1) - n - 1 = fuel - n - 1 by omega]
  all_goals cases limiterVerdict l (n + 1) <;> rfl

end Sys2Proof.Machine
end

