-- ==== Sys2Proof/Laws/Faults.lean ====
section
/-! SUPPORT. What taking a fault, accepting a command and the shapes of a command do, said once each (60_exceptions.md R305,
R306, 30_encoding.md R90, R95, R97). -/

namespace Sys2Proof.Machine

/-! ## Taking a fault -/

@[simp] theorem rdRaise_st (c : Cause) (u : RdUnit) : (rdRaise c u).rsp.st = causeStatus c := rfl
@[simp] theorem wrRaise_st (c : Cause) (u : WrUnit) : (wrRaise c u).rsp.st = causeStatus c := rfl

/-- A fault changes no register of RD. -/
theorem rdRaise_sameRegs (c : Cause) (u : RdUnit) : u.SameRegs (rdRaise c u) :=
  ⟨rfl, rfl, rfl, rfl, rfl, rfl, rfl, rfl, rfl, rfl, rfl, rfl, rfl, rfl⟩

/-- A fault changes no register of WR. -/
theorem wrRaise_sameRegs (c : Cause) (u : WrUnit) : u.SameRegs (wrRaise c u) :=
  ⟨rfl, rfl, rfl, rfl, rfl, rfl, rfl, rfl⟩

/-- The offending first byte of a malformed string is in VAL[7:0], whatever the free value above it is
(30_encoding.md R96). -/
theorem faultVal_malformed (p : Byte) (v : Lane) : low8 (faultVal (.malformedWireData p) v) = p := by
  simp only [low8, faultVal]
  apply BitVec.eq_of_getLsbD_eq
  intro i hi
  rw [BitVec.getLsbD_extractLsb', Nat.zero_add, decide_eq_true hi, Bool.true_and,
    show (v.extractLsb' 8 56 ++ p : Lane).getLsbD i = _ from BitVec.getLsbD_append, if_pos hi]

/-- Same registers, again: it is an equivalence on what a fault leaves. -/
theorem RdUnit.SameRegs.refl (u : RdUnit) : u.SameRegs u :=
  ⟨rfl, rfl, rfl, rfl, rfl, rfl, rfl, rfl, rfl, rfl, rfl, rfl, rfl, rfl⟩

theorem RdUnit.SameRegs.trans {u v w : RdUnit} (h : u.SameRegs v) (k : v.SameRegs w) : u.SameRegs w := by
  obtain ⟨a1, a2, a3, a4, a5, a6, a7, a8, a9, a10, a11, a12, a13, a14⟩ := h
  obtain ⟨b1, b2, b3, b4, b5, b6, b7, b8, b9, b10, b11, b12, b13, b14⟩ := k
  exact ⟨b1.trans a1, b2.trans a2, b3.trans a3, b4.trans a4, b5.trans a5, b6.trans a6, b7.trans a7, b8.trans a8,
    b9.trans a9, b10.trans a10, b11.trans a11, b12.trans a12, b13.trans a13, b14.trans a14⟩

theorem WrUnit.SameRegs.refl (u : WrUnit) : u.SameRegs u := ⟨rfl, rfl, rfl, rfl, rfl, rfl, rfl, rfl⟩

/-- The invariant of RD is about registers alone. -/
theorem RdUnit.SameRegs.inv {u v : RdUnit} (h : u.SameRegs v) (hi : u.Inv) : v.Inv := by
  obtain ⟨h1, h2, h3, h4, h5, -, -, h8, h9, -, h11, h12, -, -⟩ := h
  simpa only [RdUnit.Inv, h1, h2, h3, h4, h5, h8, h9, h11, h12] using hi

/-- The invariant of WR is about registers alone. -/
theorem WrUnit.SameRegs.inv {u v : WrUnit} (h : u.SameRegs v) (hi : u.Inv) : v.Inv := by
  obtain ⟨-, h2, h3, h4, -, h6, h7, -⟩ := h
  simpa only [WrUnit.Inv, h2, h3, h4, h6, h7] using hi

/-- A command of RD that raises. -/
theorem rdFaults_raise (c : Cause) (s : State) (u : RdUnit) :
    RdFaults (.next (s.withRd (rdRaise c u))) s (causeStatus c) u :=
  ⟨_, rfl, rfl, rfl, rfl, rdRaise_sameRegs c u⟩

/-- A command of WR that raises. -/
theorem wrFaults_raise (c : Cause) (s : State) (u : WrUnit) :
    WrFaults (.next (s.withWr (wrRaise c u))) s (causeStatus c) u :=
  ⟨_, rfl, rfl, rfl, rfl, wrRaise_sameRegs c u⟩

/-! ## The shapes of a command -/

theorem rdEnd_ok {α : Type} (a : α) (u : RdUnit) (f : α → RdUnit → RdUnit) : rdEnd (.ok a u) f = f a u := rfl
theorem rdEnd_raise {α : Type} (c : Cause) (u : RdUnit) (f : α → RdUnit → RdUnit) :
    rdEnd (.raise c u) f = rdRaise c u := rfl

/-- A reading command answers a next state that differs in RD alone. -/
theorem rdCommand_eq (body : RdUnit → RdUnit) (s : State) : rdCommand body s = .next (s.withRd (body s.rd)) := rfl

/-- A writing command on an open unit runs its body. -/
theorem wrCommand_open {s : State} (h : s.wr.closed = false) (body : WrUnit → WrUnit) :
    wrCommand body s = .next (s.withWr (body s.wr)) := by
  simp [wrCommand, h]

/-- A writing command on a closed unit is IllegalState (46_wr_align_flush.md R254). -/
theorem wrCommand_closed {s : State} (h : s.wr.closed = true) (body : WrUnit → WrUnit) :
    wrCommand body s = .next (s.withWr (wrRaise .illegalState s.wr)) := by
  simp [wrCommand, h]

/-- Everything a command over OMEM can do. -/
theorem wrOmemCommand_cases {α : Type} (check : WrUnit → Bool) (read : List Item → Option (List α))
    (body : List α → WrUnit → WrUnit) (s : State) :
    (s.wr.closed = true ∧ wrOmemCommand check read body s = .next (s.withWr (wrRaise .illegalState s.wr))) ∨
    (s.wr.closed = false ∧ check s.wr = false ∧
      wrOmemCommand check read body s = .next (s.withWr (wrRaise .invalidArgument s.wr))) ∨
    (s.wr.closed = false ∧ check s.wr = true ∧ ∃ xs, read s.wr.cmd.omem = some xs ∧
      wrOmemCommand check read body s = .next (s.withWr (body xs s.wr))) ∨
    (s.wr.closed = false ∧ check s.wr = true ∧ read s.wr.cmd.omem = none ∧
      wrOmemCommand check read body s = .refused .omemItemKind) := by
  cases hc : s.wr.closed
  · cases hk : check s.wr
    · exact .inr (.inl ⟨rfl, rfl, by simp [wrOmemCommand, hc, hk]⟩)
    · cases hr : read s.wr.cmd.omem with
      | none => exact .inr (.inr (.inr ⟨rfl, rfl, rfl, by simp [wrOmemCommand, hc, hk, hr]⟩))
      | some xs => exact .inr (.inr (.inl ⟨rfl, rfl, xs, rfl, by simp [wrOmemCommand, hc, hk, hr]⟩))
  · exact .inl ⟨rfl, by simp [wrOmemCommand, hc]⟩

/-! ## OMEM -/

theorem numericItems_map (xs : List Lane) : numericItems (xs.map .num) = some xs := by
  induction xs with
  | nil => rfl
  | cons x xs ih => simp [numericItems, ih]

theorem stringItems_map (xs : List StrItem) : stringItems (xs.map .str) = some xs := by
  induction xs with
  | nil => rfl
  | cons x xs ih => simp [stringItems, ih]

theorem numericItems_length {items : List Item} {xs : List Lane} (h : numericItems items = some xs) :
    xs.length = items.length := by
  induction items generalizing xs with
  | nil => simp_all [numericItems]
  | cons x items ih =>
    cases x with
    | num v =>
      simp only [numericItems, Option.map_eq_some_iff] at h
      obtain ⟨ys, hy, rfl⟩ := h
      simp [ih hy]
    | str v => simp [numericItems] at h

/-! ## Accepting a command -/

/-- The unit of a word is OPC[7] (30_encoding.md R92). -/
theorem unitOfWord_commandWord (opc : BitVec 8) (bo : BitVec 1) (w : BitVec 4) :
    unitOfWord (commandWord opc bo w) = if opc.getLsbD 7 then .wr else .rd := by
  have : (commandWord opc bo w).getLsbD 15 = opc.getLsbD 7 := by
    rw [commandWord, BitVec.getLsbD_append, BitVec.getLsbD_append, BitVec.getLsbD_append]
    rfl
  rw [unitOfWord, this]

/-- Accepting a command writes the command port of one unit, and opens RMEM where the unit is RD. -/
theorem accept_wr {c : HostCommand} (h : c.port = .rd) (s : State) : (accept c s).wr = s.wr := by
  simp [accept, h]

theorem accept_rd {c : HostCommand} (h : c.port = .wr) (s : State) : (accept c s).rd = s.rd := by
  simp [accept, h]

@[simp] theorem accept_host (c : HostCommand) (s : State) : (accept c s).host = s.host := by
  cases h : c.port <;> simp [accept, h]

end Sys2Proof.Machine
end

