-- ==== Sys2Proof/Laws/PerInstr.lean ====
section
/-! SUPPORT. Statements about all instructions, made once per instruction. -/

namespace Sys2Proof.Laws.EncodesItsRow

/-- The word of the instruction, where a command word encodes it, is a word of a row of the opcode table
(30_encoding.md R95), and its reserved bits are zero (R92). -/
def Statement (i : Instr) : Prop :=
  i.WellFormed = true → fieldRsv (encode i) = 0#3 ∧ ∃ r ∈ tableRows, encode i &&& r.mask = r.value

/-- A width that a command word encodes is one of sixteen. -/
theorem width_cases {P : Nat → Prop} (h : ∀ w : Fin 16, P w.val) {w : Nat} (hw : widthEncodable w = true) : P w :=
  h ⟨w, by simpa [widthEncodable] using hw⟩

theorem rdBits (w : Nat) : Statement (.rdBits w) :=
  width_cases (P := fun w => fieldRsv (encode (.rdBits w)) = 0#3 ∧ ∃ r ∈ tableRows, encode (.rdBits w) &&& r.mask = r.value)
    (by decide)
theorem rdByte : Statement .rdByte := fun _ => by decide
theorem rdBool : Statement .rdBool := fun _ => by decide
theorem rdUshort (bo : ByteOrder) : Statement (.rdUshort bo) := fun _ => by cases bo <;> decide
theorem rdInt (bo : ByteOrder) : Statement (.rdInt bo) := fun _ => by cases bo <;> decide
theorem rdUint (bo : ByteOrder) : Statement (.rdUint bo) := fun _ => by cases bo <;> decide
theorem rdLong (bo : ByteOrder) : Statement (.rdLong bo) := fun _ => by cases bo <;> decide
theorem rdFloat (bo : ByteOrder) : Statement (.rdFloat bo) := fun _ => by cases bo <;> decide
theorem rdDouble (bo : ByteOrder) : Statement (.rdDouble bo) := fun _ => by cases bo <;> decide
theorem rdString (bo : ByteOrder) : Statement (.rdString bo) := fun _ => by cases bo <;> decide
theorem rdBitsarr (w : Nat) : Statement (.rdBitsarr w) :=
  width_cases (P := fun w => fieldRsv (encode (.rdBitsarr w)) = 0#3 ∧ ∃ r ∈ tableRows, encode (.rdBitsarr w) &&& r.mask = r.value)
    (by decide)
theorem rdBytearr (bo : ByteOrder) : Statement (.rdBytearr bo) := fun _ => by cases bo <;> decide
theorem rdBoolarr : Statement .rdBoolarr := fun _ => by decide
theorem rdShortarr (bo : ByteOrder) : Statement (.rdShortarr bo) := fun _ => by cases bo <;> decide
theorem rdUshortarr (bo : ByteOrder) : Statement (.rdUshortarr bo) := fun _ => by cases bo <;> decide
theorem rdIntarr (bo : ByteOrder) : Statement (.rdIntarr bo) := fun _ => by cases bo <;> decide
theorem rdUintarr (bo : ByteOrder) : Statement (.rdUintarr bo) := fun _ => by cases bo <;> decide
theorem rdLongarr (bo : ByteOrder) : Statement (.rdLongarr bo) := fun _ => by cases bo <;> decide
theorem rdFloatarr (bo : ByteOrder) : Statement (.rdFloatarr bo) := fun _ => by cases bo <;> decide
theorem rdDoublearr (bo : ByteOrder) : Statement (.rdDoublearr bo) := fun _ => by cases bo <;> decide
theorem rdStrarr (bo : ByteOrder) : Statement (.rdStrarr bo) := fun _ => by cases bo <;> decide
theorem rdAlignbyte : Statement .rdAlignbyte := fun _ => by decide
theorem rdAlign : Statement .rdAlign := fun _ => by decide
theorem rdMark : Statement .rdMark := fun _ => by decide
theorem rdReset : Statement .rdReset := fun _ => by decide
theorem rdGetcnt : Statement .rdGetcnt := fun _ => by decide
theorem rdRstcnt : Statement .rdRstcnt := fun _ => by decide
theorem rdGetord : Statement .rdGetord := fun _ => by decide
theorem rdGetbuf : Statement .rdGetbuf := fun _ => by decide
theorem rdGetnbits : Statement .rdGetnbits := fun _ => by decide
theorem rdGetdl : Statement .rdGetdl := fun _ => by decide
theorem rdSetdl : Statement .rdSetdl := fun _ => by decide
theorem wrBits (w : Nat) : Statement (.wrBits w) :=
  width_cases (P := fun w => fieldRsv (encode (.wrBits w)) = 0#3 ∧ ∃ r ∈ tableRows, encode (.wrBits w) &&& r.mask = r.value)
    (by decide)
theorem wrByte : Statement .wrByte := fun _ => by decide
theorem wrBool : Statement .wrBool := fun _ => by decide
theorem wrShort (bo : ByteOrder) : Statement (.wrShort bo) := fun _ => by cases bo <;> decide
theorem wrInt (bo : ByteOrder) : Statement (.wrInt bo) := fun _ => by cases bo <;> decide
theorem wrUint (bo : ByteOrder) : Statement (.wrUint bo) := fun _ => by cases bo <;> decide
theorem wrLong (bo : ByteOrder) : Statement (.wrLong bo) := fun _ => by cases bo <;> decide
theorem wrFloat (bo : ByteOrder) : Statement (.wrFloat bo) := fun _ => by cases bo <;> decide
theorem wrDouble (bo : ByteOrder) : Statement (.wrDouble bo) := fun _ => by cases bo <;> decide
theorem wrString (bo : ByteOrder) : Statement (.wrString bo) := fun _ => by cases bo <;> decide
theorem wrBitsarr (w : Nat) : Statement (.wrBitsarr w) :=
  width_cases (P := fun w => fieldRsv (encode (.wrBitsarr w)) = 0#3 ∧ ∃ r ∈ tableRows, encode (.wrBitsarr w) &&& r.mask = r.value)
    (by decide)
theorem wrBytes (bo : ByteOrder) : Statement (.wrBytes bo) := fun _ => by cases bo <;> decide
theorem wrBoolarr : Statement .wrBoolarr := fun _ => by decide
theorem wrShortarr (bo : ByteOrder) : Statement (.wrShortarr bo) := fun _ => by cases bo <;> decide
theorem wrIntarr (bo : ByteOrder) : Statement (.wrIntarr bo) := fun _ => by cases bo <;> decide
theorem wrUintarr (bo : ByteOrder) : Statement (.wrUintarr bo) := fun _ => by cases bo <;> decide
theorem wrLongarr (bo : ByteOrder) : Statement (.wrLongarr bo) := fun _ => by cases bo <;> decide
theorem wrFloatarr (bo : ByteOrder) : Statement (.wrFloatarr bo) := fun _ => by cases bo <;> decide
theorem wrDoublearr (bo : ByteOrder) : Statement (.wrDoublearr bo) := fun _ => by cases bo <;> decide
theorem wrStrarr (bo : ByteOrder) : Statement (.wrStrarr bo) := fun _ => by cases bo <;> decide
theorem wrAlign : Statement .wrAlign := fun _ => by decide
theorem wrFlush : Statement .wrFlush := fun _ => by decide
theorem wrClose : Statement .wrClose := fun _ => by decide
theorem wrGetcnt : Statement .wrGetcnt := fun _ => by decide
theorem wrRstcnt : Statement .wrRstcnt := fun _ => by decide

end Sys2Proof.Laws.EncodesItsRow
end

