-- ==== Sys2Proof/Laws/StringArrays.lean ====
section
/-! SUPPORT. What RD.STRARR can do over encodings in a row, said once for each mode (47_strings.md R268). -/

namespace Sys2Proof.Machine

/-- The element reader of RD.STRARR. -/
def stringItem (bo : ByteOrder) (u : RdUnit) : RdResult Item := (decodeString bo u).map .str

/-- The bytes `bs` stand at position `p`. -/
def RdUnit.Stands (u : RdUnit) (p : Nat) (bs : List Byte) : Prop :=
  p + 8 * bs.length ≤ 8 * u.src.length ∧ u.bytesAt p bs.length = bs

theorem RdUnit.Stands.consume {u : RdUnit} {p : Nat} {bs : List Byte} (h : u.Stands p bs) (k : Nat) :
    (u.consume k).Stands p bs := ⟨h.1, by rw [consume_bytesAt]; exact h.2⟩

/-- Bytes in two parts. -/
theorem stands_append {u : RdUnit} {p : Nat} {xs ys : List Byte} :
    u.Stands p (xs ++ ys) ↔ u.Stands p xs ∧ u.Stands (p + 8 * xs.length) ys := by
  constructor
  · rintro ⟨h1, h2⟩
    rw [List.length_append] at h1
    obtain ⟨h3, h4⟩ := bytesAt_split h2
    exact ⟨⟨by omega, h3⟩, ⟨by omega, h4⟩⟩
  · rintro ⟨⟨-, h3⟩, h2, h4⟩
    refine ⟨by rw [List.length_append]; omega, ?_⟩
    rw [List.length_append, bytesAt_append, h3, h4]

/-- What is upcoming stands at the cursor. -/
theorem upcoming_stands {u : RdUnit} (h : u.Inv) (bs : List Byte) : u.Upcoming bs ↔ u.Stands u.bitPos bs := by
  have hp := h.pending
  simp only [RdUnit.Upcoming, RdUnit.Stands]
  constructor
  · rintro ⟨h1, h2⟩
    exact ⟨by omega, h2⟩
  · rintro ⟨h1, h2⟩
    exact ⟨by omega, h2⟩

theorem stringItem_wire {bo : ByteOrder} {u : RdUnit} {p : Nat} (h : u.At p) {x : StrItem} {bs : List Byte}
    (hw : StringWire bo x bs) (hs : u.Stands p bs) : stringItem bo u = .ok (.str x) (u.consume (8 * bs.length)) := by
  rw [stringItem, decodeString_wire h hw hs.1 hs.2]
  rfl

/-- Where the decoder raises EndOfData after the bytes `pre`, neither a first byte that is no prefix nor a whole encoding stands
there (47_strings.md R264, R265). -/
theorem nothing_upcoming_after {bo : ByteOrder} {u v : RdUnit} {pre : List Byte} (h : u.Inv) (hp : u.Upcoming pre)
    (he : decodeString bo (u.consume (8 * pre.length)) = .raise .endOfData v) :
    (∀ b : Byte, b = 0x80#8 ∨ (0x85 ≤ b.toNat ∧ b.toNat ≤ 0xFE) → ¬ u.Upcoming (pre ++ [b])) ∧
      ∀ (x : StrItem) (bs : List Byte), StringWire bo x bs → ¬ u.Upcoming (pre ++ bs) := by
  have hat := consume_at h.at ((upcoming_stands h pre).1 hp).1
  refine ⟨fun b hb hu => ?_, fun x bs hw hu => ?_⟩
  · obtain ⟨h1, h2⟩ := (stands_append.1 ((upcoming_stands h _).1 hu)).2.consume (8 * pre.length)
    have hm : firstByte b = .malformed := by
      rcases firstByte_cases b with ⟨h0, -⟩ | ⟨h0, -⟩ | ⟨k, hk1, hk4, h0, -⟩ | ⟨-, hf⟩
      · rw [h0] at hb
        exact absurd hb (by decide)
      · exact absurd hb (by rw [← BitVec.toNat_inj]; simp only [BitVec.toNat_ofNat]; omega)
      · exact absurd hb (by rw [h0, ← BitVec.toNat_inj]; simp only [BitVec.toNat_ofNat]; omega)
      · exact hf
    rw [(decodeString_after_first bo hat h1 (bytesAt_head h2).1).2.2.2 hm] at he
    cases he
  · obtain ⟨h1, h2⟩ := (stands_append.1 ((upcoming_stands h _).1 hu)).2.consume (8 * pre.length)
    rw [decodeString_wire hat hw h1 h2] at he
    cases he

/-- An encoding has at least one byte. -/
theorem StringWire.pos {bo : ByteOrder} {x : StrItem} {bs : List Byte} (h : StringWire bo x bs) : 1 ≤ bs.length := by
  cases h <;> simp

/-- Fixed mode over the strings that stand at the cursor, with `n` more to read. -/
theorem readFixed_strings {bo : ByteOrder} {xs : List StrItem} {wires : List (List Byte)}
    (hw : List.Forall₂ (StringWire bo) xs wires) (n : Nat) {u : RdUnit} {p : Nat} (h : u.At p)
    (hs : u.Stands p wires.flatten) :
    readFixed (stringItem bo) (xs.length + n) u =
      (readFixed (stringItem bo) n (u.consume (8 * wires.flatten.length))).map (xs.map .str ++ ·) := by
  induction hw generalizing u p with
  | nil =>
    rw [List.flatten_nil, List.length_nil, List.length_nil, Nat.mul_zero, consume_zero h, Nat.zero_add]
    cases readFixed (stringItem bo) n u <;> simp [RdResult.map, RdResult.bind]
  | @cons x bs xs wires hx hxs ih =>
    rw [List.flatten_cons, stands_append] at hs
    obtain ⟨h1, h2⟩ := hs
    have hat := consume_at h h1.1
    rw [show (x :: xs).length + n = (xs.length + n) + 1 by rw [List.length_cons]; omega, readFixed, stringItem_wire h hx h1]
    simp only [RdResult.bind]
    rw [ih hat (h2.consume _), consume_consume h _ _ h1.1, List.flatten_cons, List.length_append, Nat.mul_add]
    cases readFixed (stringItem bo) n (u.consume (8 * bs.length + 8 * wires.flatten.length)) <;>
      simp [RdResult.map, RdResult.bind]

/-- Until-exhaustion mode over the strings that stand at the cursor, none of which the limiter interrupts. -/
theorem readUntil_strings {bo : ByteOrder} {xs : List StrItem} {wires : List (List Byte)}
    (hw : List.Forall₂ (StringWire bo) xs wires) (l : Int) (fuel : Nat) (acc : List Item) {u : RdUnit} {p : Nat}
    (h : u.At p) (hs : u.Stands p wires.flatten)
    (hl : ∀ i, 1 ≤ i → i ≤ xs.length → limiterVerdict l (acc.length + i) = .proceed) :
    readUntil (stringItem bo) l (xs.length + fuel) acc u =
      readUntil (stringItem bo) l fuel (acc ++ xs.map .str) (u.consume (8 * wires.flatten.length)) := by
  induction hw generalizing u p acc with
  | nil => rw [List.flatten_nil, List.length_nil, List.length_nil, Nat.mul_zero, consume_zero h, Nat.zero_add, List.map_nil,
      List.append_nil]
  | @cons x bs xs wires hx hxs ih =>
    rw [List.flatten_cons, stands_append] at hs
    obtain ⟨h1, h2⟩ := hs
    have hpos := hx.pos
    have hin := h1.1
    have hat := consume_at h h1.1
    rw [List.length_cons] at hl
    rw [show (x :: xs).length + fuel = (xs.length + fuel) + 1 by rw [List.length_cons]; omega,
      readUntil_one l _ acc h (by omega) (stringItem_wire h hx h1), hl 1 (by omega) (by omega)]
    simp only
    rw [ih _ hat (h2.consume _) (fun i h1 h2 => by
      rw [List.length_append, List.length_singleton, Nat.add_assoc, Nat.add_comm 1 i]
      exact hl (i + 1) (by omega) (by omega)), consume_consume h _ _ h1.1, List.flatten_cons, List.length_append,
      Nat.mul_add, List.map_cons, List.append_assoc]
    rfl

/-- As many bytes as strings, at least. -/
theorem wires_length {bo : ByteOrder} {xs : List StrItem} {wires : List (List Byte)}
    (hw : List.Forall₂ (StringWire bo) xs wires) : xs.length ≤ wires.flatten.length := by
  induction hw with
  | nil => simp
  | cons hx _ ih =>
    have := hx.pos
    rw [List.flatten_cons, List.length_append, List.length_cons]
    omega

end Sys2Proof.Machine
end

