-- ==== Sys2Proof/Laws/RdEffects.lean ====
section
/-! SUPPORT. What the commands of RD that read do to the cursor, said once: it moves forward over bits of the source, and EndOfData
leaves none (10_state.md R30, R31, 40_rd_bits.md R128, 70_reset_and_hazards.md R347). -/

namespace Sys2Proof.Machine

/-! ## Readers that only move the cursor -/

/-- Whatever the reader comes to, it has moved the cursor forward and done nothing else; what it raises is a fault that reading
can raise. -/
def Advances {α : Type} (f : RdUnit → RdResult α) : Prop :=
  ∀ {u : RdUnit} {p : Nat}, u.At p → ∃ n, p + n ≤ 8 * u.src.length ∧
    ((∃ x, f u = .ok x (u.consume n)) ∨ (∃ b, f u = .raise (.malformedWireData b) (u.consume n)) ∨
      (f u = .raise .endOfData (u.consume n) ∧ p + n = 8 * u.src.length))

theorem Takes.advances {α : Type} {f : RdUnit → RdResult α} {m : Nat} {v : RdUnit → Nat → α} (h : Takes f m v) :
    Advances f := by
  intro u p hu
  have hi := hu.inside
  by_cases hm : p + m ≤ 8 * u.src.length
  · exact ⟨m, hm, .inl ⟨_, h.enough hu hm⟩⟩
  · exact ⟨8 * u.src.length - p, by omega, .inr (.inr ⟨h.short hu (by omega), by omega⟩)⟩

theorem decodeString_advances (bo : ByteOrder) : Advances (decodeString bo) := by
  intro u p hu
  have hi := hu.inside
  rcases decodeString_cases bo hu with ⟨x, bs, -, h2, -, h4⟩ | ⟨b, h1, -, -, h4⟩ | h4
  · exact ⟨_, h2, .inl ⟨x, h4⟩⟩
  · exact ⟨8, h1, .inr (.inl ⟨b, h4⟩)⟩
  · exact ⟨8 * u.src.length - p, by omega, .inr (.inr ⟨h4, by omega⟩)⟩

theorem Advances.map {α β : Type} {f : RdUnit → RdResult α} (h : Advances f) (k : α → β) :
    Advances (fun u => (f u).map k) := by
  intro u p hu
  obtain ⟨n, hn, ⟨x, hx⟩ | ⟨b, hx⟩ | ⟨hx, he⟩⟩ := h hu
  · exact ⟨n, hn, .inl ⟨k x, by simp only [hx, RdResult.map, RdResult.bind]⟩⟩
  · exact ⟨n, hn, .inr (.inl ⟨b, by simp only [hx, RdResult.map, RdResult.bind]⟩)⟩
  · exact ⟨n, hn, .inr (.inr ⟨by simp only [hx, RdResult.map, RdResult.bind], he⟩)⟩

theorem bitsItem_advances {w : Nat} (hw : 1 ≤ w ∧ w ≤ 8) : Advances (bitsItem w) := by
  intro u p hu
  have hi := hu.inside
  by_cases he : p = 8 * u.src.length
  · exact ⟨0, by omega, .inr (.inr ⟨by rw [bitsItem_spec hu hw, if_pos he, consume_zero hu], by omega⟩)⟩
  · exact ⟨min w (8 * u.src.length - p), by omega, .inl ⟨_, by rw [bitsItem_spec hu hw, if_neg he]⟩⟩

theorem readFixed_advances {f : RdUnit → RdResult Item} (h : Advances f) (n : Nat) : Advances (readFixed f n) := by
  induction n with
  | zero =>
    intro u p hu
    exact ⟨0, by have := hu.inside; omega, .inl ⟨[], by rw [readFixed, consume_zero hu]⟩⟩
  | succ n ih =>
    intro u p hu
    obtain ⟨m, hm, ⟨x, hx⟩ | ⟨b, hx⟩ | ⟨hx, he⟩⟩ := h hu
    · obtain ⟨k, hk, hr⟩ := ih.map (x :: ·) (consume_at hu hm)
      rw [consume_src] at hk hr
      rw [consume_consume hu _ _ hm] at hr
      refine ⟨m + k, by omega, ?_⟩
      have e : readFixed f (n + 1) u = (readFixed f n (u.consume m)).map (x :: ·) := by
        simp only [readFixed, hx, RdResult.bind]
      rw [e, ← Nat.add_assoc]
      exact hr
    · exact ⟨m, hm, .inr (.inl ⟨b, by simp only [readFixed, hx, RdResult.bind]⟩)⟩
    · exact ⟨m, hm, .inr (.inr ⟨by simp only [readFixed, hx, RdResult.bind], he⟩)⟩

/-- The loop of until-exhaustion mode moves the cursor forward; it sets DETLIM only where it stops at a soft cap, and raises
ArraySizeExceeded only for a hard cap. -/
theorem readUntil_advances {f : RdUnit → RdResult Item} (h : Advances f) (l : Int) (fuel : Nat) (acc : List Item)
    {u : RdUnit} {p : Nat} (hu : u.At p) :
    ∃ n, p + n ≤ 8 * u.src.length ∧
      ((∃ xs, readUntil f l fuel acc u = .ok xs (u.consume n)) ∨
        (l < 0 ∧ ∃ xs, readUntil f l fuel acc u = .ok xs (markSoftStop (u.consume n))) ∨
        (∃ b, readUntil f l fuel acc u = .raise (.malformedWireData b) (u.consume n)) ∨
        (0 < l ∧ readUntil f l fuel acc u = .raise .arraySizeExceeded (u.consume n)) ∨
        (readUntil f l fuel acc u = .raise .endOfData (u.consume n) ∧ p + n = 8 * u.src.length)) := by
  have hi := hu.inside
  induction fuel generalizing acc u p with
  | zero => exact ⟨0, hi, .inl ⟨acc, by rw [readUntil, consume_zero hu]⟩⟩
  | succ fuel ih =>
    by_cases hd : hasData u = true
    · obtain ⟨m, hm, ⟨x, hx⟩ | ⟨b, hx⟩ | ⟨hx, he⟩⟩ := h hu
      · have e : readUntil f l (fuel + 1) acc u =
            match limiterVerdict l (acc.length + 1) with
            | .exceeded => .raise .arraySizeExceeded (u.consume m)
            | .softStop => .ok (acc ++ [x]) (markSoftStop (u.consume m))
            | .proceed => readUntil f l fuel (acc ++ [x]) (u.consume m) := by
          rw [readUntil, if_pos hd, hx]
          rfl
        rw [e]
        rcases hv : limiterVerdict l (acc.length + 1) with _ | _ | _
        · have h1 := consume_at hu hm
          obtain ⟨k, hk, hr⟩ := ih (acc ++ [x]) h1 h1.inside
          rw [consume_src] at hk hr
          rw [consume_consume hu _ _ hm] at hr
          refine ⟨m + k, by omega, ?_⟩
          rw [← Nat.add_assoc]
          exact hr
        · refine ⟨m, hm, .inr (.inr (.inr (.inl ⟨?_, rfl⟩)))⟩
          simp only [limiterVerdict] at hv
          split at hv
          · omega
          · split at hv <;> cases hv
        · refine ⟨m, hm, .inr (.inl ⟨?_, _, rfl⟩)⟩
          simp only [limiterVerdict] at hv
          split at hv
          · cases hv
          · split at hv
            · omega
            · cases hv
      · exact ⟨m, hm, .inr (.inr (.inl ⟨b, by rw [readUntil, if_pos hd, hx, RdResult.bind]⟩))⟩
      · exact ⟨m, hm, .inr (.inr (.inr (.inr ⟨by rw [readUntil, if_pos hd, hx, RdResult.bind], he⟩)))⟩
    · exact ⟨0, hi, .inl ⟨acc, by rw [readUntil, if_neg hd, consume_zero hu]⟩⟩

/-! ## The effect of a command -/

/-- The cursor has moved forward by `n` bits and DETLIM is `d`; no other register has changed. -/
def Moved (u v : RdUnit) (n : Nat) (d : Bool) : Prop := ((u.consume n).setDetLim d).SameRegs v

/-- A command that reads: the cursor has moved over some of the bits pending, all of them where it answers EndOfData. -/
def Reads (u v : RdUnit) : Prop :=
  ∃ n d, n ≤ pendingBits u ∧ Moved u v n d ∧ (v.rsp.st = .endOfData → n = pendingBits u)

theorem moved_raise (u : RdUnit) (n : Nat) (c : Cause) : Moved u (rdRaise c (u.consume n)) n u.detLim :=
  rdRaise_sameRegs c _

/-- A command that changes no register reads nothing. -/
theorem RdUnit.SameRegs.reads {u v : RdUnit} (h : u.SameRegs v) (hi : u.Inv) (hs : v.rsp.st ≠ .endOfData) : Reads u v :=
  ⟨0, u.detLim, Nat.zero_le _, by rw [Moved, consume_zero hi.at]; exact h, fun hh => absurd hh hs⟩

/-- A command whose reader advances and that only answers what it read. -/
theorem rdEnd_reads {α : Type} {f : RdUnit → RdResult α} (hf : Advances f) {u : RdUnit} (h : u.Inv)
    {fin : α → RdUnit → RdUnit} (hfin : ∀ x v, v.SameRegs (fin x v) ∧ (fin x v).rsp.st = .ok) :
    Reads u (rdEnd (f u) fin) := by
  have hp := h.pending
  obtain ⟨n, hn, ⟨x, hx⟩ | ⟨b, hx⟩ | ⟨hx, he⟩⟩ := hf h.at
  · rw [hx, rdEnd_ok]
    obtain ⟨h1, h2⟩ := hfin x (u.consume n)
    exact ⟨n, u.detLim, by omega, h1, fun hh => absurd (h2.symm.trans hh) (by decide)⟩
  · rw [hx, rdEnd_raise]
    exact ⟨n, u.detLim, by omega, moved_raise u n _, fun hh => absurd hh (by simp [causeStatus])⟩
  · rw [hx, rdEnd_raise]
    exact ⟨n, u.detLim, by omega, moved_raise u n _, fun _ => by omega⟩

/-- An array read in either mode. -/
theorem rdArray_reads {f : RdUnit → RdResult Item} (hf : Advances f) {s : State} (h : s.rd.Inv)
    (arrange : List Item → List Item) : ∃ v, rdArray f arrange s = .next (s.withRd v) ∧ Reads s.rd v := by
  refine ⟨_, rfl, ?_⟩
  by_cases ha : 0 ≤ s.rd.cmd.a.toInt
  · simp only [readArray, if_pos ha]
    refine rdEnd_reads (readFixed_advances hf s.rd.cmd.a.toInt.toNat) h (fun x v => ⟨?_, rfl⟩)
    exact ⟨rfl, rfl, rfl, rfl, rfl, rfl, rfl, rfl, rfl, rfl, rfl, rfl, rfl, rfl⟩
  have hp := h.pending
  simp only [readArray, if_neg ha]
  obtain ⟨n, hn, hr⟩ := readUntil_advances hf s.rd.cmd.l.toInt (pendingBits s.rd) [] h.at.clearDetLim
  have hn : s.rd.bitPos + n ≤ 8 * s.rd.src.length := hn
  have hn' : n ≤ pendingBits s.rd := by omega
  have same : ∀ d : Bool, ∀ v : RdUnit, v = ((s.rd.consume n).setDetLim d) → ∀ xs r,
      Moved s.rd ((v.setRmem xs).respond r) n d := by
    rintro d v rfl xs r
    exact ⟨rfl, rfl, rfl, rfl, rfl, rfl, rfl, rfl, rfl, rfl, rfl, rfl, rfl, rfl⟩
  rcases hr with ⟨xs, hr⟩ | ⟨-, xs, hr⟩ | ⟨b, hr⟩ | ⟨-, hr⟩ | ⟨hr, he⟩ <;> rw [hr]
  · exact ⟨n, false, hn', same false _ rfl _ _, fun hh => (by cases hh)⟩
  · exact ⟨n, true, hn', same true _ rfl _ _, fun hh => (by cases hh)⟩
  · exact ⟨n, false, hn', rdRaise_sameRegs _ _, fun hh => (by cases hh)⟩
  · exact ⟨n, false, hn', rdRaise_sameRegs _ _, fun hh => (by cases hh)⟩
  · refine ⟨n, false, hn', rdRaise_sameRegs _ _, fun _ => ?_⟩
    have : s.rd.bitPos + n = 8 * s.rd.src.length := he
    omega

/-- RD.BITS. -/
theorem execRdBits_reads (w : Nat) {s : State} (h : s.rd.Inv) :
    ∃ v, exec (.rdBits w) s = .next (s.withRd v) ∧ Reads s.rd v := by
  refine ⟨_, rfl, ?_⟩
  have hp := h.pending
  by_cases hw : widthLegal w = true
  · simp only [if_pos hw]
    have hw' : 1 ≤ w ∧ w ≤ 8 := by simpa [widthLegal] using hw
    by_cases he : s.rd.bitPos = 8 * s.rd.src.length
    · rw [readBits_spec h.at hw', if_pos he]
      exact RdUnit.SameRegs.reads ⟨rfl, rfl, rfl, rfl, rfl, rfl, rfl, rfl, rfl, rfl, rfl, rfl, rfl, rfl⟩ h
        (fun hh => by cases hh)
    · rw [readBits_spec h.at hw', if_neg he]
      exact ⟨min w (8 * s.rd.src.length - s.rd.bitPos), s.rd.detLim, by omega,
        ⟨rfl, rfl, rfl, rfl, rfl, rfl, rfl, rfl, rfl, rfl, rfl, rfl, rfl, rfl⟩, fun hh => (by cases hh)⟩
  · simp only [if_neg hw]
    exact (rdRaise_sameRegs _ _).reads h (fun hh => by cases hh)

/-- RD.ALIGN's loop from a byte boundary. -/
theorem skipToMultiple_moves (a : Nat) {u : RdUnit} {p : Nat} (h : u.At p) (hz : p % 8 = 0) :
    ∃ n, p + n ≤ 8 * u.src.length ∧ (skipToMultiple a u = .ok () (u.consume n) ∨
      (skipToMultiple a u = .raise .endOfData (u.consume n) ∧ p + n = 8 * u.src.length)) := by
  have hi := h.inside
  by_cases hk : ∃ k, 8 * k ≤ 8 * u.src.length - p ∧ (u.byteCnt + BitVec.ofNat 64 k).toNat % a = 0
  · obtain ⟨h1, h2⟩ := Nat.find_spec hk
    refine ⟨8 * Nat.find hk, by omega, .inl (skipToMultiple_enough h hz (by omega) h2 fun j hj hh => ?_)⟩
    exact Nat.find_min hk hj ⟨by omega, hh⟩
  · refine ⟨8 * u.src.length - p, by omega, .inr ⟨skipToMultiple_short h hz fun j hj hh => hk ⟨j, hj, hh⟩, by omega⟩⟩

/-- RD.ALIGN. -/
theorem execRdAlign_reads {s : State} (h : s.rd.Inv) : ∃ v, exec .rdAlign s = .next (s.withRd v) ∧ Reads s.rd v := by
  refine ⟨_, rfl, ?_⟩
  have hp := h.pending
  have hi := h.at.inside
  by_cases ha : s.rd.cmd.a.toInt ≤ 0
  · simp only [if_pos ha]
    exact (rdRaise_sameRegs _ _).reads h (fun hh => by cases hh)
  · simp only [if_neg ha, alignByte_eq h.at]
    have h1 := consume_at h.at (show s.rd.bitPos + (8 - s.rd.bitPos % 8) % 8 ≤ 8 * s.rd.src.length by omega)
    obtain ⟨n, hn, hr | ⟨hr, he⟩⟩ := skipToMultiple_moves s.rd.cmd.a.toNat h1 (by omega)
    all_goals
      rw [consume_src] at hn
      rw [consume_consume h.at _ _ (by omega)] at hr
      rw [hr]
    · exact ⟨_, s.rd.detLim, by omega, ⟨rfl, rfl, rfl, rfl, rfl, rfl, rfl, rfl, rfl, rfl, rfl, rfl, rfl, rfl⟩,
        fun hh => (by cases hh)⟩
    · rw [consume_src] at he
      exact ⟨_, s.rd.detLim, by omega, moved_raise s.rd _ _, fun _ => by omega⟩

/-- RD.ALIGNBYTE. -/
theorem execRdAlignbyte_reads {s : State} (h : s.rd.Inv) :
    ∃ v, exec .rdAlignbyte s = .next (s.withRd v) ∧ Reads s.rd v := by
  refine ⟨_, rfl, ?_⟩
  have hp := h.pending
  have hi := h.at.inside
  simp only [alignByte_eq h.at]
  exact ⟨_, s.rd.detLim, by omega, ⟨rfl, rfl, rfl, rfl, rfl, rfl, rfl, rfl, rfl, rfl, rfl, rfl, rfl, rfl⟩,
    fun hh => (by cases hh)⟩

/-- A get command reads nothing. -/
theorem respond_reads {u : RdUnit} (h : u.Inv) {r : Response} (hr : r.st ≠ .endOfData) : Reads u (u.respond r) :=
  RdUnit.SameRegs.reads ⟨rfl, rfl, rfl, rfl, rfl, rfl, rfl, rfl, rfl, rfl, rfl, rfl, rfl, rfl⟩ h hr

/-- Every command of RD but the four that write something else moves the cursor forward and does no more to the registers. -/
theorem exec_reads {i : Instr} (hu : unitOf i = .rd) (h1 : i ≠ .rdMark) (h2 : i ≠ .rdReset) (h3 : i ≠ .rdRstcnt)
    (h4 : i ≠ .rdSetdl) {s : State} (h : s.rd.Inv) : ∃ v, exec i s = .next (s.withRd v) ∧ Reads s.rd v := by
  have scalar : ∀ sh, scalarRead i = some sh → ∃ v, exec i s = .next (s.withRd v) ∧ Reads s.rd v := by
    intro sh hs
    obtain ⟨f, he, hf⟩ := scalarRead_takes hs
    exact ⟨_, he s, rdEnd_reads hf.advances h fun x v =>
      ⟨⟨rfl, rfl, rfl, rfl, rfl, rfl, rfl, rfl, rfl, rfl, rfl, rfl, rfl, rfl⟩, rfl⟩⟩
  have array : ∀ sh, arrayRead i = some sh → ∃ v, exec i s = .next (s.withRd v) ∧ Reads s.rd v := by
    intro sh hs
    obtain ⟨-, f, he, hf⟩ := arrayRead_takes hs
    rw [he s]
    exact rdArray_reads hf.advances h _
  have get : ∀ r : Response, exec i s = .next (s.withRd (s.rd.respond r)) → r.st = .ok →
      ∃ v, exec i s = .next (s.withRd v) ∧ Reads s.rd v :=
    fun r he hr => ⟨_, he, respond_reads h (by rw [hr]; exact fun hh => by cases hh)⟩
  cases i
  case rdBits w => exact execRdBits_reads w h
  case rdString bo =>
    exact ⟨_, rfl, rdEnd_reads (decodeString_advances bo) h fun x v =>
      ⟨⟨rfl, rfl, rfl, rfl, rfl, rfl, rfl, rfl, rfl, rfl, rfl, rfl, rfl, rfl⟩, rfl⟩⟩
  case rdStrarr bo => exact rdArray_reads (Advances.map (decodeString_advances bo) _) h _
  case rdBitsarr w =>
    rw [show exec (.rdBitsarr w) s = execRdBitsarr w s from rfl, execRdBitsarr]
    split
    · rename_i hw
      exact rdArray_reads (bitsItem_advances (by simpa [widthLegal] using hw)) h _
    · exact ⟨_, rfl, (rdRaise_sameRegs _ _).reads h (fun hh => by cases hh)⟩
  case rdAlign => exact execRdAlign_reads h
  case rdAlignbyte => exact execRdAlignbyte_reads h
  case rdMark => exact absurd rfl h1
  case rdReset => exact absurd rfl h2
  case rdRstcnt => exact absurd rfl h3
  case rdSetdl => exact absurd rfl h4
  case rdGetcnt => exact get _ rfl rfl
  case rdGetord => exact get _ rfl rfl
  case rdGetbuf => exact get _ rfl rfl
  case rdGetnbits => exact get _ rfl rfl
  case rdGetdl => exact get _ rfl rfl
  all_goals first
    | exact scalar _ rfl
    | exact array _ rfl
    | exact absurd hu (by rw [unitOf, encode, unitOfWord_commandWord]; decide)

/-- What the instruction has done to RD. -/
inductive RdEffect (i : Instr) (u v : RdUnit) : Prop where
  | reads (h : Reads u v)
  | mark (h : i = .rdMark) (ha : 0 ≤ u.cmd.a.toInt) (hv : v = (takeMark u.cmd.a u).respond (okResponse 0#64))
  | reset (h : i = .rdReset) (hm : u.markValid = true) (hl : markLapsed u = false)
    (hv : v = (restoreMark u).respond (okResponse 0#64))
  | count (h : i = .rdRstcnt) (hv : v = (rdResetCounter Config.rstcntClearsBits u).respond (okResponse 0#64))
  | limit (h : i = .rdSetdl) (hv : v = (writeDetLim u.cmd.a u).respond (okResponse 0#64))

/-- Everything a command of RD can do. -/
theorem exec_rd {i : Instr} (hu : unitOf i = .rd) {s : State} (h : s.rd.Inv) :
    ∃ v, exec i s = .next (s.withRd v) ∧ RdEffect i s.rd v := by
  by_cases h1 : i = .rdMark
  · subst h1
    refine ⟨_, rfl, ?_⟩
    by_cases ha : s.rd.cmd.a.toInt < 0
    · simp only [if_pos ha]
      exact .reads ((rdRaise_sameRegs _ _).reads h (fun hh => by cases hh))
    · simp only [if_neg ha]
      exact .mark rfl (by omega) rfl
  by_cases h2 : i = .rdReset
  · subst h2
    refine ⟨_, rfl, ?_⟩
    by_cases hm : (!s.rd.markValid || markLapsed s.rd) = true
    · simp only [if_pos hm]
      exact .reads ((rdRaise_sameRegs _ _).reads h (fun hh => by cases hh))
    · simp only [if_neg hm]
      simp only [Bool.or_eq_true, Bool.not_eq_true', not_or, Bool.not_eq_false, Bool.not_eq_true] at hm
      exact .reset rfl hm.1 hm.2 rfl
  by_cases h3 : i = .rdRstcnt
  · subst h3
    exact ⟨_, rfl, .count rfl rfl⟩
  by_cases h4 : i = .rdSetdl
  · subst h4
    exact ⟨_, rfl, .limit rfl rfl⟩
  obtain ⟨v, hv, hr⟩ := exec_reads hu h1 h2 h3 h4 h
  exact ⟨v, hv, .reads hr⟩

/-- What a command that reads does to the registers beside DETLIM. -/
theorem Reads.inv {u v : RdUnit} (h : Reads u v) (hi : u.Inv) : v.Inv := by
  obtain ⟨n, d, hn, hm, -⟩ := h
  refine RdUnit.SameRegs.inv hm ?_
  have hp := hi.pending
  have hc := (consume_at hi.at (show u.bitPos + n ≤ 8 * u.src.length by omega)).bufferOk
  refine ⟨hc, fun hv => ⟨?_, (hi.2 hv).2⟩⟩
  have h1 := (hi.2 hv).1
  have h2 := hi.at.srcPos
  show u.markPos ≤ (u.bitPos + n + 7) / 8
  omega

end Sys2Proof.Machine
end

