-- ==== Sys2Proof/Laws/Units.lean ====
section
/-! SUPPORT. A command reads and writes its own unit alone (00_scope.md R2, 20_memory.md R75). -/

namespace Sys2Proof.Machine

/-- What a command of RD makes of its unit. -/
def rdBody (i : Instr) (u : RdUnit) : RdUnit :=
  match exec i ⟨u, .construct .lsb0, []⟩ with
  | .next t => t.rd
  | _ => u

/-- A command of RD is a function of RD, and answers a next state. -/
theorem exec_rd_alone {i : Instr} (hu : unitOf i = .rd) (s : State) : exec i s = .next (s.withRd (rdBody i s.rd)) := by
  cases i
  case rdBitsarr w =>
    simp only [rdBody, exec, execRdBitsarr]
    split <;> rfl
  all_goals first
    | rfl
    | exact absurd hu (by rw [unitOf, encode, unitOfWord_commandWord]; decide)

/-- The unit a command of WR answers. -/
def answerOf : Host.Outcome State Fault Refusal → Option WrUnit
  | .next t => some t.wr
  | _ => none

/-- The outcome of a command of WR that makes `o` of its unit. -/
def outcomeOf (s : State) : Option WrUnit → Host.Outcome State Fault Refusal
  | some v => .next (s.withWr v)
  | none => .refused .omemItemKind

/-- What a command of WR makes of its unit; none where it is refused. -/
def wrBody (i : Instr) (u : WrUnit) : Option WrUnit := answerOf (exec i ⟨.construct .lsb0 [], u, []⟩)

theorem wrOmemCommand_alone {α : Type} (check : WrUnit → Bool) (read : List Item → Option (List α))
    (body : List α → WrUnit → WrUnit) (s : State) :
    wrOmemCommand check read body s =
      outcomeOf s (answerOf (wrOmemCommand check read body ⟨.construct .lsb0 [], s.wr, []⟩)) := by
  simp only [wrOmemCommand]
  split
  · rfl
  · split
    · split <;> rfl
    · rfl

/-- A command of WR is a function of WR; it answers a next state or the one refusal. -/
theorem exec_wr_alone {i : Instr} (hu : unitOf i = .wr) (s : State) :
    exec i s = outcomeOf s (wrBody i s.wr) := by
  cases i
  all_goals first
    | rfl
    | exact absurd hu (by rw [unitOf, encode, unitOfWord_commandWord]; decide)
    | simp only [wrBody, exec, execWrString, execWrStrarr, execWrBitsarr, execWrBytes, execWrBoolarr, execWrShortarr,
        execWrIntarr, execWrUintarr, execWrLongarr, execWrFloatarr, execWrDoublearr, wrArray]
      exact wrOmemCommand_alone _ _ _ s

end Sys2Proof.Machine
end

