-- ==== Sys2Proof/Laws/RdFrames.lean ====
section
/-! SUPPORT. What reading leaves alone and what it can raise, in every state, said once for the readers and once for the commands
of RD (10_state.md R27, R33, R34, 60_exceptions.md R301, R306). -/

namespace Sys2Proof.Machine

/-- Nothing but the position, the bit buffer, BYTECNT, RMEM, the response and the model's counter has changed. -/
structure Still (u v : RdUnit) : Prop where
  bitOrder : v.bitOrder = u.bitOrder
  src : v.src = u.src
  detLim : v.detLim = u.detLim
  markValid : v.markValid = u.markValid
  markPos : v.markPos = u.markPos
  markLim : v.markLim = u.markLim
  snapBitBuf : v.snapBitBuf = u.snapBitBuf
  snapBitCnt : v.snapBitCnt = u.snapBitCnt
  snapByteCnt : v.snapByteCnt = u.snapByteCnt
  cmd : v.cmd = u.cmd

theorem Still.refl (u : RdUnit) : Still u u := ⟨rfl, rfl, rfl, rfl, rfl, rfl, rfl, rfl, rfl, rfl⟩

theorem Still.trans {u v w : RdUnit} (h : Still u v) (k : Still v w) : Still u w :=
  ⟨k.1.trans h.1, k.2.trans h.2, k.3.trans h.3, k.4.trans h.4, k.5.trans h.5, k.6.trans h.6, k.7.trans h.7,
    k.8.trans h.8, k.9.trans h.9, k.10.trans h.10⟩

theorem RdUnit.SameRegs.still {u v : RdUnit} (h : u.SameRegs v) : Still u v := by
  obtain ⟨h1, h2, -, -, -, -, h7, h8, h9, h10, h11, h12, h13, h14⟩ := h
  exact ⟨h1, h2, h7, h8, h9, h10, h11, h12, h13, h14⟩

/-- The helper's result keeps `u` still, and a cause it raises is one of `P`. -/
def Keeps {α : Type} (P : Cause → Prop) (u : RdUnit) : RdResult α → Prop
  | .ok _ v => Still u v
  | .raise c v => Still u v ∧ P c

theorem Keeps.bind {α β : Type} {P : Cause → Prop} {u : RdUnit} {r : RdResult α} {k : α → RdUnit → RdResult β}
    (h : Keeps P u r) (hk : ∀ a v, Keeps P v (k a v)) : Keeps P u (r.bind k) := by
  cases r with
  | ok a v =>
    have := hk a v
    simp only [RdResult.bind]
    cases hr : k a v with
    | ok b w =>
      rw [hr] at this
      exact Still.trans h this
    | raise c w =>
      rw [hr] at this
      exact ⟨Still.trans h this.1, this.2⟩
  | raise c v => exact h

theorem Keeps.map {α β : Type} {P : Cause → Prop} {u : RdUnit} {r : RdResult α} (h : Keeps P u r) (f : α → β) :
    Keeps P u (r.map f) := h.bind fun _ v => .refl v

theorem Keeps.mono {α : Type} {P Q : Cause → Prop} {u : RdUnit} {r : RdResult α} (h : Keeps P u r)
    (hq : ∀ c, P c → Q c) : Keeps Q u r := by
  cases r with
  | ok a v => exact h
  | raise c v => exact ⟨h.1, hq c h.2⟩

/-! ## The readers -/

theorem load_still (u : RdUnit) : Still u (load u).2 := by
  simp only [load, srcNext]
  cases u.src[u.srcPos]? <;> exact ⟨rfl, rfl, rfl, rfl, rfl, rfl, rfl, rfl, rfl, rfl⟩

theorem refill_still (had : Bool) (u : RdUnit) : Still u (refill had u).2 := by
  rw [refill]
  split
  · have h1 : Still u (if had then countByte u else u) := by
      cases had <;> exact ⟨rfl, rfl, rfl, rfl, rfl, rfl, rfl, rfl, rfl, rfl⟩
    have h2 := h1.trans (load_still _)
    cases hl : load (if had then countByte u else u) with
    | mk b v =>
      rw [hl] at h2
      cases b with
      | none => exact h2
      | some m => exact h2.trans ⟨rfl, rfl, rfl, rfl, rfl, rfl, rfl, rfl, rfl, rfl⟩
  · exact .refl u

theorem readLoop_still (had : Bool) (n k : Nat) (v : Byte) (u : RdUnit) : Still u (readLoop n had k v u).2 := by
  induction n generalizing k v u with
  | zero => exact .refl u
  | succ n ih =>
    have h := refill_still had u
    rw [readLoop]
    cases hr : refill had u with
    | mk b w =>
      rw [hr] at h
      cases b with
      | false => exact h
      | true =>
        have hs : Still w (shiftOut w) := ⟨rfl, rfl, rfl, rfl, rfl, rfl, rfl, rfl, rfl, rfl⟩
        exact (Still.trans h hs).trans (ih _ _ (shiftOut w))

theorem readBits_still (w : Nat) (u : RdUnit) : Still u (readBits w u).2 := by
  rw [readBits]
  split
  · have h := load_still u
    rw [readFast]
    cases hl : load u with
    | mk b v =>
      rw [hl] at h
      cases b with
      | none => exact h
      | some m => exact h.trans ⟨rfl, rfl, rfl, rfl, rfl, rfl, rfl, rfl, rfl, rfl⟩
  · split
    · exact ⟨rfl, rfl, rfl, rfl, rfl, rfl, rfl, rfl, rfl, rfl⟩
    · exact readLoop_still _ _ _ _ _

/-- The cause of a read that the end of the source cuts off. -/
abbrev AtEnd (c : Cause) : Prop := c = .endOfData

/-- The causes of a string read. -/
abbrev InString (c : Cause) : Prop := c = .endOfData ∨ ∃ p, c = .malformedWireData p

theorem rdByte_keeps (u : RdUnit) : Keeps AtEnd u (rdByte u) := by
  have h := readBits_still 8 u
  rw [rdByte]
  cases hr : readBits 8 u with
  | mk r v =>
    rw [hr] at h
    cases r with
    | eof => exact ⟨h, rfl⟩
    | got x nb =>
      simp only
      split
      · exact ⟨h, rfl⟩
      · exact h

theorem rdU16_keeps (bo : ByteOrder) (u : RdUnit) : Keeps AtEnd u (rdU16 bo u) :=
  (rdByte_keeps u).bind fun _ v => (rdByte_keeps v).map _

theorem rdU32_keeps (bo : ByteOrder) (u : RdUnit) : Keeps AtEnd u (rdU32 bo u) :=
  (rdU16_keeps bo u).bind fun _ v => (rdU16_keeps bo v).map _

theorem rdU64_keeps (bo : ByteOrder) (u : RdUnit) : Keeps AtEnd u (rdU64 bo u) :=
  (rdU32_keeps bo u).bind fun _ v => (rdU32_keeps bo v).map _

theorem bitsItem_keeps (w : Nat) (u : RdUnit) : Keeps AtEnd u (bitsItem w u) := by
  have h := readBits_still w u
  rw [bitsItem]
  cases hr : readBits w u with
  | mk r v =>
    rw [hr] at h
    cases r with
    | eof => exact ⟨h, rfl⟩
    | got x nb => exact h

theorem rdBytes_keeps (n : Nat) (u : RdUnit) : Keeps AtEnd u (rdBytes n u) := by
  induction n generalizing u with
  | zero => exact Still.refl u
  | succ n ih => exact (rdByte_keeps u).bind fun _ v => (ih v).map _

theorem rdLenLoop_keeps (bo : ByteOrder) (k j n : Nat) (u : RdUnit) : Keeps AtEnd u (rdLenLoop bo k j n u) := by
  induction k generalizing j n u with
  | zero => exact Still.refl u
  | succ k ih => exact (rdByte_keeps u).bind fun _ v => ih _ _ v

theorem decodeString_keeps (bo : ByteOrder) (u : RdUnit) : Keeps InString u (decodeString bo u) := by
  have up : ∀ c : Cause, AtEnd c → InString c := fun _ h => .inl h
  refine ((rdByte_keeps u).mono up).bind fun p v => ?_
  cases firstByte p with
  | absent => exact Still.refl v
  | short n => exact ((rdBytes_keeps n v).map _).mono up
  | long k => exact ((rdLenLoop_keeps bo k 0 0 v).bind fun n w => (rdBytes_keeps n w).map _).mono up
  | malformed => exact ⟨.refl v, .inr ⟨p, rfl⟩⟩

theorem skipBytes_keeps (a fuel : Nat) (u : RdUnit) : Keeps AtEnd u (skipBytes a fuel u) := by
  induction fuel generalizing u with
  | zero =>
    rw [skipBytes]
    split
    · exact Still.refl u
    · exact ⟨.refl u, rfl⟩
  | succ f ih =>
    rw [skipBytes]
    split
    · exact Still.refl u
    · rw [srcNext]
      cases u.src[u.srcPos]? with
      | none => exact ⟨.refl u, rfl⟩
      | some b =>
        have h1 : Still u (countByte (u.setSrcPos (u.srcPos + 1))) :=
          ⟨rfl, rfl, rfl, rfl, rfl, rfl, rfl, rfl, rfl, rfl⟩
        have h2 := ih (countByte (u.setSrcPos (u.srcPos + 1)))
        revert h2
        simp only
        cases skipBytes a f (countByte (u.setSrcPos (u.srcPos + 1))) with
        | ok x w => exact fun h2 => h1.trans h2
        | raise c w => exact fun h2 => ⟨h1.trans h2.1, h2.2⟩

theorem alignByte_still (u : RdUnit) : Still u (alignByte u) := by
  rw [alignByte]
  split <;> exact ⟨rfl, rfl, rfl, rfl, rfl, rfl, rfl, rfl, rfl, rfl⟩

/-! ## The array template -/

theorem readFixed_keeps {P : Cause → Prop} {f : RdUnit → RdResult Item} (hf : ∀ u, Keeps P u (f u)) (n : Nat)
    (u : RdUnit) : Keeps P u (readFixed f n u) := by
  induction n generalizing u with
  | zero => exact Still.refl u
  | succ n ih => exact (hf u).bind fun _ v => (ih v).map _

/-- The loop of until-exhaustion mode sets DETLIM only where it stops at a soft cap, and raises ArraySizeExceeded only for a
hard cap. -/
theorem readUntil_keeps {P : Cause → Prop} {f : RdUnit → RdResult Item} (hf : ∀ u, Keeps P u (f u)) (l : Int)
    (fuel : Nat) (acc : List Item) (u : RdUnit) :
    Keeps (fun c => P c ∨ (c = .arraySizeExceeded ∧ 0 < l)) u (readUntil f l fuel acc u) ∨
      (l < 0 ∧ ∃ xs v, readUntil f l fuel acc u = .ok xs v ∧ Still (u.setDetLim true) v) := by
  induction fuel generalizing acc u with
  | zero => exact .inl (Still.refl u)
  | succ fuel ih =>
    rw [readUntil]
    split
    · have h := hf u
      cases hr : f u with
      | raise c v =>
        rw [hr] at h
        exact .inl ⟨h.1, .inl h.2⟩
      | ok x v =>
        rw [hr] at h
        have h : Still u v := h
        simp only [RdResult.bind]
        cases hv : limiterVerdict l (acc.length + 1) with
        | exceeded =>
          refine .inl ⟨h, .inr ⟨rfl, ?_⟩⟩
          simp only [limiterVerdict] at hv
          split at hv
          · omega
          · split at hv <;> cases hv
        | softStop =>
          refine .inr ⟨?_, _, _, rfl, ?_⟩
          · simp only [limiterVerdict] at hv
            split at hv
            · cases hv
            · split at hv
              · omega
              · cases hv
          · exact ⟨h.1, h.2, rfl, h.4, h.5, h.6, h.7, h.8, h.9, h.10⟩
        | proceed =>
          rcases ih (acc ++ [x]) v with hk | ⟨hl, xs, w, hw, hs⟩
          · refine .inl ?_
            revert hk
            simp only
            cases readUntil f l fuel (acc ++ [x]) v with
            | ok ys w => exact fun hk => h.trans hk
            | raise c w => exact fun hk => ⟨h.trans hk.1, hk.2⟩
          · refine .inr ⟨hl, xs, w, hw, ?_⟩
            exact ⟨hs.1.trans h.1, hs.2.trans h.2, hs.3, hs.4.trans h.4, hs.5.trans h.5, hs.6.trans h.6,
              hs.7.trans h.7, hs.8.trans h.8, hs.9.trans h.9, hs.10.trans h.10⟩
    · exact .inl (Still.refl u)

/-! ## The commands that read -/

/-- A command that reads and then answers leaves everything still, and ends in OK or in a fault of its reader. -/
theorem rdEnd_keeps {α : Type} {P : Cause → Prop} {u : RdUnit} {r : RdResult α} (h : Keeps P u r)
    {finish : α → RdUnit → RdUnit} (hf : ∀ x v, Still v (finish x v) ∧ (finish x v).rsp.st = .ok) :
    Still u (rdEnd r finish) ∧
      ((rdEnd r finish).rsp.st = .ok ∨ ∃ c, P c ∧ (rdEnd r finish).rsp.st = causeStatus c) := by
  cases r with
  | ok x v => exact ⟨Still.trans h (hf x v).1, .inl (hf x v).2⟩
  | raise c v => exact ⟨Still.trans h.1 (rdRaise_sameRegs c v).still, .inr ⟨c, h.2, rfl⟩⟩

/-- What a command of RD may do beside moving the cursor: read in fixed mode or as a scalar; read an array to exhaustion; or one of
the few others. The last argument is the unit after it. -/
inductive RdFrame (i : Instr) (u v : RdUnit) : Prop where
  | read (h : Still u v) (hs : v.rsp.st = .ok ∨ (v.rsp.st = .eof ∧ ∃ w, i = .rdBits w) ∨
      (v.rsp.st = .endOfData ∧ ((scalarRead i).isSome = true ∨ isArrayRead i = true ∨ i = .rdAlign ∨
        ∃ bo, i = .rdString bo)) ∨
      (v.rsp.st = .malformedWireData ∧ ∃ bo, i = .rdString bo ∨ i = .rdStrarr bo))
      (hm : isArrayRead i = true → 0 ≤ u.cmd.a.toInt)
  | array (d : Bool) (h : Still (u.setDetLim d) v) (hi : isArrayRead i = true) (ha : u.cmd.a.toInt < 0)
      (hd : d = true → u.cmd.l.toInt < 0 ∧ v.rsp.st = .ok)
      (hs : v.rsp.st = .ok ∨ v.rsp.st = .endOfData ∨ (v.rsp.st = .malformedWireData ∧ ∃ bo, i = .rdStrarr bo) ∨
        (v.rsp.st = .arraySizeExceeded ∧ 0 < u.cmd.l.toInt))
  | argument (h : u.SameRegs v) (hs : v.rsp.st = .invalidArgument)
      (hi : (∃ w, (i = .rdBits w ∨ i = .rdBitsarr w) ∧ ¬ (1 ≤ w ∧ w ≤ 8)) ∨ (i = .rdAlign ∧ u.cmd.a.toInt ≤ 0) ∨
        (i = .rdMark ∧ u.cmd.a.toInt < 0))
  | noMark (h : u.SameRegs v) (hs : v.rsp.st = .illegalState) (hi : i = .rdReset)
      (hm : u.markValid = false ∨ (u.markLim.toNat : Int) < (u.srcPos : Int) - u.markPos)
  | mark (hi : i = .rdMark) (hv : v = (takeMark u.cmd.a u).respond (okResponse 0#64))
  | limit (hi : i = .rdSetdl) (hv : v = (writeDetLim u.cmd.a u).respond (okResponse 0#64))

/-- An array read leaves everything still but DETLIM in until-exhaustion mode: it is 0 after it, or 1 where the read completed
with a soft cap. -/
theorem rdArray_keeps {P : Cause → Prop} {f : RdUnit → RdResult Item} (hf : ∀ u, Keeps P u (f u))
    (arrange : List Item → List Item) (s : State) :
    ∃ v, rdArray f arrange s = .next (s.withRd v) ∧
      ((0 ≤ s.rd.cmd.a.toInt ∧ Still s.rd v ∧ (v.rsp.st = .ok ∨ ∃ c, P c ∧ v.rsp.st = causeStatus c)) ∨
        (s.rd.cmd.a.toInt < 0 ∧ Still (s.rd.setDetLim false) v ∧
          (v.rsp.st = .ok ∨ (∃ c, P c ∧ v.rsp.st = causeStatus c) ∨
            (v.rsp.st = .arraySizeExceeded ∧ 0 < s.rd.cmd.l.toInt))) ∨
        (s.rd.cmd.a.toInt < 0 ∧ s.rd.cmd.l.toInt < 0 ∧ Still (s.rd.setDetLim true) v ∧ v.rsp.st = .ok)) := by
  have hfin : ∀ (xs : List Item) (v : RdUnit),
      Still v ((v.setRmem (arrange xs)).respond (arrayResponse xs.length)) ∧
        ((v.setRmem (arrange xs)).respond (arrayResponse xs.length)).rsp.st = .ok :=
    fun xs v => ⟨⟨rfl, rfl, rfl, rfl, rfl, rfl, rfl, rfl, rfl, rfl⟩, rfl⟩
  refine ⟨_, rfl, ?_⟩
  by_cases ha : 0 ≤ s.rd.cmd.a.toInt
  · simp only [readArray, if_pos ha]
    exact .inl ⟨ha, rdEnd_keeps (readFixed_keeps hf _ _) hfin⟩
  · have ha' : s.rd.cmd.a.toInt < 0 := by omega
    simp only [readArray, if_neg ha]
    rcases readUntil_keeps hf s.rd.cmd.l.toInt (pendingBits s.rd) [] (clearDetLim s.rd) with hk | ⟨hl, xs, v, hv, hs⟩
    · have h := rdEnd_keeps hk hfin
      refine .inr (.inl ⟨ha', h.1, ?_⟩)
      rcases h.2 with h2 | ⟨c, hc | ⟨rfl, hl⟩, h2⟩
      · exact .inl h2
      · exact .inr (.inl ⟨c, hc, h2⟩)
      · exact .inr (.inr ⟨h2, hl⟩)
    · rw [hv, rdEnd_ok]
      exact .inr (.inr ⟨ha', hl, hs.trans (hfin xs v).1, rfl⟩)

/-- An array read as one of the classes. -/
theorem rdArray_frame {P : Cause → Prop} {f : RdUnit → RdResult Item} (hf : ∀ u, Keeps P u (f u))
    {arrange : List Item → List Item} {s : State} {i : Instr} (he : exec i s = rdArray f arrange s)
    (hi : isArrayRead i = true) (hp : ∀ c, P c → c = .endOfData ∨ (∃ p, c = .malformedWireData p) ∧ ∃ bo, i = .rdStrarr bo) :
    ∃ v, exec i s = .next (s.withRd v) ∧ RdFrame i s.rd v := by
  obtain ⟨v, hv, h⟩ := rdArray_keeps hf arrange s
  refine ⟨v, he.trans hv, ?_⟩
  rcases h with ⟨ha, h, hs⟩ | ⟨ha, h, hs⟩ | ⟨ha, hl, h, hs⟩
  · refine .read h ?_ fun _ => ha
    rcases hs with hs | ⟨c, hc, hs⟩
    · exact .inl hs
    · rcases hp c hc with rfl | ⟨⟨p, rfl⟩, bo, hb⟩
      · exact .inr (.inr (.inl ⟨hs, .inr (.inl hi)⟩))
      · exact .inr (.inr (.inr ⟨hs, bo, .inr hb⟩))
  · refine .array false h hi ha (fun hh => by cases hh) ?_
    rcases hs with hs | ⟨c, hc, hs⟩ | hs
    · exact .inl hs
    · rcases hp c hc with rfl | ⟨⟨p, rfl⟩, hb⟩
      · exact .inr (.inl hs)
      · exact .inr (.inr (.inl ⟨hs, hb⟩))
    · exact .inr (.inr (.inr hs))
  · exact .array true h hi ha (fun _ => ⟨hl, hs⟩) (.inl hs)

/-- What is no array read is none in fixed mode. -/
theorem notArray {i : Instr} {p : Prop} (h : isArrayRead i = false) (hi : isArrayRead i = true) : p := by
  rw [h] at hi
  cases hi

theorem Keeps.end {α : Type} {P : Cause → Prop} {u : RdUnit} {r : RdResult α} (h : Keeps P u r)
    {finish : α → RdUnit → RdUnit} (hf : ∀ x v, Still v (finish x v) ∧ (finish x v).rsp.st = .ok) {i : Instr}
    (hn : isArrayRead i = false)
    (hp : ∀ c, P c → (c = .endOfData ∧ ((scalarRead i).isSome = true ∨ i = .rdAlign ∨ ∃ bo, i = .rdString bo)) ∨
      (∃ p, c = .malformedWireData p) ∧ ∃ bo, i = .rdString bo) : RdFrame i u (rdEnd r finish) := by
  obtain ⟨h1, h2⟩ := rdEnd_keeps h hf
  refine .read h1 ?_ (notArray hn)
  rcases h2 with h2 | ⟨c, hc, h2⟩
  · exact .inl h2
  · rcases hp c hc with ⟨rfl, hi⟩ | ⟨⟨p, rfl⟩, bo, hb⟩
    · refine .inr (.inr (.inl ⟨h2, ?_⟩))
      rcases hi with hi | hi | hi
      · exact .inl hi
      · exact .inr (.inr (.inl hi))
      · exact .inr (.inr (.inr hi))
    · exact .inr (.inr (.inr ⟨h2, bo, .inl hb⟩))

theorem still_respond (u : RdUnit) (r : Response) : Still u (u.respond r) :=
  ⟨rfl, rfl, rfl, rfl, rfl, rfl, rfl, rfl, rfl, rfl⟩

/-- A scalar read as one of the classes. -/
theorem rdScalar_frame {f : RdUnit → RdResult Lane} (hf : ∀ u, Keeps AtEnd u (f u)) {s : State} {i : Instr}
    (he : exec i s = rdScalar f s) (hi : (scalarRead i).isSome = true) (hn : isArrayRead i = false) :
    ∃ v, exec i s = .next (s.withRd v) ∧ RdFrame i s.rd v :=
  ⟨_, he, (hf s.rd).end (fun _ _ => ⟨still_respond _ _, rfl⟩) hn fun _ hc => .inl ⟨hc, .inl hi⟩⟩

/-- Everything a command of RD may do beside moving the cursor, in every state. -/
theorem exec_rd_frame {i : Instr} (hu : unitOf i = .rd) (s : State) :
    ∃ v, exec i s = .next (s.withRd v) ∧ RdFrame i s.rd v := by
  have numeric : ∀ c, AtEnd c → c = .endOfData ∨ (∃ p, c = .malformedWireData p) ∧ ∃ bo, i = .rdStrarr bo :=
    fun c hc => .inl hc
  have get : ∀ r : Response, exec i s = .next (s.withRd (s.rd.respond r)) → r.st = .ok → isArrayRead i = false →
      ∃ v, exec i s = .next (s.withRd v) ∧ RdFrame i s.rd v :=
    fun r he hr hn => ⟨_, he, .read (still_respond _ r) (.inl hr) (notArray hn)⟩
  cases i
  case rdBits w =>
    refine ⟨_, rfl, ?_⟩
    by_cases hw : widthLegal w = true
    · simp only [if_pos hw]
      have h := readBits_still w s.rd
      cases hr : readBits w s.rd with
      | mk r v =>
        rw [hr] at h
        cases r with
        | eof => exact .read (Still.trans h (still_respond v _)) (.inr (.inl ⟨rfl, w, rfl⟩)) (notArray rfl)
        | got x nb => exact .read (Still.trans h (still_respond v _)) (.inl rfl) (notArray rfl)
    · simp only [if_neg hw]
      exact .argument (rdRaise_sameRegs _ _) rfl (.inl ⟨w, .inl rfl, by simpa [widthLegal] using hw⟩)
  case rdByte => exact rdScalar_frame (fun u => (rdByte_keeps u).map _) rfl rfl rfl
  case rdBool => exact rdScalar_frame (fun u => (rdByte_keeps u).map _) rfl rfl rfl
  case rdUshort bo => exact rdScalar_frame (fun u => (rdU16_keeps bo u).map _) rfl rfl rfl
  case rdInt bo => exact rdScalar_frame (fun u => (rdU32_keeps bo u).map _) rfl rfl rfl
  case rdUint bo => exact rdScalar_frame (fun u => (rdU32_keeps bo u).map _) rfl rfl rfl
  case rdLong bo => exact rdScalar_frame (fun u => rdU64_keeps bo u) rfl rfl rfl
  case rdFloat bo => exact rdScalar_frame (fun u => (rdU32_keeps bo u).map _) rfl rfl rfl
  case rdDouble bo => exact rdScalar_frame (fun u => rdU64_keeps bo u) rfl rfl rfl
  case rdString bo =>
    refine ⟨_, rfl, ?_⟩
    beta_reduce
    apply (decodeString_keeps bo s.rd).end
    · exact fun _ _ => ⟨⟨rfl, rfl, rfl, rfl, rfl, rfl, rfl, rfl, rfl, rfl⟩, rfl⟩
    · rfl
    · rintro c (rfl | hc)
      · exact .inl ⟨rfl, .inr (.inr ⟨bo, rfl⟩)⟩
      · exact .inr ⟨hc, bo, rfl⟩
  case rdBitsarr w =>
    have he : exec (.rdBitsarr w) s = execRdBitsarr w s := rfl
    rw [execRdBitsarr] at he
    split at he
    · exact rdArray_frame (bitsItem_keeps w) he rfl numeric
    · rename_i hw
      exact ⟨_, he, .argument (rdRaise_sameRegs _ _) rfl (.inl ⟨w, .inr rfl, by simpa [widthLegal] using hw⟩)⟩
  case rdBytearr bo => exact rdArray_frame (fun u => (rdByte_keeps u).map _) rfl rfl numeric
  case rdBoolarr => exact rdArray_frame (fun u => (rdByte_keeps u).map _) rfl rfl numeric
  case rdShortarr bo => exact rdArray_frame (fun u => (rdU16_keeps bo u).map _) rfl rfl numeric
  case rdUshortarr bo => exact rdArray_frame (fun u => (rdU16_keeps bo u).map _) rfl rfl numeric
  case rdIntarr bo => exact rdArray_frame (fun u => (rdU32_keeps bo u).map _) rfl rfl numeric
  case rdUintarr bo => exact rdArray_frame (fun u => (rdU32_keeps bo u).map _) rfl rfl numeric
  case rdLongarr bo => exact rdArray_frame (fun u => (rdU64_keeps bo u).map _) rfl rfl numeric
  case rdFloatarr bo => exact rdArray_frame (fun u => (rdU32_keeps bo u).map _) rfl rfl numeric
  case rdDoublearr bo => exact rdArray_frame (fun u => (rdU64_keeps bo u).map _) rfl rfl numeric
  case rdStrarr bo =>
    refine rdArray_frame (fun u => (decodeString_keeps bo u).map _) rfl rfl fun c hc => ?_
    rcases hc with rfl | hc
    · exact .inl rfl
    · exact .inr ⟨hc, bo, rfl⟩
  case rdAlignbyte =>
    exact ⟨_, rfl, .read (Still.trans (alignByte_still s.rd) (still_respond _ _)) (.inl rfl) (notArray rfl)⟩
  case rdAlign =>
    refine ⟨_, rfl, ?_⟩
    by_cases ha : s.rd.cmd.a.toInt ≤ 0
    · simp only [if_pos ha]
      exact .argument (rdRaise_sameRegs _ _) rfl (.inr (.inl ⟨rfl, ha⟩))
    · simp only [if_neg ha]
      have h1 := alignByte_still s.rd
      have h2 := skipBytes_keeps s.rd.cmd.a.toNat ((alignByte s.rd).src.length - (alignByte s.rd).srcPos) (alignByte s.rd)
      have h3 : Keeps AtEnd s.rd (skipToMultiple s.rd.cmd.a.toNat (alignByte s.rd)) := by
        revert h2
        rw [skipToMultiple]
        cases skipBytes s.rd.cmd.a.toNat ((alignByte s.rd).src.length - (alignByte s.rd).srcPos) (alignByte s.rd) with
        | ok x v => exact fun h2 => Still.trans h1 h2
        | raise c v => exact fun h2 => ⟨Still.trans h1 h2.1, h2.2⟩
      exact h3.end (fun _ _ => ⟨still_respond _ _, rfl⟩) rfl fun _ hc => .inl ⟨hc, .inr (.inl rfl)⟩
  case rdMark =>
    refine ⟨_, rfl, ?_⟩
    by_cases ha : s.rd.cmd.a.toInt < 0
    · simp only [if_pos ha]
      exact .argument (rdRaise_sameRegs _ _) rfl (.inr (.inr ⟨rfl, ha⟩))
    · simp only [if_neg ha]
      exact .mark rfl rfl
  case rdReset =>
    refine ⟨_, rfl, ?_⟩
    beta_reduce
    split
    · rename_i hm
      refine .noMark (rdRaise_sameRegs _ _) rfl rfl ?_
      simp only [markLapsed, Bool.or_eq_true, Bool.not_eq_true', decide_eq_true_eq] at hm
      exact hm.imp id fun _ => by omega
    · exact .read ⟨rfl, rfl, rfl, rfl, rfl, rfl, rfl, rfl, rfl, rfl⟩ (.inl rfl) (notArray rfl)
  case rdRstcnt =>
    refine ⟨_, rfl, .read ?_ (.inl rfl) (notArray rfl)⟩
    cases Config.rstcntClearsBits <;> exact ⟨rfl, rfl, rfl, rfl, rfl, rfl, rfl, rfl, rfl, rfl⟩
  case rdSetdl => exact ⟨_, rfl, .limit rfl rfl⟩
  case rdGetcnt => exact get _ rfl rfl rfl
  case rdGetord => exact get _ rfl rfl rfl
  case rdGetbuf => exact get _ rfl rfl rfl
  case rdGetnbits => exact get _ rfl rfl rfl
  case rdGetdl => exact get _ rfl rfl rfl
  all_goals exact absurd hu (by rw [unitOf, encode, unitOfWord_commandWord]; decide)

end Sys2Proof.Machine
end

