-- ==== Sys2Proof/Laws/Steps.lean ====
section
/-! SUPPORT. Everything a step can do, said once: it is idle, it runs the instruction of the next command, or it turns an illegal
command away (30_encoding.md R95, R97). -/

namespace Sys2Proof.Machine

/-- The unit a row of the opcode map belongs to, whatever its fields (30_encoding.md R92, R94). -/
def Form.inUnit (p : UnitId) : Form → Prop
  | .plain i => unitOf i = p
  | .withOrder mk => ∀ bo, unitOf (mk bo) = p
  | .withWidth mk => ∀ w, unitOf (mk w) = p

theorem opcodeMap_unit {opc : BitVec 8} {f : Form} (h : (opc, f) ∈ opcodeMap) :
    Form.inUnit (if opc.getLsbD 7 then .wr else .rd) f := by
  simp only [opcodeMap, List.mem_cons, List.not_mem_nil, or_false, Prod.mk.injEq] at h
  rcases h with h | h | h | h | h | h | h | h | h | h | h | h | h | h | h | h | h | h | h | h | h | h | h | h | h | h |
    h | h | h | h | h | h | h | h | h | h | h | h | h | h | h | h | h | h | h | h | h | h | h | h | h | h | h | h |
    h | h | h <;> obtain ⟨rfl, rfl⟩ := h <;> simp only [Form.inUnit, unitOf, encode, unitOfWord_commandWord] <;>
    first | rfl | (intro; first | rfl | trivial)

theorem mem_of_lookup {f : Form} {k : BitVec 8} {l : List (BitVec 8 × Form)} (h : l.lookup k = some f) : (k, f) ∈ l := by
  induction l with
  | nil => simp at h
  | cons x l ih =>
    obtain ⟨a, b⟩ := x
    rw [List.lookup_cons] at h
    split at h
    · rename_i hk
      have : k = a := by simpa using hk
      cases h
      simp [this]
    · exact List.mem_cons_of_mem _ (ih h)

/-- A word that decodes belongs to the unit of its instruction. -/
theorem unitOf_decode {cw : CmdWord} {i : Instr} (h : decode cw = .ok i) : unitOf i = unitOfWord cw := by
  have hw : unitOfWord cw = if (fieldOpc cw).getLsbD 7 then .wr else .rd := by
    rw [unitOfWord, fieldOpc, BitVec.getLsbD_extractLsb']
    rfl
  rw [decode] at h
  cases hl : opcodeMap.lookup (fieldOpc cw) with
  | none => rw [hl] at h; cases h
  | some f =>
    rw [hl] at h
    have hu := opcodeMap_unit (mem_of_lookup hl)
    rw [← hw] at hu
    simp only [decodeForm] at h
    cases f with
    | plain j =>
      split at h
      · cases h
      · simp only at h
        split at h
        · cases h
        · split at h
          · cases h
          · cases h
            exact hu
    | withOrder mk =>
      split at h
      · cases h
      · simp only at h
        split at h
        · cases h
        · cases h
          exact hu _
    | withWidth mk =>
      split at h
      · cases h
      · simp only at h
        split at h
        · cases h
        · cases h
          exact hu _

/-- Everything a step can do. -/
theorem step_cases (s : State) :
    (s.host = [] ∧ step s = .next s) ∨
    ∃ c cs, s.host = c :: cs ∧
      ((∃ i, c.Is i ∧ unitOf i = c.port ∧ step s = exec i (accept c (s.withHost cs))) ∨
        ((∀ i, ¬ c.Is i) ∧ step s = .next (illegalCommand c.port (accept c (s.withHost cs))))) := by
  cases hh : s.host with
  | nil => exact .inl ⟨rfl, by rw [step, hh]⟩
  | cons c cs =>
    refine .inr ⟨c, cs, rfl, ?_⟩
    have hs : step s = issue c (s.withHost cs) := by rw [step, hh]
    rw [hs, issue, runWord]
    cases hd : decode c.tx.cw with
    | error e =>
      exact .inr ⟨fun i hi => by
        have := hi.1
        rw [hd] at this
        exact absurd this (by simp), rfl⟩
    | ok i =>
      by_cases hu : unitOfWord c.tx.cw = c.port
      · exact .inl ⟨i, ⟨hd, hu⟩, (unitOf_decode hd).trans hu, by simp only [if_pos hu]⟩
      · exact .inr ⟨fun j hj => hu hj.2, by simp only [if_neg hu]⟩

/-- A command is at most one instruction. -/
theorem HostCommand.Is.unique {c : HostCommand} {i j : Instr} (h : c.Is i) (k : c.Is j) : i = j := by
  have := h.1.symm.trans k.1
  cases this
  rfl

/-- Accepting a command of RD leaves its registers; the command port holds the command. -/
theorem accept_rd_unit {c : HostCommand} (h : c.port = .rd) (s : State) :
    RdUnit.SameRegs { s.rd with cmd := c.tx } (accept c s).rd := by
  simp only [accept, h]
  exact ⟨rfl, rfl, rfl, rfl, rfl, rfl, rfl, rfl, rfl, rfl, rfl, rfl, rfl, rfl⟩

/-- Accepting a command of WR writes its command port alone. -/
theorem accept_wr_unit {c : HostCommand} (h : c.port = .wr) (s : State) : (accept c s).wr = { s.wr with cmd := c.tx } := by
  simp only [accept, h]
  rfl

end Sys2Proof.Machine
end

