-- ==== Sys2Proof/Laws/Writes.lean ====
section
/-! SUPPORT. What the writing operations can do, said once each: every one of them appends bits to the written stream and
changes nothing else (44_wr_bits.md R211, R212, R214, 45_wr_scalars_arrays.md R220, R229, 46_wr_align_flush.md R250, R251,
47_strings.md R267). -/

namespace Sys2Proof.Machine

/-- At most seven bits are buffered and nothing stands above them (10_state.md R23). -/
abbrev WrUnit.Clean (u : WrUnit) : Prop := u.bitCnt.toNat ≤ 7 ∧ u.bitBuf.toNat < 2 ^ u.bitCnt.toNat

/-! ## The bits of a byte -/

theorem lowBits_length (w : Nat) (v : Byte) : (lowBits w v).length = w := by simp [lowBits]

theorem lowBits_succ (w : Nat) (v : Byte) : lowBits (w + 1) v = lowBits w v ++ [v.getLsbD w] := by
  simp [lowBits, List.range_succ]

theorem lowBits_congr {w : Nat} {v x : Byte} (h : ∀ i, i < w → v.getLsbD i = x.getLsbD i) : lowBits w v = lowBits w x := by
  simp only [lowBits]
  exact List.map_congr_left fun i hi => h i (List.mem_range.1 hi)

theorem bitAt_getLsbD (b : Bool) {k : Nat} (hk : k < 8) (i : Nat) : (bitAt b k).getLsbD i = (b && decide (i = k)) := by
  by_cases hi : i < 8
  · have : ∀ (c : Bool) (k i : Fin 8), (bitAt c k.val).getLsbD i.val = (c && decide (i.val = k.val)) := by decide
    exact this b ⟨k, hk⟩ ⟨i, hi⟩
  · rw [BitVec.getLsbD_of_ge _ _ (by omega), decide_eq_false (by omega), Bool.and_false]

theorem getLsbD_above {v : Byte} {c i : Nat} (hv : v.toNat < 2 ^ c) (hi : c ≤ i) : v.getLsbD i = false := by
  rw [BitVec.getLsbD]
  exact Nat.testBit_lt_two_pow (Nat.lt_of_lt_of_le hv (Nat.pow_le_pow_right (by omega) hi))

/-- A bit put in above `c` clean bits. -/
theorem lowBits_or_bitAt {v : Byte} {c : Nat} (hc : c < 8) (hv : v.toNat < 2 ^ c) (b : Bool) :
    lowBits (c + 1) (v ||| bitAt b c) = lowBits c v ++ [b] := by
  rw [lowBits_succ]
  congr 1
  · refine lowBits_congr fun i hi => ?_
    rw [BitVec.getLsbD_or, bitAt_getLsbD b hc, decide_eq_false (by omega), Bool.and_false, Bool.or_false]
  · rw [BitVec.getLsbD_or, bitAt_getLsbD b hc, getLsbD_above hv (le_refl _)]
    simp

theorem or_bitAt_lt {v : Byte} {c : Nat} (hv : v.toNat < 2 ^ c) (b : Bool) :
    (v ||| bitAt b c).toNat < 2 ^ (c + 1) := by
  rw [BitVec.toNat_or]
  refine Nat.or_lt_two_pow (Nat.lt_trans hv (Nat.pow_lt_pow_right (by omega) (by omega))) ?_
  cases b
  · simp [bitAt]
  · have h1 : (bitAt true c).toNat = 1 <<< c % 2 ^ 8 := by
      rw [bitAt, if_pos rfl, BitVec.toNat_shiftLeft]
      rfl
    have h2 : 1 <<< c % 2 ^ 8 ≤ 1 <<< c := Nat.mod_le _ _
    rw [Nat.one_shiftLeft] at h2
    have h3 : 2 ^ c < 2 ^ (c + 1) := Nat.pow_lt_pow_right (by omega) (by omega)
    rw [Nat.one_shiftLeft] at h1
    omega

/-- Clean bits with zeros above them. -/
theorem lowBits_pad {v : Byte} {c : Nat} (hv : v.toNat < 2 ^ c) (n : Nat) :
    lowBits (c + n) v = lowBits c v ++ List.replicate n false := by
  induction n with
  | zero => simp
  | succ n ih =>
    rw [← Nat.add_assoc, lowBits_succ, ih, getLsbD_above hv (by omega), List.append_assoc, ← List.replicate_succ']

/-! ## Wrote -/

theorem Wrote.refl {u : WrUnit} (h : u.Clean) : Wrote u u [] where
  written := by simp
  grows := List.prefix_refl _
  byteCnt := by simp
  bufferCount := h.1
  bufferClean := h.2
  bitOrder := rfl
  closed := rfl
  flushed := rfl
  cmd := rfl
  draws := rfl

theorem Wrote.clean {u v : WrUnit} {bs : List Bool} (h : Wrote u v bs) : v.Clean := ⟨h.bufferCount, h.bufferClean⟩

theorem Wrote.trans {u v x : WrUnit} {bs cs : List Bool} (h : Wrote u v bs) (k : Wrote v x cs) :
    Wrote u x (bs ++ cs) where
  written := by rw [k.written, h.written, List.append_assoc]
  grows := h.grows.trans k.grows
  byteCnt := by
    have h1 := h.grows.length_le
    have h2 := k.grows.length_le
    rw [k.byteCnt, h.byteCnt, BitVec.add_assoc, ← BitVec.ofNat_add]
    congr 2
    omega
  bufferCount := k.bufferCount
  bufferClean := k.bufferClean
  bitOrder := k.bitOrder.trans h.bitOrder
  closed := k.closed.trans h.closed
  flushed := k.flushed.trans h.flushed
  cmd := k.cmd.trans h.cmd
  draws := k.draws.trans h.draws

/-- A response is no bit of the stream. -/
theorem Wrote.respond {u v : WrUnit} {bs : List Bool} (h : Wrote u v bs) (r : Response) : Wrote u (v.respond r) bs :=
  ⟨h.written, h.grows, h.byteCnt, h.bufferCount, h.bufferClean, h.bitOrder, h.closed, h.flushed, h.cmd, h.draws⟩

/-! ## Emit and WriteBits -/

@[simp] theorem emit_snk (b : Byte) (u : WrUnit) : (emit b u).snk = u.snk ++ [transform u.bitOrder b] := rfl
@[simp] theorem emit_byteCnt (b : Byte) (u : WrUnit) : (emit b u).byteCnt = u.byteCnt + 1#64 := rfl
@[simp] theorem emit_bitBuf (b : Byte) (u : WrUnit) : (emit b u).bitBuf = u.bitBuf := rfl
@[simp] theorem emit_bitCnt (b : Byte) (u : WrUnit) : (emit b u).bitCnt = u.bitCnt := rfl
@[simp] theorem emit_bitOrder (b : Byte) (u : WrUnit) : (emit b u).bitOrder = u.bitOrder := rfl
@[simp] theorem emit_closed (b : Byte) (u : WrUnit) : (emit b u).closed = u.closed := rfl
@[simp] theorem emit_flushed (b : Byte) (u : WrUnit) : (emit b u).flushed = u.flushed := rfl
@[simp] theorem emit_rsp (b : Byte) (u : WrUnit) : (emit b u).rsp = u.rsp := rfl
@[simp] theorem emit_cmd (b : Byte) (u : WrUnit) : (emit b u).cmd = u.cmd := rfl
@[simp] theorem emit_draws (b : Byte) (u : WrUnit) : (emit b u).draws = u.draws := rfl

/-- A byte emitted, and the buffer emptied, whose bits continue the buffered ones. -/
theorem emit_wrote {u : WrUnit} {b : Byte} {bs : List Bool} (h : byteBits b = lowBits u.bitCnt.toNat u.bitBuf ++ bs) :
    Wrote u ((emit b u).setBuffer 0#8 0#4) bs where
  written := by
    simp only [WrUnit.written, WrUnit.setBuffer_snk, emit_snk, WrUnit.setBuffer_bitOrder, emit_bitOrder,
      List.flatMap_append, List.flatMap_singleton, transform_transform, h]
    simp [lowBits]
  grows := by simp
  byteCnt := by simp
  bufferCount := by simp
  bufferClean := by simp
  bitOrder := by simp
  closed := by simp
  flushed := by simp
  cmd := by simp
  draws := by simp

/-- `Emit(b)` with no bit buffered (44_wr_bits.md R211). -/
theorem emit_empty {u : WrUnit} (h : u.Clean) (hc : u.bitCnt = 0#4) (b : Byte) : Wrote u (emit b u) (byteBits b) := by
  have hb : u.bitBuf = 0#8 := by
    have := h.2
    rw [hc] at this
    apply BitVec.eq_of_toNat_eq
    simpa using this
  have := emit_wrote (u := u) (b := b) (bs := byteBits b) (by rw [hc]; simp [lowBits])
  rwa [show (emit b u).setBuffer 0#8 0#4 = emit b u by
    apply WrUnit.ext <;> simp [hb, hc]] at this

theorem shiftIn_eq (b : Bool) (u : WrUnit) :
    shiftIn b u =
      if u.bitCnt + 1#4 = 8#4 then
        (emit (u.bitBuf ||| bitAt b u.bitCnt.toNat)
          (u.setBuffer (u.bitBuf ||| bitAt b u.bitCnt.toNat) (u.bitCnt + 1#4))).setBuffer 0#8 0#4
      else u.setBuffer (u.bitBuf ||| bitAt b u.bitCnt.toNat) (u.bitCnt + 1#4) := rfl

/-- One turn of the general loop (44_wr_bits.md R212). -/
theorem shiftIn_wrote {u : WrUnit} (h : u.Clean) (b : Bool) : Wrote u (shiftIn b u) [b] := by
  obtain ⟨hc, hv⟩ := h
  have hcnt : (u.bitCnt + 1#4).toNat = u.bitCnt.toNat + 1 := by
    rw [BitVec.toNat_add, Nat.mod_eq_of_lt]
    · rfl
    · simp only [BitVec.toNat_ofNat]
      omega
  have hbits := lowBits_or_bitAt (show u.bitCnt.toNat < 8 by omega) hv b
  have hlt := or_bitAt_lt hv b
  rw [shiftIn_eq]
  by_cases h8 : u.bitCnt + 1#4 = 8#4
  · rw [if_pos h8]
    have h7 : u.bitCnt.toNat + 1 = 8 := by rw [← hcnt, h8]; rfl
    have := emit_wrote (u := u) (b := u.bitBuf ||| bitAt b u.bitCnt.toNat) (bs := [b])
      (by rwa [h7] at hbits)
    exact ⟨this.written, this.grows, this.byteCnt, this.bufferCount, this.bufferClean, this.bitOrder, this.closed,
      this.flushed, this.cmd, this.draws⟩
  · rw [if_neg h8]
    have h7 : u.bitCnt.toNat + 1 ≤ 7 := by
      by_contra hn
      apply h8
      apply BitVec.eq_of_toNat_eq
      rw [hcnt]
      simp only [BitVec.toNat_ofNat]
      omega
    refine ⟨?_, by simp, by simp, ?_, ?_, by simp, by simp, by simp, by simp, by simp⟩
    · simp only [WrUnit.written, WrUnit.setBuffer_snk, WrUnit.setBuffer_bitOrder, WrUnit.setBuffer_bitCnt,
        WrUnit.setBuffer_bitBuf, hcnt, hbits, List.append_assoc]
    · rw [WrUnit.setBuffer_bitCnt, hcnt]
      exact h7
    · rw [WrUnit.setBuffer_bitCnt, WrUnit.setBuffer_bitBuf, hcnt]
      exact hlt

theorem shiftInBits_wrote {u : WrUnit} (h : u.Clean) (bs : List Bool) : Wrote u (shiftInBits bs u) bs := by
  induction bs generalizing u with
  | nil => exact .refl h
  | cons b bs ih =>
    have h1 := shiftIn_wrote h b
    exact h1.trans (ih h1.clean)

/-- `WriteBits(v, w)` appends the bits 0 to w-1 of `v` (44_wr_bits.md R212, R214). -/
theorem writeBits_wrote {u : WrUnit} (h : u.Clean) (w : Nat) (v : Byte) :
    Wrote u (writeBits w v u) (lowBits w v) := by
  rw [writeBits]
  split
  · rename_i hw
    rw [hw.2]
    exact emit_empty h hw.1 v
  · exact shiftInBits_wrote h _

/-- The general loop alone does what both paths do (44_wr_bits.md R212, note). -/
theorem wrByte_wrote {u : WrUnit} (h : u.Clean) (b : Byte) : Wrote u (wrByte b u) (byteBits b) := writeBits_wrote h 8 b

/-! ## Composed writes (45_wr_scalars_arrays.md R220) -/

theorem bytesBits_append (xs ys : List Byte) : bytesBits (xs ++ ys) = bytesBits xs ++ bytesBits ys := by
  simp [bytesBits]

theorem bytesBits_singleton (b : Byte) : bytesBits [b] = byteBits b := by simp [bytesBits]

/-- The bytes of a value of two halves. -/
theorem wordBytes_halves (k v : Nat) :
    wordBytes .big (k + k) v = wordBytes .big k (v / 256 ^ k) ++ wordBytes .big k (v % 256 ^ k) ∧
    wordBytes .little (k + k) v = wordBytes .little k (v % 256 ^ k) ++ wordBytes .little k (v / 256 ^ k) := by
  simp only [wordBytes, lenBytes_mod]
  exact ⟨lenBytes_big_add v k k, lenBytes_little_add v k k⟩

theorem wordBytes_one (bo : ByteOrder) (v : Nat) : wordBytes bo 1 v = [BitVec.ofNat 8 v] := by
  cases bo <;> simp [wordBytes, lenBytes, lenByte]

theorem wordBytes_mod (bo : ByteOrder) (k v : Nat) : wordBytes bo k (v % 256 ^ k) = wordBytes bo k v := lenBytes_mod v k bo

/-- `WrU16(v, bo)`. -/
theorem wrU16_wrote {u : WrUnit} (h : u.Clean) (bo : ByteOrder) (v : BitVec 16) :
    Wrote u (wrU16 bo v u) (bytesBits (wordBytes bo 2 v.toNat)) := by
  have e1 : BitVec.ofNat 8 (v.toNat / 256 ^ 1) = v.extractLsb' 8 8 := by
    apply BitVec.eq_of_toNat_eq
    simp [Nat.shiftRight_eq_div_pow]
  have e0 : BitVec.ofNat 8 (v.toNat % 256 ^ 1) = v.extractLsb' 0 8 := by
    apply BitVec.eq_of_toNat_eq
    simp
  have hh := wordBytes_halves 1 v.toNat
  rw [wordBytes_one, wordBytes_one, wordBytes_one, wordBytes_one, e0, e1] at hh
  cases bo
  · rw [hh.1, bytesBits_append, bytesBits_singleton, bytesBits_singleton]
    have h1 := wrByte_wrote h (v.extractLsb' 8 8)
    exact h1.trans (wrByte_wrote h1.clean _)
  · rw [hh.2, bytesBits_append, bytesBits_singleton, bytesBits_singleton]
    have h1 := wrByte_wrote h (v.extractLsb' 0 8)
    exact h1.trans (wrByte_wrote h1.clean _)

/-- `WrU32(v, bo)`. -/
theorem wrU32_wrote {u : WrUnit} (h : u.Clean) (bo : ByteOrder) (v : BitVec 32) :
    Wrote u (wrU32 bo v u) (bytesBits (wordBytes bo 4 v.toNat)) := by
  have e1 : wordBytes bo 2 (v.toNat / 256 ^ 2) = wordBytes bo 2 (v.extractLsb' 16 16).toNat := by
    rw [← wordBytes_mod bo 2 (v.toNat / 256 ^ 2)]
    simp [Nat.shiftRight_eq_div_pow]
  have e0 : wordBytes bo 2 (v.toNat % 256 ^ 2) = wordBytes bo 2 (v.extractLsb' 0 16).toNat := by
    simp
  have hh := wordBytes_halves 2 v.toNat
  cases bo
  · rw [hh.1, bytesBits_append, e0, e1]
    have h1 := wrU16_wrote h .big (v.extractLsb' 16 16)
    rw [wrU32]
    exact h1.trans (wrU16_wrote h1.clean .big (v.extractLsb' 0 16))
  · rw [hh.2, bytesBits_append, e0, e1]
    have h1 := wrU16_wrote h .little (v.extractLsb' 0 16)
    rw [wrU32]
    exact h1.trans (wrU16_wrote h1.clean .little (v.extractLsb' 16 16))

/-- `WrU64(v, bo)`. -/
theorem wrU64_wrote {u : WrUnit} (h : u.Clean) (bo : ByteOrder) (v : BitVec 64) :
    Wrote u (wrU64 bo v u) (bytesBits (wordBytes bo 8 v.toNat)) := by
  have e1 : wordBytes bo 4 (v.toNat / 256 ^ 4) = wordBytes bo 4 (v.extractLsb' 32 32).toNat := by
    rw [← wordBytes_mod bo 4 (v.toNat / 256 ^ 4)]
    simp [Nat.shiftRight_eq_div_pow]
  have e0 : wordBytes bo 4 (v.toNat % 256 ^ 4) = wordBytes bo 4 (v.extractLsb' 0 32).toNat := by
    simp
  have hh := wordBytes_halves 4 v.toNat
  cases bo
  · rw [hh.1, bytesBits_append, e0, e1]
    have h1 := wrU32_wrote h .big (v.extractLsb' 32 32)
    rw [wrU64]
    exact h1.trans (wrU32_wrote h1.clean .big (v.extractLsb' 0 32))
  · rw [hh.2, bytesBits_append, e0, e1]
    have h1 := wrU32_wrote h .little (v.extractLsb' 0 32)
    rw [wrU64]
    exact h1.trans (wrU32_wrote h1.clean .little (v.extractLsb' 32 32))

/-- Items one after the other (45_wr_scalars_arrays.md R229). -/
theorem writeAll_wrote {α : Type} {item : α → WrUnit → WrUnit} {bits : α → List Bool}
    (hi : ∀ {u : WrUnit}, u.Clean → ∀ x, Wrote u (item x u) (bits x)) {u : WrUnit} (h : u.Clean) (xs : List α) :
    Wrote u (writeAll item xs u) (xs.flatMap bits) := by
  induction xs generalizing u with
  | nil => exact .refl h
  | cons x xs ih =>
    have h1 := hi h x
    exact h1.trans (ih h1.clean)

/-- The bytes the encoder writes for a string item (47_strings.md R262, R267). -/
def stringBytes (bo : ByteOrder) : StrItem → List Byte
  | .absent => [0xFF#8]
  | .present p => headBytes p.length bo ++ p

/-- The row of the encoder for a payload of `n` bytes: no length bytes, or the least number of them that holds `n`
(47_strings.md R262). -/
theorem headBytes_cases (bo : ByteOrder) {n : Nat} (h : n ≤ 0xFFFFFFFF) :
    (n < 0x80 ∧ headBytes n bo = [BitVec.ofNat 8 n]) ∨
      ∃ k, 1 ≤ k ∧ k ≤ 4 ∧ 0x80 ≤ n ∧ n < 256 ^ k ∧ (∀ j, j < k → 1 ≤ j → 256 ^ j ≤ n) ∧
        headBytes n bo = BitVec.ofNat 8 (0x80 + k) :: lenBytes n k bo := by
  rw [headBytes]
  by_cases h0 : n < 0x80
  · exact .inl ⟨h0, by rw [if_pos h0]⟩
  have least : ∀ (k : Nat), k ≤ 4 → (1 < k → 256 ^ (k - 1) ≤ n) → ∀ j, j < k → 1 ≤ j → 256 ^ j ≤ n := by
    intro k hk h j hj h1
    exact Nat.le_trans (Nat.pow_le_pow_right (by omega) (by omega)) (h (by omega))
  refine .inr ?_
  rw [if_neg h0]
  by_cases h1 : n ≤ 0xFF
  · exact ⟨1, by omega, by omega, by omega, by omega, least 1 (by omega) (by omega), by rw [if_pos h1]⟩
  rw [if_neg h1]
  by_cases h2 : n ≤ 0xFFFF
  · exact ⟨2, by omega, by omega, by omega, by omega, least 2 (by omega) (by omega), by rw [if_pos h2]⟩
  rw [if_neg h2]
  by_cases h3 : n ≤ 0xFFFFFF
  · exact ⟨3, by omega, by omega, by omega, by omega, least 3 (by omega) (by omega), by rw [if_pos h3]⟩
  · exact ⟨4, by omega, by omega, by omega, by omega, least 4 (by omega) (by omega), by rw [if_neg h3]⟩

/-- The encoder writes the shortest encoding (47_strings.md R262). -/
theorem stringBytes_shortest (bo : ByteOrder) {x : StrItem} (h : ∀ p, x = .present p → p.length ≤ 0xFFFFFFFF) :
    ShortestWire bo x (stringBytes bo x) := by
  cases x with
  | absent => exact ⟨.absent, fun bs' hw => by cases hw; exact Nat.le_refl _⟩
  | present p =>
    rw [stringBytes]
    rcases headBytes_cases bo (h p rfl) with ⟨hn, e⟩ | ⟨k, h1, h4, hn, hlt, hleast, e⟩
    · rw [e]
      refine ⟨.short p hn, fun bs' hw => ?_⟩
      cases hw <;> simp
    · rw [e, List.cons_append]
      refine ⟨.long k _ p ⟨h1, h4⟩ (lenBytes_length _ _ _) ?_, fun bs' hw => ?_⟩
      · rw [valueOfBytes_lenBytes, Nat.mod_eq_of_lt hlt]
      · cases hw with
        | short _ hs => omega
        | long j ls _ hj hl hv =>
          have hfit := valueOfBytes_lt bo ls
          rw [hv, hl] at hfit
          have : k ≤ j := by
            by_contra hc
            exact absurd hfit (Nat.not_lt.2 (hleast j (by omega) hj.1))
          simp only [List.length_cons, List.length_append, lenBytes_length, hl]
          omega

/-- The size of the encoding (47_strings.md R272). -/
theorem stringBytes_length (bo : ByteOrder) (x : StrItem) : (stringBytes bo x).length = encodedSize x := by
  cases x with
  | absent => rfl
  | present p =>
    rw [stringBytes, encodedSize, headBytes, List.length_append]
    split
    · rfl
    split
    · rw [List.length_cons, lenBytes_length]
    split
    · rw [List.length_cons, lenBytes_length]
    split
    · rw [List.length_cons, lenBytes_length]
    · rw [List.length_cons, lenBytes_length]

/-- `EncodeString(s, bo)` (47_strings.md R267). -/
theorem encodeString_wrote {u : WrUnit} (h : u.Clean) (bo : ByteOrder) (s : StrItem) :
    Wrote u (encodeString bo s u) (bytesBits (stringBytes bo s)) := by
  cases s with
  | absent =>
    rw [stringBytes, bytesBits_singleton]
    exact wrByte_wrote h _
  | present p =>
    rw [stringBytes, bytesBits_append]
    have h1 : Wrote u _ (bytesBits (headBytes p.length bo)) :=
      writeAll_wrote (item := wrByte) (fun h x => wrByte_wrote h x) h (headBytes p.length bo)
    exact h1.trans (writeAll_wrote (item := wrByte) (fun h x => wrByte_wrote h x) h1.clean p)

/-! ## Writer alignment (46_wr_align_flush.md R250, R251) -/

/-- `PadByte()` fills the byte in progress with zero bits and leaves none buffered. -/
theorem padByte_wrote {u : WrUnit} (h : u.Clean) :
    Wrote u (padByte u) (List.replicate ((8 - u.bitCnt.toNat) % 8) false) ∧ (padByte u).bitCnt = 0#4 := by
  obtain ⟨hc, hv⟩ := h
  rw [padByte]
  split
  · rename_i hp
    have hpos : 0 < u.bitCnt.toNat := by simpa [BitVec.lt_def] using hp
    refine ⟨?_, by simp⟩
    rw [Nat.mod_eq_of_lt (by omega)]
    refine emit_wrote ?_
    rw [byteBits, show 8 = u.bitCnt.toNat + (8 - u.bitCnt.toNat) by omega, lowBits_pad hv]
    congr 2
    omega
  · rename_i hp
    have hz : u.bitCnt.toNat = 0 := by
      by_contra hn
      exact hp (by simp [BitVec.lt_def]; omega)
    refine ⟨?_, BitVec.eq_of_toNat_eq hz⟩
    rw [hz]
    exact .refl ⟨hc, hv⟩

/-- `k` zero bytes. -/
def zeroBytes : Nat → WrUnit → WrUnit
  | 0, u => u
  | k + 1, u => zeroBytes k (emit 0x00#8 u)

theorem zeroBytes_wrote {u : WrUnit} (h : u.Clean) (hc : u.bitCnt = 0#4) (k : Nat) :
    Wrote u (zeroBytes k u) (List.replicate (8 * k) false) ∧ (zeroBytes k u).bitCnt = 0#4 ∧
      (zeroBytes k u).byteCnt = u.byteCnt + BitVec.ofNat 64 k := by
  induction k generalizing u with
  | zero => exact ⟨.refl h, hc, by simp [zeroBytes]⟩
  | succ k ih =>
    have h1 := emit_empty h hc 0x00#8
    obtain ⟨h2, h3, h4⟩ := ih h1.clean (by simpa using hc)
    refine ⟨?_, h3, ?_⟩
    · have := h1.trans h2
      rwa [show byteBits 0x00#8 = List.replicate 8 false from rfl, List.replicate_append_replicate,
        show 8 + 8 * k = 8 * (k + 1) by omega] at this
    · rw [zeroBytes, h4, emit_byteCnt, BitVec.add_assoc, Nat.add_comm k 1, BitVec.ofNat_add]

/-- The loop of WR.ALIGN stops at the first multiple. -/
theorem padZeros_eq {a k : Nat} {u : WrUnit} (hk : (u.byteCnt + BitVec.ofNat 64 k).toNat % a = 0)
    (hlt : ∀ j, j < k → (u.byteCnt + BitVec.ofNat 64 j).toNat % a ≠ 0) (fuel : Nat) (hf : k ≤ fuel) :
    padZeros a fuel u = zeroBytes k u := by
  induction k generalizing u fuel with
  | zero =>
    have h0 : u.byteCnt.toNat % a = 0 := by simpa using hk
    cases fuel with
    | zero => rfl
    | succ fuel => rw [padZeros, if_pos h0]; rfl
  | succ k ih =>
    have hadd : ∀ j, (emit 0x00#8 u).byteCnt + BitVec.ofNat 64 j = u.byteCnt + BitVec.ofNat 64 (j + 1) := by
      intro j
      rw [emit_byteCnt, BitVec.add_assoc, Nat.add_comm j 1, BitVec.ofNat_add]
    obtain ⟨f, rfl⟩ : ∃ f, fuel = f + 1 := ⟨fuel - 1, by omega⟩
    have h0 : ¬ u.byteCnt.toNat % a = 0 := by simpa using hlt 0 (by omega)
    rw [padZeros, if_neg h0, ih (by rw [hadd]; exact hk) (fun j hj => by rw [hadd]; exact hlt (j + 1) (by omega)) f
      (by omega)]
    rfl

/-- BYTECNT meets a multiple of `a` within fewer than `a` zero bytes, the wrap modulo 2^64 included. -/
theorem multiple_within (c : BitVec 64) {a : Nat} (ha : 0 < a) :
    ∃ k, k < a ∧ (c + BitVec.ofNat 64 k).toNat % a = 0 ∧ ∀ j, j < k → (c + BitVec.ofNat 64 j).toNat % a ≠ 0 := by
  have hex : ∃ k, k < a ∧ (c + BitVec.ofNat 64 k).toNat % a = 0 := by
    have hc := c.isLt
    have hm := Nat.mod_lt c.toNat ha
    have hd := Nat.div_add_mod c.toNat a
    by_cases hz : c.toNat % a = 0
    · exact ⟨0, ha, by simpa using hz⟩
    by_cases hw : c.toNat + (a - c.toNat % a) < 2 ^ 64
    · refine ⟨a - c.toNat % a, by omega, ?_⟩
      rw [BitVec.toNat_add, BitVec.toNat_ofNat, Nat.mod_eq_of_lt (show a - c.toNat % a < 2 ^ 64 by omega),
        Nat.mod_eq_of_lt hw, show c.toNat + (a - c.toNat % a) = a * (c.toNat / a + 1) by rw [Nat.mul_add]; omega,
        Nat.mul_mod_right]
    · refine ⟨2 ^ 64 - c.toNat, by omega, ?_⟩
      rw [BitVec.toNat_add, BitVec.toNat_ofNat, Nat.add_mod_mod, show c.toNat + (2 ^ 64 - c.toNat) = 2 ^ 64 by omega,
        Nat.mod_self, Nat.zero_mod]
  refine ⟨Nat.find hex, (Nat.find_spec hex).1, (Nat.find_spec hex).2, fun j hj hz => ?_⟩
  exact Nat.find_min hex hj ⟨by have := (Nat.find_spec hex).1; omega, hz⟩

/-- The zero bytes of WR.ALIGN: fewer than `a`, up to the first multiple of `a` (46_wr_align_flush.md R251). -/
theorem padZeros_wrote {u : WrUnit} (h : u.Clean) (hc : u.bitCnt = 0#4) {a : Nat} (ha : 0 < a) :
    ∃ k, k < a ∧ Wrote u (padZeros a a u) (List.replicate (8 * k) false) ∧ (padZeros a a u).bitCnt = 0#4 ∧
      (padZeros a a u).byteCnt = u.byteCnt + BitVec.ofNat 64 k ∧ (padZeros a a u).byteCnt.toNat % a = 0 ∧
      ∀ j, j < k → (u.byteCnt + BitVec.ofNat 64 j).toNat % a ≠ 0 := by
  obtain ⟨k, hk, hz, hlt⟩ := multiple_within u.byteCnt ha
  obtain ⟨h1, h2, h3⟩ := zeroBytes_wrote h hc k
  rw [padZeros_eq hz hlt a (by omega)]
  exact ⟨k, hk, h1, h2, h3, by rw [h3]; exact hz, hlt⟩

end Sys2Proof.Machine
end

