-- ==== Sys2Proof/Laws/WriteShapes.lean ====
section
/-! SUPPORT. Every numeric write command in terms of the table of its shape: the bits its item writer appends. -/

namespace Sys2Proof.Machine

/-- The low bits of A as WR.BITS takes them (44_wr_bits.md R213). -/
theorem lowBits_low8 {w : Nat} (hw : w ≤ 8) (a : Lane) : lowBits w (low8 a) = (List.range w).map a.getLsbD := by
  rw [lowBits]
  apply List.map_congr_left
  intro i hi
  have := List.mem_range.1 hi
  rw [low8, BitVec.getLsbD_extractLsb', Nat.zero_add, decide_eq_true (by omega), Bool.true_and]

theorem wordBytes_low8 (a : Lane) : wordBytes .big 1 a.toNat = [low8 a] := by
  rw [wordBytes_one, show BitVec.ofNat 8 a.toNat = low8 a from BitVec.eq_of_toNat_eq (by simp [low8])]

theorem wordBytes_low16 (bo : ByteOrder) (a : Lane) : wordBytes bo 2 a.toNat = wordBytes bo 2 (low16 a).toNat := by
  rw [← wordBytes_mod bo 2 a.toNat]
  simp [low16]

theorem wordBytes_low32 (bo : ByteOrder) (a : Lane) : wordBytes bo 4 a.toNat = wordBytes bo 4 (low32 a).toNat := by
  rw [← wordBytes_mod bo 4 a.toNat]
  simp [low32]

/-- A Boolean as one byte (45_wr_scalars_arrays.md R222). -/
theorem boolByte_laneTrue (a : Lane) : boolByte (laneTrue a) = if a = 0#64 then 0x00#8 else 0x01#8 := by
  by_cases h : a = 0#64 <;> simp [boolByte, laneTrue, h]

/-! ## The item writers -/

theorem write8 {u : WrUnit} (h : u.Clean) (a : Lane) :
    Wrote u (wrByte (low8 a) u) (bytesBits (wordBytes .big 1 a.toNat)) := by
  rw [wordBytes_low8, bytesBits_singleton]
  exact wrByte_wrote h _

theorem writeBool {u : WrUnit} (h : u.Clean) (a : Lane) :
    Wrote u (wrByte (boolByte (laneTrue a)) u) (bytesBits [if a = 0#64 then 0x00#8 else 0x01#8]) := by
  rw [bytesBits_singleton, ← boolByte_laneTrue]
  exact wrByte_wrote h _

theorem write16 (bo : ByteOrder) {u : WrUnit} (h : u.Clean) (a : Lane) :
    Wrote u (wrU16 bo (low16 a) u) (bytesBits (wordBytes bo 2 a.toNat)) := by
  rw [wordBytes_low16]
  exact wrU16_wrote h _ _

theorem write32 (bo : ByteOrder) {u : WrUnit} (h : u.Clean) (a : Lane) :
    Wrote u (wrU32 bo (low32 a) u) (bytesBits (wordBytes bo 4 a.toNat)) := by
  rw [wordBytes_low32]
  exact wrU32_wrote h _ _

/-- An item writer appends the bytes `f` of its lane. -/
def Appends (g : Lane → WrUnit → WrUnit) (f : Lane → List Byte) : Prop :=
  ∀ {u : WrUnit}, u.Clean → ∀ a, Wrote u (g a u) (bytesBits (f a))

/-- A scalar write appends the bytes of its shape (45_wr_scalars_arrays.md R221 to R228). -/
theorem scalarWrite_appends {i : Instr} {f : Lane → List Byte} (h : scalarWrite i = some f) :
    ∃ g, (∀ s, exec i s = wrScalar g s) ∧ Appends g f := by
  cases i <;> simp only [scalarWrite, Option.some.injEq, reduceCtorEq] at h <;> subst h
  · exact ⟨fun a => wrByte (low8 a), fun s => rfl, fun hu a => write8 hu a⟩
  · exact ⟨fun a => wrByte (boolByte (laneTrue a)), fun s => rfl, fun hu a => writeBool hu a⟩
  · exact ⟨fun a => wrU16 _ (low16 a), fun s => rfl, fun hu a => write16 _ hu a⟩
  · exact ⟨fun a => wrU32 _ (low32 a), fun s => rfl, fun hu a => write32 _ hu a⟩
  · exact ⟨fun a => wrU32 _ (low32 a), fun s => rfl, fun hu a => write32 _ hu a⟩
  · exact ⟨wrU64 _, fun s => rfl, fun hu a => wrU64_wrote hu _ a⟩
  · exact ⟨fun a => wrU32 _ (low32 a), fun s => rfl, fun hu a => write32 _ hu a⟩
  · exact ⟨wrU64 _, fun s => rfl, fun hu a => wrU64_wrote hu _ a⟩

/-- An array write appends the bytes of its shape for every item (45_wr_scalars_arrays.md R232 to R238). -/
theorem arrayWrite_appends {i : Instr} {f : Lane → List Byte} (h : arrayWrite i = some f) :
    ∃ g, (∀ s, exec i s = wrArray g s) ∧ Appends g f := by
  cases i <;> simp only [arrayWrite, Option.some.injEq, reduceCtorEq] at h <;> subst h
  · exact ⟨fun a => wrByte (boolByte (laneTrue a)), fun s => rfl, fun hu a => writeBool hu a⟩
  · exact ⟨fun a => wrU16 _ (low16 a), fun s => rfl, fun hu a => write16 _ hu a⟩
  · exact ⟨fun a => wrU32 _ (low32 a), fun s => rfl, fun hu a => write32 _ hu a⟩
  · exact ⟨fun a => wrU32 _ (low32 a), fun s => rfl, fun hu a => write32 _ hu a⟩
  · exact ⟨wrU64 _, fun s => rfl, fun hu a => wrU64_wrote hu _ a⟩
  · exact ⟨fun a => wrU32 _ (low32 a), fun s => rfl, fun hu a => write32 _ hu a⟩
  · exact ⟨wrU64 _, fun s => rfl, fun hu a => wrU64_wrote hu _ a⟩

/-- A command over OMEM that no check stops runs its body. -/
theorem wrOmemCommand_run {α : Type} {check : WrUnit → Bool} {read : List Item → Option (List α)}
    {body : List α → WrUnit → WrUnit} {s : State} {xs : List α} (ho : s.wr.closed = false) (hc : check s.wr = true)
    (hr : read s.wr.cmd.omem = some xs) : wrOmemCommand check read body s = .next (s.withWr (body xs s.wr)) := by
  simp [wrOmemCommand, ho, hc, hr]

/-- The bits of runs of bytes. -/
theorem flatMap_bytesBits {α : Type} (xs : List α) (f : α → List Byte) :
    (xs.flatMap fun x => bytesBits (f x)) = bytesBits (xs.flatMap f) := by
  simp [bytesBits, List.flatMap_assoc]

end Sys2Proof.Machine
end

