-- ==== Sys2Proof/Laws/WrEffects.lean ====
section
/-! SUPPORT. Everything a command of WR can do, said once: it appends bits, or it is one of the few commands that do something else,
or it is turned away (44_wr_bits.md R214, 46_wr_align_flush.md R250 to R254). -/

namespace Sys2Proof.Machine

/-- A command turned away: no register has changed, and the status says why. -/
structure TurnedAway (u v : WrUnit) : Prop where
  sameRegs : u.SameRegs v
  status : (u.closed = true ∧ v.rsp.st = .illegalState) ∨ (u.closed = false ∧ v.rsp.st = .invalidArgument)

/-- A command that has appended `bits` to an open unit. -/
structure Appended (u v : WrUnit) (bits : List Bool) : Prop where
  wrote : Wrote u v bits
  isOpen : u.closed = false
  status : v.rsp.st = .ok

/-- What the instruction has done to WR. -/
inductive WrEffect (i : Instr) (u v : WrUnit) : Prop where
  | away (h : TurnedAway u v)
  | get (h : i = .wrGetcnt) (hv : v = u.respond (okResponse u.byteCnt))
  | write (bits : List Bool) (h : Appended u v bits) (h1 : i ≠ .wrFlush) (h2 : i ≠ .wrClose) (h3 : i ≠ .wrRstcnt)
  | flush (h : i = .wrFlush) (ho : u.closed = false) (hv : v = (publish (padByte u)).respond (okResponse 0#64))
  | close (h : i = .wrClose) (ho : u.closed = false)
    (hv : v = ((publish (padByte u)).setClosed true).respond (okResponse 0#64))
  | reset (h : i = .wrRstcnt) (ho : u.closed = false)
    (hv : v = (wrResetCounter Config.rstcntClearsBits u).respond (okResponse 0#64))

theorem turnedAway_closed {u : WrUnit} (h : u.closed = true) : TurnedAway u (wrRaise .illegalState u) :=
  ⟨wrRaise_sameRegs _ u, .inl ⟨h, rfl⟩⟩

theorem turnedAway_argument {u : WrUnit} (h : u.closed = false) : TurnedAway u (wrRaise .invalidArgument u) :=
  ⟨wrRaise_sameRegs _ u, .inr ⟨h, rfl⟩⟩

/-- A command with no items: turned away by a closed unit, else its body. -/
theorem wrCommand_effect {i : Instr} {body : WrUnit → WrUnit} {s : State} (he : exec i s = wrCommand body s)
    (hb : s.wr.closed = false → WrEffect i s.wr (body s.wr)) :
    ∃ v, exec i s = .next (s.withWr v) ∧ WrEffect i s.wr v := by
  cases hc : s.wr.closed
  · exact ⟨_, he.trans (wrCommand_open hc _), hb hc⟩
  · exact ⟨_, he.trans (wrCommand_closed hc _), .away (turnedAway_closed hc)⟩

/-- A command over OMEM: turned away by a closed unit or its argument check, refused where OMEM holds items of the other kind,
else its body. -/
theorem wrOmemCommand_effect {α : Type} {i : Instr} {check : WrUnit → Bool} {read : List Item → Option (List α)}
    {body : List α → WrUnit → WrUnit} {s : State} (he : exec i s = wrOmemCommand check read body s)
    (hf : read s.wr.cmd.omem = none → ¬ OmemFits i s)
    (hb : ∀ xs, s.wr.closed = false → WrEffect i s.wr (body xs s.wr)) :
    (∃ v, exec i s = .next (s.withWr v) ∧ WrEffect i s.wr v) ∨
      (exec i s = .refused .omemItemKind ∧ s.wr.closed = false ∧ ¬ OmemFits i s) := by
  rcases wrOmemCommand_cases check read body s with ⟨hc, h⟩ | ⟨hc, -, h⟩ | ⟨hc, -, xs, -, h⟩ | ⟨hc, -, hr, h⟩
  · exact .inl ⟨_, he.trans h, .away (turnedAway_closed hc)⟩
  · exact .inl ⟨_, he.trans h, .away (turnedAway_argument hc)⟩
  · exact .inl ⟨_, he.trans h, hb xs hc⟩
  · exact .inr ⟨he.trans h, hc, hf hr⟩

/-- A body that appends bits and answers OK. -/
theorem WrEffect.ofWrote {i : Instr} {u v : WrUnit} {bits : List Bool} (h : Wrote u v bits) (ho : u.closed = false)
    (r : Response) (hr : r.st = .ok) (h1 : i ≠ .wrFlush) (h2 : i ≠ .wrClose) (h3 : i ≠ .wrRstcnt) :
    WrEffect i u (v.respond r) := .write bits ⟨h.respond r, ho, hr⟩ h1 h2 h3

/-- Everything a command of WR can do. -/
theorem exec_writes {i : Instr} (hu : unitOf i = .wr) {s : State} (h : s.wr.Clean) :
    (∃ v, exec i s = .next (s.withWr v) ∧ WrEffect i s.wr v) ∨
      (exec i s = .refused .omemItemKind ∧ s.wr.closed = false ∧ ¬ OmemFits i s) := by
  have scalar : ∀ f, scalarWrite i = some f → i ≠ .wrFlush → i ≠ .wrClose → i ≠ .wrRstcnt →
      ∃ v, exec i s = .next (s.withWr v) ∧ WrEffect i s.wr v := by
    intro f hf h1 h2 h3
    obtain ⟨g, he, hg⟩ := scalarWrite_appends hf
    exact wrCommand_effect (he s) fun ho => .ofWrote (hg h _) ho _ rfl h1 h2 h3
  have array : ∀ f, arrayWrite i = some f → readsNumericOmem i = true → i ≠ .wrFlush → i ≠ .wrClose → i ≠ .wrRstcnt →
      (∃ v, exec i s = .next (s.withWr v) ∧ WrEffect i s.wr v) ∨
        (exec i s = .refused .omemItemKind ∧ s.wr.closed = false ∧ ¬ OmemFits i s) := by
    intro f hf hn h1 h2 h3
    obtain ⟨g, he, hg⟩ := arrayWrite_appends hf
    exact wrOmemCommand_effect (he s) (fun hr hh => by simpa [hr] using hh.1 hn) fun xs ho =>
      .ofWrote (writeAll_wrote (fun hu x => hg hu x) h xs) ho _ rfl h1 h2 h3
  cases i
  case wrBits w =>
    have he : exec (.wrBits w) s = execWrBits w s := rfl
    rw [execWrBits] at he
    refine .inl (wrCommand_effect he fun ho => ?_)
    split
    · exact .ofWrote (writeBits_wrote h w _) ho _ rfl (by simp) (by simp) (by simp)
    · exact .away (turnedAway_argument ho)
  case wrBitsarr w =>
    have he : exec (.wrBitsarr w) s = execWrBitsarr w s := rfl
    rw [execWrBitsarr] at he
    refine wrOmemCommand_effect he (fun hr hh => by simpa [hr] using hh.1 rfl) fun xs ho => ?_
    exact .ofWrote (writeAll_wrote (fun hu x => writeBits_wrote hu w (low8 x)) h xs) ho _ rfl (by simp) (by simp)
      (by simp)
  case wrBytes bo =>
    have he : exec (.wrBytes bo) s = execWrBytes bo s := rfl
    rw [execWrBytes] at he
    refine wrOmemCommand_effect he (fun hr hh => by simpa [hr] using hh.1 rfl) fun xs ho => ?_
    exact .ofWrote (writeAll_wrote (fun hu x => wrByte_wrote hu (low8 x)) h _) ho _ rfl (by simp) (by simp)
      (by simp)
  case wrString bo =>
    have he : exec (.wrString bo) s = execWrString bo s := rfl
    rw [execWrString] at he
    refine wrOmemCommand_effect he (fun hr hh => by simpa [hr] using hh.2 rfl) fun xs ho => ?_
    rw [writeOneString]
    split
    · exact .away (turnedAway_argument ho)
    · exact .ofWrote (writeAll_wrote (fun hu x => encodeString_wrote hu bo x) h xs) ho _ rfl (by simp) (by simp)
        (by simp)
  case wrStrarr bo =>
    have he : exec (.wrStrarr bo) s = execWrStrarr bo s := rfl
    rw [execWrStrarr] at he
    refine wrOmemCommand_effect he (fun hr hh => by simpa [hr] using hh.2 rfl) fun xs ho => ?_
    rw [writeStrings]
    split
    · exact .away (turnedAway_argument ho)
    · exact .ofWrote (writeAll_wrote (fun hu x => encodeString_wrote hu bo x) h xs) ho _ rfl (by simp) (by simp)
        (by simp)
  case wrAlign =>
    have he : exec .wrAlign s = execWrAlign s := rfl
    rw [execWrAlign] at he
    refine .inl (wrCommand_effect he fun ho => ?_)
    split
    · exact .away (turnedAway_argument ho)
    · rename_i ha
      have hp := padByte_wrote h
      have hpos : 0 < s.wr.cmd.a.toNat := by
        rcases Nat.eq_zero_or_pos s.wr.cmd.a.toNat with h0 | h0
        · exact absurd (by rw [BitVec.toInt_eq_toNat_cond, h0]; simp) ha
        · exact h0
      obtain ⟨k, -, hz, -⟩ := padZeros_wrote hp.1.clean hp.2 hpos
      exact .ofWrote (hp.1.trans hz) ho _ rfl (by simp) (by simp) (by simp)
  case wrFlush =>
    have he : exec .wrFlush s = execWrFlush s := rfl
    rw [execWrFlush] at he
    exact .inl (wrCommand_effect he fun ho => .flush rfl ho rfl)
  case wrClose =>
    have he : exec .wrClose s = execWrClose s := rfl
    rw [execWrClose] at he
    exact .inl (wrCommand_effect he fun ho => .close rfl ho rfl)
  case wrRstcnt =>
    have he : exec .wrRstcnt s = execWrRstcnt s := rfl
    rw [execWrRstcnt] at he
    exact .inl (wrCommand_effect he fun ho => .reset rfl ho rfl)
  case wrGetcnt => exact .inl ⟨_, rfl, .get rfl rfl⟩
  all_goals first
    | exact .inl (scalar _ rfl (by simp) (by simp) (by simp))
    | exact array _ rfl rfl (by simp) (by simp) (by simp)
    | exact absurd hu (by rw [unitOf, encode, unitOfWord_commandWord]; decide)

/-! ## The status alone, in every state -/

/-- The status a command of WR ends in, whatever the buffer holds. -/
theorem exec_wr_status {i : Instr} (hu : unitOf i = .wr) (s : State) :
    (∃ v, exec i s = .next (s.withWr v) ∧ (TurnedAway s.wr v ∨ v.rsp.st = .ok)) ∨
      (exec i s = .refused .omemItemKind ∧ s.wr.closed = false ∧ ¬ OmemFits i s) := by
  have plain : ∀ body : WrUnit → WrUnit, exec i s = wrCommand body s →
      (s.wr.closed = false → TurnedAway s.wr (body s.wr) ∨ (body s.wr).rsp.st = .ok) →
      ∃ v, exec i s = .next (s.withWr v) ∧ (TurnedAway s.wr v ∨ v.rsp.st = .ok) := by
    intro body he hb
    cases hc : s.wr.closed
    · exact ⟨_, he.trans (wrCommand_open hc _), hb hc⟩
    · exact ⟨_, he.trans (wrCommand_closed hc _), .inl (turnedAway_closed hc)⟩
  have items : ∀ {α : Type} (check : WrUnit → Bool) (read : List Item → Option (List α))
      (body : List α → WrUnit → WrUnit), exec i s = wrOmemCommand check read body s →
      (read s.wr.cmd.omem = none → ¬ OmemFits i s) →
      (∀ xs, s.wr.closed = false → TurnedAway s.wr (body xs s.wr) ∨ (body xs s.wr).rsp.st = .ok) →
      (∃ v, exec i s = .next (s.withWr v) ∧ (TurnedAway s.wr v ∨ v.rsp.st = .ok)) ∨
        (exec i s = .refused .omemItemKind ∧ s.wr.closed = false ∧ ¬ OmemFits i s) := by
    intro α check read body he hf hb
    rcases wrOmemCommand_cases check read body s with ⟨hc, h⟩ | ⟨hc, -, h⟩ | ⟨hc, -, xs, -, h⟩ | ⟨hc, -, hr, h⟩
    · exact .inl ⟨_, he.trans h, .inl (turnedAway_closed hc)⟩
    · exact .inl ⟨_, he.trans h, .inl (turnedAway_argument hc)⟩
    · exact .inl ⟨_, he.trans h, hb xs hc⟩
    · exact .inr ⟨he.trans h, hc, hf hr⟩
  have array : ∀ f, arrayWrite i = some f → readsNumericOmem i = true →
      (∃ v, exec i s = .next (s.withWr v) ∧ (TurnedAway s.wr v ∨ v.rsp.st = .ok)) ∨
        (exec i s = .refused .omemItemKind ∧ s.wr.closed = false ∧ ¬ OmemFits i s) := by
    intro f hf hn
    obtain ⟨g, he, -⟩ := arrayWrite_appends hf
    exact items _ _ _ (he s) (fun hr hh => by simpa [hr] using hh.1 hn) fun _ _ => .inr rfl
  have scalar : ∀ f, scalarWrite i = some f →
      ∃ v, exec i s = .next (s.withWr v) ∧ (TurnedAway s.wr v ∨ v.rsp.st = .ok) := by
    intro f hf
    obtain ⟨g, he, -⟩ := scalarWrite_appends hf
    exact plain _ (he s) fun _ => .inr rfl
  cases i
  case wrBits w =>
    have he : exec (.wrBits w) s = execWrBits w s := rfl
    rw [execWrBits] at he
    refine .inl (plain _ he fun ho => ?_)
    split
    · exact .inr rfl
    · exact .inl (turnedAway_argument ho)
  case wrBitsarr w =>
    have he : exec (.wrBitsarr w) s = execWrBitsarr w s := rfl
    rw [execWrBitsarr] at he
    exact items _ _ _ he (fun hr hh => by simpa [hr] using hh.1 rfl) fun _ _ => .inr rfl
  case wrBytes bo =>
    have he : exec (.wrBytes bo) s = execWrBytes bo s := rfl
    rw [execWrBytes] at he
    exact items _ _ _ he (fun hr hh => by simpa [hr] using hh.1 rfl) fun _ _ => .inr rfl
  case wrString bo =>
    have he : exec (.wrString bo) s = execWrString bo s := rfl
    rw [execWrString] at he
    refine items _ _ _ he (fun hr hh => by simpa [hr] using hh.2 rfl) fun xs ho => ?_
    rw [writeOneString]
    split
    · exact .inl (turnedAway_argument ho)
    · exact .inr rfl
  case wrStrarr bo =>
    have he : exec (.wrStrarr bo) s = execWrStrarr bo s := rfl
    rw [execWrStrarr] at he
    refine items _ _ _ he (fun hr hh => by simpa [hr] using hh.2 rfl) fun xs ho => ?_
    rw [writeStrings]
    split
    · exact .inl (turnedAway_argument ho)
    · exact .inr rfl
  case wrAlign =>
    have he : exec .wrAlign s = execWrAlign s := rfl
    rw [execWrAlign] at he
    refine .inl (plain _ he fun ho => ?_)
    split
    · exact .inl (turnedAway_argument ho)
    · exact .inr rfl
  case wrFlush =>
    have he : exec .wrFlush s = execWrFlush s := rfl
    rw [execWrFlush] at he
    exact .inl (plain _ he fun _ => .inr rfl)
  case wrClose =>
    have he : exec .wrClose s = execWrClose s := rfl
    rw [execWrClose] at he
    exact .inl (plain _ he fun _ => .inr rfl)
  case wrRstcnt =>
    have he : exec .wrRstcnt s = execWrRstcnt s := rfl
    rw [execWrRstcnt] at he
    exact .inl (plain _ he fun _ => .inr rfl)
  case wrGetcnt => exact .inl ⟨_, rfl, .inr rfl⟩
  all_goals first
    | exact .inl (scalar _ rfl)
    | exact array _ rfl rfl
    | exact absurd hu (by rw [unitOf, encode, unitOfWord_commandWord]; decide)

end Sys2Proof.Machine
end

