-- ==== Sys2Proof/Tests/Slice0.lean ====
section
/-! SUPPORT. Tests: the well-formedness smoke test, words of every command decoded, one-step vectors of spec/95_test_vectors.md, and
a witness for the hypotheses of every statement. -/

namespace Sys2Proof.Tests

open Sys2Proof Sys2Proof.Machine

/-! ## Well-formedness: a width that no four bits hold is refused, the widest is not -/

theorem test_wellFormed_refuses_rdBits : (Instr.rdBits 16).WellFormed = false := by decide
theorem test_wellFormed_refuses_rdBitsarr : (Instr.rdBitsarr 16).WellFormed = false := by decide
theorem test_wellFormed_refuses_wrBits : (Instr.wrBits 16).WellFormed = false := by decide
theorem test_wellFormed_refuses_wrBitsarr : (Instr.wrBitsarr 16).WellFormed = false := by decide
theorem test_wellFormed_takes_widest : (Instr.rdBits 15).WellFormed = true := by decide

/-! ## Decoding: words written out bit by bit from spec/opcode_table.json and 30_encoding.md R92, every command once -/

theorem test_decode_rdBits :
    decode 0b0000000100000101#16 = .ok (.rdBits 5) ∧
    decode 0b0000000100001111#16 = .ok (.rdBits 15) := by decide

theorem test_decode_rdScalars :
    decode 0b0000001000000000#16 = .ok .rdByte ∧
    decode 0b0000001100000000#16 = .ok .rdBool ∧
    decode 0b0000010010000000#16 = .ok (.rdUshort .little) ∧
    decode 0b0000010100000000#16 = .ok (.rdInt .big) ∧
    decode 0b0000011010000000#16 = .ok (.rdUint .little) ∧
    decode 0b0000011100000000#16 = .ok (.rdLong .big) ∧
    decode 0b0000100010000000#16 = .ok (.rdFloat .little) ∧
    decode 0b0000100100000000#16 = .ok (.rdDouble .big) := by decide

theorem test_decode_strings :
    decode 0b0000101010000000#16 = .ok (.rdString .little) ∧
    decode 0b0001101000000000#16 = .ok (.rdStrarr .big) ∧
    decode 0b1000101010000000#16 = .ok (.wrString .little) ∧
    decode 0b1001101000000000#16 = .ok (.wrStrarr .big) := by decide

theorem test_decode_rdArrays :
    decode 0b0001000000000101#16 = .ok (.rdBitsarr 5) ∧
    decode 0b0001000000001111#16 = .ok (.rdBitsarr 15) ∧
    decode 0b0001000110000000#16 = .ok (.rdBytearr .little) ∧
    decode 0b0001001000000000#16 = .ok .rdBoolarr ∧
    decode 0b0001001100000000#16 = .ok (.rdShortarr .big) ∧
    decode 0b0001010010000000#16 = .ok (.rdUshortarr .little) ∧
    decode 0b0001010100000000#16 = .ok (.rdIntarr .big) ∧
    decode 0b0001011010000000#16 = .ok (.rdUintarr .little) ∧
    decode 0b0001011100000000#16 = .ok (.rdLongarr .big) ∧
    decode 0b0001100010000000#16 = .ok (.rdFloatarr .little) ∧
    decode 0b0001100100000000#16 = .ok (.rdDoublearr .big) := by decide

theorem test_decode_rdAlign :
    decode 0b0010000000000000#16 = .ok .rdAlignbyte ∧
    decode 0b0010000100000000#16 = .ok .rdAlign ∧
    decode 0b0010001000000000#16 = .ok .rdMark ∧
    decode 0b0010001100000000#16 = .ok .rdReset := by decide

theorem test_decode_status :
    decode 0b0010100000000000#16 = .ok .rdGetcnt ∧
    decode 0b0010100100000000#16 = .ok .rdRstcnt ∧
    decode 0b0010101000000000#16 = .ok .rdGetord ∧
    decode 0b0010101100000000#16 = .ok .rdGetbuf ∧
    decode 0b0010110000000000#16 = .ok .rdGetnbits ∧
    decode 0b0010110100000000#16 = .ok .rdGetdl ∧
    decode 0b0010111000000000#16 = .ok .rdSetdl ∧
    decode 0b1010100000000000#16 = .ok .wrGetcnt ∧
    decode 0b1010100100000000#16 = .ok .wrRstcnt := by decide

theorem test_decode_wrBits :
    decode 0b1000000100000101#16 = .ok (.wrBits 5) ∧
    decode 0b1000000100001111#16 = .ok (.wrBits 15) := by decide

theorem test_decode_wrScalarsArrays :
    decode 0b1000001000000000#16 = .ok .wrByte ∧
    decode 0b1000001100000000#16 = .ok .wrBool ∧
    decode 0b1000010010000000#16 = .ok (.wrShort .little) ∧
    decode 0b1000010100000000#16 = .ok (.wrInt .big) ∧
    decode 0b1000011010000000#16 = .ok (.wrUint .little) ∧
    decode 0b1000011100000000#16 = .ok (.wrLong .big) ∧
    decode 0b1000100010000000#16 = .ok (.wrFloat .little) ∧
    decode 0b1000100100000000#16 = .ok (.wrDouble .big) ∧
    decode 0b1001000000000101#16 = .ok (.wrBitsarr 5) ∧
    decode 0b1001000000001111#16 = .ok (.wrBitsarr 15) ∧
    decode 0b1001000110000000#16 = .ok (.wrBytes .little) ∧
    decode 0b1001001000000000#16 = .ok .wrBoolarr ∧
    decode 0b1001001100000000#16 = .ok (.wrShortarr .big) ∧
    decode 0b1001010110000000#16 = .ok (.wrIntarr .little) ∧
    decode 0b1001011000000000#16 = .ok (.wrUintarr .big) ∧
    decode 0b1001011110000000#16 = .ok (.wrLongarr .little) ∧
    decode 0b1001100000000000#16 = .ok (.wrFloatarr .big) ∧
    decode 0b1001100110000000#16 = .ok (.wrDoublearr .little) := by decide

theorem test_decode_wrFlush :
    decode 0b1010000100000000#16 = .ok .wrAlign ∧
    decode 0b1010010000000000#16 = .ok .wrFlush ∧
    decode 0b1010010100000000#16 = .ok .wrClose := by decide

theorem test_decode_illegal :
    decode 0b0000000000000000#16 = .error .unassignedOpcode ∧
    decode 0b1001010000000000#16 = .error .unassignedOpcode ∧
    decode 0b0000001000010000#16 = .error .reservedBits ∧
    decode 0b0000001010000000#16 = .error .unusedByteOrder ∧
    decode 0b0000010000000011#16 = .error .unusedWidth := by decide

/-! ## Small states and what a test looks at -/

/-- RD over `src`, with A and L in its command port. -/
def reader (ord : BitOrder) (src : List Byte) (a l : Int) : State :=
  (State.construct ord ord src).withRd ((RdUnit.construct ord src).setCmd ⟨0#16, .ofInt 64 a, .ofInt 64 l, []⟩)

/-- The same with SRCPOS = 1 and `cnt` bits of the first byte left in the buffer. -/
def readerMid (ord : BitOrder) (src : List Byte) (buf : Byte) (cnt : BitVec 4) (a l : Int) : State :=
  (reader ord src a l).withRd (((reader ord src a l).rd.setSrcPos 1).setBuffer buf cnt)

/-- RD with the mark of `RD.MARK a=lim` taken at the start and `n` bytes read since. -/
def readerMarked (src : List Byte) (lim : Int) (n : Nat) : State :=
  (reader .lsb0 src 0 0).withRd
    ((((reader .lsb0 src 0 0).rd.setMark true 0 (.ofInt 64 lim)).setSrcPos n).setByteCnt (.ofNat 64 n))

/-- WR with `cnt` bits in the buffer, and A and OMEM in its command port. -/
def writer (ord : BitOrder) (buf : Byte) (cnt : BitVec 4) (a : Int) (omem : List Item) : State :=
  (State.construct ord ord []).withWr (((WrUnit.construct ord).setBuffer buf cnt).setCmd ⟨0#16, .ofInt 64 a, 0#64, omem⟩)

/-- WR after `WR.BYTE a=1`, `WR.CLOSE`. -/
def closedWriter : State :=
  (State.construct .lsb0 .lsb0 []).withWr
    (((((WrUnit.construct .lsb0).setSnk [0x01#8]).setByteCnt 1#64).setFlushed 1).setClosed true)

def nums (xs : List Int) : List Item := xs.map fun x => .num (.ofInt 64 x)
def str (p : List Byte) : Item := .str (.present p)

/-- ST, VAL and NB of RD. -/
def answer (o : Host.Outcome State Fault Refusal) : Option (Status × Nat × Nat) :=
  match o with
  | .next t => some (t.rd.rsp.st, t.rd.rsp.val.toNat, t.rd.rsp.nb.toNat)
  | _ => none

/-- ST and RMEM of RD. -/
def items (o : Host.Outcome State Fault Refusal) : Option (Status × List Item) :=
  match o with
  | .next t => some (t.rd.rsp.st, t.rd.rmem)
  | _ => none

/-- ST and BITBUF, BITCNT, BYTECNT, SRCPOS, DETLIM of RD. -/
structure RdSeen where
  st : Status
  bitBuf : BitVec 8
  bitCnt : BitVec 4
  byteCnt : BitVec 64
  srcPos : Nat
  detLim : Bool
deriving DecidableEq, Repr

/-- ST, VAL and BITBUF, BITCNT, BYTECNT, FLUSHED, CLOSED of WR. -/
structure WrSeen where
  st : Status
  val : Lane
  bitBuf : BitVec 8
  bitCnt : BitVec 4
  byteCnt : BitVec 64
  flushed : Nat
  closed : Bool
deriving DecidableEq, Repr

def rdRegs (o : Host.Outcome State Fault Refusal) : Option RdSeen :=
  match o with
  | .next t => some ⟨t.rd.rsp.st, t.rd.bitBuf, t.rd.bitCnt, t.rd.byteCnt, t.rd.srcPos, t.rd.detLim⟩
  | _ => none

/-- ST and SNK of WR. -/
def sink (o : Host.Outcome State Fault Refusal) : Option (Status × List Byte) :=
  match o with
  | .next t => some (t.wr.rsp.st, t.wr.snk)
  | _ => none

def wrRegs (o : Host.Outcome State Fault Refusal) : Option WrSeen :=
  match o with
  | .next t => some ⟨t.wr.rsp.st, t.wr.rsp.val, t.wr.bitBuf, t.wr.bitCnt, t.wr.byteCnt, t.wr.flushed, t.wr.closed⟩
  | _ => none

/-! ## One step of every command of RD; the vector of spec/95_test_vectors.md is named at each -/

-- V23, first row; V20, second command.
theorem test_rdBits_general : rdRegs (exec (.rdBits 3) (reader .lsb0 [0xB4, 0x6D] 0 0)) =
    some ⟨.ok, 0x16, 5, 0, 1, false⟩ := by decide
theorem test_rdBits_short : answer (exec (.rdBits 8) (readerMid .lsb0 [0xB4] 0x5 3 0 0)) = some (.ok, 0x5, 3) := by decide
-- V27: across a byte boundary.
theorem test_rdByte : answer (exec .rdByte (readerMid .lsb0 [0xA5, 0x3C, 0x0F] 0xA 4 0 0)) = some (.ok, 0xCA, 0) ∧
    rdRegs (exec .rdByte (readerMid .lsb0 [0xA5, 0x3C, 0x0F] 0xA 4 0 0)) = some ⟨.ok, 0x3, 4, 1, 2, false⟩ := by decide
-- V32.
theorem test_rdBool : answer (exec .rdBool (reader .lsb0 [0x80] 0 0)) = some (.ok, 1, 0) ∧
    answer (exec .rdBool (reader .lsb0 [0x00] 0 0)) = some (.ok, 0, 0) := by decide
-- V31, V28.
theorem test_rdUshort_mirrored : answer (exec (.rdUshort .big) (reader .msb0 [0x12, 0x34] 0 0)) = some (.ok, 0x482C, 0) := by
  decide
theorem test_rdUshort_unaligned :
    answer (exec (.rdUshort .little) (readerMid .lsb0 [0x21, 0x43, 0x65, 0x07] 0x2 4 0 0)) = some (.ok, 0x5432, 0) := by
  decide
-- V2, V30.
theorem test_rdInt : answer (exec (.rdInt .little) (reader .lsb0 [0x78, 0x56, 0x34, 0x12] 0 0)) =
    some (.ok, 0x12345678, 0) := by decide
theorem test_rdInt_sign : answer (exec (.rdInt .big) (reader .lsb0 [0x80, 0, 0, 0] 0 0)) =
    some (.ok, 0xFFFFFFFF80000000, 0) := by decide
theorem test_rdUint : answer (exec (.rdUint .big) (reader .lsb0 [0x80, 0, 0, 0] 0 0)) = some (.ok, 0x80000000, 0) := by
  decide
theorem test_rdFloat : answer (exec (.rdFloat .big) (reader .lsb0 [0x80, 0, 0, 0] 0 0)) = some (.ok, 0x80000000, 0) := by
  decide
-- The bytes of V45's WR.LONG LE a=-2 and WR.DOUBLE LE, read back.
theorem test_rdLong : answer (exec (.rdLong .little) (reader .lsb0 [0xFE, 0xFF, 0xFF, 0xFF, 0xFF, 0xFF, 0xFF, 0xFF] 0 0)) =
    some (.ok, 0xFFFFFFFFFFFFFFFE, 0) := by decide
theorem test_rdDouble : answer (exec (.rdDouble .little) (reader .lsb0 [0, 0, 0, 0, 0, 0, 0xF0, 0x3F] 0 0)) =
    some (.ok, 0x3FF0000000000000, 0) := by decide
-- V29: cut off.
theorem test_rdInt_cutOff : rdRegs (exec (.rdInt .big) (reader .lsb0 [0x12, 0x34, 0x56] 0 0)) =
    some ⟨.endOfData, 0, 0, 3, 3, false⟩ := by decide
-- V8, V51.
theorem test_rdString_absent : answer (exec (.rdString .big) (reader .lsb0 [0xFF] 0 0)) =
    some (.ok, 0xFFFFFFFFFFFFFFFF, 0) := by decide
theorem test_rdString_length : items (exec (.rdString .little) (reader .lsb0 [0x82, 0x02, 0x00, 0x41, 0x42] 0 0)) =
    some (.ok, [str [0x41, 0x42]]) := by decide
-- V16.
theorem test_rdString_malformed : rdRegs (exec (.rdString .big) (reader .lsb0 [0x85] 0 0)) =
    some ⟨.malformedWireData, 0, 0, 1, 1, false⟩ := by decide
-- V33.
theorem test_rdBitsarr_shortLast : items (exec (.rdBitsarr 3) (reader .lsb0 [0xE4, 0x1B] (-1) 0)) =
    some (.ok, nums [4, 4, 7, 5, 1, 0]) := by decide
theorem test_rdBitsarr_noBitLeft : rdRegs (exec (.rdBitsarr 3) (reader .lsb0 [0xE4, 0x1B] 7 0)) =
    some ⟨.endOfData, 0, 0, 2, 2, false⟩ := by decide
-- V34; V5.
theorem test_rdBytearr_softCap :
    items (exec (.rdBytearr .little) (reader .lsb0 [1, 2, 3, 4, 5] (-1) (-2))) = some (.ok, nums [2, 1]) ∧
    rdRegs (exec (.rdBytearr .little) (reader .lsb0 [1, 2, 3, 4, 5] (-1) (-2))) = some ⟨.ok, 0, 0, 2, 2, true⟩ := by decide
theorem test_rdBytearr_hardCap :
    rdRegs (exec (.rdBytearr .big) (reader .lsb0 [0x10, 0x11, 0x12, 0x13, 0x14, 0x15] (-1) 3)) =
    some ⟨.arraySizeExceeded, 0, 0, 4, 4, false⟩ := by decide
-- V32's bytes as an array.
theorem test_rdBoolarr : items (exec .rdBoolarr (reader .lsb0 [0x00, 0x01, 0x80] 3 0)) = some (.ok, nums [0, 1, 1]) := by
  decide
-- V36.
theorem test_rdShortarr : items (exec (.rdShortarr .big) (reader .lsb0 [0xFF, 0xFE, 0x00, 0x01] 2 0)) =
    some (.ok, nums [-2, 1]) := by decide
theorem test_rdUshortarr : items (exec (.rdUshortarr .little) (reader .lsb0 [0xFF, 0xFE, 0x00, 0x01] (-1) 0)) =
    some (.ok, nums [0xFEFF, 0x0100]) := by decide
-- P2 step 11; V36's cut-off third item.
theorem test_rdIntarr : items (exec (.rdIntarr .little) (reader .lsb0 [1, 0, 0, 0, 0xFE, 0xFF, 0xFF, 0xFF] (-1) 0)) =
    some (.ok, nums [1, -2]) := by decide
theorem test_rdIntarr_cutOff : rdRegs (exec (.rdIntarr .big) (reader .lsb0 [0, 0, 0, 1, 0, 0, 0, 2, 0] (-1) 0)) =
    some ⟨.endOfData, 0, 0, 9, 9, false⟩ := by decide
-- From 42_rd_arrays.md R172, R173, R174, R175: the bytes of V30 and V45 as one element.
theorem test_rdUintarr : items (exec (.rdUintarr .big) (reader .lsb0 [0x80, 0, 0, 0] 1 0)) =
    some (.ok, nums [0x80000000]) := by decide
theorem test_rdLongarr : items (exec (.rdLongarr .big) (reader .lsb0 [0, 0, 0, 0, 0, 0, 0, 1] 1 0)) =
    some (.ok, nums [1]) := by decide
theorem test_rdFloatarr : items (exec (.rdFloatarr .little) (reader .lsb0 [0, 0, 0x80, 0xBF] 1 0)) =
    some (.ok, nums [0xBF800000]) := by decide
theorem test_rdDoublearr : items (exec (.rdDoublearr .little) (reader .lsb0 [0, 0, 0, 0, 0, 0, 0xF0, 0x3F] 1 0)) =
    some (.ok, nums [0x3FF0000000000000]) := by decide
-- V53.
theorem test_rdStrarr_whole : items (exec (.rdStrarr .big) (reader .lsb0 [0xFF, 0x01, 0x41, 0x00] (-1) 0)) =
    some (.ok, [.str .absent, str [0x41], str []]) := by decide
theorem test_rdStrarr_softCap : rdRegs (exec (.rdStrarr .big) (reader .lsb0 [1, 0x41, 1, 0x42, 1, 0x43] (-1) (-2))) =
    some ⟨.ok, 0, 0, 4, 4, true⟩ := by decide
-- V38's ALIGNBYTE and its second one.
theorem test_rdAlignbyte : rdRegs (exec .rdAlignbyte (readerMid .lsb0 [0x21, 0x43] 0x4 5 0 0)) =
    some ⟨.ok, 0, 0, 1, 1, false⟩ ∧
    rdRegs (exec .rdAlignbyte (reader .lsb0 [0x21, 0x43] 0 0)) = some ⟨.ok, 0, 0, 0, 0, false⟩ := by decide
-- V39.
theorem test_rdAlign_short : rdRegs (exec .rdAlign (readerMid .lsb0 [1, 2] 0x0 5 4 0)) =
    some ⟨.endOfData, 0, 0, 2, 2, false⟩ := by decide
theorem test_rdAlign_refused : rdRegs (exec .rdAlign (readerMid .lsb0 [1, 2] 0x0 5 0 0)) =
    some ⟨.invalidArgument, 0, 5, 0, 1, false⟩ := by decide
-- V13, V40.
theorem test_rdMark : rdRegs (exec .rdMark (readerMid .lsb0 [0xA5, 0x3C] 0xA 4 1 0)) = some ⟨.ok, 0xA, 4, 0, 1, false⟩ := by
  decide
theorem test_rdMark_refused : rdRegs (exec .rdMark (reader .lsb0 [1, 2] (-1) 0)) =
    some ⟨.invalidArgument, 0, 0, 0, 0, false⟩ := by decide
theorem test_rdReset_atLimit : rdRegs (exec .rdReset (readerMarked [1, 2, 3] 2 2)) = some ⟨.ok, 0, 0, 0, 0, false⟩ := by
  decide
theorem test_rdReset_pastLimit : rdRegs (exec .rdReset (readerMarked [1, 2, 3] 2 3)) =
    some ⟨.illegalState, 0, 0, 3, 3, false⟩ := by decide
-- V56.
theorem test_rdGetbuf : answer (exec .rdGetbuf (readerMid .lsb0 [0xA5, 0x3C] 0x14 5 0 0)) = some (.ok, 0x14, 0) := by decide
theorem test_rdGetnbits : answer (exec .rdGetnbits (readerMid .lsb0 [0xA5, 0x3C] 0x14 5 0 0)) = some (.ok, 5, 0) := by decide
theorem test_rdGetcnt : answer (exec .rdGetcnt (readerMarked [1, 2, 3] 2 3)) = some (.ok, 3, 0) := by decide
theorem test_rdGetord : answer (exec .rdGetord (reader .msb0 [] 0 0)) = some (.ok, 1, 0) ∧
    answer (exec .rdGetord (reader .lsb0 [] 0 0)) = some (.ok, 0, 0) := by decide
theorem test_rdGetdl : answer (exec .rdGetdl (reader .lsb0 [] 0 0)) = some (.ok, 0, 0) ∧
    answer (exec .rdGetdl ((reader .lsb0 [] 0 0).withRd ((reader .lsb0 [] 0 0).rd.setDetLim true))) = some (.ok, 1, 0) := by
  decide
theorem test_rdSetdl : rdRegs (exec .rdSetdl (reader .lsb0 [] 5 0)) = some ⟨.ok, 0, 0, 0, 0, true⟩ := by decide
-- V57, both values of the parameter.
theorem test_rdRstcnt_keeps : (rdResetCounter false (readerMid .lsb0 [0xA5, 0x3C] 0xA 4 0 0).rd).bitCnt = 4#4 := by decide
theorem test_rdRstcnt_clears : (rdResetCounter true (readerMid .lsb0 [0xA5, 0x3C] 0xA 4 0 0).rd).bitCnt = 0#4 ∧
    (rdResetCounter true (readerMarked [1, 2, 3] 2 3).rd).byteCnt = 0#64 := by decide

/-! ## One step of every command of WR -/

-- V15, V12's first command under MSB0.
theorem test_wrBits_mask : wrRegs (exec (.wrBits 3) (writer .lsb0 0 0 0xFF [])) = some ⟨.ok, 0, 0x7, 3, 0, 0, false⟩ := by
  decide
theorem test_wrBits_fills : sink (exec (.wrBits 1) (writer .lsb0 0x59 7 1 [])) = some (.ok, [0xD9]) := by decide
-- V43, V45.
theorem test_wrByte : sink (exec .wrByte (writer .lsb0 0x5 4 0xCA [])) = some (.ok, [0xA5]) ∧
    wrRegs (exec .wrByte (writer .lsb0 0x5 4 0xCA [])) = some ⟨.ok, 0, 0xC, 4, 1, 0, false⟩ := by decide
theorem test_wrByte_mirrored : sink (exec .wrByte (writer .msb0 0 0 0x80 [])) = some (.ok, [0x01]) := by decide
theorem test_wrBool : sink (exec .wrBool (writer .lsb0 0 0 7 [])) = some (.ok, [0x01]) ∧
    sink (exec .wrBool (writer .lsb0 0 0 0 [])) = some (.ok, [0x00]) := by decide
theorem test_wrShort : sink (exec (.wrShort .little) (writer .lsb0 0 0 0x1234 [])) = some (.ok, [0x34, 0x12]) := by decide
-- V44: every byte shifted up one bit; V2.
theorem test_wrInt_unaligned : sink (exec (.wrInt .big) (writer .lsb0 0x1 1 0x01020304 [])) =
    some (.ok, [0x03, 0x04, 0x06, 0x08]) := by decide
theorem test_wrInt : sink (exec (.wrInt .little) (writer .lsb0 0 0 0x80000000 [])) = some (.ok, [0, 0, 0, 0x80]) := by decide
theorem test_wrUint : sink (exec (.wrUint .little) (writer .lsb0 0 0 0xFFFFFFFF12345678 [])) =
    some (.ok, [0x78, 0x56, 0x34, 0x12]) := by decide
theorem test_wrLong : sink (exec (.wrLong .little) (writer .lsb0 0 0 (-2) [])) =
    some (.ok, [0xFE, 0xFF, 0xFF, 0xFF, 0xFF, 0xFF, 0xFF, 0xFF]) := by decide
theorem test_wrFloat : sink (exec (.wrFloat .big) (writer .lsb0 0 0 0x3F800000 [])) =
    some (.ok, [0x3F, 0x80, 0x00, 0x00]) := by decide
theorem test_wrDouble : sink (exec (.wrDouble .little) (writer .lsb0 0 0 0x3FF0000000000000 [])) =
    some (.ok, [0, 0, 0, 0, 0, 0, 0xF0, 0x3F]) := by decide
-- V55 under MSB0; V54.
theorem test_wrString_mirrored : sink (exec (.wrString .big) (writer .msb0 0x9 4 0 [str [0x48, 0x69]])) =
    some (.ok, [0x94, 0x01, 0x29]) := by decide
theorem test_wrString_two : sink (exec (.wrString .big) (writer .lsb0 0 0 0 [str [0x41], str [0x42]])) =
    some (.invalidArgument, []) := by decide
-- V14: the first lengths with one and with two length bytes.
theorem test_headBytes : headBytes 0x7F .big = [0x7F] ∧ headBytes 0x80 .big = [0x81, 0x80] ∧
    headBytes 0x100 .big = [0x82, 0x01, 0x00] ∧ headBytes 0x100 .little = [0x82, 0x00, 0x01] ∧
    headBytes 0x10000 .little = [0x83, 0x00, 0x00, 0x01] ∧
    headBytes 0x1000000 .big = [0x84, 0x01, 0x00, 0x00, 0x00] := by decide
-- V46.
theorem test_wrBitsarr : sink (exec (.wrBitsarr 3) (writer .lsb0 0 0 0 (nums [1, 2, 3, 4, 5]))) = some (.ok, [0xD1]) ∧
    wrRegs (exec (.wrBitsarr 3) (writer .lsb0 0 0 0 (nums [1, 2, 3, 4, 5]))) = some ⟨.ok, 5, 0x58, 7, 1, 0, false⟩ := by
  decide
-- V17, V47.
theorem test_wrBytes_reversed : sink (exec (.wrBytes .little) (writer .lsb0 0 0 2 (nums [1, 2, 3]))) = some (.ok, [2, 1]) := by
  decide
theorem test_wrBytes_tooMany : sink (exec (.wrBytes .big) (writer .lsb0 0 0 4 (nums [1, 2, 3]))) =
    some (.invalidArgument, []) := by decide
-- V45.
theorem test_wrBoolarr : sink (exec .wrBoolarr (writer .lsb0 0 0 0 (nums [0, 5, 1]))) = some (.ok, [0, 1, 1]) := by decide
theorem test_wrShortarr : sink (exec (.wrShortarr .big) (writer .lsb0 0 0 0 (nums [0xFFFE, 1]))) =
    some (.ok, [0xFF, 0xFE, 0x00, 0x01]) := by decide
theorem test_wrIntarr : sink (exec (.wrIntarr .little) (writer .lsb0 0 0 0 (nums [1, -2]))) =
    some (.ok, [0x01, 0, 0, 0, 0xFE, 0xFF, 0xFF, 0xFF]) := by decide
theorem test_wrLongarr : sink (exec (.wrLongarr .big) (writer .lsb0 0 0 0 (nums [1]))) =
    some (.ok, [0, 0, 0, 0, 0, 0, 0, 0x01]) := by decide
-- V45's scalar rows as one element (45_wr_scalars_arrays.md R235, R237, R238).
theorem test_wrUintarr : sink (exec (.wrUintarr .little) (writer .lsb0 0 0 0 (nums [0xFFFFFFFF12345678]))) =
    some (.ok, [0x78, 0x56, 0x34, 0x12]) := by decide
theorem test_wrFloatarr : sink (exec (.wrFloatarr .big) (writer .lsb0 0 0 0 (nums [0x3F800000]))) =
    some (.ok, [0x3F, 0x80, 0x00, 0x00]) := by decide
theorem test_wrDoublearr : sink (exec (.wrDoublearr .little) (writer .lsb0 0 0 0 (nums [0x3FF0000000000000]))) =
    some (.ok, [0, 0, 0, 0, 0, 0, 0xF0, 0x3F]) := by decide
-- V53.
theorem test_wrStrarr : sink (exec (.wrStrarr .big) (writer .lsb0 0 0 0 [.str .absent, str [0x41], str []])) =
    some (.ok, [0xFF, 0x01, 0x41, 0x00]) := by decide
-- V12.
theorem test_wrAlign : sink (exec .wrAlign (writer .msb0 0x5 3 4 [])) = some (.ok, [0xA0, 0x00, 0x00, 0x00]) ∧
    wrRegs (exec .wrAlign (writer .msb0 0x5 3 4 [])) = some ⟨.ok, 0, 0, 0, 4, 0, false⟩ := by decide
-- V49, V50.
theorem test_wrFlush : sink (exec .wrFlush (writer .lsb0 0x5 3 0 [])) = some (.ok, [0x05]) ∧
    wrRegs (exec .wrFlush (writer .lsb0 0x5 3 0 [])) = some ⟨.ok, 0, 0, 0, 1, 1, false⟩ := by decide
theorem test_wrClose : wrRegs (exec .wrClose (writer .lsb0 0x5 3 0 [])) = some ⟨.ok, 0, 0, 0, 1, 1, true⟩ := by decide
theorem test_wrClose_again : sink (exec .wrClose closedWriter) = some (.illegalState, [0x01]) := by decide
theorem test_wrGetcnt_closed : wrRegs (exec .wrGetcnt closedWriter) = some ⟨.ok, 1, 0, 0, 1, 1, true⟩ := by decide
-- V58, both values of the parameter.
theorem test_wrRstcnt_keeps : (wrResetCounter false (writer .lsb0 0xF 4 0 []).wr).bitBuf = 0xF#8 := by decide
theorem test_wrRstcnt_clears : (wrResetCounter true (writer .lsb0 0xF 4 0 []).wr).bitBuf = 0x0#8 ∧
    (wrResetCounter true closedWriter.wr).byteCnt = 0#64 := by decide

/-! ## One step -/

/-- The next command of the hosts, on the port of a unit. -/
def issued (p : UnitId) (cw : CmdWord) (s : State) : State := s.withHost [⟨p, ⟨cw, 0#64, 0#64, []⟩⟩]

-- V59: unassigned, sent to the other unit, reserved bits.
theorem test_step_illegal_rd : rdRegs (step (issued .rd 0x0B00 (reader .lsb0 [1] 0 0))) =
    some ⟨.illegalCommand, 0, 0, 0, 0, false⟩ ∧
    rdRegs (step (issued .rd 0x8200 (reader .lsb0 [1] 0 0))) = some ⟨.illegalCommand, 0, 0, 0, 0, false⟩ := by decide
-- V60: the order of the checks on a closed writer.
theorem test_step_closed : sink (step (issued .wr 0x8200 closedWriter)) = some (.illegalState, [0x01]) ∧
    sink (step (issued .wr 0xA810 closedWriter)) = some (.illegalCommand, [0x01]) ∧
    sink (step (issued .wr 0x8100 closedWriter)) = some (.illegalState, [0x01]) ∧
    sink (step (issued .wr 0xA800 closedWriter)) = some (.ok, [0x01]) := by decide
theorem test_step_idle : step State.reset = .next State.reset := by rfl
theorem test_withFetchWord : rdRegs (step (State.reset.withFetchWord 16 0x0108)) = some ⟨.eof, 0, 0, 0, 0, false⟩ ∧
    (step (State.reset.withFetchWord 16 0x0108) = exec (.rdBits 8) (accept (commandOfWord 0x0108) State.reset)) := by
  exact ⟨by decide, rfl⟩

/-! ## Witnesses: for each statement with hypotheses, states and operands that meet all of them, for each of its clauses at a
boundary of its range -/

theorem witness_DecodeOfEncode : (Instr.rdBits 0).WellFormed = true ∧ (Instr.wrBitsarr 15).WellFormed = true ∧
    (Instr.rdStrarr .little).WellFormed = true := by decide

theorem witness_EncodeOfDecode : decode 0x010F#16 = .ok (.rdBits 15) ∧ decode 0xA900#16 = .ok .wrRstcnt := by decide

theorem witness_StepRunsTheDecodedCommand :
    (issued .rd 0x0108 (reader .lsb0 [0xB4] 0 0)).host = [⟨.rd, ⟨0x0108#16, 0#64, 0#64, []⟩⟩] ∧
    decode 0x0108#16 = .ok (.rdBits 8) ∧ unitOfWord 0x0108#16 = .rd ∧
    decode 0xA400#16 = .ok .wrFlush ∧ unitOfWord 0xA400#16 = .wr ∧ State.reset.host = [] := by decide

theorem witness_IllegalCommandsChangeNothing :
    (∃ e, decode 0x0B00#16 = .error e) ∧ (∃ e, decode 0xA401#16 = .error e) ∧
    unitOfWord 0x8200#16 ≠ UnitId.rd ∧ unitOfWord 0x0200#16 ≠ UnitId.wr :=
  ⟨⟨.unassignedOpcode, by decide⟩, ⟨.unusedWidth, by decide⟩, by decide, by decide⟩

/-- WR.BITSARR w=3 is issued with two numeric items. -/
def bitsarrIssued : State := State.reset.withHost [commandOf (.wrBitsarr 3) 0#64 0#64 (nums [1, 2])]

theorem witness_StepCompletes : ∀ (c : HostCommand) (cs : List HostCommand) (i : Instr), bitsarrIssued.host = c :: cs →
    c.Is i → OmemFits i (accept c (bitsarrIssued.withHost cs)) := by
  intro c cs i h hi
  cases h
  have : i = .wrBitsarr 3 := by
    have h1 : decode (encode (.wrBitsarr 3)) = .ok i := hi.1
    rw [show decode (encode (.wrBitsarr 3)) = .ok (.wrBitsarr 3) by decide] at h1
    cases h1
    rfl
  subst this
  exact ⟨fun _ => by decide, fun h => absurd h (by decide)⟩

theorem witness_StopsOnlyOnOmemItemKind :
    ∀ t, exec (.wrShortarr .big) (writer .lsb0 0 0 0 [str [0x41]]) ≠ .next t := by
  intro t h
  rw [show exec (.wrShortarr .big) (writer .lsb0 0 0 0 [str [0x41]]) = .refused .omemItemKind by rfl] at h
  cases h

/-- BitStreamLaw and ReadBitField: nothing pending, and five bits pending under both orders, at the least and greatest width. -/
theorem witness_bitReads : (reader .lsb0 [] 0 0).rd.Inv ∧ (reader .lsb0 [] 0 0).rd.pending = [] ∧
    pendingBits (reader .lsb0 [] 0 0).rd = 0 ∧
    (readerMid .lsb0 [0xB4] 0x16 5 0 0).rd.Inv ∧ (readerMid .msb0 [0xB4] 0x05 5 0 0).rd.Inv ∧
    (readerMid .lsb0 [0xB4] 0x16 5 0 0).rd.pending ≠ [] ∧ 0 < pendingBits (readerMid .msb0 [0xB4] 0x05 5 0 0).rd ∧
    1 ≤ 1 ∧ 1 ≤ 8 ∧ 8 ≤ 8 := by
  refine ⟨?_, ?_, ?_, ?_, ?_, ?_, ?_, ?_, ?_, ?_⟩ <;> decide

theorem witness_WidthOutsideRange : ¬ (1 ≤ 0 ∧ 0 ≤ 8) ∧ ¬ (1 ≤ 9 ∧ 9 ≤ 8) ∧ ¬ (1 ≤ 15 ∧ 15 ≤ 8) ∧
    State.reset.wr.closed = false := by decide

theorem witness_ReadScalar : scalarRead .rdByte = some ⟨1, .big, zextLane⟩ ∧
    scalarRead (.rdLong .little) = some ⟨8, .little, zextLane⟩ ∧
    (reader .lsb0 [0xA5] 0 0).rd.Inv ∧ 8 * 1 ≤ pendingBits (reader .lsb0 [0xA5] 0 0).rd ∧
    (readerMid .lsb0 [0xA5, 1, 2, 3, 4, 5, 6, 7, 8] 0xA 4 0 0).rd.Inv ∧
    8 * 8 ≤ pendingBits (readerMid .lsb0 [0xA5, 1, 2, 3, 4, 5, 6, 7, 8] 0xA 4 0 0).rd :=
  ⟨rfl, rfl, by decide, by decide, by decide, by decide⟩

theorem witness_ReadScalarCutOff : scalarRead .rdByte = some ⟨1, .big, zextLane⟩ ∧
    (reader .lsb0 [] 0 0).rd.Inv ∧ pendingBits (reader .lsb0 [] 0 0).rd < 8 * 1 ∧
    (readerMid .lsb0 [0xA5] 0x52 7 0 0).rd.Inv ∧ pendingBits (readerMid .lsb0 [0xA5] 0x52 7 0 0).rd < 8 * 1 :=
  ⟨rfl, by decide, by decide, by decide, by decide⟩

theorem witness_ReadArrayFixed : arrayRead (.rdShortarr .little) = some ⟨2, .little, sextLane 16⟩ ∧
    (reader .lsb0 [1, 2, 3, 4] 2 0).rd.Inv ∧ 0 ≤ (reader .lsb0 [1, 2, 3, 4] 2 0).rd.cmd.a.toInt ∧
    (reader .lsb0 [1, 2, 3, 4] 2 0).rd.cmd.a.toInt.toNat * (8 * 2) ≤ pendingBits (reader .lsb0 [1, 2, 3, 4] 2 0).rd ∧
    0 ≤ (reader .lsb0 [] 0 0).rd.cmd.a.toInt ∧
    (reader .lsb0 [] 0 0).rd.cmd.a.toInt.toNat * (8 * 2) ≤ pendingBits (reader .lsb0 [] 0 0).rd :=
  ⟨rfl, by decide, by decide, by decide, by decide, by decide⟩

theorem witness_ReadArrayFixedCutOff : arrayRead (.rdBytearr .big) = some ⟨1, .big, zextLane⟩ ∧
    (reader .lsb0 [1, 2, 3] 4 0).rd.Inv ∧ 0 ≤ (reader .lsb0 [1, 2, 3] 4 0).rd.cmd.a.toInt ∧
    pendingBits (reader .lsb0 [1, 2, 3] 4 0).rd < (reader .lsb0 [1, 2, 3] 4 0).rd.cmd.a.toInt.toNat * (8 * 1) :=
  ⟨rfl, by decide, by decide, by decide⟩

/-- RD over `src` for an array read in until-exhaustion mode with limiter `l`. -/
def untilEnd (l : Int) (src : List Byte) : RdUnit := (reader .lsb0 src (-1) l).rd

/-- The soft cap met exactly; then no interruption by a hard cap met exactly, by a soft cap one too large, and by no cap over an
empty source. -/
theorem witness_ReadArrayUntilExhaustion :
    arrayRead .rdBoolarr = some ⟨1, .big, boolLane⟩ ∧ (untilEnd (-2) [1, 2]).Inv ∧ (untilEnd (-2) [1, 2]).cmd.a.toInt < 0 ∧
    (untilEnd (-2) [1, 2]).cmd.l.toInt < 0 ∧
    -(untilEnd (-2) [1, 2]).cmd.l.toInt ≤ ((pendingBits (untilEnd (-2) [1, 2]) / (8 * 1) : Nat) : Int) ∧
    ((pendingBits (untilEnd 2 [1, 2]) / (8 * 1) : Nat) : Int) ≤ (untilEnd 2 [1, 2]).cmd.l.toInt ∧
    ((pendingBits (untilEnd (-3) [1, 2]) / (8 * 1) : Nat) : Int) < -(untilEnd (-3) [1, 2]).cmd.l.toInt ∧
    pendingBits (untilEnd 2 [1, 2]) % (8 * 1) = 0 ∧ (untilEnd 0 []).Inv ∧ pendingBits (untilEnd 0 []) % (8 * 1) = 0 := by
  refine ⟨rfl, ?_, ?_, ?_, ?_, ?_, ?_, ?_, ?_, ?_⟩ <;> decide

/-- One item over a hard cap; and an element cut off after the whole ones. -/
theorem witness_ReadArrayUntilExhaustionFaults :
    arrayRead (.rdUshortarr .big) = some ⟨2, .big, zextLane⟩ ∧ (untilEnd 1 [1, 2, 3, 4]).Inv ∧
    (untilEnd 1 [1, 2, 3, 4]).cmd.a.toInt < 0 ∧ 0 < (untilEnd 1 [1, 2, 3, 4]).cmd.l.toInt ∧
    (untilEnd 1 [1, 2, 3, 4]).cmd.l.toInt < ((pendingBits (untilEnd 1 [1, 2, 3, 4]) / (8 * 2) : Nat) : Int) ∧
    (untilEnd 1 [1, 2, 3]).Inv ∧ ((pendingBits (untilEnd 1 [1, 2, 3]) / (8 * 2) : Nat) : Int) ≤ (untilEnd 1 [1, 2, 3]).cmd.l.toInt ∧
    pendingBits (untilEnd 1 [1, 2, 3]) % (8 * 2) ≠ 0 := by
  refine ⟨rfl, ?_, ?_, ?_, ?_, ?_, ?_, ?_⟩ <;> decide

/-- Sixteen bits pending: six groups of three with a short one, and the seventh has no bit; eight groups of two, not nine. -/
theorem witness_ReadBitGroupsFixed :
    let u (a : Int) : RdUnit := (reader .lsb0 [0xE4, 0x1B] a 0).rd
    (u 6).Inv ∧ 0 ≤ (u 6).cmd.a.toInt ∧ (u 6).cmd.a.toInt.toNat * 3 < pendingBits (u 6) + 3 ∧
    pendingBits (u 7) + 3 ≤ (u 7).cmd.a.toInt.toNat * 3 ∧ (u 8).cmd.a.toInt.toNat * 2 < pendingBits (u 8) + 2 ∧
    pendingBits (u 9) + 2 ≤ (u 9).cmd.a.toInt.toNat * 2 := by decide

theorem witness_ReadBitGroupsUntilExhaustion :
    let u (l : Int) : RdUnit := (reader .lsb0 [0xE4, 0x1B] (-1) l).rd
    (u 0).Inv ∧ (u 0).cmd.a.toInt < 0 ∧ 6 = (pendingBits (u 0) + 3 - 1) / 3 ∧
    0 < (u 5).cmd.l.toInt ∧ (u 5).cmd.l.toInt < ((6 : Nat) : Int) ∧
    (u (-6)).cmd.l.toInt < 0 ∧ -(u (-6)).cmd.l.toInt ≤ ((6 : Nat) : Int) ∧
    ((6 : Nat) : Int) ≤ (u 6).cmd.l.toInt ∧ ((6 : Nat) : Int) < -(u (-7)).cmd.l.toInt := by decide

/-- An absent string; a payload of one byte behind a length of two bytes, which is not the shortest encoding. -/
theorem witness_ReadString : (reader .lsb0 [0xFF] 0 0).rd.Inv ∧ StringWire .big .absent [0xFF] ∧
    (reader .lsb0 [0xFF] 0 0).rd.Upcoming [0xFF] ∧
    (reader .lsb0 [0x82, 0x00, 0x01, 0x41] 0 0).rd.Inv ∧ StringWire .big (.present [0x41]) [0x82, 0x00, 0x01, 0x41] ∧
    (reader .lsb0 [0x82, 0x00, 0x01, 0x41] 0 0).rd.Upcoming [0x82, 0x00, 0x01, 0x41] :=
  ⟨by decide, .absent, ⟨by decide, by decide⟩, by decide, .long 2 [0x00, 0x01] [0x41] (by decide) rfl (by decide), ⟨by decide, by decide⟩⟩

/-- With fewer than eight bits pending no byte is upcoming. -/
theorem none_upcoming {u : RdUnit} (h : pendingBits u < 8) {bs : List Byte} (hb : bs ≠ []) : ¬ u.Upcoming bs := by
  intro hu
  have h1 := hu.1
  have h2 : 0 < bs.length := List.length_pos_iff.2 hb
  omega

/-- The least and greatest malformed first bytes; then no string for want of any bit, and with seven bits left. -/
theorem witness_ReadStringFaults :
    (reader .lsb0 [0x80] 0 0).rd.Inv ∧ (reader .lsb0 [0x80] 0 0).rd.Upcoming [0x80] ∧
    (reader .lsb0 [0xFE] 0 0).rd.Inv ∧ (reader .lsb0 [0xFE] 0 0).rd.Upcoming [0xFE] ∧
    (reader .lsb0 [] 0 0).rd.Inv ∧ (readerMid .lsb0 [0x21] 0x10 7 0 0).rd.Inv ∧
    (∀ (bo : ByteOrder) (x : StrItem) (bs : List Byte), StringWire bo x bs →
      ¬ (reader .lsb0 [] 0 0).rd.Upcoming bs ∧ ¬ (readerMid .lsb0 [0x21] 0x10 7 0 0).rd.Upcoming bs) ∧
    (∀ b : Byte, ¬ (reader .lsb0 [] 0 0).rd.Upcoming [b] ∧ ¬ (readerMid .lsb0 [0x21] 0x10 7 0 0).rd.Upcoming [b]) := by
  refine ⟨by decide, ⟨by decide, by decide⟩, by decide, ⟨by decide, by decide⟩, by decide, by decide, ?_, fun b => ?_⟩
  · intro bo x bs h
    have hb : bs ≠ [] := by cases h <;> simp
    exact ⟨none_upcoming (by decide) hb, none_upcoming (by decide) hb⟩
  · exact ⟨none_upcoming (by decide) (by simp), none_upcoming (by decide) (by simp)⟩

/-- Two strings on the wire. -/
theorem twoWires : List.Forall₂ (StringWire .big) [.absent, .present [0x41]] [[0xFF], [0x01, 0x41]] :=
  .cons .absent (.cons (.short [0x41] (by decide)) .nil)

/-- Fixed mode for two strings and for none; a soft cap met exactly; a hard cap met exactly and a soft cap one too large. -/
theorem witness_ReadStringArray :
    let s (a l : Int) : State := reader .lsb0 [0xFF, 0x01, 0x41] a l
    (s 2 0).rd.Inv ∧ List.Forall₂ (StringWire .big) [.absent, .present [0x41]] [[0xFF], [0x01, 0x41]] ∧
    (s 2 0).rd.Upcoming [[0xFF], [0x01, 0x41]].flatten ∧ (s 2 0).rd.cmd.a.toInt = ((2 : Nat) : Int) ∧
    List.Forall₂ (StringWire .big) [] [] ∧ (s 0 0).rd.Upcoming [].flatten ∧ (s 0 0).rd.cmd.a.toInt = ((0 : Nat) : Int) ∧
    (s (-1) (-2)).rd.cmd.a.toInt < 0 ∧ -(s (-1) (-2)).rd.cmd.l.toInt = ((2 : Nat) : Int) ∧
    ((2 : Nat) : Int) ≤ (s (-1) 2).rd.cmd.l.toInt ∧ ((2 : Nat) : Int) < -(s (-1) (-3)).rd.cmd.l.toInt ∧
    8 * [[0xFF], [0x01, 0x41]].flatten.length = pendingBits (s (-1) 2).rd :=
  ⟨by decide, twoWires, ⟨by decide, by decide⟩, by decide, .nil, ⟨by decide, by decide⟩, by decide, by decide, by decide,
    by decide, by decide, by decide⟩

/-- One string over a hard cap; a third string asked for in both modes, whose first byte is malformed. -/
theorem witness_ReadStringArrayFaults :
    let s (a l : Int) : State := reader .lsb0 [0xFF, 0x01, 0x41, 0x85] a l
    (s (-1) 1).rd.Inv ∧ (s (-1) 1).rd.Upcoming [[0xFF], [0x01, 0x41]].flatten ∧ (s (-1) 1).rd.cmd.a.toInt < 0 ∧
    0 < (s (-1) 1).rd.cmd.l.toInt ∧ ((2 : Nat) : Int) = (s (-1) 1).rd.cmd.l.toInt + 1 ∧
    ((2 : Nat) : Int) < (s 3 0).rd.cmd.a.toInt ∧ 8 * [[0xFF], [0x01, 0x41]].flatten.length < pendingBits (s (-1) 2).rd ∧
    ((2 : Nat) : Int) ≤ (s (-1) 2).rd.cmd.l.toInt ∧ ((2 : Nat) : Int) < -(s (-1) (-3)).rd.cmd.l.toInt ∧
    (s 3 0).rd.Upcoming ([[0xFF], [0x01, 0x41]].flatten ++ [0x85]) :=
  ⟨by decide, ⟨by decide, by decide⟩, by decide, by decide, by decide, by decide, by decide, by decide, by decide,
    ⟨by decide, by decide⟩⟩

/-- The string asked for after an absent one has no bit left, one bit, seven bits, a length byte short, or a payload byte short. -/
theorem witness_ReadStringArrayFaults_cutOff :
    ∀ s ∈ [reader .lsb0 [0xFF] 2 0, readerMid .lsb0 [0x80, 0x7F] 0x1 1 2 0, readerMid .lsb0 [0xFF, 0xFF] 0x7F 7 2 0,
      reader .lsb0 [0xFF, 0x82, 0x00] 2 0, reader .lsb0 [0xFF, 0x02, 0x41] 2 0],
      s.rd.Inv ∧ ((1 : Nat) : Int) < s.rd.cmd.a.toInt ∧ List.Forall₂ (StringWire .big) [.absent] [[0xFF]] ∧
      s.rd.Upcoming [[0xFF]].flatten ∧
      (∀ b : Byte, b = 0x80#8 ∨ (0x85 ≤ b.toNat ∧ b.toNat ≤ 0xFE) → ¬ s.rd.Upcoming ([[0xFF]].flatten ++ [b])) ∧
      (∀ (x : StrItem) (bs : List Byte), StringWire .big x bs → ¬ s.rd.Upcoming ([[0xFF]].flatten ++ bs)) := by
  intro s hs
  have key : s.rd.Inv ∧ ((1 : Nat) : Int) < s.rd.cmd.a.toInt ∧ s.rd.Upcoming [[0xFF]].flatten ∧
      ∃ v, decodeString .big (s.rd.consume (8 * [[0xFF#8]].flatten.length)) = .raise .endOfData v := by
    simp only [List.mem_cons, List.not_mem_nil, or_false] at hs
    rcases hs with rfl | rfl | rfl | rfl | rfl <;>
      exact ⟨by decide, by decide, ⟨by decide, by decide⟩, _, rfl⟩
  obtain ⟨h1, h2, h3, v, h4⟩ := key
  exact ⟨h1, h2, .cons .absent .nil, h3, nothing_upcoming_after h1 h3 h4⟩

theorem witness_AlignByteDropsTheRest : (reader .lsb0 [1] 0 0).rd.Inv ∧ (readerMid .lsb0 [0xB4] 0x16 5 0 0).rd.Inv :=
  ⟨by decide, by decide⟩

/-- A of 0 and below; no byte to skip, at the end of the source; and a source that ends first. -/
theorem witness_AlignReader :
    (reader .lsb0 [] 0 0).rd.cmd.a.toInt ≤ 0 ∧ (reader .lsb0 [] (-4) 0).rd.cmd.a.toInt ≤ 0 ∧
    (reader .lsb0 [] 8 0).rd.Inv ∧ 0 < (reader .lsb0 [] 8 0).rd.cmd.a.toInt ∧
    (reader .lsb0 [] 8 0).rd.bitCnt.toNat + 8 * 0 ≤ pendingBits (reader .lsb0 [] 8 0).rd ∧
    (((reader .lsb0 [] 8 0).rd.consume (reader .lsb0 [] 8 0).rd.bitCnt.toNat).byteCnt + BitVec.ofNat 64 0).toNat
      % (reader .lsb0 [] 8 0).rd.cmd.a.toInt.toNat = 0 ∧
    (readerMid .lsb0 [1, 2] 0x0 5 4 0).rd.Inv ∧
    (∀ j, (readerMid .lsb0 [1, 2] 0x0 5 4 0).rd.bitCnt.toNat + 8 * j ≤ pendingBits (readerMid .lsb0 [1, 2] 0x0 5 4 0).rd →
      (((readerMid .lsb0 [1, 2] 0x0 5 4 0).rd.consume (readerMid .lsb0 [1, 2] 0x0 5 4 0).rd.bitCnt.toNat).byteCnt
        + BitVec.ofNat 64 j).toNat % (readerMid .lsb0 [1, 2] 0x0 5 4 0).rd.cmd.a.toInt.toNat ≠ 0) := by
  refine ⟨by decide, by decide, by decide, by decide, by decide, by decide, by decide, fun j hj => ?_⟩
  have h1 : pendingBits (readerMid .lsb0 [1, 2] 0x0 5 4 0).rd = 13 := by decide
  have h2 : (readerMid .lsb0 [1, 2] 0x0 5 4 0).rd.bitCnt.toNat = 5 := by decide
  have : j ≤ 1 := by omega
  interval_cases j <;> decide

theorem witness_MarkRecordsThePosition : 0 ≤ (reader .lsb0 [] 0 0).rd.cmd.a.toInt ∧
    (reader .lsb0 [] (-1) 0).rd.cmd.a.toInt < 0 := by decide

/-- Exactly MARKLIM bytes since the mark; one more; and no mark. -/
theorem witness_ResetRestoresTheMark :
    (readerMarked [1, 2, 3] 2 2).rd.markValid = true ∧
    ((readerMarked [1, 2, 3] 2 2).rd.srcPos : Int) - (readerMarked [1, 2, 3] 2 2).rd.markPos
      ≤ (readerMarked [1, 2, 3] 2 2).rd.markLim.toNat ∧
    ((readerMarked [1, 2, 3] 2 3).rd.markLim.toNat : Int)
      < ((readerMarked [1, 2, 3] 2 3).rd.srcPos : Int) - (readerMarked [1, 2, 3] 2 3).rd.markPos ∧
    State.reset.rd.markValid = false := by decide

theorem witness_BufferReadsInRange : (readerMid .lsb0 [0xFF] 0x7F 7 0 0).rd.Inv ∧
    (∃ t, exec .rdGetbuf (readerMid .lsb0 [0xFF] 0x7F 7 0 0) = .next t) ∧
    (∃ u, exec .rdGetnbits (readerMid .lsb0 [0xFF] 0x7F 7 0 0) = .next u) := ⟨by decide, ⟨_, rfl⟩, ⟨_, rfl⟩⟩

/-- CounterReset, WrittenStreamLaw, AlignWriter, FlushAndClose: an open writer, with an empty buffer and with seven bits, A least. -/
theorem witness_openWriter : (writer .lsb0 0 0 1 []).wr.Inv ∧ (writer .msb0 0x7F 7 1 []).wr.Inv ∧
    (writer .msb0 0x7F 7 1 []).wr.closed = false ∧ 0 < (writer .msb0 0x7F 7 1 []).wr.cmd.a.toInt ∧ 1 ≤ 8 ∧ 8 ≤ 8 := by
  decide

theorem witness_WriteScalar : (∃ f, scalarWrite .wrByte = some f) ∧ (∃ f, scalarWrite (.wrDouble .little) = some f) ∧
    (writer .lsb0 0x7F 7 5 []).wr.Inv ∧ (writer .lsb0 0x7F 7 5 []).wr.closed = false :=
  ⟨⟨_, rfl⟩, ⟨_, rfl⟩, by decide, by decide⟩

/-- WriteBitGroups and WriteArray: no item, and two. -/
theorem witness_itemWrites : (∃ f, arrayWrite (.wrIntarr .big) = some f) ∧ (writer .lsb0 0x1 1 0 []).wr.Inv ∧
    (writer .lsb0 0x1 1 0 []).wr.cmd.omem = ([] : List Lane).map .num ∧
    (writer .lsb0 0x1 1 0 (nums [1, 2])).wr.cmd.omem = [1#64, 2#64].map .num ∧
    (writer .lsb0 0x1 1 0 (nums [1, 2])).wr.closed = false := ⟨⟨_, rfl⟩, by decide, by decide, by decide, by decide⟩

/-- A is OLEN, 0, or negative. -/
theorem witness_WriteBytes :
    let u (a : Int) : WrUnit := (writer .lsb0 0 0 a (nums [1, 2])).wr
    (u 2).Inv ∧ (u 2).closed = false ∧ (u 2).cmd.omem = [1#64, 2#64].map .num ∧ (u 2).cmd.a.toInt ≤ ((2 : Nat) : Int) ∧
    2 = (if (u 2).cmd.a.toInt < 0 then 2 else (u 2).cmd.a.toInt.toNat) ∧
    0 = (if (u 0).cmd.a.toInt < 0 then 2 else (u 0).cmd.a.toInt.toNat) ∧
    2 = (if (u (-1)).cmd.a.toInt < 0 then 2 else (u (-1)).cmd.a.toInt.toNat) := by decide

theorem witness_WriteStrings : (writer .lsb0 0x1 1 0 [.str .absent]).wr.Inv ∧
    (writer .lsb0 0x1 1 0 [.str .absent]).wr.cmd.omem = [StrItem.absent].map .str ∧
    (writer .lsb0 0x1 1 0 [.str .absent]).wr.closed = false ∧ [StrItem.absent].length = 1 ∧
    (∀ x ∈ [StrItem.absent], ∀ p, x = .present p → p.length ≤ 0xFFFFFFFF) := by
  refine ⟨by decide, by decide, by decide, by decide, fun x hx p hp => ?_⟩
  rw [List.mem_singleton.1 hx] at hp
  cases hp

/-- A payload one byte longer than any row of the encoder takes. -/
def tooLong : List Byte := List.replicate 0x100000000 0#8

theorem witness_WriterArgumentChecks :
    ((writer .lsb0 0 0 1 []).wr.cmd.omem.length : Int) < (writer .lsb0 0 0 1 []).wr.cmd.a.toInt ∧
    (writer .lsb0 0 0 0 []).wr.cmd.a.toInt ≤ 0 ∧ (writer .lsb0 0 0 0 []).wr.cmd.omem.length ≠ 1 ∧
    (writer .lsb0 0 0 0 [str [], str []]).wr.cmd.omem.length ≠ 1 ∧
    (writer .lsb0 0 0 0 [str tooLong]).wr.cmd.omem = [StrItem.present tooLong].map .str ∧ 0xFFFFFFFF < tooLong.length ∧
    (writer .lsb0 0 0 0 [str tooLong]).wr.closed = false :=
  ⟨by decide, by decide, by decide, by decide, rfl, by rw [tooLong, List.length_replicate]; decide, rfl⟩

theorem witness_ClosedRule : closedWriter.wr.closed = true ∧ unitOf .wrByte = .wr ∧ unitOf (.wrBits 0) = .wr ∧
    (∃ e, decode 0xA810#16 = .error e) ∧ unitOfWord 0x0200#16 = .rd ∧
    (∃ t, step (issued .wr 0xA810 closedWriter) = .next t) := by
  refine ⟨by decide, by decide, by decide, ⟨.reservedBits, by decide⟩, by decide, ⟨_, rfl⟩⟩

theorem witness_WriteByteCounts :
    let s (omem : List Item) : State := writer .lsb0 0x1 1 5 omem
    (s []).wr.Inv ∧ (s []).wr.closed = false ∧ (∃ f t, scalarWrite .wrByte = some f ∧ exec .wrByte (s []) = .next t) ∧
    (∃ f t, arrayWrite .wrBoolarr = some f ∧ exec .wrBoolarr (s (nums [1])) = .next t) ∧
    (s (nums [1])).wr.cmd.omem = [1#64].map .num ∧ (∃ t, exec (.wrBitsarr 7) (s (nums [1])) = .next t) :=
  ⟨by decide, by decide, ⟨_, _, rfl, rfl⟩, ⟨_, _, rfl, rfl⟩, by decide, ⟨_, rfl⟩⟩

/-- An absent string is one byte; a string of one byte is two. -/
theorem witness_StringSizeLaw : (writer .lsb0 0x1 1 0 [.str .absent]).wr.Inv ∧
    (∃ t, exec (.wrString .big) (writer .lsb0 0x1 1 0 [.str .absent]) = .next t ∧ t.wr.rsp.st = .ok) ∧
    (∃ t, exec (.wrString .big) (writer .lsb0 0x1 1 0 [str [0x41]]) = .next t ∧ t.wr.rsp.st = .ok) ∧
    2 = 1 + (if [0x41#8].length < 0x80 then 0 else 1) + [0x41#8].length :=
  ⟨by decide, ⟨_, rfl, rfl⟩, ⟨_, rfl, rfl⟩, by decide⟩

/-- The statements about every step: states with the invariant in which a step of RD, of WR, and an idle step answer. -/
theorem witness_steps : (issued .rd 0x0104 (readerMid .lsb0 [0xB4, 0x6D] 0x16 5 0 0)).Inv ∧
    (∃ t, step (issued .rd 0x0104 (readerMid .lsb0 [0xB4, 0x6D] 0x16 5 0 0)) = .next t) ∧
    (issued .wr 0xA500 (writer .msb0 0x7F 7 0 [])).Inv ∧
    (∃ t, step (issued .wr 0xA500 (writer .msb0 0x7F 7 0 [])) = .next t ∧ t.wr.closed = true) ∧
    closedWriter.Inv ∧ (∃ t, step closedWriter = .next t) :=
  ⟨by decide, ⟨_, rfl⟩, by decide, ⟨_, rfl, rfl⟩, by decide, ⟨_, rfl⟩⟩

/-- StrapsAndSourceFixed: an array read within RMEM_MAX and OMEM_MAX, whatever they are, that answers OK; and one that makes two
items. -/
theorem witness_StrapsAndSourceFixed :
    (issued .rd 0x1100 (reader .lsb0 [] 0 0)).Admitted ∧ (issued .rd 0x1100 (reader .lsb0 [] 0 0)).rd.Inv ∧
    (∃ t, step (issued .rd 0x1100 (reader .lsb0 [] 0 0)) = .next t ∧ t.rd.rsp.st = .ok) ∧
    HostCommand.Is ⟨.rd, ⟨0x1100#16, 0#64, 0#64, []⟩⟩ (.rdBytearr .big) ∧
    (∃ t, step ((State.construct .lsb0 .lsb0 [1, 2]).withHost [commandOf (.rdBytearr .big) 2#64 0#64 []]) = .next t ∧
      t.rd.rsp.st = .ok ∧ t.rd.rmem.length = 2) := by
  have within : ∀ m : Option Nat, withinMax m 0 := fun m => by cases m <;> simp [withinMax]
  refine ⟨⟨within _, within _, fun c hc hp => ?_⟩, by decide, ⟨_, rfl, rfl⟩, ⟨by decide, by decide⟩, ⟨_, rfl, by decide, by decide⟩⟩
  rw [List.mem_singleton.1 hc] at hp
  cases hp

/-- UnitsShareNoState: the same command of either unit in states that differ in the other unit. -/
theorem witness_UnitsShareNoState :
    (issued .rd 0x0200 (reader .lsb0 [1] 0 0)).host = (issued .rd 0x0200 ((reader .lsb0 [1] 0 0).withWr closedWriter.wr)).host ∧
    ((issued .rd 0x0200 ((reader .lsb0 [1] 0 0).withWr closedWriter.wr)).rd = (issued .rd 0x0200 (reader .lsb0 [1] 0 0)).rd) ∧
    (∃ t, step (issued .rd 0x0200 (reader .lsb0 [1] 0 0)) = .next t) ∧
    (issued .wr 0x8200 ((writer .lsb0 0 0 0 []).withRd (reader .lsb0 [1] 0 0).rd)).wr = (issued .wr 0x8200 (writer .lsb0 0 0 0 [])).wr ∧
    (∃ t, step (issued .wr 0x8200 (writer .lsb0 0 0 0 [])) = .next t) :=
  ⟨rfl, rfl, ⟨_, rfl⟩, rfl, ⟨_, rfl⟩⟩

/-- WhoWritesTheFlagAndTheMark: steps that change DETLIM (by RD.SETDL, and by an array read with a soft cap) and the mark. -/
theorem witness_WhoWritesTheFlagAndTheMark :
    (∃ t, step (State.reset.withHost [commandOf .rdSetdl 1#64 0#64 []]) = .next t ∧ t.rd.detLim = true) ∧
    (∃ t, step ((State.construct .lsb0 .lsb0 [1, 2]).withHost
      [commandOf (.rdBytearr .big) (.ofInt 64 (-1)) (.ofInt 64 (-1)) []]) = .next t ∧ t.rd.detLim = true) ∧
    (∃ t, step (State.reset.withHost [commandOf .rdMark 1#64 0#64 []]) = .next t ∧ t.rd.markValid = true) :=
  ⟨⟨_, rfl, by decide⟩, ⟨_, rfl, by decide⟩, ⟨_, rfl, by decide⟩⟩

/-- ByteCounterLaw: a step that is neither RD.RSTCNT nor RD.RESET and ends a byte. -/
theorem witness_ByteCounterLaw :
    (issued .rd 0x0105 (readerMid .lsb0 [0xB4, 0x6D] 0x16 5 0 0)).rd.Inv ∧
    (∃ t, step (issued .rd 0x0105 (readerMid .lsb0 [0xB4, 0x6D] 0x16 5 0 0)) = .next t ∧ t.rd.byteCnt = 1#64) ∧
    (∀ c cs, (issued .rd 0x0105 (readerMid .lsb0 [0xB4, 0x6D] 0x16 5 0 0)).host = c :: cs →
      ¬ c.Is .rdRstcnt ∧ ¬ c.Is .rdReset) := by
  refine ⟨by decide, ⟨_, rfl, by decide⟩, fun c cs h => ?_⟩
  cases h
  exact ⟨fun hi => absurd hi.1 (by decide), fun hi => absurd hi.1 (by decide)⟩

/-- FaultsArePrecise and CausesOfFaults: a fault of each class that is reached by either unit. -/
theorem witness_faults :
    (∃ t, exec (.rdBits 0) (reader .lsb0 [1] 0 0) = .next t ∧ t.rd.rsp.st = .invalidArgument) ∧
    (∃ t, exec .rdReset (reader .lsb0 [1] 0 0) = .next t ∧ t.rd.rsp.st = .illegalState) ∧
    (∃ t, exec .wrAlign (writer .lsb0 0 0 0 []) = .next t ∧ t.wr.rsp.st = .invalidArgument) ∧
    (∃ t, exec .wrClose closedWriter = .next t ∧ t.wr.rsp.st = .illegalState) ∧
    (∃ t, exec (.wrBytes .big) (writer .lsb0 0 0 1 []) = .next t ∧ t.wr.rsp.st = .invalidArgument) ∧
    (∃ t, exec (.wrString .big) (writer .lsb0 0 0 0 []) = .next t ∧ t.wr.rsp.st = .invalidArgument) ∧
    (∃ t, exec (.rdString .big) (reader .lsb0 [0x80] 0 0) = .next t ∧ t.rd.rsp.st = .malformedWireData) ∧
    (∃ t, exec (.rdBytearr .big) (reader .lsb0 [1, 2] (-1) 1) = .next t ∧ t.rd.rsp.st = .arraySizeExceeded) ∧
    (∃ t, exec (.rdBits 1) (reader .lsb0 [] 0 0) = .next t ∧ t.rd.rsp.st = .eof) :=
  ⟨⟨_, rfl, rfl⟩, ⟨_, rfl, rfl⟩, ⟨_, rfl, rfl⟩, ⟨_, rfl, rfl⟩, ⟨_, rfl, rfl⟩, ⟨_, rfl, rfl⟩, ⟨_, rfl, by decide⟩, ⟨_, rfl, by decide⟩,
    ⟨_, rfl, rfl⟩⟩

theorem witness_EndOfDataIsFinal : (readerMid .lsb0 [0x21] 0x10 7 0 0).rd.Inv ∧ unitOf .rdByte = .rd ∧
    (∃ t, exec .rdByte (readerMid .lsb0 [0x21] 0x10 7 0 0) = .next t ∧ t.rd.rsp.st = .endOfData) ∧
    (scalarRead .rdByte).isSome = true := ⟨by decide, by decide, ⟨_, rfl, by decide⟩, rfl⟩

/-- RD.MARK with limit `a`, then one RD.BYTE from the host's list. -/
def markedThenRead (a : Int) : State := (reader .lsb0 [1, 2] a 0).withHost [commandOf .rdByte 0#64 0#64 []]

/-- ResetReturnsToTheMark: one byte read since a mark of limit 1, and of limit 0. -/
theorem witness_ResetReturnsToTheMark (a : Int) (h : a = 0 ∨ a = 1) :
    0 ≤ (markedThenRead a).rd.cmd.a.toInt ∧ ∃ m t, exec .rdMark (markedThenRead a) = .next m ∧
      (∀ c ∈ m.host.take 1, ¬ c.Is .rdMark) ∧ runSteps 1 m = .next t ∧
      (t.rd.srcPos : Int) - (markedThenRead a).rd.srcPos = 1 := by
  have key : ∀ c ∈ [commandOf .rdByte 0#64 0#64 []].take 1, ¬ c.Is .rdMark := by
    intro c hc hi
    rw [List.mem_singleton.1 hc] at hi
    exact absurd hi.1 (by decide)
  rcases h with rfl | rfl <;> exact ⟨by decide, _, _, rfl, key, rfl, by decide⟩

theorem witness_BitFieldRoundTrip : ∀ f ∈ [(1, 1#64), (8, 0xC3#64)], 1 ≤ f.1 ∧ f.1 ≤ 8 := by decide

/-- StringRoundTrip: at a bit position inside a byte, under MSB0 (V55). -/
theorem witness_StringRoundTrip : (writer .msb0 0x9 4 0 [str [0x48, 0x69]]).wr.Inv ∧
    ∃ t f r : State, exec (.wrString .big) (writer .msb0 0x9 4 0 [str [0x48, 0x69]]) = .next t ∧ t.wr.rsp.st = .ok ∧
      exec .wrFlush t = .next f ∧ r.rd.Inv ∧ r.rd.bitOrder = .msb0 ∧ r.rd.src = f.wr.snk ∧
      r.rd.bitPos = (writer .msb0 0x9 4 0 [str [0x48, 0x69]]).wr.written.length :=
  ⟨by decide, _, _, readerMid .msb0 [0x94, 0x01, 0x29, 0x60] 0x2 4 0 0, rfl, rfl, rfl, by decide, rfl, by decide, by decide⟩

/-- ScalarRoundTrip: V44's one bit and WR.INT. -/
theorem witness_ScalarRoundTrip : readsBack (.wrInt .big) = some (.rdInt .big) ∧
    (writer .lsb0 0x1 1 0x01020304 []).wr.Inv ∧ (writer .lsb0 0x1 1 0x01020304 []).wr.closed = false ∧
    ∃ t f r : State, exec (.wrInt .big) (writer .lsb0 0x1 1 0x01020304 []) = .next t ∧ exec .wrFlush t = .next f ∧
      r.rd.Inv ∧ r.rd.bitOrder = .lsb0 ∧ r.rd.src = f.wr.snk ∧
      r.rd.bitPos = (writer .lsb0 0x1 1 0x01020304 []).wr.written.length :=
  ⟨rfl, by decide, by decide, _, _, readerMid .lsb0 [0x03, 0x04, 0x06, 0x08, 0x00] 0x1 7 0 0, rfl, rfl, by decide, rfl,
    by decide, by decide⟩

/-- ByteCountAtFlush: three bits and an encoded string of two bytes are nineteen bits, in three bytes. -/
theorem witness_ByteCountAtFlush :
    let cmds := [commandOf (.wrBits 3) 5#64 0#64 [], commandOf (.wrString .big) 0#64 0#64 [str [0x41]]]
    (cmds.map HostCommand.bitsWritten).sum = 19 ∧
    (∀ c ∈ cmds, ¬ c.Is .wrAlign ∧ ¬ c.Is .wrRstcnt ∧ ¬ c.Is .wrFlush ∧ ¬ c.Is .wrClose) ∧
    ∃ s t, runSteps 2 ((State.construct .lsb0 .lsb0 []).withHost cmds) = .next s ∧ exec .wrFlush s = .next t ∧
      t.wr.snk.length = 3 := by
  refine ⟨by decide, fun c hc => ?_, _, _, rfl, rfl, rfl⟩
  simp only [List.mem_cons, List.not_mem_nil, or_false] at hc
  rcases hc with rfl | rfl <;> exact ⟨fun hi => absurd hi.1 (by decide), fun hi => absurd hi.1 (by decide),
    fun hi => absurd hi.1 (by decide), fun hi => absurd hi.1 (by decide)⟩

end Sys2Proof.Tests
end

/-! Noninterference of the two units (00_scope.md R2, 20_memory.md R75): a step on the port of one unit is a function of that
unit, one function for each command, put into the state without touching the rest. -/

namespace Sys2Proof.Machine

/-! ## What a step does with its command -/

/-- The unit of the instruction is the unit of the port that took the command. -/
theorem HostCommand.Is.unit {c : HostCommand} {i : Instr} (hi : c.Is i) : unitOf i = c.port :=
  (unitOf_decode hi.1).trans hi.2

/-- A command that is an instruction is accepted, then run. -/
theorem step_of_is {s : State} {c : HostCommand} {cs : List HostCommand} {i : Instr} (hs : s.host = c :: cs)
    (hi : c.Is i) : step s = exec i (accept c (s.withHost cs)) := by
  obtain ⟨hword, hport⟩ := hi
  simp only [step, hs, issue, runWord, hword, if_pos hport]

/-- A command that is no instruction on its port is accepted, then answered IllegalCommand (30_encoding.md R95, R97). -/
theorem step_of_illegal {s : State} {c : HostCommand} {cs : List HostCommand} (hs : s.host = c :: cs)
    (hi : ∀ i, ¬ c.Is i) : step s = .next (illegalCommand c.port (accept c (s.withHost cs))) := by
  rcases step_cases s with ⟨hidle, -⟩ | ⟨d, ds, hd, hstep⟩
  · cases hs.symm.trans hidle
  · cases hs.symm.trans hd
    rcases hstep with ⟨i, his, -, -⟩ | ⟨-, hstep⟩
    · exact absurd his (hi i)
    · exact hstep

theorem accept_of_rd {c : HostCommand} (hp : c.port = .rd) (s : State) :
    accept c s = s.withRd (rdAccept c.tx s.rd) := by
  simp only [accept, hp]

theorem accept_of_wr {c : HostCommand} (hp : c.port = .wr) (s : State) :
    accept c s = s.withWr (wrAccept c.tx s.wr) := by
  simp only [accept, hp]

/-! ## A step is a function of its own unit -/

/-- The outcome replaces unit WR, so which one stood there does not matter. -/
@[simp] theorem outcomeOf_withWr (s : State) (u : WrUnit) (o : Option WrUnit) :
    outcomeOf (s.withWr u) o = outcomeOf s o := by
  cases o <;> rfl

theorem outcomeOf_eq_next {s t : State} {o : Option WrUnit} :
    outcomeOf s o = .next t ↔ ∃ v, o = some v ∧ t = s.withWr v := by
  cases o with
  | none => simp [outcomeOf]
  | some v => simp [outcomeOf, eq_comm]

/-- A step on the port of RD: what it makes of RD is fixed by the command alone, and it always answers. -/
theorem step_rd_alone {c : HostCommand} (hp : c.port = .rd) :
    ∃ f : RdUnit → RdUnit, ∀ (s : State) (cs : List HostCommand), s.host = c :: cs →
      step s = .next ((s.withHost cs).withRd (f s.rd)) := by
  by_cases hi : ∃ i, c.Is i
  · obtain ⟨i, hi⟩ := hi
    refine ⟨fun u => rdBody i (rdAccept c.tx u), fun s cs hs => ?_⟩
    rw [step_of_is hs hi, exec_rd_alone (hi.unit.trans hp), accept_of_rd hp]
    rfl
  · refine ⟨fun u => rdRaise .illegalCommand (rdAccept c.tx u), fun s cs hs => ?_⟩
    rw [step_of_illegal hs (not_exists.mp hi), accept_of_rd hp, hp]
    rfl

/-- A step on the port of WR: what it makes of WR, and whether it answers, is fixed by the command alone. -/
theorem step_wr_alone {c : HostCommand} (hp : c.port = .wr) :
    ∃ f : WrUnit → Option WrUnit, ∀ (s : State) (cs : List HostCommand), s.host = c :: cs →
      step s = outcomeOf (s.withHost cs) (f s.wr) := by
  by_cases hi : ∃ i, c.Is i
  · obtain ⟨i, hi⟩ := hi
    refine ⟨fun u => wrBody i (wrAccept c.tx u), fun s cs hs => ?_⟩
    rw [step_of_is hs hi, exec_wr_alone (hi.unit.trans hp), accept_of_wr hp, outcomeOf_withWr]
    rfl
  · refine ⟨fun u => some (wrRaise .illegalCommand (wrAccept c.tx u)), fun s cs hs => ?_⟩
    rw [step_of_illegal hs (not_exists.mp hi), accept_of_wr hp, hp]
    rfl

/-! ## The obligation -/

/-- Settles O49: both states run the same function of the unit that the command is presented to. -/
theorem unitsShareNoState : Obligations.UnitsShareNoState := by
  intro s s' c cs cs' t hs hs' ht
  refine ⟨fun hp => ?_, fun hp => ?_⟩
  · obtain ⟨f, hf⟩ := step_rd_alone hp
    cases (hf s cs hs).symm.trans ht
    exact ⟨rfl, fun hrd => ⟨_, hf s' cs' hs', congrArg f hrd⟩⟩
  · obtain ⟨f, hf⟩ := step_wr_alone hp
    obtain ⟨v, hv, rfl⟩ := outcomeOf_eq_next.mp ((hf s cs hs).symm.trans ht)
    refine ⟨rfl, fun hwr => ⟨(s'.withHost cs').withWr v, ?_, rfl⟩⟩
    rw [hf s' cs' hs', hwr, hv]
    rfl

end Sys2Proof.Machine

/-! What every step keeps (10_state.md): the invariant of both units, the straps and the source, who writes DETLIM and the mark,
and the direction of SRCPOS. -/

namespace Sys2Proof.Machine

/-! ## What accepting a command leaves (30_encoding.md R90, R91) -/

section
variable (tx : Transaction)

@[simp] theorem rdAccept_bitOrder (u : RdUnit) : (rdAccept tx u).bitOrder = u.bitOrder := rfl
@[simp] theorem rdAccept_src (u : RdUnit) : (rdAccept tx u).src = u.src := rfl
@[simp] theorem rdAccept_srcPos (u : RdUnit) : (rdAccept tx u).srcPos = u.srcPos := rfl
@[simp] theorem rdAccept_detLim (u : RdUnit) : (rdAccept tx u).detLim = u.detLim := rfl
@[simp] theorem rdAccept_markPos (u : RdUnit) : (rdAccept tx u).markPos = u.markPos := rfl
@[simp] theorem rdAccept_cmd (u : RdUnit) : (rdAccept tx u).cmd = tx := rfl
@[simp] theorem wrAccept_bitOrder (u : WrUnit) : (wrAccept tx u).bitOrder = u.bitOrder := rfl
@[simp] theorem wrAccept_cmd (u : WrUnit) : (wrAccept tx u).cmd = tx := rfl
end

/-! ## A step as a turn of one unit -/

/-- What a command presented on the port of RD makes of the unit `u`: it is accepted, then it is an instruction that runs, or it
is turned away with IllegalCommand. -/
inductive RdTurn (c : HostCommand) (u v : RdUnit) : Prop where
  | runs (i : Instr) (hi : c.Is i) (hu : unitOf i = .rd) (hv : v = rdBody i (rdAccept c.tx u))
  | illegal (hi : ∀ i, ¬ c.Is i) (hv : v = rdRaise .illegalCommand (rdAccept c.tx u))

/-- What a command presented on the port of WR makes of the unit `u`. -/
inductive WrTurn (c : HostCommand) (u v : WrUnit) : Prop where
  | runs (i : Instr) (hi : c.Is i) (hu : unitOf i = .wr) (hv : wrBody i (wrAccept c.tx u) = some v)
  | illegal (hi : ∀ i, ¬ c.Is i) (hv : v = wrRaise .illegalCommand (wrAccept c.tx u))

/-- What a step that answers has done. -/
inductive StepTurn (s t : State) : Prop where
  | idle (hs : s.host = []) (ht : t = s)
  | rd (c : HostCommand) (cs : List HostCommand) (v : RdUnit) (hs : s.host = c :: cs) (hp : c.port = .rd)
    (hv : RdTurn c s.rd v) (ht : t = (s.withHost cs).withRd v)
  | wr (c : HostCommand) (cs : List HostCommand) (v : WrUnit) (hs : s.host = c :: cs) (hp : c.port = .wr)
    (hv : WrTurn c s.wr v) (ht : t = (s.withHost cs).withWr v)

theorem step_rd_turn {s t : State} {c : HostCommand} {cs : List HostCommand} (hs : s.host = c :: cs) (hp : c.port = .rd)
    (h : step s = .next t) : StepTurn s t := by
  by_cases hi : ∃ i, c.Is i
  · obtain ⟨i, hi⟩ := hi
    have hu := hi.unit.trans hp
    rw [step_of_is hs hi, exec_rd_alone hu, accept_of_rd hp] at h
    cases h
    exact .rd c cs _ hs hp (.runs i hi hu rfl) rfl
  · rw [step_of_illegal hs (not_exists.mp hi), accept_of_rd hp, hp] at h
    cases h
    exact .rd c cs _ hs hp (.illegal (not_exists.mp hi) rfl) rfl

theorem step_wr_turn {s t : State} {c : HostCommand} {cs : List HostCommand} (hs : s.host = c :: cs) (hp : c.port = .wr)
    (h : step s = .next t) : StepTurn s t := by
  by_cases hi : ∃ i, c.Is i
  · obtain ⟨i, hi⟩ := hi
    have hu := hi.unit.trans hp
    rw [step_of_is hs hi, exec_wr_alone hu, accept_of_wr hp, outcomeOf_withWr] at h
    obtain ⟨v, hv, rfl⟩ := outcomeOf_eq_next.mp h
    exact .wr c cs v hs hp (.runs i hi hu hv) rfl
  · rw [step_of_illegal hs (not_exists.mp hi), accept_of_wr hp, hp] at h
    cases h
    exact .wr c cs _ hs hp (.illegal (not_exists.mp hi) rfl) rfl

theorem step_turn {s t : State} (h : step s = .next t) : StepTurn s t := by
  rcases step_cases s with ⟨hs, hidle⟩ | ⟨c, cs, hs, -⟩
  · cases hidle.symm.trans h
    exact .idle hs rfl
  · cases hp : c.port with
    | rd => exact step_rd_turn hs hp h
    | wr => exact step_wr_turn hs hp h

/-- A step changes RD only where it is a turn of RD. -/
theorem StepTurn.rd_cases {s t : State} (h : StepTurn s t) :
    t.rd = s.rd ∨ ∃ c cs, s.host = c :: cs ∧ c.port = .rd ∧ RdTurn c s.rd t.rd := by
  cases h with
  | idle _ ht => exact .inl (ht ▸ rfl)
  | rd c cs v hs hp hv ht => exact .inr ⟨c, cs, hs, hp, ht ▸ hv⟩
  | wr c cs v _ _ _ ht => exact .inl (ht ▸ rfl)

/-- A step changes WR only where it is a turn of WR. -/
theorem StepTurn.wr_cases {s t : State} (h : StepTurn s t) :
    t.wr = s.wr ∨ ∃ c cs, s.host = c :: cs ∧ c.port = .wr ∧ WrTurn c s.wr t.wr := by
  cases h with
  | idle _ ht => exact .inl (ht ▸ rfl)
  | rd c cs v _ _ _ ht => exact .inl (ht ▸ rfl)
  | wr c cs v hs hp hv ht => exact .inr ⟨c, cs, hs, hp, ht ▸ hv⟩

/-! ## The bodies of the two units -/

/-- What RD's part of a command does to a unit that keeps the invariant. -/
theorem rdBody_effect {i : Instr} (hi : unitOf i = .rd) {u : RdUnit} (hu : u.Inv) : RdEffect i u (rdBody i u) := by
  obtain ⟨v, hv, he⟩ := exec_rd hi (s := ⟨u, .construct .lsb0, []⟩) hu
  cases (exec_rd_alone hi _).symm.trans hv
  exact he

/-- What RD's part of a command leaves alone, in every state. -/
theorem rdBody_frame {i : Instr} (hi : unitOf i = .rd) (u : RdUnit) : RdFrame i u (rdBody i u) := by
  obtain ⟨v, hv, hf⟩ := exec_rd_frame hi ⟨u, .construct .lsb0, []⟩
  cases (exec_rd_alone hi _).symm.trans hv
  exact hf

/-- What WR's part of a command that answers does to a unit with a clean buffer. -/
theorem wrBody_effect {i : Instr} (hi : unitOf i = .wr) {u v : WrUnit} (hu : u.Clean) (hv : wrBody i u = some v) :
    WrEffect i u v := by
  have h := exec_wr_alone hi ⟨.construct .lsb0 [], u, []⟩
  rcases exec_writes hi (s := ⟨.construct .lsb0 [], u, []⟩) hu with ⟨w, hw, he⟩ | ⟨hr, -, -⟩
  · rw [hv] at h
    cases h.symm.trans hw
    exact he
  · rw [hv] at h
    cases h.symm.trans hr

/-! ## The invariant of RD -/

/-- Accepting a command writes no register that the invariant speaks of. -/
theorem rdAccept_inv (tx : Transaction) {u : RdUnit} (hu : u.Inv) : (rdAccept tx u).Inv := hu

/-- A command turned away changes no register. -/
theorem illegal_sameRegs {tx : Transaction} {u v : RdUnit} (hv : v = rdRaise .illegalCommand (rdAccept tx u)) :
    (rdAccept tx u).SameRegs v := hv ▸ rdRaise_sameRegs _ _

theorem RdUnit.Inv.respond {u : RdUnit} (hu : u.Inv) (r : Response) : (u.respond r).Inv := hu

theorem writeDetLim_inv (a : Lane) {u : RdUnit} (hu : u.Inv) : (writeDetLim a u).Inv := hu

theorem takeMark_inv (l : Lane) {u : RdUnit} (hu : u.Inv) : (takeMark l u).Inv :=
  ⟨hu.1, fun _ => ⟨Nat.le_refl _, hu.1⟩⟩

theorem restoreMark_inv {u : RdUnit} (hu : u.Inv) (hm : u.markValid = true) : (restoreMark u).Inv :=
  ⟨restoreMark_bufferOk hu hm, fun _ => ⟨Nat.le_refl _, restoreMark_bufferOk hu hm⟩⟩

/-- An empty buffer belongs to every position of the source. -/
theorem bufferOk_empty (ord : BitOrder) {src : List Byte} {pos : Nat} (h : pos ≤ src.length) :
    BufferOk ord src pos 0#8 0#4 :=
  ⟨by decide, h, fun _ => rfl, fun hc => absurd hc (by decide)⟩

theorem rdResetCounter_inv (clears : Bool) {u : RdUnit} (hu : u.Inv) : (rdResetCounter clears u).Inv := by
  obtain ⟨hb, hm⟩ := hu
  cases clears with
  | false => exact ⟨hb, hm⟩
  | true =>
    obtain ⟨-, hpos, -⟩ := hb
    exact ⟨bufferOk_empty _ hpos, hm⟩

theorem RdEffect.inv {i : Instr} {u v : RdUnit} (h : RdEffect i u v) (hu : u.Inv) : v.Inv := by
  cases h with
  | reads h => exact h.inv hu
  | mark _ _ hv => exact hv ▸ (takeMark_inv u.cmd.a hu).respond _
  | reset _ hm _ hv => exact hv ▸ (restoreMark_inv hu hm).respond _
  | count _ hv => exact hv ▸ (rdResetCounter_inv Config.rstcntClearsBits hu).respond _
  | limit _ hv => exact hv ▸ (writeDetLim_inv u.cmd.a hu).respond _

theorem RdTurn.inv {c : HostCommand} {u v : RdUnit} (h : RdTurn c u v) (hu : u.Inv) : v.Inv := by
  have ha := rdAccept_inv c.tx hu
  cases h with
  | runs i _ hi hv => exact hv ▸ (rdBody_effect hi ha).inv ha
  | illegal _ hv => exact (illegal_sameRegs hv).inv ha

/-! ## The invariant of WR -/

theorem wrAccept_inv (tx : Transaction) {u : WrUnit} (hu : u.Inv) : (wrAccept tx u).Inv := hu

theorem WrUnit.Inv.respond {u : WrUnit} (hu : u.Inv) (r : Response) : (u.respond r).Inv := hu

theorem WrUnit.Inv.clean {u : WrUnit} (hu : u.Inv) : u.Clean := ⟨hu.1, hu.2.1⟩

/-- A command that has appended bits leaves the unit open, and the sink no shorter. -/
theorem Appended.inv {u v : WrUnit} {bits : List Bool} (h : Appended u v bits) (hu : u.Inv) : v.Inv := by
  obtain ⟨hw, hopen, -⟩ := h
  obtain ⟨-, -, hflushed, -⟩ := hu
  have hgrows := hw.grows.length_le
  refine ⟨hw.bufferCount, hw.bufferClean, by rw [hw.flushed]; omega, fun hc => ?_⟩
  rw [hw.closed, hopen] at hc
  cases hc

/-- The empty buffer of WR is clean. -/
theorem clean_empty : (0#4).toNat ≤ 7 ∧ (0#8).toNat < 2 ^ (0#4).toNat := by decide

/-- A padded unit that has published its sink keeps the invariant, open or closed. -/
theorem publish_padByte_inv {u : WrUnit} (hu : u.Clean) (b : Bool) : ((publish (padByte u)).setClosed b).Inv := by
  obtain ⟨hw, hc⟩ := padByte_wrote hu
  exact ⟨hw.bufferCount, hw.bufferClean, Nat.le_refl _, fun _ => ⟨hc, rfl⟩⟩

theorem wrResetCounter_inv (clears : Bool) {u : WrUnit} (hu : u.Inv) (ho : u.closed = false) :
    (wrResetCounter clears u).Inv := by
  cases clears with
  | false => exact hu
  | true =>
    obtain ⟨-, -, hflushed, -⟩ := hu
    exact ⟨clean_empty.1, clean_empty.2, hflushed, fun hc => absurd (ho.symm.trans hc) (by decide)⟩

theorem WrEffect.inv {i : Instr} {u v : WrUnit} (h : WrEffect i u v) (hu : u.Inv) : v.Inv := by
  cases h with
  | away h => exact h.sameRegs.inv hu
  | get _ hv => exact hv ▸ hu.respond _
  | write bits h => exact h.inv hu
  | flush _ ho hv =>
    obtain ⟨hcnt, hbuf, hfl, -⟩ := publish_padByte_inv hu.clean false
    have hopen : (padByte u).closed = false := (padByte_wrote hu.clean).1.closed.trans ho
    have hinv : (publish (padByte u)).Inv := ⟨hcnt, hbuf, hfl, fun hc => absurd (hopen.symm.trans hc) (by decide)⟩
    exact hv ▸ hinv.respond _
  | close _ _ hv => exact hv ▸ (publish_padByte_inv hu.clean true).respond _
  | reset _ ho hv => exact hv ▸ (wrResetCounter_inv Config.rstcntClearsBits hu ho).respond _

theorem WrTurn.inv {c : HostCommand} {u v : WrUnit} (h : WrTurn c u v) (hu : u.Inv) : v.Inv := by
  have ha := wrAccept_inv c.tx hu
  cases h with
  | runs i _ hi hv => exact (wrBody_effect hi ha.clean hv).inv ha
  | illegal _ hv => exact hv ▸ (wrRaise_sameRegs _ _).inv ha

/-! ## The invariant of the block -/

theorem StepTurn.rd_inv {s t : State} (h : StepTurn s t) (hs : s.rd.Inv) : t.rd.Inv := by
  rcases h.rd_cases with hrd | ⟨c, cs, -, -, hv⟩
  · exact hrd ▸ hs
  · exact hv.inv hs

theorem StepTurn.wr_inv {s t : State} (h : StepTurn s t) (hs : s.wr.Inv) : t.wr.Inv := by
  rcases h.wr_cases with hwr | ⟨c, cs, -, -, hv⟩
  · exact hwr ▸ hs
  · exact hv.inv hs

/-- Settles O44: a step is a turn of one unit, and every effect a turn can have keeps that unit's invariant. -/
theorem stepKeepsTheInvariant : Obligations.StepKeepsTheInvariant :=
  fun _ _ hs h => ⟨(step_turn h).rd_inv hs.1, (step_turn h).wr_inv hs.2⟩

/-! ## Construction (10_state.md R40, 70_reset_and_hazards.md R330, R331) -/

theorem RdUnit.construct_inv (ord : BitOrder) (src : List Byte) : (RdUnit.construct ord src).Inv :=
  ⟨bufferOk_empty ord (Nat.zero_le _), fun hm => nomatch hm⟩

theorem WrUnit.construct_inv (ord : BitOrder) : (WrUnit.construct ord).Inv :=
  ⟨clean_empty.1, clean_empty.2, Nat.zero_le _, fun _ => ⟨rfl, rfl⟩⟩

theorem State.construct_inv (r w : BitOrder) (src : List Byte) : (State.construct r w src).Inv :=
  ⟨RdUnit.construct_inv r src, WrUnit.construct_inv w⟩

/-- Settles O45: an empty buffer belongs to the start of every source. -/
theorem constructionHasTheInvariant : Obligations.ConstructionHasTheInvariant :=
  ⟨State.construct_inv, State.construct_inv .lsb0 .lsb0 []⟩

/-- The strap code of a bit order is read back as that order. -/
theorem bitOrderOfStrap_bitOrderCode (o : BitOrder) : bitOrderOfStrap (bitOrderCode o) = some o := by
  cases o <;> decide

/-- The codes that are no bit order are the two reserved ones. -/
theorem bitOrderOfStrap_eq_none : ∀ c : BitVec 2, bitOrderOfStrap c = none ↔ c = 0b10#2 ∨ c = 0b11#2 := by
  decide

theorem constructStrapped_legal (r w : BitOrder) (src : List Byte) :
    constructStrapped (bitOrderCode r) (bitOrderCode w) src = some (State.construct r w src) := by
  simp only [constructStrapped, bitOrderOfStrap_bitOrderCode]

/-- Construction is refused exactly where one of the straps is no bit order. -/
theorem constructStrapped_eq_none (r w : BitVec 2) (src : List Byte) :
    constructStrapped r w src = none ↔ bitOrderOfStrap r = none ∨ bitOrderOfStrap w = none := by
  cases hr : bitOrderOfStrap r <;> cases hw : bitOrderOfStrap w <;> simp [constructStrapped, hr, hw]

/-- There is no mark after construction, so RD.RESET is IllegalState (43_rd_align_mark.md R196). -/
theorem rdReset_construct (r w : BitOrder) (src : List Byte) :
    RdFaults (exec .rdReset (State.construct r w src)) (State.construct r w src) .illegalState
      (State.construct r w src).rd :=
  rdFaults_raise .illegalState _ _

/-- Settles O46: the registers are those of `State.construct`, and a strap is refused where it has no bit order. -/
theorem constructionValues : Obligations.ConstructionValues := by
  refine ⟨fun r w src => ?_, fun r w src => ?_, rfl⟩
  · exact ⟨constructStrapped_legal r w src, rfl, rfl, rfl, rfl, rfl, rfl, rfl, rfl, rfl, rfl, rfl, rfl, rfl, rfl, rfl, rfl,
      rfl, rdReset_construct r w src⟩
  · rw [constructStrapped_eq_none, bitOrderOfStrap_eq_none, bitOrderOfStrap_eq_none, or_assoc]

/-! ## The position in the source (10_state.md R30) -/

/-- A command that reads only moves forward. -/
theorem Reads.srcPos_le {u v : RdUnit} (h : Reads u v) (hu : u.Inv) : u.srcPos ≤ v.srcPos := by
  obtain ⟨n, d, -, ⟨-, -, hpos, -⟩, -⟩ := h
  have hv : v.srcPos = (u.bitPos + n + 7) / 8 := hpos
  have hs := hu.at.srcPos
  omega

/-- SRCPOS goes back only by RD.RESET, to MARKPOS. -/
theorem RdEffect.srcPos {i : Instr} {u v : RdUnit} (h : RdEffect i u v) (hu : u.Inv) :
    u.srcPos ≤ v.srcPos ∨ (i = .rdReset ∧ v.srcPos = u.markPos) := by
  cases h with
  | reads h => exact .inl (h.srcPos_le hu)
  | mark _ _ hv => exact .inl (Nat.le_of_eq (by rw [hv]; rfl))
  | reset hi _ _ hv => exact .inr ⟨hi, by rw [hv]; rfl⟩
  | count _ hv => exact .inl (Nat.le_of_eq (by rw [hv]; cases Config.rstcntClearsBits <;> rfl))
  | limit _ hv => exact .inl (Nat.le_of_eq (by rw [hv]; rfl))

theorem RdTurn.srcPos {c : HostCommand} {u v : RdUnit} (h : RdTurn c u v) (hu : u.Inv) :
    u.srcPos ≤ v.srcPos ∨ (c.Is .rdReset ∧ v.srcPos = u.markPos) := by
  have ha := rdAccept_inv c.tx hu
  cases h with
  | runs i hi hunit hv =>
    have he : RdEffect i (rdAccept c.tx u) v := hv ▸ rdBody_effect hunit ha
    rcases he.srcPos ha with hle | ⟨rfl, heq⟩
    · exact .inl hle
    · exact .inr ⟨hi, heq.trans (rdAccept_markPos _ _)⟩
  | illegal _ hv =>
    obtain ⟨-, -, hpos, -⟩ := illegal_sameRegs hv
    exact .inl (Nat.le_of_eq (hpos.trans (rdAccept_srcPos _ _)).symm)

/-- Settles O51: only RD.RESET moves the position back, and the invariant after the step bounds it. -/
theorem sourcePositionAdvances : Obligations.SourcePositionAdvances := by
  intro s t hs h
  have hturn := step_turn h
  obtain ⟨⟨-, hbound, -⟩, -⟩ := hturn.rd_inv hs
  rcases hturn.rd_cases with hrd | ⟨c, cs, hhost, -, hv⟩
  · exact .inl ⟨Nat.le_of_eq (congrArg RdUnit.srcPos hrd.symm), hbound⟩
  · rcases hv.srcPos hs with hle | ⟨hi, heq⟩
    · exact .inl ⟨hle, hbound⟩
    · exact .inr ⟨c, cs, hhost, hi, heq⟩

/-! ## DETLIM and the mark (10_state.md R33, R34, R35, 42_rd_arrays.md R163, R164) -/

/-- MARKVALID, MARKPOS, MARKLIM and the snapshot are the same. -/
structure SameMark (u v : RdUnit) : Prop where
  markValid : v.markValid = u.markValid
  markPos : v.markPos = u.markPos
  markLim : v.markLim = u.markLim
  snapBitBuf : v.snapBitBuf = u.snapBitBuf
  snapBitCnt : v.snapBitCnt = u.snapBitCnt
  snapByteCnt : v.snapByteCnt = u.snapByteCnt

theorem SameMark.trans {u v w : RdUnit} (h : SameMark u v) (k : SameMark v w) : SameMark u w :=
  ⟨k.markValid.trans h.markValid, k.markPos.trans h.markPos, k.markLim.trans h.markLim, k.snapBitBuf.trans h.snapBitBuf,
    k.snapBitCnt.trans h.snapBitCnt, k.snapByteCnt.trans h.snapByteCnt⟩

theorem Still.sameMark {u v : RdUnit} (h : Still u v) : SameMark u v :=
  ⟨h.markValid, h.markPos, h.markLim, h.snapBitBuf, h.snapBitCnt, h.snapByteCnt⟩

/-- Only RD.MARK writes the mark and the snapshot. -/
theorem RdFrame.sameMark {i : Instr} {u v : RdUnit} (h : RdFrame i u v) : SameMark u v ∨ i = .rdMark := by
  cases h with
  | read h _ _ => exact .inl h.sameMark
  | array d h _ _ _ _ => exact .inl ⟨h.markValid, h.markPos, h.markLim, h.snapBitBuf, h.snapBitCnt, h.snapByteCnt⟩
  | argument h _ _ => exact .inl h.still.sameMark
  | noMark h _ _ _ => exact .inl h.still.sameMark
  | mark hi _ => exact .inr hi
  | limit _ hv => exact .inl (hv ▸ ⟨rfl, rfl, rfl, rfl, rfl, rfl⟩)

/-- Only RD.SETDL and an array read in until-exhaustion mode write DETLIM, and such a read sets it only with a soft cap. -/
theorem RdFrame.detLim_cases {i : Instr} {u v : RdUnit} (h : RdFrame i u v) :
    v.detLim = u.detLim ∨ i = .rdSetdl ∨
      (isArrayRead i = true ∧ u.cmd.a.toInt < 0 ∧ (v.detLim = true → u.cmd.l.toInt < 0)) := by
  cases h with
  | read h _ _ => exact .inl h.detLim
  | array d h hi ha hd _ => exact .inr (.inr ⟨hi, ha, fun hv => (hd (h.detLim.symm.trans hv)).1⟩)
  | argument h _ _ => exact .inl h.still.detLim
  | noMark h _ _ _ => exact .inl h.still.detLim
  | mark _ hv => exact .inl (by rw [hv]; rfl)
  | limit hi _ => exact .inr (.inl hi)

theorem rdAccept_sameMark (tx : Transaction) (u : RdUnit) : SameMark u (rdAccept tx u) := ⟨rfl, rfl, rfl, rfl, rfl, rfl⟩

theorem RdTurn.sameMark {c : HostCommand} {u v : RdUnit} (h : RdTurn c u v) : SameMark u v ∨ c.Is .rdMark := by
  have ha := rdAccept_sameMark c.tx u
  cases h with
  | runs i hi hunit hv =>
    have hf : RdFrame i (rdAccept c.tx u) v := hv ▸ rdBody_frame hunit _
    rcases hf.sameMark with hm | rfl
    · exact .inl (ha.trans hm)
    · exact .inr hi
  | illegal _ hv => exact .inl (ha.trans (illegal_sameRegs hv).still.sameMark)

theorem RdTurn.detLim_cases {c : HostCommand} {u v : RdUnit} (h : RdTurn c u v) :
    v.detLim = u.detLim ∨ ∃ i, c.Is i ∧
      (i = .rdSetdl ∨ (isArrayRead i = true ∧ c.tx.a.toInt < 0 ∧ (v.detLim = true → c.tx.l.toInt < 0))) := by
  cases h with
  | runs i hi hunit hv =>
    have hf : RdFrame i (rdAccept c.tx u) v := hv ▸ rdBody_frame hunit _
    have hd := hf.detLim_cases
    simp only [rdAccept_detLim, rdAccept_cmd] at hd
    exact hd.imp id fun hw => ⟨i, hi, hw⟩
  | illegal _ hv => exact .inl ((illegal_sameRegs hv).still.detLim.trans (rdAccept_detLim _ _))

/-- Settles O50: both parts hold of a turn of RD, whatever the state, and nothing else changes RD. -/
theorem whoWritesTheFlagAndTheMark : Obligations.WhoWritesTheFlagAndTheMark := by
  intro s t h
  rcases (step_turn h).rd_cases with hrd | ⟨c, cs, hs, hp, hturn⟩
  · rw [hrd]
    exact ⟨fun hne => absurd rfl hne, fun hne => by simp at hne⟩
  refine ⟨fun hne => ?_, fun hne => ?_⟩
  · rcases hturn.detLim_cases with heq | ⟨i, hi, hw⟩
    · exact absurd heq hne
    · exact ⟨c, cs, i, hs, hi, hp, hw⟩
  · rcases hturn.sameMark with ⟨h1, h2, h3, h4, h5, h6⟩ | hm
    · simp [h1, h2, h3, h4, h5, h6] at hne
    · exact ⟨c, cs, hs, hm⟩

/-! ## What every command leaves alone: the straps, the source and the command port (10_state.md R27, 20_memory.md R60) -/

theorem RdFrame.bitOrder_src {i : Instr} {u v : RdUnit} (h : RdFrame i u v) : v.bitOrder = u.bitOrder ∧ v.src = u.src := by
  cases h with
  | read h _ _ => exact ⟨h.bitOrder, h.src⟩
  | array d h _ _ _ _ => exact ⟨h.bitOrder, h.src⟩
  | argument h _ _ => exact ⟨h.still.bitOrder, h.still.src⟩
  | noMark h _ _ _ => exact ⟨h.still.bitOrder, h.still.src⟩
  | mark _ hv => exact hv ▸ ⟨rfl, rfl⟩
  | limit _ hv => exact hv ▸ ⟨rfl, rfl⟩

theorem RdTurn.bitOrder_src {c : HostCommand} {u v : RdUnit} (h : RdTurn c u v) :
    v.bitOrder = u.bitOrder ∧ v.src = u.src := by
  cases h with
  | runs i _ hi hv =>
    have hf : RdFrame i (rdAccept c.tx u) v := hv ▸ rdBody_frame hi _
    exact hf.bitOrder_src
  | illegal _ hv =>
    have hs := (illegal_sameRegs hv).still
    exact ⟨hs.bitOrder.trans (rdAccept_bitOrder _ _), hs.src.trans (rdAccept_src _ _)⟩

/-- WR keeps its strap, and its command port still holds the command. -/
structure WrKept (u v : WrUnit) : Prop where
  bitOrder : v.bitOrder = u.bitOrder
  cmd : v.cmd = u.cmd

theorem WrKept.refl (u : WrUnit) : WrKept u u := ⟨rfl, rfl⟩

theorem WrKept.trans {u v w : WrUnit} (h : WrKept u v) (k : WrKept v w) : WrKept u w :=
  ⟨k.bitOrder.trans h.bitOrder, k.cmd.trans h.cmd⟩

theorem WrKept.respond {u v : WrUnit} (h : WrKept u v) (r : Response) : WrKept u (v.respond r) := ⟨h.bitOrder, h.cmd⟩

theorem WrKept.setClosed {u v : WrUnit} (h : WrKept u v) (b : Bool) : WrKept u (v.setClosed b) := ⟨h.bitOrder, h.cmd⟩

theorem wrRaise_kept (c : Cause) (u : WrUnit) : WrKept u (wrRaise c u) := ⟨rfl, rfl⟩

theorem emit_kept (b : Byte) (u : WrUnit) : WrKept u (emit b u) := ⟨rfl, rfl⟩

theorem shiftIn_kept (b : Bool) (u : WrUnit) : WrKept u (shiftIn b u) := by
  rw [shiftIn_eq]
  split <;> exact ⟨rfl, rfl⟩

theorem shiftInBits_kept (bs : List Bool) (u : WrUnit) : WrKept u (shiftInBits bs u) := by
  induction bs generalizing u with
  | nil => exact .refl u
  | cons b bs ih => exact (shiftIn_kept b u).trans (ih (shiftIn b u))

theorem writeBits_kept (w : Nat) (v : Byte) (u : WrUnit) : WrKept u (writeBits w v u) := by
  rw [writeBits]
  split
  · exact emit_kept v u
  · exact shiftInBits_kept _ u

theorem wrByte_kept (b : Byte) (u : WrUnit) : WrKept u (wrByte b u) := writeBits_kept 8 b u

theorem wrU16_kept (bo : ByteOrder) (v : BitVec 16) (u : WrUnit) : WrKept u (wrU16 bo v u) := by
  cases bo <;> simp only [wrU16] <;> exact (wrByte_kept _ u).trans (wrByte_kept _ _)

theorem wrU32_kept (bo : ByteOrder) (v : BitVec 32) (u : WrUnit) : WrKept u (wrU32 bo v u) := by
  cases bo <;> simp only [wrU32] <;> exact (wrU16_kept _ _ u).trans (wrU16_kept _ _ _)

theorem wrU64_kept (bo : ByteOrder) (v : BitVec 64) (u : WrUnit) : WrKept u (wrU64 bo v u) := by
  cases bo <;> simp only [wrU64] <;> exact (wrU32_kept _ _ u).trans (wrU32_kept _ _ _)

theorem writeAll_kept {α : Type} {item : α → WrUnit → WrUnit} (hi : ∀ x u, WrKept u (item x u)) (xs : List α)
    (u : WrUnit) : WrKept u (writeAll item xs u) := by
  induction xs generalizing u with
  | nil => exact .refl u
  | cons x xs ih => exact (hi x u).trans (ih (item x u))

theorem encodeString_kept (bo : ByteOrder) (x : StrItem) (u : WrUnit) : WrKept u (encodeString bo x u) := by
  cases x with
  | absent => exact wrByte_kept _ u
  | present p => exact (writeAll_kept wrByte_kept _ u).trans (writeAll_kept wrByte_kept p _)

theorem padByte_kept (u : WrUnit) : WrKept u (padByte u) := by
  rw [padByte]
  split <;> exact ⟨rfl, rfl⟩

theorem padZeros_kept (a fuel : Nat) (u : WrUnit) : WrKept u (padZeros a fuel u) := by
  induction fuel generalizing u with
  | zero => exact .refl u
  | succ fuel ih =>
    rw [padZeros]
    split
    · exact .refl u
    · exact (emit_kept 0x00#8 u).trans (ih _)

theorem publish_padByte_kept (u : WrUnit) : WrKept u (publish (padByte u)) :=
  ⟨(padByte_kept u).bitOrder, (padByte_kept u).cmd⟩

theorem wrResetCounter_kept (clears : Bool) (u : WrUnit) : WrKept u (wrResetCounter clears u) := by
  cases clears <;> exact ⟨rfl, rfl⟩

/-- A command of WR with no items keeps what its body keeps. -/
theorem wrCommand_kept {body : WrUnit → WrUnit} (hb : ∀ u, WrKept u (body u)) {s t : State}
    (h : wrCommand body s = .next t) : WrKept s.wr t.wr := by
  cases hc : s.wr.closed with
  | false =>
    cases (wrCommand_open hc body).symm.trans h
    exact hb s.wr
  | true =>
    cases (wrCommand_closed hc body).symm.trans h
    exact wrRaise_kept _ s.wr

/-- A command of WR over OMEM keeps what its body keeps. -/
theorem wrOmemCommand_kept {α : Type} {check : WrUnit → Bool} {read : List Item → Option (List α)}
    {body : List α → WrUnit → WrUnit} (hb : ∀ xs u, WrKept u (body xs u)) {s t : State}
    (h : wrOmemCommand check read body s = .next t) : WrKept s.wr t.wr := by
  rcases wrOmemCommand_cases check read body s with ⟨-, hr⟩ | ⟨-, -, hr⟩ | ⟨-, -, xs, -, hr⟩ | ⟨-, -, -, hr⟩ <;>
    cases hr.symm.trans h
  · exact wrRaise_kept _ s.wr
  · exact wrRaise_kept _ s.wr
  · exact hb xs s.wr

/-- The scalar writes (45_wr_scalars_arrays.md R221 to R228). -/
theorem scalarWrite_kept {i : Instr} {f : Lane → List Byte} (h : scalarWrite i = some f) {s t : State}
    (ht : exec i s = .next t) : WrKept s.wr t.wr := by
  have key : ∃ g : Lane → WrUnit → WrUnit, exec i s = wrScalar g s ∧ ∀ a u, WrKept u (g a u) := by
    cases i <;> simp only [scalarWrite, Option.some.injEq, reduceCtorEq] at h
    case wrByte => exact ⟨fun a => wrByte (low8 a), rfl, fun _ => wrByte_kept _⟩
    case wrBool => exact ⟨fun a => wrByte (boolByte (laneTrue a)), rfl, fun _ => wrByte_kept _⟩
    case wrShort bo => exact ⟨fun a => wrU16 bo (low16 a), rfl, fun _ => wrU16_kept bo _⟩
    case wrInt bo => exact ⟨fun a => wrU32 bo (low32 a), rfl, fun _ => wrU32_kept bo _⟩
    case wrUint bo => exact ⟨fun a => wrU32 bo (low32 a), rfl, fun _ => wrU32_kept bo _⟩
    case wrLong bo => exact ⟨wrU64 bo, rfl, wrU64_kept bo⟩
    case wrFloat bo => exact ⟨fun a => wrU32 bo (low32 a), rfl, fun _ => wrU32_kept bo _⟩
    case wrDouble bo => exact ⟨wrU64 bo, rfl, wrU64_kept bo⟩
  obtain ⟨g, he, hg⟩ := key
  exact wrCommand_kept (fun u => (hg u.cmd.a u).respond _) (he.symm.trans ht)

/-- The array writes of whole-byte elements (45_wr_scalars_arrays.md R232 to R238). -/
theorem arrayWrite_kept {i : Instr} {f : Lane → List Byte} (h : arrayWrite i = some f) {s t : State}
    (ht : exec i s = .next t) : WrKept s.wr t.wr := by
  have key : ∃ g : Lane → WrUnit → WrUnit, exec i s = wrArray g s ∧ ∀ a u, WrKept u (g a u) := by
    cases i <;> simp only [arrayWrite, Option.some.injEq, reduceCtorEq] at h
    case wrBoolarr => exact ⟨fun a => wrByte (boolByte (laneTrue a)), rfl, fun _ => wrByte_kept _⟩
    case wrShortarr bo => exact ⟨fun a => wrU16 bo (low16 a), rfl, fun _ => wrU16_kept bo _⟩
    case wrIntarr bo => exact ⟨fun a => wrU32 bo (low32 a), rfl, fun _ => wrU32_kept bo _⟩
    case wrUintarr bo => exact ⟨fun a => wrU32 bo (low32 a), rfl, fun _ => wrU32_kept bo _⟩
    case wrLongarr bo => exact ⟨wrU64 bo, rfl, wrU64_kept bo⟩
    case wrFloatarr bo => exact ⟨fun a => wrU32 bo (low32 a), rfl, fun _ => wrU32_kept bo _⟩
    case wrDoublearr bo => exact ⟨wrU64 bo, rfl, wrU64_kept bo⟩
  obtain ⟨g, he, hg⟩ := key
  exact wrOmemCommand_kept (fun xs u => (writeAll_kept hg xs u).respond _) (he.symm.trans ht)

theorem writeOneString_kept (bo : ByteOrder) (xs : List StrItem) (u : WrUnit) : WrKept u (writeOneString bo xs u) := by
  rw [writeOneString]
  split
  · exact wrRaise_kept _ u
  · exact (writeAll_kept (encodeString_kept bo) xs u).respond _

theorem writeStrings_kept (bo : ByteOrder) (xs : List StrItem) (u : WrUnit) : WrKept u (writeStrings bo xs u) := by
  rw [writeStrings]
  split
  · exact wrRaise_kept _ u
  · exact (writeAll_kept (encodeString_kept bo) xs u).respond _

theorem execWrBits_kept (w : Nat) {s t : State} (h : execWrBits w s = .next t) : WrKept s.wr t.wr := by
  rw [execWrBits] at h
  refine wrCommand_kept (fun u => ?_) h
  split
  · exact (writeBits_kept w _ u).respond _
  · exact wrRaise_kept _ u

theorem execWrAlign_kept {s t : State} (h : execWrAlign s = .next t) : WrKept s.wr t.wr := by
  rw [execWrAlign] at h
  refine wrCommand_kept (fun u => ?_) h
  split
  · exact wrRaise_kept _ u
  · exact ((padByte_kept u).trans (padZeros_kept _ _ _)).respond _

theorem execWrBitsarr_kept (w : Nat) {s t : State} (h : execWrBitsarr w s = .next t) : WrKept s.wr t.wr := by
  rw [execWrBitsarr] at h
  exact wrOmemCommand_kept (fun xs u => (writeAll_kept (fun _ => writeBits_kept w _) xs u).respond _) h

theorem execWrBytes_kept (bo : ByteOrder) {s t : State} (h : execWrBytes bo s = .next t) : WrKept s.wr t.wr := by
  rw [execWrBytes] at h
  exact wrOmemCommand_kept (fun xs u => (writeAll_kept (fun _ => wrByte_kept _) _ u).respond _) h

/-- Every command of WR that answers keeps the strap and the command port, in every state. -/
theorem exec_wr_kept {i : Instr} (hu : unitOf i = .wr) {s t : State} (h : exec i s = .next t) : WrKept s.wr t.wr := by
  cases i
  case wrBits w => exact execWrBits_kept w h
  case wrBitsarr w => exact execWrBitsarr_kept w h
  case wrBytes bo => exact execWrBytes_kept bo h
  case wrString bo => exact wrOmemCommand_kept (writeOneString_kept bo) (show execWrString bo s = .next t from h)
  case wrStrarr bo => exact wrOmemCommand_kept (writeStrings_kept bo) (show execWrStrarr bo s = .next t from h)
  case wrAlign => exact execWrAlign_kept h
  case wrFlush =>
    exact wrCommand_kept (fun u => (publish_padByte_kept u).respond _) (show execWrFlush s = .next t from h)
  case wrClose =>
    exact wrCommand_kept (fun u => ((publish_padByte_kept u).setClosed true).respond _)
      (show execWrClose s = .next t from h)
  case wrRstcnt =>
    exact wrCommand_kept (fun u => (wrResetCounter_kept _ u).respond _) (show execWrRstcnt s = .next t from h)
  case wrGetcnt =>
    cases h
    exact (WrKept.refl s.wr).respond _
  all_goals first
    | exact scalarWrite_kept rfl h
    | exact arrayWrite_kept rfl h
    | exact absurd hu (by rw [unitOf, encode, unitOfWord_commandWord]; decide)

/-- After a turn of WR the strap is as before and the command port holds the command taken. -/
theorem WrTurn.kept {c : HostCommand} {u v : WrUnit} (h : WrTurn c u v) : WrKept (wrAccept c.tx u) v := by
  cases h with
  | runs i _ hi hv =>
    have he := exec_wr_alone hi ⟨.construct .lsb0 [], wrAccept c.tx u, []⟩
    rw [hv] at he
    exact exec_wr_kept hi he
  | illegal _ hv => exact hv ▸ wrRaise_kept _ _

/-! ## The launch premise (93_implementation_defined.md U6) -/

theorem withinMax_mono {m : Option Nat} {a b : Nat} (h : withinMax m b) (hab : a ≤ b) : withinMax m a := by
  cases m with
  | none => trivial
  | some m => exact Nat.le_trans hab h

/-- A step takes at most the first of the hosts' commands. -/
theorem StepTurn.host_subset {s t : State} (h : StepTurn s t) : t.host ⊆ s.host := by
  cases h with
  | idle _ ht => exact ht ▸ fun _ hc => hc
  | rd c cs v hs _ _ ht => exact ht ▸ hs ▸ List.subset_cons_self c cs
  | wr c cs v hs _ _ ht => exact ht ▸ hs ▸ List.subset_cons_self c cs

theorem StepTurn.admitted {s t : State} (h : StepTurn s t) (hsrc : t.rd.src = s.rd.src) (ha : s.Admitted) :
    t.Admitted where
  source := hsrc ▸ ha.source
  presented := by
    rcases h.wr_cases with hwr | ⟨c, cs, hs, hp, hv⟩
    · exact hwr ▸ ha.presented
    · rw [hv.kept.cmd, wrAccept_cmd]
      exact ha.commands c (hs ▸ List.mem_cons_self) hp
  commands c hc hp := ha.commands c (h.host_subset hc) hp

/-! ## How many items a read makes (20_memory.md R62) -/

theorem RdResult.bind_eq_ok {α β : Type} {r : RdResult α} {k : α → RdUnit → RdResult β} {b : β} {v : RdUnit} :
    r.bind k = .ok b v ↔ ∃ a u, r = .ok a u ∧ k a u = .ok b v := by
  cases r <;> simp [RdResult.bind]

theorem RdResult.map_eq_ok {α β : Type} {r : RdResult α} {f : α → β} {b : β} {v : RdUnit} :
    r.map f = .ok b v ↔ ∃ a, r = .ok a v ∧ f a = b := by
  cases r <;> simp [RdResult.map, RdResult.bind, and_comm]

/-- A command that reads ends in OK only where its reader answered. -/
theorem rdEnd_status_ok {α : Type} {r : RdResult α} {fin : α → RdUnit → RdUnit} (h : (rdEnd r fin).rsp.st = .ok) :
    ∃ a v, r = .ok a v := by
  cases r with
  | ok a v => exact ⟨a, v, rfl⟩
  | raise c v => cases c <;> cases h

/-- A reader that answers has handed out a bit at least. -/
def Spends {α : Type} (f : RdUnit → RdResult α) : Prop :=
  ∀ {u : RdUnit} {p : Nat} {x : α} {v : RdUnit}, u.At p → f u = .ok x v →
    ∃ n, 0 < n ∧ p + n ≤ 8 * u.src.length ∧ v = u.consume n

theorem Takes.spends {α : Type} {f : RdUnit → RdResult α} {m : Nat} {val : RdUnit → Nat → α} (h : Takes f m val)
    (hm : 0 < m) : Spends f := by
  intro u p x v hu hx
  by_cases hp : p + m ≤ 8 * u.src.length
  · rw [h.enough hu hp] at hx
    cases hx
    exact ⟨m, hm, hp, rfl⟩
  · rw [h.short hu (by omega)] at hx
    cases hx

theorem Spends.map {α β : Type} {f : RdUnit → RdResult α} (h : Spends f) (k : α → β) : Spends fun u => (f u).map k := by
  intro u p x v hu hx
  obtain ⟨a, ha, -⟩ := RdResult.map_eq_ok.mp hx
  exact h hu ha

theorem bitsItem_spends {w : Nat} (hw : 1 ≤ w ∧ w ≤ 8) : Spends (bitsItem w) := by
  intro u p x v hu hx
  have hi := hu.inside
  rw [bitsItem_spec hu hw] at hx
  split at hx
  · cases hx
  · cases hx
    exact ⟨_, by omega, by omega, rfl⟩

theorem decodeString_spends (bo : ByteOrder) : Spends (decodeString bo) := by
  intro u p x v hu hx
  rcases decodeString_cases bo hu with ⟨y, bs, hw, hl, -, hd⟩ | ⟨b, -, -, -, hd⟩ | hd <;> cases hd.symm.trans hx
  have hpos := hw.pos
  exact ⟨8 * bs.length, by omega, hl, rfl⟩

/-- Fixed mode answers no more items than there were bits from the cursor on. -/
theorem readFixed_length_le {f : RdUnit → RdResult Item} (hf : Spends f) (n : Nat) {u v : RdUnit} {p : Nat}
    {xs : List Item} (hu : u.At p) (h : readFixed f n u = .ok xs v) : p + xs.length ≤ 8 * u.src.length := by
  induction n generalizing u p xs with
  | zero =>
    cases h
    exact hu.inside
  | succ n ih =>
    obtain ⟨x, w, hx, hrest⟩ := RdResult.bind_eq_ok.mp h
    obtain ⟨ys, hys, rfl⟩ := RdResult.map_eq_ok.mp hrest
    obtain ⟨m, hm, hin, rfl⟩ := hf hu hx
    have hlen := ih (consume_at hu hin) hys
    rw [consume_src] at hlen
    rw [List.length_cons]
    omega

/-- Until-exhaustion mode adds no more items than there were bits from the cursor on. -/
theorem readUntil_length_le {f : RdUnit → RdResult Item} (hf : Spends f) (l : Int) (fuel : Nat) (acc : List Item)
    {u v : RdUnit} {p : Nat} {xs : List Item} (hu : u.At p) (h : readUntil f l fuel acc u = .ok xs v) :
    p + xs.length ≤ 8 * u.src.length + acc.length := by
  have hi := hu.inside
  induction fuel generalizing u p acc with
  | zero =>
    cases h
    omega
  | succ fuel ih =>
    rw [readUntil] at h
    split at h
    · obtain ⟨x, w, hx, hrest⟩ := RdResult.bind_eq_ok.mp h
      obtain ⟨m, hm, hin, rfl⟩ := hf hu hx
      have hlen : (acc ++ [x]).length = acc.length + 1 := List.length_append
      cases hv : limiterVerdict l (acc.length + 1) with
      | exceeded =>
        rw [hv] at hrest
        cases hrest
      | softStop =>
        rw [hv] at hrest
        cases hrest
        omega
      | proceed =>
        rw [hv] at hrest
        have hat := consume_at hu hin
        have hmore := ih (acc ++ [x]) hat hrest hat.inside
        rw [consume_src] at hmore
        omega
    · cases h
      omega

/-- An array read of either mode. -/
theorem readArray_length_le {f : RdUnit → RdResult Item} (hf : Spends f) (a l : Lane) {u v : RdUnit} {p : Nat}
    {xs : List Item} (hu : u.At p) (h : readArray f a l u = .ok xs v) : xs.length ≤ 8 * u.src.length := by
  rw [readArray] at h
  split at h
  · have := readFixed_length_le hf _ hu h
    omega
  · have : p + xs.length ≤ 8 * u.src.length + 0 := readUntil_length_le hf _ _ _ hu.clearDetLim h
    omega

/-- RMEM holds the items that RSP.LEN says, and no more than the source has bits. -/
structure FillsRmem (src : List Byte) (v : RdUnit) : Prop where
  len : v.rmem.length = v.rsp.len
  bound : v.rmem.length ≤ 8 * src.length

theorem rdArray_fillsRmem {f : RdUnit → RdResult Item} (hf : Spends f) {arrange : List Item → List Item}
    (ha : ∀ xs, (arrange xs).length = xs.length) {s t : State} (hi : s.rd.Inv) (h : rdArray f arrange s = .next t)
    (hok : t.rd.rsp.st = .ok) : FillsRmem s.rd.src t.rd := by
  cases h
  obtain ⟨xs, v, hr⟩ := rdEnd_status_ok hok
  have hle := readArray_length_le hf _ _ hi.at hr
  simp only [State.withRd_rd, hr, rdEnd_ok]
  exact ⟨ha xs, (ha xs).trans_le hle⟩

theorem execRdString_fillsRmem (bo : ByteOrder) {s t : State} (hi : s.rd.Inv) (h : exec (.rdString bo) s = .next t)
    (hok : t.rd.rsp.st = .ok) : FillsRmem s.rd.src t.rd := by
  cases h
  obtain ⟨x, v, hr⟩ := rdEnd_status_ok hok
  obtain ⟨n, hn, hin, -⟩ := decodeString_spends bo hi.at hr
  simp only [State.withRd_rd, hr, rdEnd_ok]
  exact ⟨rfl, show 1 ≤ 8 * s.rd.src.length by omega⟩

theorem leftInRmem_length (i : Instr) (xs : List Item) : (leftInRmem i xs).length = xs.length := by
  unfold leftInRmem
  split
  · exact List.length_reverse
  · rfl

/-- The array reads are those of numeric items of whole bytes, RD.BITSARR and RD.STRARR. -/
theorem isArrayRead_cases {i : Instr} (h : isArrayRead i = true) :
    (∃ sh, arrayRead i = some sh) ∨ (∃ w, i = .rdBitsarr w) ∨ ∃ bo, i = .rdStrarr bo := by
  cases i
  case rdBitsarr w => exact .inr (.inl ⟨w, rfl⟩)
  case rdStrarr bo => exact .inr (.inr ⟨bo, rfl⟩)
  all_goals first
    | exact .inl ⟨_, rfl⟩
    | cases h

/-- Every array read that ends in OK. -/
theorem exec_array_fillsRmem {i : Instr} (ha : isArrayRead i = true) {s t : State} (hi : s.rd.Inv)
    (h : exec i s = .next t) (hok : t.rd.rsp.st = .ok) : FillsRmem s.rd.src t.rd := by
  rcases isArrayRead_cases ha with ⟨sh, hsh⟩ | ⟨w, rfl⟩ | ⟨bo, rfl⟩
  · obtain ⟨hpos, f, he, hf⟩ := arrayRead_takes hsh
    exact rdArray_fillsRmem (hf.spends (by omega)) (leftInRmem_length i) hi ((he s).symm.trans h) hok
  · have he : execRdBitsarr w s = .next t := h
    rw [execRdBitsarr] at he
    split at he
    · rename_i hw
      exact rdArray_fillsRmem (bitsItem_spends (by simpa [widthLegal] using hw)) (fun _ => rfl) hi he hok
    · cases he
      cases hok
  · exact rdArray_fillsRmem (Spends.map (decodeString_spends bo) _) (fun _ => rfl) hi h hok

/-- The commands that leave items in RMEM are commands of RD. -/
theorem unitOf_of_fillsRmem {i : Instr} (h : isArrayRead i = true ∨ ∃ bo, i = .rdString bo) : unitOf i = .rd := by
  rcases h with h | ⟨bo, rfl⟩
  · cases i
    all_goals first
      | rw [unitOf, encode, unitOfWord_commandWord]; rfl
      | cases h
  · rw [unitOf, encode, unitOfWord_commandWord]
    rfl

/-- RD's part of an array read or RD.STRING that answers OK. -/
theorem rdBody_fillsRmem {i : Instr} (ha : isArrayRead i = true ∨ ∃ bo, i = .rdString bo) {u v : RdUnit} (hu : u.Inv)
    (hv : v = rdBody i u) (hok : v.rsp.st = .ok) : FillsRmem u.src v := by
  have he := exec_rd_alone (unitOf_of_fillsRmem ha) ⟨u, .construct .lsb0, []⟩
  rw [← hv] at he
  rcases ha with ha | ⟨bo, rfl⟩
  · exact exec_array_fillsRmem ha hu he hok
  · exact execRdString_fillsRmem bo hu he hok

/-- A turn of RD that runs an array read or RD.STRING and answers OK. -/
theorem RdTurn.fillsRmem {c : HostCommand} {u v : RdUnit} (h : RdTurn c u v) (hu : u.Inv) {i : Instr} (hi : c.Is i)
    (ha : isArrayRead i = true ∨ ∃ bo, i = .rdString bo) (hok : v.rsp.st = .ok) : FillsRmem u.src v := by
  cases h with
  | illegal hn _ => exact absurd hi (hn i)
  | runs j hj _ hv =>
    cases hj.unique hi
    have hfills := rdBody_fillsRmem ha (rdAccept_inv c.tx hu) hv hok
    rwa [rdAccept_src] at hfills

theorem StepTurn.fillsRmem {s t : State} (h : StepTurn s t) (hs : s.rd.Inv) {c : HostCommand} {cs : List HostCommand}
    {i : Instr} (hhost : s.host = c :: cs) (hi : c.Is i) (ha : isArrayRead i = true ∨ ∃ bo, i = .rdString bo)
    (hok : t.rd.rsp.st = .ok) : FillsRmem s.rd.src t.rd := by
  have hport : c.port = .rd := hi.unit.symm.trans (unitOf_of_fillsRmem ha)
  cases h with
  | idle hidle _ => cases hidle.symm.trans hhost
  | wr d ds v hd hp _ _ =>
    cases hd.symm.trans hhost
    cases hp.symm.trans hport
  | rd d ds v hd _ hv ht =>
    cases hd.symm.trans hhost
    subst ht
    exact hv.fillsRmem hs hi ha hok

theorem StepTurn.rd_bitOrder_src {s t : State} (h : StepTurn s t) :
    t.rd.bitOrder = s.rd.bitOrder ∧ t.rd.src = s.rd.src := by
  rcases h.rd_cases with hrd | ⟨c, cs, -, -, hv⟩
  · rw [hrd]
    exact ⟨rfl, rfl⟩
  · exact hv.bitOrder_src

theorem StepTurn.wr_bitOrder {s t : State} (h : StepTurn s t) : t.wr.bitOrder = s.wr.bitOrder := by
  rcases h.wr_cases with hwr | ⟨c, cs, -, -, hv⟩
  · rw [hwr]
  · exact hv.kept.bitOrder.trans (wrAccept_bitOrder _ _)

/-- Settles O47: the straps and the source are in the frame of every command, and every item of a read takes a bit of the
source. -/
theorem strapsAndSourceFixed : Obligations.StrapsAndSourceFixed := by
  intro s t h
  have hturn := step_turn h
  obtain ⟨hord, hsrc⟩ := hturn.rd_bitOrder_src
  refine ⟨hord, hturn.wr_bitOrder, hsrc, hturn.admitted hsrc, fun hs c cs i hhost hi ha hok => ?_⟩
  obtain ⟨hlen, hbound⟩ := hturn.fillsRmem hs hhost hi ha hok
  exact ⟨hlen, hbound, fun hadm => withinMax_mono hadm.source hbound⟩

end Sys2Proof.Machine

/-! The sink over a step (20_memory.md R61): how SNK, FLUSHED and BYTECNT move together, and why a closed unit no longer moves. -/

namespace Sys2Proof.Machine

/-! ## How the sink can move -/

/-- What becomes of the sink of WR and of the two registers that follow it, when `P` says which instructions may have run. -/
structure SinkGrowth (P : Instr → Prop) (u v : WrUnit) : Prop where
  grows : u.snk <+: v.snk
  flushed_le : u.flushed ≤ v.flushed
  flushed : v.flushed = u.flushed ∨ P .wrFlush ∨ P .wrClose
  byteCnt : v.byteCnt = u.byteCnt + BitVec.ofNat 64 (v.snk.length - u.snk.length) ∨ P .wrRstcnt
  final : u.closed = true → v.closed = true ∧ v.snk = u.snk ∧ v.flushed = u.flushed

section
variable {P Q : Instr → Prop} {u v : WrUnit}

theorem SinkGrowth.mono (h : SinkGrowth P u v) (hPQ : ∀ i, P i → Q i) : SinkGrowth Q u v where
  grows := h.grows
  flushed_le := h.flushed_le
  flushed := h.flushed.imp_right (Or.imp (hPQ _) (hPQ _))
  byteCnt := h.byteCnt.imp_right (hPQ _)
  final := h.final

/-- Accepting a command touches neither the sink nor the registers that follow it. -/
theorem SinkGrowth.of_wrAccept {tx : Transaction} (h : SinkGrowth P (wrAccept tx u) v) : SinkGrowth P u v :=
  ⟨h.grows, h.flushed_le, h.flushed, h.byteCnt, h.final⟩

theorem SinkGrowth.of_sameRegs (h : u.SameRegs v) : SinkGrowth P u v := by
  obtain ⟨-, hsnk, -, -, hbyteCnt, hclosed, hflushed, -⟩ := h
  exact {
    grows := hsnk ▸ List.prefix_refl _
    flushed_le := Nat.le_of_eq hflushed.symm
    flushed := .inl hflushed
    byteCnt := .inl (by simp [hsnk, hbyteCnt])
    final := fun hc => ⟨hclosed.trans hc, hsnk, hflushed⟩ }

/-- Bits appended to an open unit are not published yet. -/
theorem SinkGrowth.of_wrote {bits : List Bool} (h : Wrote u v bits) (ho : u.closed = false) : SinkGrowth P u v where
  grows := h.grows
  flushed_le := Nat.le_of_eq h.flushed.symm
  flushed := .inl h.flushed
  byteCnt := .inl h.byteCnt
  final := by simp [ho]

/-- Publishing what an open unit has written: FLUSHED goes up to the new length, because it stood within the old one
(46_wr_align_flush.md R252). -/
theorem SinkGrowth.of_published {bits : List Bool} {w : WrUnit} (h : Wrote u w bits) (hle : u.flushed ≤ u.snk.length)
    (ho : u.closed = false) (hP : P .wrFlush ∨ P .wrClose) (hsnk : v.snk = w.snk) (hbyteCnt : v.byteCnt = w.byteCnt)
    (hflushed : v.flushed = w.snk.length) : SinkGrowth P u v where
  grows := hsnk ▸ h.grows
  flushed_le := hflushed ▸ hle.trans h.grows.length_le
  flushed := .inr hP
  byteCnt := .inl (by rw [hbyteCnt, hsnk, h.byteCnt])
  final := by simp [ho]

@[simp] theorem wrResetCounter_snk (clears : Bool) (u : WrUnit) : (wrResetCounter clears u).snk = u.snk := by
  cases clears <;> rfl

@[simp] theorem wrResetCounter_flushed (clears : Bool) (u : WrUnit) :
    (wrResetCounter clears u).flushed = u.flushed := by
  cases clears <;> rfl

theorem SinkGrowth.of_wrResetCounter (clears : Bool) (r : Response) (ho : u.closed = false) (hP : P .wrRstcnt) :
    SinkGrowth P u ((wrResetCounter clears u).respond r) where
  grows := by simp
  flushed_le := by simp
  flushed := .inl (by simp)
  byteCnt := .inr hP
  final := by simp [ho]
end

/-! ## Every effect and every turn of WR moves the sink so -/

theorem WrEffect.sinkGrowth {i : Instr} {u v : WrUnit} (h : WrEffect i u v) (hu : u.Inv) :
    SinkGrowth (i = ·) u v := by
  obtain ⟨hpad, -⟩ := padByte_wrote hu.clean
  obtain ⟨-, -, hle, -⟩ := hu
  cases h with
  | away h => exact .of_sameRegs h.sameRegs
  | get _ hv => exact hv ▸ .of_sameRegs (.refl u)
  | write bits h => exact .of_wrote h.wrote h.isOpen
  | flush hi ho hv => exact hv ▸ .of_published hpad hle ho (.inl hi) rfl rfl rfl
  | close hi ho hv => exact hv ▸ .of_published hpad hle ho (.inr hi) rfl rfl rfl
  | reset hi ho hv => exact hv ▸ .of_wrResetCounter _ _ ho hi

theorem WrTurn.sinkGrowth {c : HostCommand} {u v : WrUnit} (h : WrTurn c u v) (hu : u.Inv) : SinkGrowth c.Is u v := by
  have ha := wrAccept_inv c.tx hu
  cases h with
  | runs i hi hwr hv =>
    have heff := (wrBody_effect hwr ha.clean hv).sinkGrowth ha
    exact (heff.mono fun _ hij => hij ▸ hi).of_wrAccept
  | illegal _ hv =>
    have hsame := wrRaise_sameRegs .illegalCommand (wrAccept c.tx u)
    exact (SinkGrowth.of_sameRegs (hv ▸ hsame)).of_wrAccept

/-! ## The step -/

/-- The command that the next step takes is the instruction. -/
def State.HeadIs (s : State) (i : Instr) : Prop := ∃ c cs, s.host = c :: cs ∧ c.Is i

theorem State.headIs_or {s : State} {i j : Instr} :
    s.HeadIs i ∨ s.HeadIs j ↔ ∃ c cs, s.host = c :: cs ∧ (c.Is i ∨ c.Is j) := by
  simp only [State.HeadIs, and_or_left, exists_or]

theorem StepTurn.sinkGrowth {s t : State} (h : StepTurn s t) (hs : s.wr.Inv) : SinkGrowth s.HeadIs s.wr t.wr := by
  rcases h.wr_cases with hwr | ⟨c, cs, hhost, -, hv⟩
  · rw [hwr]
    exact .of_sameRegs (.refl s.wr)
  · exact (hv.sinkGrowth hs).mono fun _ hi => ⟨c, cs, hhost, hi⟩

/-- Settles O48: a step is at most one effect of WR, every effect moves the sink as `SinkGrowth` says, and the invariant says
that a closed unit has everything published. -/
theorem sinkOnlyGrows : Obligations.SinkOnlyGrows := by
  intro s t hs h
  have hgrowth := (step_turn h).sinkGrowth hs
  obtain ⟨-, -, -, hpublished⟩ := hs
  refine ⟨hgrowth.grows, hgrowth.flushed_le, hgrowth.flushed.imp_right State.headIs_or.mp, hgrowth.byteCnt, fun hc => ?_⟩
  obtain ⟨hclosed, hsnk, hflushed⟩ := hgrowth.final hc
  exact ⟨hclosed, hsnk, hflushed, (hpublished hc).2⟩

end Sys2Proof.Machine

/-! The command word (30_encoding.md R92, R94, R95): its four fields, the words of each row of the opcode map, and with them the
decoder, the encoder and the match/mask table of R95 against one another. -/

namespace Sys2Proof

/-! ## The fields of a word -/

section
variable (opc : BitVec 8) (bo : BitVec 1) (w : BitVec 4)

@[simp] theorem fieldW_commandWord : fieldW (commandWord opc bo w) = w :=
  BitVec.extractLsb'_append_eq_right

@[simp] theorem fieldRsv_commandWord : fieldRsv (commandWord opc bo w) = 0#3 :=
  (BitVec.extractLsb'_append_eq_of_le (by decide)).trans BitVec.extractLsb'_append_eq_right

@[simp] theorem fieldBo_commandWord : fieldBo (commandWord opc bo w) = bo :=
  (BitVec.extractLsb'_append_eq_of_le (by decide)).trans
    ((BitVec.extractLsb'_append_eq_of_le (by decide)).trans BitVec.extractLsb'_append_eq_right)

@[simp] theorem fieldOpc_commandWord : fieldOpc (commandWord opc bo w) = opc :=
  (BitVec.extractLsb'_append_eq_of_le (by decide)).trans
    ((BitVec.extractLsb'_append_eq_of_le (by decide)).trans BitVec.extractLsb'_append_eq_left)

end

/-! A mask acts on each field by itself. -/

section
variable (x y : CmdWord)

@[simp] theorem fieldOpc_and : fieldOpc (x &&& y) = fieldOpc x &&& fieldOpc y := BitVec.extractLsb'_and
@[simp] theorem fieldBo_and : fieldBo (x &&& y) = fieldBo x &&& fieldBo y := BitVec.extractLsb'_and
@[simp] theorem fieldRsv_and : fieldRsv (x &&& y) = fieldRsv x &&& fieldRsv y := BitVec.extractLsb'_and
@[simp] theorem fieldW_and : fieldW (x &&& y) = fieldW x &&& fieldW y := BitVec.extractLsb'_and

end

/-- The four fields are all there is to a word (30_encoding.md R92). -/
theorem append_fields (cw : CmdWord) : fieldOpc cw ++ fieldBo cw ++ fieldRsv cw ++ fieldW cw = cw := by
  have hbo : fieldOpc cw ++ fieldBo cw = cw.extractLsb' 7 9 := BitVec.extractLsb'_append_extractLsb'_eq_extractLsb' rfl
  have hrsv : cw.extractLsb' 7 9 ++ fieldRsv cw = cw.extractLsb' 4 12 :=
    BitVec.extractLsb'_append_extractLsb'_eq_extractLsb' rfl
  rw [hbo, hrsv]
  exact BitVec.extractLsb'_append_extractLsb'

theorem eq_commandWord_iff {cw : CmdWord} {opc : BitVec 8} {bo : BitVec 1} {w : BitVec 4} :
    cw = commandWord opc bo w ↔ fieldOpc cw = opc ∧ fieldBo cw = bo ∧ fieldRsv cw = 0#3 ∧ fieldW cw = w := by
  constructor
  · rintro rfl
    simp
  · rintro ⟨rfl, rfl, hrsv, rfl⟩
    rw [commandWord, ← hrsv, append_fields]

/-- The two values of the field BO are the two byte orders. -/
theorem bitOfOrder_orderOfBit (b : BitVec 1) : bitOfOrder (orderOfBit b) = b := by
  revert b
  decide

@[simp] theorem orderOfBit_bitOfOrder (bo : ByteOrder) : orderOfBit (bitOfOrder bo) = bo := by
  cases bo <;> rfl

/-! ## The words of a row of the opcode map -/

/-- The words of a row with the instruction of each: the fields the row uses at all of their values, the others zero
(30_encoding.md R92, R94). -/
def Form.words (opc : BitVec 8) : Form → List (CmdWord × Instr)
  | .plain i => [(commandWord opc 0#1 0#4, i)]
  | .withOrder mk => [ByteOrder.big, .little].map fun bo => (commandWord opc (bitOfOrder bo) 0#4, mk bo)
  | .withWidth mk => (List.range 16).map fun w => (commandWord opc 0#1 (BitVec.ofNat 4 w), mk w)

theorem mem_words_plain {opc : BitVec 8} {cw : CmdWord} {i j : Instr} :
    (cw, i) ∈ (Form.plain j).words opc ↔ cw = commandWord opc 0#1 0#4 ∧ i = j := by
  simp [Form.words]

theorem mem_words_withOrder {opc : BitVec 8} {cw : CmdWord} {i : Instr} {mk : ByteOrder → Instr} :
    (cw, i) ∈ (Form.withOrder mk).words opc ↔ ∃ bo, cw = commandWord opc (bitOfOrder bo) 0#4 ∧ i = mk bo := by
  constructor
  · intro h
    obtain ⟨bo, -, heq⟩ := List.mem_map.mp h
    cases heq
    exact ⟨bo, rfl, rfl⟩
  · rintro ⟨bo, rfl, rfl⟩
    exact List.mem_map.mpr ⟨bo, by cases bo <;> simp, rfl⟩

theorem mem_words_withWidth {opc : BitVec 8} {cw : CmdWord} {i : Instr} {mk : Nat → Instr} :
    (cw, i) ∈ (Form.withWidth mk).words opc ↔ ∃ w : BitVec 4, cw = commandWord opc 0#1 w ∧ i = mk w.toNat := by
  constructor
  · intro h
    obtain ⟨w, hw, heq⟩ := List.mem_map.mp h
    cases heq
    exact ⟨BitVec.ofNat 4 w, rfl, by rw [BitVec.toNat_ofNat, Nat.mod_eq_of_lt (List.mem_range.mp hw)]⟩
  · rintro ⟨w, rfl, rfl⟩
    exact List.mem_map.mpr ⟨w.toNat, List.mem_range.mpr w.isLt, by rw [BitVec.ofNat_toNat, BitVec.setWidth_eq]⟩

/-- Steps 3 to 5 of 30_encoding.md R95 let through the words of the row and read the fields back. -/
theorem decodeForm_eq_ok {cw : CmdWord} {f : Form} {i : Instr} :
    decodeForm cw f = .ok i ↔ (cw, i) ∈ f.words (fieldOpc cw) := by
  cases f with
  | plain j =>
    simp only [mem_words_plain, eq_commandWord_iff, decodeForm]
    grind
  | withOrder mk =>
    simp only [mem_words_withOrder, eq_commandWord_iff, decodeForm]
    grind [bitOfOrder_orderOfBit, orderOfBit_bitOfOrder]
  | withWidth mk =>
    simp only [mem_words_withWidth, eq_commandWord_iff, decodeForm]
    grind

/-- The decoder answers an instruction exactly for the words of a row of the opcode map. -/
theorem decode_eq_ok {cw : CmdWord} {i : Instr} :
    decode cw = .ok i ↔ ∃ f, opcodeMap.lookup (fieldOpc cw) = some f ∧ (cw, i) ∈ f.words (fieldOpc cw) := by
  rw [decode]
  cases opcodeMap.lookup (fieldOpc cw) with
  | none => simp
  | some f => simp [decodeForm_eq_ok]

/-! ## Decoding what was encoded -/

section
variable {opc : BitVec 8}

theorem decode_of_mem_words {f : Form} {bo : BitVec 1} {w : BitVec 4} {i : Instr} (hrow : opcodeMap.lookup opc = some f)
    (hword : (commandWord opc bo w, i) ∈ f.words opc) : decode (commandWord opc bo w) = .ok i :=
  decode_eq_ok.mpr ⟨f, by rwa [fieldOpc_commandWord], by rwa [fieldOpc_commandWord]⟩

theorem decode_plain {i : Instr} (hrow : opcodeMap.lookup opc = some (.plain i)) :
    decode (commandWord opc 0#1 0#4) = .ok i :=
  decode_of_mem_words hrow (mem_words_plain.mpr ⟨rfl, rfl⟩)

theorem decode_withOrder {mk : ByteOrder → Instr} (hrow : opcodeMap.lookup opc = some (.withOrder mk)) (bo : ByteOrder) :
    decode (commandWord opc (bitOfOrder bo) 0#4) = .ok (mk bo) :=
  decode_of_mem_words hrow (mem_words_withOrder.mpr ⟨bo, rfl, rfl⟩)

theorem decode_withWidth {mk : Nat → Instr} (hrow : opcodeMap.lookup opc = some (.withWidth mk)) {w : Nat}
    (hw : widthEncodable w = true) : decode (commandWord opc 0#1 (BitVec.ofNat 4 w)) = .ok (mk w) :=
  have hlt : w < 2 ^ 4 := of_decide_eq_true hw
  decode_of_mem_words hrow (mem_words_withWidth.mpr ⟨_, rfl, by rw [BitVec.toNat_ofNat, Nat.mod_eq_of_lt hlt]⟩)

end

/-- Settles O1: the word of each instruction is a word of the row of its opcode, which carries nothing, a byte order or a
width. -/
theorem decodeOfEncode : Obligations.DecodeOfEncode := by
  intro i hi
  cases i
  case rdBits w | rdBitsarr w | wrBits w | wrBitsarr w => exact decode_withWidth rfl hi
  case rdUshort bo | rdInt bo | rdUint bo | rdLong bo | rdFloat bo | rdDouble bo | rdString bo | rdBytearr bo |
      rdShortarr bo | rdUshortarr bo | rdIntarr bo | rdUintarr bo | rdLongarr bo | rdFloatarr bo | rdDoublearr bo |
      rdStrarr bo | wrShort bo | wrInt bo | wrUint bo | wrLong bo | wrFloat bo | wrDouble bo | wrString bo | wrBytes bo |
      wrShortarr bo | wrIntarr bo | wrUintarr bo | wrLongarr bo | wrFloatarr bo | wrDoublearr bo | wrStrarr bo =>
    exact decode_withOrder rfl bo
  case rdByte | rdBool | rdBoolarr | rdAlignbyte | rdAlign | rdMark | rdReset | rdGetcnt | rdRstcnt | rdGetord | rdGetbuf |
      rdGetnbits | rdGetdl | rdSetdl | wrByte | wrBool | wrBoolarr | wrAlign | wrFlush | wrClose | wrGetcnt | wrRstcnt =>
    exact decode_plain rfl

/-! ## Encoding what was decoded -/

/-- The 57 rows, word by word: the encoder gives back each of them. -/
theorem opcodeMap_words_encode :
    ∀ r ∈ opcodeMap, ∀ x ∈ r.2.words r.1, x.2.WellFormed = true ∧ encode x.2 = x.1 := by
  decide

/-- Settles O2: a word that decodes is a word of a row, and those are the words of the encoder. -/
theorem encodeOfDecode : Obligations.EncodeOfDecode := by
  intro cw i h
  obtain ⟨f, hrow, hword⟩ := decode_eq_ok.mp h
  exact opcodeMap_words_encode _ (Machine.mem_of_lookup hrow) _ hword

/-! ## The match/mask table -/

/-- The mask of a row leaves out the fields that the command uses (30_encoding.md R95). -/
def Form.mask : Form → CmdWord
  | .plain _ => 0xFFFF#16
  | .withOrder _ => 0xFF7F#16
  | .withWidth _ => 0xFFF0#16

/-- The table is the opcode map, row by row. -/
theorem tableRows_eq : tableRows = opcodeMap.map fun r => ⟨r.2.mask, commandWord r.1 0#1 0#4⟩ := by decide

theorem opcodeMap_nodup : (opcodeMap.map Prod.fst).Nodup := by decide

theorem decodeForm_isOk {cw : CmdWord} {f : Form} :
    (decodeForm cw f).isOk = true ↔ ∃ i, (cw, i) ∈ f.words (fieldOpc cw) := by
  simp only [← decodeForm_eq_ok]
  cases decodeForm cw f <;> simp [Except.isOk, Except.toBool]

/-- Every mask keeps OPC and RSV; of BO and W it keeps what the command does not use. -/
theorem and_mask_eq_commandWord_iff {cw : CmdWord} {opc : BitVec 8} {f : Form} :
    cw &&& f.mask = commandWord opc 0#1 0#4 ↔ fieldOpc cw = opc ∧ fieldBo cw &&& fieldBo f.mask = 0#1 ∧
      fieldRsv cw = 0#3 ∧ fieldW cw &&& fieldW f.mask = 0#4 := by
  have hopc : fieldOpc f.mask = BitVec.allOnes 8 := by cases f <;> rw [Form.mask] <;> rfl
  have hrsv : fieldRsv f.mask = BitVec.allOnes 3 := by cases f <;> rw [Form.mask] <;> rfl
  rw [eq_commandWord_iff, fieldOpc_and, fieldBo_and, fieldRsv_and, fieldW_and, hopc, hrsv, BitVec.and_allOnes,
    BitVec.and_allOnes]

/-- A word meets a row of the table exactly where it has the opcode of the row and passes its checks. -/
theorem and_mask_eq_iff_isOk (cw : CmdWord) (opc : BitVec 8) (f : Form) :
    cw &&& f.mask = commandWord opc 0#1 0#4 ↔ opc = fieldOpc cw ∧ (decodeForm cw f).isOk = true := by
  rw [and_mask_eq_commandWord_iff, decodeForm_isOk, eq_comm (a := opc)]
  cases f with
  | plain j =>
    have hbo : fieldBo 0xFFFF#16 = BitVec.allOnes 1 := rfl
    have hw : fieldW 0xFFFF#16 = BitVec.allOnes 4 := rfl
    rw [Form.mask, hbo, hw, BitVec.and_allOnes, BitVec.and_allOnes]
    simp [mem_words_plain, eq_commandWord_iff]
  | withOrder mk =>
    have hbo : fieldBo 0xFF7F#16 = 0#1 := rfl
    have hw : fieldW 0xFF7F#16 = BitVec.allOnes 4 := rfl
    have horder : ∃ bo, fieldBo cw = bitOfOrder bo := ⟨_, (bitOfOrder_orderOfBit _).symm⟩
    rw [Form.mask, hbo, hw, BitVec.and_zero, BitVec.and_allOnes]
    simp [mem_words_withOrder, eq_commandWord_iff, horder]
  | withWidth mk =>
    have hbo : fieldBo 0xFFF0#16 = BitVec.allOnes 1 := rfl
    have hw : fieldW 0xFFF0#16 = 0#4 := rfl
    rw [Form.mask, hbo, hw, BitVec.and_allOnes, BitVec.and_zero]
    simp [mem_words_withWidth, eq_commandWord_iff]

/-- In an association list with no key twice, at most one entry is at a key. -/
theorem length_filter_key {α β : Type} [BEq α] [LawfulBEq α] (p : β → Bool) (k : α) {l : List (α × β)}
    (hl : (l.map Prod.fst).Nodup) :
    (l.filter fun x => x.1 == k && p x.2).length = if (l.lookup k).any p then 1 else 0 := by
  induction l with
  | nil => rfl
  | cons x l ih =>
    obtain ⟨a, b⟩ := x
    obtain ⟨hnew, hl⟩ := List.nodup_cons.mp hl
    by_cases hk : a = k
    · subst hk
      have hrest : (l.filter fun x => x.1 == a && p x.2) = [] := by
        refine List.filter_eq_nil_iff.mpr fun x hx hmeets => hnew ?_
        obtain ⟨hkey, -⟩ := (Bool.and_eq_true _ _).mp hmeets
        exact List.mem_map.mpr ⟨x, hx, beq_iff_eq.mp hkey⟩
      cases hp : p b <;> simp [hrest, hp]
    · have hk' : (k == a) = false := beq_false_of_ne (Ne.symm hk)
      simp only [List.filter_cons, List.lookup_cons, hk', beq_false_of_ne hk, Bool.false_and]
      exact ih hl

theorem decode_isOk (cw : CmdWord) :
    (decode cw).isOk = (opcodeMap.lookup (fieldOpc cw)).any fun f => (decodeForm cw f).isOk := by
  rw [decode]
  cases opcodeMap.lookup (fieldOpc cw) <;> rfl

/-- Settles O3: the table is the opcode map row by row, and no opcode stands in it twice. -/
theorem decodesExactlyTheTable : Obligations.DecodesExactlyTheTable := by
  intro cw
  have hmeets : (fun r : BitVec 8 × Form => cw &&& r.2.mask == commandWord r.1 0#1 0#4) =
      fun r => r.1 == fieldOpc cw && (decodeForm cw r.2).isOk := by
    funext r
    rw [Bool.eq_iff_iff, beq_iff_eq, Bool.and_eq_true, beq_iff_eq]
    exact and_mask_eq_iff_isOk cw r.1 r.2
  calc (tableRows.filter fun r => cw &&& r.mask == r.value).length
      = (opcodeMap.filter fun r => cw &&& r.2.mask == commandWord r.1 0#1 0#4).length := by
        rw [tableRows_eq, List.filter_map, List.length_map]
        rfl
    _ = (opcodeMap.filter fun r => r.1 == fieldOpc cw && (decodeForm cw r.2).isOk).length := by rw [hmeets]
    _ = if (opcodeMap.lookup (fieldOpc cw)).any (fun f => (decodeForm cw f).isOk) then 1 else 0 :=
        length_filter_key (fun f => (decodeForm cw f).isOk) (fieldOpc cw) opcodeMap_nodup
    _ = if (decode cw).isOk then 1 else 0 := by rw [decode_isOk]

/-! ## Words written out -/

/-- Settles O4: each legal word is the word of its instruction, and the checks of 30_encoding.md R95 are run on each illegal
one. -/
theorem sampleWords : Obligations.SampleWords := by
  refine ⟨?_, ?_, ?_, ?_, ?_, ?_, ?_, ?_, ?_, ?illegal⟩
  · exact decodeOfEncode (.rdBits 4) rfl
  · exact decodeOfEncode (.rdInt .little) rfl
  · exact decodeOfEncode (.rdString .big) rfl
  · exact decodeOfEncode (.rdBitsarr 3) rfl
  · exact decodeOfEncode .rdAlign rfl
  · exact decodeOfEncode (.wrShort .big) rfl
  · exact decodeOfEncode (.wrBytes .little) rfl
  · exact decodeOfEncode .wrFlush rfl
  · exact decodeOfEncode .wrGetcnt rfl
  case illegal => decide

end Sys2Proof

/-! The step over the decoder (30_encoding.md R90, R91, R93, R95, R97): a word that decodes is run on the state that has accepted
it, every other one is answered IllegalCommand, and a width outside 1..8 is InvalidArgument. -/

namespace Sys2Proof.Machine

/-! ## A step -/

/-- What accepting a command of RD writes: the command port, and RMEM with the counter of free values. -/
theorem accept_rd_eq {c : HostCommand} (hp : c.port = .rd) (s : State) : accept c s =
    { s with rd := { s.rd with cmd := c.tx, rmem := Config.rdOpenRmem s.rd.draws, draws := s.rd.draws + 1 } } :=
  accept_of_rd hp s

/-- What accepting a command of WR writes: the command port. -/
theorem accept_wr_eq {c : HostCommand} (hp : c.port = .wr) (s : State) :
    accept c s = { s with wr := { s.wr with cmd := c.tx } } :=
  accept_of_wr hp s

/-- With no command left the block is idle (60_exceptions.md R315). -/
theorem step_idle {s : State} (h : s.host = []) : step s = .next s := by
  rw [step, h]

/-- Settles O5: a command that is an instruction on its port is accepted and run, and accepting writes the fields named. -/
theorem stepRunsTheDecodedCommand : Obligations.StepRunsTheDecodedCommand := by
  refine ⟨fun s c cs i hs hd hu => ⟨step_of_is hs ⟨hd, hu⟩, fun hp => ?_, fun hp => ?_⟩, fun s => step_idle⟩
  · exact accept_wr_eq hp (s.withHost cs)
  · exact ⟨_, accept_rd_eq hp (s.withHost cs)⟩

/-- A word that does not decode, or of the other unit, is no instruction on its port. -/
theorem not_is_of_illegal {c : HostCommand} (h : (∃ e, decode c.tx.cw = .error e) ∨ unitOfWord c.tx.cw ≠ c.port)
    (i : Instr) : ¬ c.Is i := by
  rintro ⟨hd, hu⟩
  rcases h with ⟨e, he⟩ | hport
  · cases he.symm.trans hd
  · exact hport hu

/-- Settles O6: the unit of the port accepts the command and raises IllegalCommand, and a fault changes no register. -/
theorem illegalCommandsChangeNothing : Obligations.IllegalCommandsChangeNothing := by
  intro s c cs hs hillegal
  refine ⟨_, step_of_illegal hs (not_is_of_illegal hillegal), ?_, fun hp => ?_, fun hp => ?_⟩
  · cases c.port <;> exact accept_host c _
  · rw [hp]
    exact ⟨accept_wr hp _, rfl, (accept_rd_unit hp (s.withHost cs)).trans (rdRaise_sameRegs _ _)⟩
  · rw [hp]
    refine ⟨accept_rd hp _, rfl, ?_⟩
    have haccept : (accept c (s.withHost cs)).wr = { s.wr with cmd := c.tx } := accept_wr_unit hp _
    exact haccept ▸ wrRaise_sameRegs _ _

/-! ## The field W -/

theorem widthLegal_eq_false {w : Nat} (hw : ¬ (1 ≤ w ∧ w ≤ 8)) : widthLegal w = false := by
  simpa [widthLegal] using hw

/-- RD.BITS and RD.BITSARR check the width before anything else. -/
theorem exec_rd_width {w : Nat} (hw : widthLegal w = false) (s : State) :
    exec (.rdBits w) s = .next (s.withRd (rdRaise .invalidArgument s.rd)) ∧
    exec (.rdBitsarr w) s = .next (s.withRd (rdRaise .invalidArgument s.rd)) := by
  simp [exec, execRdBits, execRdBitsarr, rdCommand_eq, hw]

/-- WR.BITS and WR.BITSARR check the width after CLOSED, and before OMEM. -/
theorem exec_wr_width {w : Nat} (hw : widthLegal w = false) {s : State} (ho : s.wr.closed = false) :
    exec (.wrBits w) s = .next (s.withWr (wrRaise .invalidArgument s.wr)) ∧
    exec (.wrBitsarr w) s = .next (s.withWr (wrRaise .invalidArgument s.wr)) := by
  simp [exec, execWrBits, execWrBitsarr, wrCommand_open, wrOmemCommand, hw, ho]

/-- Settles O12: a width outside 1..8 is not legal, and the check of it raises before anything else is done. -/
theorem widthOutsideRange : Obligations.WidthOutsideRange := by
  intro s w hw
  have hillegal := widthLegal_eq_false hw
  obtain ⟨hbits, hbitsarr⟩ := exec_rd_width hillegal s
  refine ⟨hbits ▸ rdFaults_raise .invalidArgument s s.rd, hbitsarr ▸ rdFaults_raise .invalidArgument s s.rd, fun ho => ?_⟩
  obtain ⟨hbits, hbitsarr⟩ := exec_wr_width hillegal ho
  exact ⟨hbits ▸ wrFaults_raise .invalidArgument s s.wr, hbitsarr ▸ wrFaults_raise .invalidArgument s s.wr⟩

end Sys2Proof.Machine

/-! Reading bits (40_rd_bits.md): the pending stream as the source bits from the cursor on, RD.BITS as a move of the cursor, and the
byte counter over a step. -/

namespace Sys2Proof.Machine

/-! ## The pending stream (40_rd_bits.md R129) -/

/-- The `n` source bits from position `p`, in transferred order. -/
def RdUnit.stream (u : RdUnit) (p n : Nat) : List Bool := (List.range' p n).map u.srcBit

@[simp] theorem stream_zero (u : RdUnit) (p : Nat) : u.stream p 0 = [] := rfl

@[simp] theorem stream_length (u : RdUnit) (p n : Nat) : (u.stream p n).length = n := by simp [RdUnit.stream]

theorem stream_succ (u : RdUnit) (p n : Nat) : u.stream p (n + 1) = u.srcBit p :: u.stream (p + 1) n := by
  simp [RdUnit.stream, List.range'_succ]

theorem stream_add (u : RdUnit) (p m n : Nat) : u.stream p (m + n) = u.stream p m ++ u.stream (p + m) n := by
  simp [RdUnit.stream, ← List.range'_append_1]

theorem stream_congr {u v : RdUnit} (hs : v.src = u.src) (ho : v.bitOrder = u.bitOrder) (p n : Nat) :
    v.stream p n = u.stream p n :=
  List.map_congr_left fun q _ => srcBit_congr hs ho q

theorem take_stream (u : RdUnit) (p : Nat) {m n : Nat} (h : m ≤ n) : (u.stream p n).take m = u.stream p m := by
  obtain ⟨k, rfl⟩ := Nat.exists_eq_add_of_le h
  rw [stream_add, List.take_left' (stream_length u p m)]

theorem drop_stream (u : RdUnit) (p : Nat) {m n : Nat} (h : m ≤ n) :
    (u.stream p n).drop m = u.stream (p + m) (n - m) := by
  obtain ⟨k, rfl⟩ := Nat.exists_eq_add_of_le h
  rw [stream_add, List.drop_left' (stream_length u p m), Nat.add_sub_cancel_left]

theorem valueOfBits_stream (u : RdUnit) (p n : Nat) : valueOfBits (u.stream p n) = u.bitsAt p n := by
  induction n generalizing p with
  | zero => rfl
  | succ n ih => rw [stream_succ, valueOfBits, ih, RdUnit.bitsAt]

/-- The high bits of one transformed source byte are source bits. -/
theorem lowBits_of_byte {u : RdUnit} {p n : Nat} {b : Byte} (hn : p % 8 + n ≤ 8) (hb : u.src[p / 8]? = some b) :
    lowBits n (transform u.bitOrder b >>> (p % 8)) = u.stream p n := by
  rw [lowBits, RdUnit.stream, List.range'_eq_map_range, List.map_map]
  refine List.map_congr_left fun i hi => ?_
  have hin : i < n := List.mem_range.mp hi
  have hbyte : (p + i) / 8 = p / 8 := by omega
  have hbit : (p + i) % 8 = p % 8 + i := by omega
  rw [BitVec.getLsbD_ushiftRight, Function.comp_apply, srcBit_of_byte (hbyte ▸ hb), hbit]

/-- The bits of the source bytes from byte `k` on. -/
theorem flatMap_drop_src (u : RdUnit) {k m : Nat} (h : k + m = u.src.length) :
    ((u.src.drop k).flatMap fun b => lowBits 8 (transform u.bitOrder b)) = u.stream (8 * k) (8 * m) := by
  induction m generalizing k with
  | zero => rw [List.drop_of_length_le (by omega)]; rfl
  | succ m ih =>
    have hk : k < u.src.length := by omega
    have hbyte : lowBits 8 (transform u.bitOrder u.src[k]) = u.stream (8 * k) 8 := by
      have hb : u.src[8 * k / 8]? = some u.src[k] := by
        rw [Nat.mul_div_cancel_left k (by decide), List.getElem?_eq_getElem hk]
      have hz : 8 * k % 8 = 0 := Nat.mul_mod_right 8 k
      have hrow := lowBits_of_byte (n := 8) (by omega) hb
      rwa [hz, BitVec.ushiftRight_zero] at hrow
    rw [List.drop_eq_getElem_cons hk, List.flatMap_cons, hbyte, ih (by omega), Nat.mul_add_one 8 k, Nat.mul_add_one 8 m,
      Nat.add_comm (8 * m), stream_add]

/-- The buffered bits are those from the cursor to the end of its byte. -/
theorem RdUnit.At.lowBits_bitBuf {u : RdUnit} {p : Nat} (h : u.At p) :
    lowBits u.bitCnt.toNat u.bitBuf = u.stream p u.bitCnt.toNat := by
  have hc := h.bitCnt_toNat
  have hi := h.inside
  by_cases hz : p % 8 = 0
  · have hempty : u.bitCnt.toNat = 0 := by omega
    rw [hempty]
    rfl
  · obtain ⟨b, hb⟩ := exists_byte (u := u) (p := p) (by omega)
    rw [h.bitBuf_of_byte hz hb, lowBits_of_byte (by omega) hb]

/-- The pending stream is the rest of the source from the cursor on. -/
theorem RdUnit.At.pending {u : RdUnit} {p : Nat} (h : u.At p) : u.pending = u.stream p (8 * u.src.length - p) := by
  have hc := h.bitCnt_toNat
  have hi := h.inside
  have hs := h.srcPos
  have hloaded : 8 * u.srcPos = p + u.bitCnt.toNat := by omega
  have hrest : 8 * u.src.length - p = u.bitCnt.toNat + 8 * (u.src.length - u.srcPos) := by omega
  rw [RdUnit.pending, h.lowBits_bitBuf, flatMap_drop_src u (m := u.src.length - u.srcPos) (by omega), hloaded, hrest, stream_add]

theorem RdUnit.Inv.pending_eq {u : RdUnit} (hu : u.Inv) : u.pending = u.stream u.bitPos (pendingBits u) := by
  rw [hu.at.pending, hu.at.pendingBits]

theorem RdUnit.Inv.pending_length {u : RdUnit} (hu : u.Inv) : u.pending.length = pendingBits u := by
  rw [hu.pending_eq, stream_length]

/-- Consuming bits drops them from the pending stream. -/
theorem RdUnit.Inv.consume_pending {u : RdUnit} (hu : u.Inv) {n : Nat} (hn : n ≤ pendingBits u) :
    (u.consume n).pending = u.pending.drop n := by
  have hp := hu.pending
  have hat : (u.consume n).At (u.bitPos + n) := consume_at hu.at (by omega)
  have hrest : 8 * u.src.length - (u.bitPos + n) = pendingBits u - n := by omega
  rw [hat.pending, hu.pending_eq, drop_stream _ _ hn, stream_congr (consume_src u n) (consume_bitOrder u n), consume_src, hrest]

/-! ## RD.BITS (40_rd_bits.md R127) -/

theorem exec_rdBits_legal {w : Nat} (hw : 1 ≤ w ∧ w ≤ 8) (s : State) :
    exec (.rdBits w) s = .next (s.withRd (bitsRespond (readBits w s.rd))) := by
  have hlegal : widthLegal w = true := by simpa [widthLegal] using hw
  simp only [exec, execRdBits, rdCommand_eq, if_pos hlegal]

/-- The response carries the value of at most eight bits whole: none is lost in the byte that `ReadBits` returns. -/
theorem bitsResponse_bitsAt (u : RdUnit) (p : Nat) {n : Nat} (hn : n ≤ 8) :
    bitsResponse (BitVec.ofNat 8 (u.bitsAt p n)) n = ⟨.ok, BitVec.ofNat 64 (u.bitsAt p n), BitVec.ofNat 4 n, 0⟩ := by
  have hlt : u.bitsAt p n < 256 := (bitsAt_lt u p n).trans_le (Nat.pow_le_pow_right (by decide) hn)
  rw [bitsResponse, setWidth_ofNat8 hlt]

/-- Settles O10: the three paths of `ReadBits` come to one specification at the cursor, and the response carries it. -/
theorem readBitField : Obligations.ReadBitField := by
  intro s w hinv hw1 hw8
  have hp := hinv.pending
  have hw : 1 ≤ w ∧ w ≤ 8 := ⟨hw1, hw8⟩
  have hleft : 8 * s.rd.src.length - s.rd.bitPos = pendingBits s.rd := hinv.at.pendingBits.symm
  rw [exec_rdBits_legal hw, readBits_spec hinv.at hw, hleft]
  refine ⟨fun hnone => ?_, fun hsome => ?_⟩
  · rw [if_pos (by omega)]
    rfl
  · rw [if_neg (by omega), bitsRespond, bitsResponse_bitsAt _ _ (by omega)]

/-- Settles O9: by O10 the command consumes the first bits of the pending stream, which are the source bits at the cursor. -/
theorem bitStreamLaw : Obligations.BitStreamLaw := by
  intro s w hinv hw1 hw8
  obtain ⟨hempty, hbits⟩ := readBitField s w hinv hw1 hw8
  have hnil : s.rd.pending = [] ↔ pendingBits s.rd = 0 := by rw [← hinv.pending_length, List.length_eq_zero_iff]
  rw [hinv.pending_length]
  by_cases hz : pendingBits s.rd = 0
  · refine ⟨_, hempty hz, ⟨fun _ => hnil.mpr hz, fun _ => rfl⟩, ?_, fun hne => absurd (hnil.mpr hz) hne⟩
    rw [hz, Nat.min_zero]
    rfl
  · refine ⟨_, hbits (Nat.pos_of_ne_zero hz), ⟨nofun, fun hn => absurd (hnil.mp hn) hz⟩, ?_, fun _ => ?_⟩
    · exact hinv.consume_pending (Nat.min_le_right _ _)
    · rw [hinv.pending_eq, take_stream _ _ (Nat.min_le_right _ _), valueOfBits_stream]
      rfl

/-- Settles O11: O10 on the unit as constructed, whose next eight bits are the byte mirrored under MSB0 and the byte itself under
LSB0. -/
theorem mirroringExample : Obligations.MirroringExample := by
  have full (ord : BitOrder) := (readBitField (State.construct ord .lsb0 [0x80#8]) 8
    (RdUnit.construct_inv ord _) (by decide) (by decide)).2 (by decide : 0 < 8)
  have hmsb : (RdUnit.construct .msb0 [0x80#8]).bitsAt 0 8 = 0x01 := by decide
  have hlsb : (RdUnit.construct .lsb0 [0x80#8]).bitsAt 0 8 = 0x80 := by decide
  exact ⟨hmsb ▸ full .msb0, hlsb ▸ full .lsb0⟩

/-! ## The byte counter (40_rd_bits.md R128) -/

/-- Between `u` and `v` the cursor has not gone back over the end of a byte, and BYTECNT has counted every byte whose end it has
passed. -/
def CountsBytes (u v : RdUnit) : Prop :=
  u.bitPos / 8 ≤ v.bitPos / 8 ∧ v.byteCnt = u.byteCnt + BitVec.ofNat 64 (v.bitPos / 8 - u.bitPos / 8)

/-- A cursor that does not move passes no byte. -/
theorem CountsBytes.of_still {u v : RdUnit} (hp : v.bitPos = u.bitPos) (hc : v.byteCnt = u.byteCnt) : CountsBytes u v := by
  rw [CountsBytes, hp, hc]
  simp

theorem RdUnit.SameRegs.bitPos {u v : RdUnit} (h : u.SameRegs v) : v.bitPos = u.bitPos := by
  obtain ⟨-, -, hsrc, -, hcnt, -⟩ := h
  rw [RdUnit.bitPos, hsrc, hcnt, RdUnit.bitPos]

theorem RdUnit.SameRegs.countsBytes {u v : RdUnit} (h : u.SameRegs v) : CountsBytes u v := by
  have hp := h.bitPos
  obtain ⟨-, -, -, -, -, hc, -⟩ := h
  exact .of_still hp hc

/-- A read moves the cursor forward and counts the bytes it ends. -/
theorem Reads.countsBytes {u v : RdUnit} (h : Reads u v) (hu : u.Inv) : CountsBytes u v := by
  obtain ⟨n, d, hn, hm, -⟩ := h
  have hp := hu.pending
  have hpos : v.bitPos = u.bitPos + n := hm.bitPos.trans (consume_at hu.at (by omega)).bitPos
  obtain ⟨-, -, -, -, -, hc, -⟩ := hm
  rw [CountsBytes, hpos]
  exact ⟨Nat.div_le_div_right (Nat.le_add_right _ _), hc⟩

theorem RdEffect.countsBytes {i : Instr} {u v : RdUnit} (h : RdEffect i u v) (hu : u.Inv) (hcount : i ≠ .rdRstcnt)
    (hreset : i ≠ .rdReset) : CountsBytes u v := by
  cases h with
  | reads h => exact h.countsBytes hu
  | mark _ _ hv => exact hv ▸ .of_still rfl rfl
  | reset hi _ _ _ => exact absurd hi hreset
  | count hi _ => exact absurd hi hcount
  | limit _ hv => exact hv ▸ .of_still rfl rfl

theorem RdTurn.countsBytes {c : HostCommand} {u v : RdUnit} (h : RdTurn c u v) (hu : u.Inv) (hcount : ¬ c.Is .rdRstcnt)
    (hreset : ¬ c.Is .rdReset) : CountsBytes u v := by
  have ha := rdAccept_inv c.tx hu
  cases h with
  | runs i hi hunit hv =>
    have he : RdEffect i (rdAccept c.tx u) v := hv ▸ rdBody_effect hunit ha
    exact he.countsBytes ha (fun h => hcount (h ▸ hi)) (fun h => hreset (h ▸ hi))
  | illegal _ hv => exact (illegal_sameRegs hv).countsBytes

/-- The bytes whose every bit is behind the cursor: the bytes fetched, but for one that is still partly in the buffer. -/
theorem RdUnit.Inv.bitPos_div {u : RdUnit} (hu : u.Inv) :
    u.bitPos / 8 = u.srcPos - (if u.bitCnt = 0#4 then 0 else 1) := by
  have hs := hu.at.srcPos
  have hc := hu.at.bitCnt_toNat
  by_cases hz : u.bitCnt = 0#4
  · rw [hz, BitVec.toNat_ofNat] at hc
    rw [if_pos hz]
    omega
  · have hne : u.bitCnt.toNat ≠ 0 := fun h => hz (BitVec.eq_of_toNat_eq h)
    rw [if_neg hz]
    omega

/-- Settles O52: a turn of RD counts the bytes that the cursor has passed, and the invariant on both sides of the step says how
many those are. -/
theorem byteCounterLaw : Obligations.ByteCounterLaw := by
  intro s t hs h hcmd
  have hturn := step_turn h
  rw [← hs.bitPos_div, ← (hturn.rd_inv hs).bitPos_div]
  rcases hturn.rd_cases with hrd | ⟨c, cs, hhost, -, hv⟩
  · exact hrd ▸ CountsBytes.of_still rfl rfl
  · obtain ⟨hcount, hreset⟩ := hcmd c cs hhost
    exact hv.countsBytes hs hcount hreset

end Sys2Proof.Machine

/-! Scalar reads (41_rd_scalars.md): the value of the bytes at the cursor, the read cut off by the end of the source, and the round
trip of what a scalar write wrote. -/

namespace Sys2Proof.Machine

/-! ## The eight scalar reads (41_rd_scalars.md R140 to R149) -/

/-- Settles O13: the reader of the command takes the bytes of its shape at the cursor and answers their lane. -/
theorem readScalar : Obligations.ReadScalar := by
  intro i sh s hsh hinv hpending
  obtain ⟨f, hexec, htakes⟩ := scalarRead_takes hsh
  have hroom : s.rd.bitPos + 8 * sh.bytes ≤ 8 * s.rd.src.length := by
    have hp := hinv.pending
    omega
  rw [hexec, rdScalar, rdCommand_eq, htakes.enough hinv.at hroom, rdEnd_ok]

/-- Settles O14: the reader of the command raises EndOfData at the end of the source, where it has used up what was pending. -/
theorem readScalarCutOff : Obligations.ReadScalarCutOff := by
  intro i sh s hsh hinv hpending
  obtain ⟨f, hexec, htakes⟩ := scalarRead_takes hsh
  have hshort : 8 * s.rd.src.length < s.rd.bitPos + 8 * sh.bytes := by
    have hp := hinv.pending
    omega
  rw [hexec, rdScalar, rdCommand_eq, htakes.short hinv.at hshort, rdEnd_raise, ← hinv.at.pendingBits]
  exact rdFaults_raise .endOfData s _

/-! ## Bytes in the source as bits -/

theorem valueOfBits_append_singleton (xs : List Bool) (b : Bool) :
    valueOfBits (xs ++ [b]) = valueOfBits xs + 2 ^ xs.length * b.toNat := by
  induction xs with
  | nil => simp [valueOfBits]
  | cons x xs ih =>
    rw [List.cons_append, valueOfBits, valueOfBits, ih, List.length_cons, Nat.pow_succ']
    ring

theorem valueOfBits_lowBits (w : Nat) (v : Byte) : valueOfBits (lowBits w v) = v.toNat % 2 ^ w := by
  induction w with
  | zero => simp [lowBits, valueOfBits, Nat.mod_one]
  | succ w ih =>
    rw [lowBits_succ, valueOfBits_append_singleton, ih, lowBits_length, BitVec.getLsbD, Nat.toNat_testBit, Nat.mod_pow_succ]

theorem valueOfBits_byteBits (b : Byte) : valueOfBits (byteBits b) = b.toNat :=
  (valueOfBits_lowBits 8 b).trans (Nat.mod_eq_of_lt b.isLt)

theorem bytesBits_length (bs : List Byte) : (bytesBits bs).length = 8 * bs.length := by
  induction bs with
  | nil => rfl
  | cons b bs ih =>
    rw [bytesBits, List.flatMap_cons, List.length_append, byteBits, lowBits_length, ← bytesBits, ih, List.length_cons]
    omega

/-- Source bits that are the bits of some bytes are those bytes. -/
theorem bytesAt_of_stream {u : RdUnit} {p : Nat} {bs : List Byte} (h : u.stream p (8 * bs.length) = bytesBits bs) :
    u.bytesAt p bs.length = bs := by
  induction bs generalizing p with
  | nil => rfl
  | cons b bs ih =>
    have hsplit : u.stream p 8 ++ u.stream (p + 8) (8 * bs.length) = byteBits b ++ bytesBits bs := by
      rw [← stream_add, Nat.add_comm 8]
      exact h
    obtain ⟨hfirst, hrest⟩ := List.append_inj hsplit (by rw [stream_length, byteBits, lowBits_length])
    have hbyte : BitVec.ofNat 8 (u.bitsAt p 8) = b := by
      rw [← valueOfBits_stream, hfirst, valueOfBits_byteBits, BitVec.ofNat_toNat, BitVec.setWidth_eq]
    rw [List.length_cons, RdUnit.bytesAt, hbyte, ih hrest]

/-! ## A flushed sink as a source (46_wr_align_flush.md R250, R252) -/

/-- WR.FLUSH pads the byte in progress: what was written is still the beginning of the stream, and no bit is left buffered. -/
theorem exec_wrFlush_written {s t : State} (hc : s.wr.Clean) (ho : s.wr.closed = false) (h : exec .wrFlush s = .next t) :
    s.wr.written <+: t.wr.written ∧ t.wr.bitCnt = 0#4 ∧ t.wr.bitOrder = s.wr.bitOrder := by
  obtain ⟨hpad, hempty⟩ := padByte_wrote hc
  have hexec : exec .wrFlush s = .next (s.withWr ((publish (padByte s.wr)).respond (okResponse 0#64))) :=
    wrCommand_open ho fun u => (publish (padByte u)).respond (okResponse 0#64)
  cases hexec.symm.trans h
  exact ⟨⟨_, hpad.written.symm⟩, hempty, hpad.bitOrder⟩

/-- A reader of the same bit order over a sink with no bit left to emit has the written stream as its source bits. -/
theorem stream_eq_written {u : RdUnit} {v : WrUnit} (hsrc : u.src = v.snk) (hord : u.bitOrder = v.bitOrder)
    (hempty : v.bitCnt = 0#4) : u.stream 0 (8 * u.src.length) = v.written := by
  rw [← Nat.mul_zero 8, ← flatMap_drop_src u (Nat.zero_add _), List.drop_zero, WrUnit.written, hsrc, hord, hempty]
  simp [byteBits, lowBits]

/-- Bytes in the written stream stand in the source of such a reader at the bit position where they were written. -/
theorem stands_of_written {u : RdUnit} {v : WrUnit} (hsrc : u.src = v.snk) (hord : u.bitOrder = v.bitOrder)
    (hempty : v.bitCnt = 0#4) {before : List Bool} {bs : List Byte} (h : before ++ bytesBits bs <+: v.written) :
    u.Stands before.length bs := by
  have hstream := stream_eq_written hsrc hord hempty
  have hroom : before.length + 8 * bs.length ≤ 8 * u.src.length := by
    have hle := h.length_le
    rwa [← hstream, stream_length, List.length_append, bytesBits_length] at hle
  have hprefix : u.stream 0 (before.length + 8 * bs.length) = before ++ bytesBits bs := by
    rw [← take_stream u 0 hroom, hstream, ← bytesBits_length, ← List.length_append]
    exact (List.prefix_iff_eq_take.mp h).symm
  refine ⟨hroom, bytesAt_of_stream ?_⟩
  rw [stream_add, Nat.zero_add] at hprefix
  exact List.append_inj_right hprefix (stream_length u 0 _)

/-! ## The round trip (41_rd_scalars.md R150, 45_wr_scalars_arrays.md R241) -/

/-- A scalar write on an open unit appends the bytes of its shape, and the unit stays open. -/
theorem exec_scalarWrite_wrote {i : Instr} {f : Lane → List Byte} (hf : scalarWrite i = some f) {s t : State}
    (hc : s.wr.Clean) (ho : s.wr.closed = false) (h : exec i s = .next t) :
    Wrote s.wr t.wr (bytesBits (f s.wr.cmd.a)) := by
  obtain ⟨g, hexec, happends⟩ := scalarWrite_appends hf
  rw [hexec, wrScalar, wrCommand_open ho] at h
  cases h
  exact (happends hc _).respond _

/-- What a read of shape `sh` makes of the bytes that `f` writes of a lane is `lane` of it. -/
def ReadsBackAs (f : Lane → List Byte) (sh : ReadShape) (lane : Lane → Lane) : Prop :=
  ∀ a, (f a).length = sh.bytes ∧ sh.lane (valueOfBytes sh.order (f a)) = lane a

/-- The bytes of a word, read back in the same byte order, are the word truncated to them. -/
theorem readsBackAs_wordBytes {bo : ByteOrder} {k : Nat} {lane : Nat → Lane} :
    ReadsBackAs (fun a => wordBytes bo k a.toNat) ⟨k, bo, lane⟩ fun a => lane (a.toNat % 256 ^ k) :=
  fun a => ⟨lenBytes_length _ _ _, congrArg lane (valueOfBytes_lenBytes bo a.toNat k)⟩

/-- Eight bytes hold a lane whole. -/
theorem readsBackAs_whole {bo : ByteOrder} :
    ReadsBackAs (fun a => wordBytes bo 8 a.toNat) ⟨8, bo, zextLane⟩ fun a => a := by
  intro a
  obtain ⟨hlen, hlane⟩ := readsBackAs_wordBytes (bo := bo) (k := 8) (lane := zextLane) a
  have hwhole : zextLane (a.toNat % 256 ^ 8) = a := by
    rw [Nat.mod_eq_of_lt (show a.toNat < 256 ^ 8 from a.isLt), zextLane, BitVec.ofNat_toNat, BitVec.setWidth_eq]
  exact ⟨hlen, hlane.trans hwhole⟩

/-- The byte of a Boolean is zero exactly where the lane is. -/
theorem readsBackAs_bool :
    ReadsBackAs (fun a => [if a = 0#64 then 0x00#8 else 0x01#8]) ⟨1, .big, boolLane⟩ fun a => boolLane a.toNat := by
  intro a
  refine ⟨rfl, ?_⟩
  by_cases ha : a = 0#64
  · subst ha
    rfl
  · have hne : a.toNat ≠ 0 := fun h => ha (BitVec.eq_of_toNat_eq h)
    simp [boolLane, valueOfBytes, ha, hne]

/-- Every pair of R241: the tables of the write and of the read that reads it back fit each other. -/
theorem readsBack_shapes {i j : Instr} (h : readsBack i = some j) :
    ∃ f sh, scalarWrite i = some f ∧ scalarRead j = some sh ∧ ReadsBackAs f sh (roundTripLane i) := by
  cases i <;> simp only [readsBack, Option.some.injEq, reduceCtorEq] at h <;> subst h
  case wrByte => exact ⟨_, _, rfl, rfl, readsBackAs_wordBytes⟩
  case wrBool => exact ⟨_, _, rfl, rfl, readsBackAs_bool⟩
  case wrShort => exact ⟨_, _, rfl, rfl, readsBackAs_wordBytes⟩
  case wrInt => exact ⟨_, _, rfl, rfl, readsBackAs_wordBytes⟩
  case wrUint => exact ⟨_, _, rfl, rfl, readsBackAs_wordBytes⟩
  case wrLong => exact ⟨_, _, rfl, rfl, readsBackAs_whole⟩
  case wrFloat => exact ⟨_, _, rfl, rfl, readsBackAs_wordBytes⟩
  case wrDouble => exact ⟨_, _, rfl, rfl, readsBackAs_whole⟩

/-- Settles O59: the bytes written stand at the cursor of the reader, and by O13 the read answers their lane. -/
theorem scalarRoundTrip : Obligations.ScalarRoundTrip := by
  intro i j s t f r hback hs ho hwrite hflush hr hord hsrc hpos
  obtain ⟨bytes, sh, hbytes, hsh, hshapes⟩ := readsBack_shapes hback
  obtain ⟨hlen, hlane⟩ := hshapes s.wr.cmd.a
  have hwrote := exec_scalarWrite_wrote hbytes hs.clean ho hwrite
  obtain ⟨hprefix, hempty, hflushord⟩ := exec_wrFlush_written hwrote.clean (hwrote.closed.trans ho) hflush
  have hsame : r.rd.bitOrder = f.wr.bitOrder := by rw [hord, hflushord, hwrote.bitOrder]
  have hstands : r.rd.Stands r.rd.bitPos (bytes s.wr.cmd.a) :=
    hpos ▸ stands_of_written hsrc hsame hempty (hwrote.written ▸ hprefix)
  obtain ⟨hpending, hat⟩ := (upcoming_stands hr _).mpr hstands
  rw [hlen] at hpending hat
  have hvalue : sh.laneAt r.rd r.rd.bitPos = roundTripLane i s.wr.cmd.a := by
    rw [ReadShape.laneAt, RdUnit.wordAt, hat, hlane]
  have hcount : t.wr.written.length - s.wr.written.length = 8 * sh.bytes := by
    rw [hwrote.written, List.length_append, bytesBits_length, hlen, Nat.add_sub_cancel_left]
  rw [hcount, ← hvalue]
  exact readScalar j sh r hsh hr hpending

end Sys2Proof.Machine

/-! Array reads (42_rd_arrays.md): the two modes of the template as commands of RD, over elements of whole bytes and over bit
groups, whose last one may be short. -/

namespace Sys2Proof.Machine

/-! ## The template as a command (42_rd_arrays.md R160, R161) -/

theorem readArray_fixed (item : RdUnit → RdResult Item) {a : Lane} (ha : 0 ≤ a.toInt) (l : Lane) (u : RdUnit) :
    readArray item a l u = readFixed item a.toInt.toNat u :=
  if_pos ha

theorem readArray_untilExhaustion (item : RdUnit → RdResult Item) {a : Lane} (ha : a.toInt < 0) (l : Lane) (u : RdUnit) :
    readArray item a l u = readUntil item l.toInt (pendingBits u) [] (clearDetLim u) :=
  if_neg (Int.not_le.mpr ha)

section
variable {item : RdUnit → RdResult Item} {arrange : List Item → List Item} {s : State} {v : RdUnit}

/-- The items are left in RMEM, and the response counts them. -/
theorem rdArray_of_ok {xs : List Item} {n : Nat} (hn : xs.length = n)
    (h : readArray item s.rd.cmd.a s.rd.cmd.l s.rd = .ok xs v) :
    rdArray item arrange s = .next (s.withRd ((v.setRmem (arrange xs)).respond (arrayResponse n))) := by
  rw [rdArray, rdCommand_eq, h, rdEnd_ok, hn]

theorem rdArray_of_raise {c : Cause} (h : readArray item s.rd.cmd.a s.rd.cmd.l s.rd = .raise c v) :
    RdFaults (rdArray item arrange s) s (causeStatus c) v := by
  rw [rdArray, rdCommand_eq, h, rdEnd_raise]
  exact rdFaults_raise c s v

end

/-! ## Elements of whole bytes in fixed mode (42_rd_arrays.md R167 to R175) -/

theorem numericElements_length (u : RdUnit) (sh : ReadShape) (n : Nat) : (u.numericElements sh n).length = n := by
  rw [← itemsFrom_numericElements, itemsFrom_length]

/-- Settles O15: the elements fit in what is pending, so every turn of the fixed loop gets its bytes. -/
theorem readArrayFixed : Obligations.ReadArrayFixed := by
  intro i sh s hsh hinv ha hpending
  obtain ⟨-, f, hexec, htakes⟩ := arrayRead_takes hsh
  have hroom : s.rd.bitPos + s.rd.cmd.a.toInt.toNat * (8 * sh.bytes) ≤ 8 * s.rd.src.length := by
    have hp := hinv.pending
    omega
  rw [hexec]
  apply rdArray_of_ok (numericElements_length ..)
  rw [readArray_fixed f ha, readFixed_enough htakes.elem _ hinv.at hroom, itemsFrom_numericElements]

/-- Settles O16: the fixed loop reaches an element that is cut off, and its reader uses up what was pending. -/
theorem readArrayFixedCutOff : Obligations.ReadArrayFixedCutOff := by
  intro i sh s hsh hinv ha hpending
  obtain ⟨-, f, hexec, htakes⟩ := arrayRead_takes hsh
  have hshort : 8 * s.rd.src.length < s.rd.bitPos + s.rd.cmd.a.toInt.toNat * (8 * sh.bytes) := by
    have hp := hinv.pending
    omega
  rw [hexec]
  apply rdArray_of_raise (c := .endOfData)
  rw [readArray_fixed f ha, readFixed_short htakes _ hinv.at hshort, ← hinv.at.pendingBits]

/-! ## The limiter (42_rd_arrays.md R164) -/

theorem hardCap_eq {l : Int} (h : 0 < l) : ∃ n : Nat, l = n ∧ l.toNat = n := ⟨l.toNat, by omega, rfl⟩

theorem softCap_eq {l : Int} (h : l < 0) : ∃ n : Nat, l = -((n : Int) + 1) ∧ (-l).toNat = n + 1 :=
  ⟨(-l - 1).toNat, by omega, by omega⟩

theorem allowsItems_hardCap (n : Nat) : AllowsItems n n := ⟨fun _ => le_rfl, fun h => by omega⟩

/-- A soft cap lets through one item less than it answers: at the last one it stops the loop. -/
theorem allowsItems_softCap (n : Nat) : AllowsItems (-((n : Int) + 1)) n := ⟨fun h => by omega, fun _ => by omega⟩

theorem AllowsItems.proceed {l : Int} {n i : Nat} (h : AllowsItems l n) (hi : i ≤ n) : limiterVerdict l i = .proceed := by
  obtain ⟨hhard, hsoft⟩ := h
  exact limiterVerdict_proceed (fun hl => by have := hhard hl; omega) (fun hl => by have := hsoft hl; omega)

/-! ## Elements of whole bytes in until-exhaustion mode (42_rd_arrays.md R161 to R164) -/

theorem itemsFrom_cleared (u : RdUnit) (sh : ReadShape) (n : Nat) :
    itemsFrom (fun u p => .num (sh.laneAt u p)) (clearDetLim u) u.bitPos (8 * sh.bytes) n = u.numericElements sh n := by
  rw [itemsFrom_clearDetLim, itemsFrom_numericElements]

/-- A run of elements that fits in `c` bits: it takes no more turns than there are bits. -/
theorem elements_fit {m n c : Nat} (hm : 0 < m) (hn : n ≤ c / m) : n * m ≤ c ∧ n ≤ c := by
  have hfit : n * m ≤ c := (Nat.le_div_iff_mul_le hm).mp hn
  exact ⟨hfit, (Nat.le_mul_of_pos_right n hm).trans hfit⟩

/-- Settles O17: the soft cap stops the loop at its last element; where the limiter is silent the loop ends with the source. -/
theorem readArrayUntilExhaustion : Obligations.ReadArrayUntilExhaustion := by
  intro i sh s hsh hinv ha
  obtain ⟨hbytes, f, hexec, htakes⟩ := arrayRead_takes hsh
  have hm : 0 < 8 * sh.bytes := by omega
  have hat := hinv.at.clearDetLim
  have hp : s.rd.bitPos + pendingBits s.rd = 8 * (clearDetLim s.rd).src.length := hinv.pending
  rw [hexec]
  refine ⟨fun hl hcap => ?_, fun hhard hsoft hwhole => ?_⟩
  · apply rdArray_of_ok (numericElements_length ..)
    obtain ⟨n, hn, hcount⟩ := softCap_eq hl
    obtain ⟨hfit, hfuel⟩ := elements_fit hm (show n + 1 ≤ pendingBits s.rd / (8 * sh.bytes) by omega)
    rw [readArray_untilExhaustion f ha, hcount, hn, readUntil_softCap htakes.elem hat hm (by omega) _ hfuel,
      itemsFrom_cleared, markSoftStop_consume]
  · apply rdArray_of_ok (numericElements_length ..)
    have hall : pendingBits s.rd / (8 * sh.bytes) * (8 * sh.bytes) = pendingBits s.rd :=
      Nat.div_mul_cancel (Nat.dvd_of_mod_eq_zero hwhole)
    rw [readArray_untilExhaustion f ha, readUntil_whole htakes.elem hat hm (by omega) ⟨hhard, hsoft⟩ _
      (Nat.div_le_self ..), itemsFrom_cleared, consume_clearDetLim, hall]

/-- Settles O18: the hard cap speaks when the element after it has been read; where the limiter is silent the loop reaches the
element that is cut off. -/
theorem readArrayUntilExhaustionFaults : Obligations.ReadArrayUntilExhaustionFaults := by
  intro i sh s hsh hinv ha
  obtain ⟨hbytes, f, hexec, htakes⟩ := arrayRead_takes hsh
  have hm : 0 < 8 * sh.bytes := by omega
  have hat := hinv.at.clearDetLim
  have hp : s.rd.bitPos + pendingBits s.rd = 8 * (clearDetLim s.rd).src.length := hinv.pending
  rw [hexec]
  refine ⟨fun hl hcap => ?_, fun hhard hsoft hcut => ?_⟩
  · apply rdArray_of_raise (c := .arraySizeExceeded)
    obtain ⟨n, hn, hcount⟩ := hardCap_eq hl
    obtain ⟨hfit, hfuel⟩ := elements_fit hm (show n + 1 ≤ pendingBits s.rd / (8 * sh.bytes) by omega)
    rw [readArray_untilExhaustion f ha, hcount, hn,
      readUntil_hardCap htakes.elem hat hm (by omega) (by omega) _ hfuel, consume_clearDetLim]
  · apply rdArray_of_raise (c := .endOfData)
    have hdiv := Nat.div_add_mod' (pendingBits s.rd) (8 * sh.bytes)
    have hmod := Nat.mod_lt (pendingBits s.rd) hm
    have hnext := Nat.add_one_mul (pendingBits s.rd / (8 * sh.bytes)) (8 * sh.bytes)
    have hfuel := Nat.le_mul_of_pos_right (pendingBits s.rd / (8 * sh.bytes)) hm
    rw [readArray_untilExhaustion f ha, readUntil_cut htakes hat hm (by omega) (by omega) ⟨hhard, hsoft⟩ _ (by omega),
      consume_clearDetLim, show 8 * (clearDetLim s.rd).src.length - s.rd.bitPos = pendingBits s.rd by omega]

/-! ## Bit groups (42_rd_arrays.md R165, R166) -/

theorem exec_rdBitsarr_legal {w : Nat} (hw : 1 ≤ w ∧ w ≤ 8) (s : State) :
    exec (.rdBitsarr w) s = rdArray (bitsItem w) id s :=
  if_pos (by simpa [widthLegal] using hw)

theorem bitGroups_length (u : RdUnit) (w c n : Nat) : (u.bitGroups w c n).length = n := groupsFrom_length ..

/-- The items a read of bit groups gathers, in the terms of RD.BITSARR. -/
theorem groupsFrom_cleared (u : RdUnit) (w c n : Nat) : groupsFrom (clearDetLim u) u.bitPos w c n = u.bitGroups w c n :=
  groupsFrom_congr (u := u) (v := clearDetLim u) rfl rfl ..

/-- Settles O19: the fixed loop gets all its groups exactly where the last one begins before the end of the source. -/
theorem readBitGroupsFixed : Obligations.ReadBitGroupsFixed := by
  intro s w hinv hw1 hw8 ha
  have hleft : 8 * s.rd.src.length - s.rd.bitPos = pendingBits s.rd := hinv.at.pendingBits.symm
  have hread := readFixed_bits ⟨hw1, hw8⟩ s.rd.cmd.a.toInt.toNat hinv.at
  rw [hleft, ← readArray_fixed _ ha s.rd.cmd.l] at hread
  rw [exec_rdBitsarr_legal ⟨hw1, hw8⟩]
  refine ⟨fun hlast => ?_, fun hnone => ?_⟩
  · rw [if_pos hlast] at hread
    exact rdArray_of_ok (groupsFrom_length ..) hread
  · rw [if_neg (by omega)] at hread
    exact rdArray_of_raise hread

/-- Of `c` bits in groups of `w`, the last one perhaps short, the groups are `q`: `q` groups reach the end, and each of them
begins before it. -/
theorem groups_count {w c q : Nat} (hw : 1 ≤ w) (hq : q = (c + w - 1) / w) : c ≤ q * w ∧ q * w < c + w := by
  have hdiv := Nat.div_add_mod' (c + w - 1) w
  have hmod := Nat.mod_lt (c + w - 1) hw
  rw [← hq] at hdiv
  omega

/-- No more groups than bits, as each begins with a bit of its own. -/
theorem groups_le_bits {w c n : Nat} (hw : 1 ≤ w) (hn : n * w < c + w) : n ≤ c := by
  by_contra hlt
  have hmul := Nat.mul_le_mul_right w (show c + 1 ≤ n by omega)
  have hc := Nat.le_mul_of_pos_right c hw
  rw [Nat.add_one_mul] at hmul
  omega

/-- The bit groups of a source that the limiter does not interrupt, up to and with a short last one. -/
theorem readUntil_bits_all {w : Nat} (hw : 1 ≤ w ∧ w ≤ 8) {l : Int} {q : Nat} (hl : AllowsItems l q) {u : RdUnit}
    {p : Nat} (h : u.At p) (hall : 8 * u.src.length - p ≤ q * w) (hlast : q * w < 8 * u.src.length - p + w) (fuel : Nat)
    (hf : q ≤ fuel) :
    readUntil (bitsItem w) l fuel [] u
      = .ok (groupsFrom u p w (8 * u.src.length - p) q) (u.consume (8 * u.src.length - p)) := by
  have hi := h.inside
  have hend := consume_at h (show p + (8 * u.src.length - p) ≤ 8 * u.src.length by omega)
  rw [show fuel = q + (fuel - q) by omega, readUntil_bits hw l q _ [] h hlast (fun i _ hiq => hl.proceed (by simpa using hiq)),
    Nat.min_eq_right hall, readUntil_exhausted _ _ _ _ hend (by rw [consume_src]; omega), List.nil_append]

/-- Settles O20: the verdict of the limiter on one group more than it lets through, or the end of the source. -/
theorem readBitGroupsUntilExhaustion : Obligations.ReadBitGroupsUntilExhaustion := by
  intro s w q hinv hw1 hw8 ha hq
  have hw : 1 ≤ w ∧ w ≤ 8 := ⟨hw1, hw8⟩
  have hat := hinv.at.clearDetLim
  have hleft : 8 * (clearDetLim s.rd).src.length - s.rd.bitPos = pendingBits s.rd := hinv.at.pendingBits.symm
  obtain ⟨hall, hlast⟩ := groups_count hw1 hq
  have hfuel := groups_le_bits hw1 hlast
  have hbegins (n : Nat) (hn : n < q) : n * w < 8 * (clearDetLim s.rd).src.length - s.rd.bitPos := by
    have hmul := Nat.mul_le_mul_right w hn
    rw [Nat.succ_mul] at hmul
    omega
  rw [exec_rdBitsarr_legal hw]
  refine ⟨fun hl hcap => ?_, fun hl hcap => ?_, fun hhard hsoft => ?_⟩
  · apply rdArray_of_raise (c := .arraySizeExceeded)
    obtain ⟨n, hn, hcount⟩ := hardCap_eq hl
    rw [readArray_untilExhaustion _ ha, hcount, hn, readUntil_bits_last hw _ n _ hat (hbegins n (by omega)) (by omega)
      (fun i _ hi => (allowsItems_hardCap n).proceed hi), limiterVerdict_exceeded (by omega) (by omega), hleft]
    rfl
  · apply rdArray_of_ok (bitGroups_length ..)
    obtain ⟨n, hn, hcount⟩ := softCap_eq hl
    rw [readArray_untilExhaustion _ ha, hcount, hn, readUntil_bits_last hw _ n _ hat (hbegins n (by omega)) (by omega)
      (fun i _ hi => (allowsItems_softCap n).proceed hi), limiterVerdict_softStop (by omega) (by omega), hleft]
    simp only [groupsFrom_cleared, markSoftStop_consume]
  · apply rdArray_of_ok (bitGroups_length ..)
    rw [readArray_untilExhaustion _ ha, readUntil_bits_all hw ⟨hhard, hsoft⟩ hat (by omega) (by omega) _ hfuel, hleft,
      groupsFrom_cleared, consume_clearDetLim]

end Sys2Proof.Machine

/-! Reader alignment and the mark (43_rd_align_mark.md): what RD.ALIGNBYTE and RD.ALIGN discard, what RD.MARK records and RD.RESET
restores, and that no other command touches what RD.MARK recorded. -/

namespace Sys2Proof.Machine

/-! ## The mark and the reset (43_rd_align_mark.md R193 to R196) -/

/-- RD.MARK checks its limit first (43_rd_align_mark.md R195). -/
theorem exec_rdMark_negative {s : State} (ha : s.rd.cmd.a.toInt < 0) :
    exec .rdMark s = .next (s.withRd (rdRaise .invalidArgument s.rd)) := by
  rw [exec, execRdMark, rdCommand_eq, if_pos ha]

theorem exec_rdMark_legal {s : State} (ha : 0 ≤ s.rd.cmd.a.toInt) :
    exec .rdMark s = .next (s.withRd ((takeMark s.rd.cmd.a s.rd).respond (okResponse 0#64))) := by
  rw [exec, execRdMark, rdCommand_eq, if_neg (Int.not_lt.mpr ha)]

/-- Settles O27: the two branches of RD.MARK. -/
theorem markRecordsThePosition : Obligations.MarkRecordsThePosition :=
  fun s => ⟨exec_rdMark_legal, fun ha => exec_rdMark_negative ha ▸ rdFaults_raise .invalidArgument s s.rd⟩

/-- On integers, where a position before the mark is a negative distance from it (43_rd_align_mark.md R194). -/
theorem markLapsed_iff (u : RdUnit) : markLapsed u = true ↔ (u.markLim.toNat : Int) < (u.srcPos : Int) - u.markPos := by
  rw [markLapsed, decide_eq_true_iff]
  omega

/-- RD.RESET without a mark that holds (43_rd_align_mark.md R196). -/
theorem exec_rdReset_refused {s : State} (h : s.rd.markValid = false ∨ markLapsed s.rd = true) :
    exec .rdReset s = .next (s.withRd (rdRaise .illegalState s.rd)) := by
  rw [exec, execRdReset, rdCommand_eq, if_pos (by simpa using h)]

/-- RD.RESET while the mark holds (43_rd_align_mark.md R194). -/
theorem exec_rdReset_restores {s : State} (hset : s.rd.markValid = true) (hholds : markLapsed s.rd = false) :
    exec .rdReset s = .next (s.withRd ((restoreMark s.rd).respond (okResponse 0#64))) := by
  rw [exec, execRdReset, rdCommand_eq, if_neg (by simp [hset, hholds])]

/-- Settles O28: the two branches of RD.RESET, the limit read on integers. -/
theorem resetRestoresTheMark : Obligations.ResetRestoresTheMark := by
  intro s
  rw [← markLapsed_iff]
  refine ⟨fun hset hlim => ?_, fun h => ?_⟩
  · have hholds : markLapsed s.rd = false := by
      rw [← Bool.not_eq_true, markLapsed_iff, Int.not_lt]
      exact hlim
    exact exec_rdReset_restores hset hholds
  · rw [exec_rdReset_refused h]
    exact rdFaults_raise .illegalState s s.rd

/-! ## Runs without another RD.MARK (43_rd_align_mark.md R193) -/

/-- A step takes the first of the hosts' commands. -/
theorem StepTurn.host_tail {s t : State} (h : StepTurn s t) : t.host = s.host.tail := by
  cases h with
  | idle hs ht => rw [ht, hs, List.tail_nil]
  | rd c cs v hs _ _ ht => rw [ht, hs, State.withRd_host, State.withHost_host, List.tail_cons]
  | wr c cs v hs _ _ ht => rw [ht, hs, State.withWr_host, State.withHost_host, List.tail_cons]

theorem SameMark.refl (u : RdUnit) : SameMark u u := ⟨rfl, rfl, rfl, rfl, rfl, rfl⟩

/-- A step whose command is not RD.MARK keeps the mark. -/
theorem StepTurn.sameMark {s t : State} (h : StepTurn s t) (hcmd : ∀ c ∈ s.host.take 1, ¬ c.Is .rdMark) :
    SameMark s.rd t.rd := by
  rcases h.rd_cases with hrd | ⟨c, cs, hs, -, hturn⟩
  · exact hrd ▸ SameMark.refl s.rd
  · rcases hturn.sameMark with hsame | hmark
    · exact hsame
    · exact absurd hmark (hcmd c (by simp [hs]))

theorem runSteps_succ_eq_next {n : Nat} {s t : State} :
    runSteps (n + 1) s = .next t ↔ ∃ u, step s = .next u ∧ runSteps n u = .next t := by
  rw [runSteps]
  cases step s <;> simp

/-- A run of commands that are not RD.MARK keeps the mark. -/
theorem runSteps_sameMark {n : Nat} {s t : State} (hcmds : ∀ c ∈ s.host.take n, ¬ c.Is .rdMark)
    (h : runSteps n s = .next t) : SameMark s.rd t.rd := by
  induction n generalizing s with
  | zero =>
    cases h
    exact .refl _
  | succ n ih =>
    obtain ⟨u, hstep, hrun⟩ := runSteps_succ_eq_next.mp h
    have hturn := step_turn hstep
    have hfirst : ∀ c ∈ s.host.take 1, ¬ c.Is .rdMark := fun c hc =>
      hcmds c (List.take_subset_take_left s.host (by omega) hc)
    have hrest : ∀ c ∈ u.host.take n, ¬ c.Is .rdMark := fun c hc => by
      rw [hturn.host_tail, ← List.drop_one, List.take_drop, Nat.add_comm] at hc
      exact hcmds c (List.mem_of_mem_drop hc)
    exact (hturn.sameMark hfirst).trans (ih hrest hrun)

/-- A limit that is not negative is the same number signed and unsigned. -/
theorem lane_toInt_of_nonneg {a : Lane} (ha : 0 ≤ a.toInt) : a.toInt = a.toNat := by
  rw [BitVec.toInt_eq_toNat_cond] at ha ⊢
  split <;> omega

/-- Settles O56: the run keeps the mark that RD.MARK recorded, so O28 speaks of the marked position, limit and snapshot. -/
theorem resetReturnsToTheMark : Obligations.ResetReturnsToTheMark := by
  intro s m t n ha hmark hcmds hrun
  cases (exec_rdMark_legal ha).symm.trans hmark
  have hsame := runSteps_sameMark hcmds hrun
  have hvalid : t.rd.markValid = true := hsame.markValid
  have hpos : t.rd.markPos = s.rd.srcPos := hsame.markPos
  have hlim : t.rd.markLim = s.rd.cmd.a := hsame.markLim
  have hbuf : t.rd.snapBitBuf = s.rd.bitBuf := hsame.snapBitBuf
  have hcnt : t.rd.snapBitCnt = s.rd.bitCnt := hsame.snapBitCnt
  have hbyte : t.rd.snapByteCnt = s.rd.byteCnt := hsame.snapByteCnt
  obtain ⟨hrestores, hrefused⟩ := resetRestoresTheMark t
  rw [hpos, hlim, ← lane_toInt_of_nonneg ha] at hrestores hrefused
  rw [hbuf, hcnt, hbyte] at hrestores
  exact ⟨hrestores hvalid, fun hlapsed => hrefused (.inr hlapsed)⟩

/-! ## Alignment (43_rd_align_mark.md R191, R192) -/

theorem exec_rdAlignbyte (s : State) :
    exec .rdAlignbyte s = .next (s.withRd ((alignByte s.rd).respond (okResponse 0#64))) := rfl

/-- With no bit counted in it, the buffer is already clear (10_state.md R23). -/
theorem RdUnit.Inv.emptyBuffer_of_bitCnt_zero {u : RdUnit} (hu : u.Inv) (hz : u.bitCnt = 0#4) : emptyBuffer u = u := by
  obtain ⟨⟨-, -, hempty, -⟩, -⟩ := hu
  have hbuf : u.bitBuf = 0#8 := hempty (by rw [hz]; rfl)
  rw [emptyBuffer, ← hz, ← hbuf]
  rfl

/-- `AlignByte()` in its registers (43_rd_align_mark.md R191). -/
theorem RdUnit.Inv.alignByte_eq_emptyBuffer {u : RdUnit} (hu : u.Inv) :
    alignByte u = (emptyBuffer u).setByteCnt (u.byteCnt + if u.bitCnt = 0#4 then 0#64 else 1#64) := by
  by_cases hz : u.bitCnt = 0#4
  · rw [if_pos hz, BitVec.add_zero, hu.emptyBuffer_of_bitCnt_zero hz, alignByte, hz]
    rfl
  · obtain ⟨⟨hle, -⟩, -⟩ := hu
    have hpartial : 0#4 < u.bitCnt ∧ u.bitCnt < 8#4 := by bv_omega
    rw [if_neg hz, alignByte, if_pos hpartial]
    rfl

/-- Settles O25: `AlignByte()` in its registers. -/
theorem alignByteDropsTheRest : Obligations.AlignByteDropsTheRest := by
  intro s hinv
  rw [exec_rdAlignbyte, hinv.alignByte_eq_emptyBuffer]
  rfl

/-- `AlignByte()` as a move of the cursor: over the bits that are in the buffer, to the end of their byte. -/
theorem RdUnit.Inv.alignByte_eq_consume {u : RdUnit} (hu : u.Inv) : alignByte u = u.consume u.bitCnt.toNat := by
  rw [alignByte_eq hu.at, hu.at.bitCnt_toNat]

/-- After the bits in the buffer the cursor is at the end of a byte. -/
theorem RdUnit.Inv.consume_buffer_at {u : RdUnit} (hu : u.Inv) :
    (u.consume u.bitCnt.toNat).At (u.bitPos + u.bitCnt.toNat) ∧ (u.bitPos + u.bitCnt.toNat) % 8 = 0 := by
  have hcnt := hu.at.bitCnt_toNat
  have hinside := hu.at.inside
  exact ⟨consume_at hu.at (by omega), by omega⟩

theorem exec_rdAlign_refused {s : State} (ha : s.rd.cmd.a.toInt ≤ 0) :
    exec .rdAlign s = .next (s.withRd (rdRaise .invalidArgument s.rd)) := by
  rw [exec, execRdAlign, rdCommand_eq, if_pos ha]

/-- RD.ALIGN with a legal A: its loop, from the end of the byte in the buffer. -/
theorem exec_rdAlign_skips {s : State} (hinv : s.rd.Inv) (ha : 0 < s.rd.cmd.a.toInt) :
    exec .rdAlign s = .next (s.withRd (rdEnd
      (skipToMultiple s.rd.cmd.a.toInt.toNat (s.rd.consume s.rd.bitCnt.toNat))
      fun _ u => u.respond (okResponse 0#64))) := by
  rw [exec, execRdAlign, rdCommand_eq, if_neg (Int.not_le.mpr ha), hinv.alignByte_eq_consume,
    lane_toInt_of_nonneg (Int.le_of_lt ha), Int.toNat_natCast]

/-- Settles O26: the loop ends at the first multiple, or at the end of the source where it meets none. -/
theorem alignReader : Obligations.AlignReader := by
  intro s hinv
  obtain ⟨hat, hbyte⟩ := hinv.consume_buffer_at
  have hp := hinv.pending
  have hinside : s.rd.bitPos + s.rd.bitCnt.toNat ≤ 8 * s.rd.src.length := hat.inside
  refine ⟨fun ha => ?_, fun ha k hk hmultiple hleast => ?_, fun ha hnone => ?_⟩
  · rw [exec_rdAlign_refused ha]
    exact rdFaults_raise .invalidArgument s s.rd
  · rw [exec_rdAlign_skips hinv ha, skipToMultiple_enough hat hbyte (by rw [consume_src]; omega) hmultiple hleast,
      rdEnd_ok, consume_consume hinv.at _ _ hinside]
  · rw [exec_rdAlign_skips hinv ha, skipToMultiple_short hat hbyte fun j hj => hnone j (by rw [consume_src] at hj; omega),
      rdEnd_raise, consume_src, consume_consume hinv.at _ _ hinside,
      show s.rd.bitCnt.toNat + (8 * s.rd.src.length - (s.rd.bitPos + s.rd.bitCnt.toNat)) = pendingBits s.rd by omega]
    exact rdFaults_raise .endOfData s _

end Sys2Proof.Machine

/-! Writing bits (44_wr_bits.md): WR.BITS appends the bits of its field to the written stream, and a reader of the same bit order
over the flushed sink hands the fields of any run of WR.BITS out again. -/

namespace Sys2Proof.Machine

/-! ## WR.BITS (44_wr_bits.md R213, R214) -/

/-- The bits of a field of `f.1` bits with the value `f.2`, bit 0 first. -/
def fieldBits (f : Nat × Lane) : List Bool := (List.range f.1).map f.2.getLsbD

theorem fieldBits_length (f : Nat × Lane) : (fieldBits f).length = f.1 := by simp [fieldBits]

/-- The fields of a run together have as many bits as their widths say. -/
theorem flatMap_fieldBits_length (fields : List (Nat × Lane)) :
    (fields.flatMap fieldBits).length = (fields.map Prod.fst).sum := by
  rw [List.length_flatMap]
  exact congrArg List.sum (List.map_congr_left fun f _ => fieldBits_length f)

/-- The value of a field's bits is that of the low bits of its operand. -/
theorem valueOfBits_fieldBits {f : Nat × Lane} (hf : f.1 ≤ 8) : valueOfBits (fieldBits f) = f.2.toNat % 2 ^ f.1 := by
  have hlow : (low8 f.2).toNat = f.2.toNat % 2 ^ 8 := by simp [low8]
  rw [fieldBits, ← lowBits_low8 hf, valueOfBits_lowBits, hlow, Nat.mod_mod_of_dvd _ (Nat.pow_dvd_pow 2 hf)]

theorem exec_wrBits_legal {w : Nat} (hw : 1 ≤ w ∧ w ≤ 8) {s : State} (ho : s.wr.closed = false) :
    exec (.wrBits w) s = .next (s.withWr ((writeBits w (low8 s.wr.cmd.a) s.wr).respond (okResponse 0#64))) := by
  have hlegal : widthLegal w = true := by simpa [widthLegal] using hw
  simp only [exec, execWrBits, wrCommand_open ho, if_pos hlegal]

/-- Settles O32: `WriteBits` appends the bits of the byte it is given, which holds the low bits of A whole. -/
theorem writtenStreamLaw : Obligations.WrittenStreamLaw := by
  intro s w hinv ho hw1 hw8
  have hwrote := writeBits_wrote hinv.clean w (low8 s.wr.cmd.a)
  rw [lowBits_low8 hw8] at hwrote
  exact ⟨_, exec_wrBits_legal ⟨hw1, hw8⟩ ho, hwrote.respond _, rfl⟩

/-! ## Runs of issued instructions -/

section
variable {i : Instr} {a l : Lane} {omem : List Item} {s : State} {cs : List HostCommand}

/-- The command issued to run an instruction is that instruction on its port (30_encoding.md R92). -/
theorem commandOf_is (hi : i.WellFormed = true) : (commandOf i a l omem).Is i := ⟨decodeOfEncode i hi, rfl⟩

/-- An instruction issued to WR runs on the unit that has taken its operands. -/
theorem step_issued_wr (hs : s.host = commandOf i a l omem :: cs) (hi : i.WellFormed = true) (hu : unitOf i = .wr) :
    step s = exec i ((s.withHost cs).withWr (wrAccept ⟨encode i, a, l, omem⟩ s.wr)) := by
  rw [step_of_is hs (commandOf_is hi), accept_of_wr hu]
  rfl

/-- An instruction issued to RD runs on the unit that has taken its operands. -/
theorem step_issued_rd (hs : s.host = commandOf i a l omem :: cs) (hi : i.WellFormed = true) (hu : unitOf i = .rd) :
    step s = exec i ((s.withHost cs).withRd (rdAccept ⟨encode i, a, l, omem⟩ s.rd)) := by
  rw [step_of_is hs (commandOf_is hi), accept_of_rd hu]
  rfl

end

theorem widthEncodable_of_legal {w : Nat} (hw : w ≤ 8) : widthEncodable w = true := by
  simp only [widthEncodable, decide_eq_true_eq]
  omega

theorem unitOf_wrBits (w : Nat) : unitOf (.wrBits w) = .wr := unitOfWord_commandWord 0x81#8 0#1 _

theorem unitOf_rdBits (w : Nat) : unitOf (.rdBits w) = .rd := unitOfWord_commandWord 0x01#8 0#1 _

/-- One step more than a run that answers. -/
theorem runSteps_succ_of_run {n : Nat} {s t : State} (h : runSteps n s = .next t) : runSteps (n + 1) s = step t := by
  induction n generalizing s with
  | zero =>
    cases h
    rw [runSteps]
    cases step t <;> rfl
  | succ n ih =>
    obtain ⟨u, hstep, hrun⟩ := runSteps_succ_eq_next.mp h
    rw [runSteps, hstep]
    exact ih hrun

/-- A property of the state and of what is still to do, which every step hands on with one thing less to do, holds after a run
over the first of them for the others. -/
theorem runSteps_todo {α : Type} {P : List α → State → Prop}
    (hstep : ∀ x xs s, P (x :: xs) s → ∃ t, step s = .next t ∧ P xs t) (xs : List α) {ys : List α} {s : State}
    (h : P (xs ++ ys) s) : ∃ t, runSteps xs.length s = .next t ∧ P ys t := by
  induction xs generalizing s with
  | nil => exact ⟨s, rfl, h⟩
  | cons x xs ih =>
    obtain ⟨u, hu, hnext⟩ := hstep x (xs ++ ys) s h
    obtain ⟨t, ht, hlast⟩ := ih hnext
    exact ⟨t, runSteps_succ_eq_next.mpr ⟨u, hu, ht⟩, hlast⟩

/-! ## The run of the writer -/

@[simp] theorem wrAccept_written (tx : Transaction) (u : WrUnit) : (wrAccept tx u).written = u.written := rfl

/-- WR.BITS issued to an open unit appends its field (O32). -/
theorem step_wrBits {s : State} {cs : List HostCommand} {w : Nat} {a : Lane}
    (hs : s.host = commandOf (.wrBits w) a 0#64 [] :: cs) (hw : 1 ≤ w ∧ w ≤ 8) (hinv : s.wr.Inv)
    (ho : s.wr.closed = false) :
    ∃ v, step s = .next ((s.withHost cs).withWr v) ∧
      Appended (wrAccept ⟨encode (.wrBits w), a, 0#64, []⟩ s.wr) v (fieldBits (w, a)) := by
  obtain ⟨hw1, hw8⟩ := hw
  rw [step_issued_wr hs (widthEncodable_of_legal hw8) (unitOf_wrBits w)]
  obtain ⟨v, hexec, hwrote, hrsp⟩ := writtenStreamLaw
    ((s.withHost cs).withWr (wrAccept ⟨encode (.wrBits w), a, 0#64, []⟩ s.wr)) w (wrAccept_inv _ hinv) ho hw1 hw8
  exact ⟨v, hexec, hwrote, ho, congrArg Response.st hrsp⟩

/-- The host of WR has the fields `todo` still to write, and a WR.FLUSH after them; the written stream will then be `bits`. -/
structure Writing (ord : BitOrder) (bits : List Bool) (todo : List (Nat × Lane)) (s : State) : Prop where
  host : s.host = todo.map (fun f => commandOf (.wrBits f.1) f.2 0#64 []) ++ [commandOf .wrFlush 0#64 0#64 []]
  legal : ∀ f ∈ todo, 1 ≤ f.1 ∧ f.1 ≤ 8
  inv : s.wr.Inv
  isOpen : s.wr.closed = false
  bitOrder : s.wr.bitOrder = ord
  written : s.wr.written ++ todo.flatMap fieldBits = bits

/-- A step writes the first of the fields. -/
theorem Writing.step {ord : BitOrder} {bits : List Bool} {f : Nat × Lane} {todo : List (Nat × Lane)} {s : State}
    (h : Writing ord bits (f :: todo) s) : ∃ t, step s = .next t ∧ Writing ord bits todo t := by
  obtain ⟨hfirst, hothers⟩ := List.forall_mem_cons.mp h.legal
  obtain ⟨v, hstep, happended⟩ := step_wrBits h.host hfirst h.inv h.isOpen
  have hwrote := happended.wrote
  have hwritten : v.written ++ todo.flatMap fieldBits = bits := by
    rw [hwrote.written, wrAccept_written, List.append_assoc, ← List.flatMap_cons, h.written]
  exact ⟨_, hstep, rfl, hothers, happended.inv h.inv, hwrote.closed.trans h.isOpen, hwrote.bitOrder.trans h.bitOrder,
    hwritten⟩

/-- WR.FLUSH fills the byte in progress with zero bits (46_wr_align_flush.md R250, R252). -/
theorem exec_wrFlush_pads {s : State} (hc : s.wr.Clean) (ho : s.wr.closed = false) :
    ∃ v k, exec .wrFlush s = .next (s.withWr v) ∧ k ≤ 7 ∧ v.written = s.wr.written ++ List.replicate k false ∧
      v.bitCnt = 0#4 ∧ v.bitOrder = s.wr.bitOrder := by
  obtain ⟨hpad, hempty⟩ := padByte_wrote hc
  have hexec := wrCommand_open ho fun u => (publish (padByte u)).respond (okResponse 0#64)
  exact ⟨_, _, hexec, Nat.le_of_lt_succ (Nat.mod_lt _ (by decide)), hpad.written, hempty, hpad.bitOrder⟩

/-- The pending stream of a fresh reader over a sink with no bit left to emit is the written stream. -/
theorem construct_pending {v : WrUnit} (hempty : v.bitCnt = 0#4) :
    (RdUnit.construct v.bitOrder v.snk).pending = v.written := by
  simp [RdUnit.pending, RdUnit.construct, WrUnit.written, byteBits, hempty, lowBits]

/-- With every field written, WR.FLUSH leaves a sink over which a fresh reader has their bits pending, and fewer than eight zero
bits after them. -/
theorem Writing.flush {ord : BitOrder} {bits : List Bool} {s : State} (h : Writing ord bits [] s) :
    ∃ t k, Machine.step s = .next t ∧ k ≤ 7 ∧
      (RdUnit.construct ord t.wr.snk).pending = bits ++ List.replicate k false := by
  obtain ⟨v, k, hexec, hk, hwritten, hempty, hord⟩ :=
    exec_wrFlush_pads (s := (s.withHost []).withWr (wrAccept ⟨encode .wrFlush, 0#64, 0#64, []⟩ s.wr)) h.inv.clean h.isOpen
  have hbits : s.wr.written = bits := by simpa using h.written
  have hsame : v.bitOrder = ord := hord.trans h.bitOrder
  rw [State.withWr_wr, wrAccept_written, hbits] at hwritten
  exact ⟨_, k, (step_issued_wr h.host rfl rfl).trans hexec, hk, hsame ▸ (construct_pending hempty).trans hwritten⟩

/-- A fresh reader has every bit of its source pending. -/
theorem construct_pending_length (ord : BitOrder) (src : List Byte) :
    (RdUnit.construct ord src).pending.length = 8 * src.length := by
  rw [(RdUnit.construct_inv ord src).pending_length]
  exact Nat.zero_add _

/-! ## The run of the reader -/

@[simp] theorem rdAccept_pending (tx : Transaction) (u : RdUnit) : (rdAccept tx u).pending = u.pending := rfl

/-- RD.BITS issued to a unit that has the field pending takes it (O9). -/
theorem step_rdBits {s : State} {cs : List HostCommand} {f : Nat × Lane} {rest : List Bool}
    (hs : s.host = commandOf (.rdBits f.1) 0#64 0#64 [] :: cs) (hw : 1 ≤ f.1 ∧ f.1 ≤ 8) (hinv : s.rd.Inv)
    (hpending : s.rd.pending = fieldBits f ++ rest) :
    ∃ v, step s = .next ((s.withHost cs).withRd v) ∧ v.pending = rest ∧
      v.rsp = ⟨.ok, BitVec.ofNat 64 (f.2.toNat % 2 ^ f.1), BitVec.ofNat 4 f.1, 0⟩ := by
  obtain ⟨hw1, hw8⟩ := hw
  have hlen : f.1 ≤ (fieldBits f ++ rest).length := by
    rw [List.length_append, fieldBits_length]
    exact Nat.le_add_right _ _
  have hne : fieldBits f ++ rest ≠ [] := List.ne_nil_of_length_pos (hw1.trans hlen)
  rw [step_issued_rd hs (widthEncodable_of_legal hw8) (unitOf_rdBits f.1)]
  obtain ⟨v, hexec, -, hleft, hrsp⟩ := bitStreamLaw
    ((s.withHost cs).withRd (rdAccept ⟨encode (.rdBits f.1), 0#64, 0#64, []⟩ s.rd)) f.1 (rdAccept_inv _ hinv) hw1 hw8
  rw [State.withRd_rd, rdAccept_pending, hpending, Nat.min_eq_left hlen] at hleft hrsp
  rw [List.drop_left' (fieldBits_length f)] at hleft
  rw [List.take_left' (fieldBits_length f), valueOfBits_fieldBits hw8] at hrsp
  exact ⟨v, hexec, hleft, hrsp hne⟩

/-- The host of RD has the fields `todo` still to read, and their bits are pending, with `rest` after them. -/
structure Reading (rest : List Bool) (todo : List (Nat × Lane)) (s : State) : Prop where
  host : s.host = todo.map fun f => commandOf (.rdBits f.1) 0#64 0#64 []
  legal : ∀ f ∈ todo, 1 ≤ f.1 ∧ f.1 ≤ 8
  inv : s.rd.Inv
  pending : s.rd.pending = todo.flatMap fieldBits ++ rest

/-- A step reads the first of the fields. -/
theorem Reading.step {rest : List Bool} {f : Nat × Lane} {todo : List (Nat × Lane)} {s : State}
    (h : Reading rest (f :: todo) s) :
    ∃ t, step s = .next t ∧ Reading rest todo t ∧
      t.rd.rsp = ⟨.ok, BitVec.ofNat 64 (f.2.toNat % 2 ^ f.1), BitVec.ofNat 4 f.1, 0⟩ := by
  obtain ⟨hfirst, hothers⟩ := List.forall_mem_cons.mp h.legal
  have hpending : s.rd.pending = fieldBits f ++ (todo.flatMap fieldBits ++ rest) := by
    rw [h.pending, List.flatMap_cons, List.append_assoc]
  obtain ⟨v, hstep, hleft, hrsp⟩ := step_rdBits h.host hfirst h.inv hpending
  exact ⟨_, hstep, ⟨rfl, hothers, (step_turn hstep).rd_inv h.inv, hleft⟩, hrsp⟩

/-! ## The padding that is left (46_wr_align_flush.md R250) -/

/-- Nothing stands above the buffered bits of RD (10_state.md R24). -/
theorem RdUnit.Inv.bitBuf_lt {u : RdUnit} (hu : u.Inv) : u.bitBuf.toNat < 2 ^ u.bitCnt.toNat := by
  obtain ⟨⟨hle, -, hzero, hbyte⟩, -⟩ := hu
  rcases Nat.eq_zero_or_pos u.bitCnt.toNat with hc | hc
  · rw [hzero hc]
    exact Nat.two_pow_pos _
  · obtain ⟨b, -, hb⟩ := Option.map_eq_some_iff.mp (hbyte hc).2
    rw [← hb, BitVec.toNat_ushiftRight, Nat.shiftRight_eq_div_pow, Nat.div_lt_iff_lt_mul (Nat.two_pow_pos _), ← Nat.pow_add,
      Nat.add_sub_cancel' (by omega)]
    exact (transform u.bitOrder b).isLt

theorem valueOfBits_replicate_false (k : Nat) : valueOfBits (List.replicate k false) = 0 := by
  induction k with
  | zero => rfl
  | succ k ih => rw [List.replicate_succ, valueOfBits, ih]; rfl

/-- With fewer than eight zero bits pending the source is fetched to its end, and those bits are in the buffer. -/
theorem RdUnit.Inv.of_pending_zeros {u : RdUnit} (hu : u.Inv) {k : Nat} (hk : k ≤ 7)
    (h : u.pending = List.replicate k false) : u.bitCnt.toNat ≤ 7 ∧ u.bitBuf = 0#8 ∧ u.srcPos = u.src.length := by
  have hlen : u.bitCnt.toNat + 8 * (u.src.length - u.srcPos) = k := by
    rw [← pendingBits, ← hu.pending_length, h, List.length_replicate]
  have hlt := hu.bitBuf_lt
  obtain ⟨⟨hcnt, hpos, -⟩, -⟩ := hu
  have hend : u.srcPos = u.src.length := by omega
  have hbuf : lowBits u.bitCnt.toNat u.bitBuf = List.replicate k false := by
    simpa [RdUnit.pending, hend] using h
  have hzero : u.bitBuf.toNat = 0 := by
    rw [← Nat.mod_eq_of_lt hlt, ← valueOfBits_lowBits, hbuf, valueOfBits_replicate_false]
  exact ⟨hcnt, BitVec.eq_of_toNat_eq hzero, hend⟩

/-! ## The round trip (44_wr_bits.md R215) -/

/-- The commands of the writer leave a sink over which a fresh reader has the bits of the fields pending, and fewer than eight
zero bits after them. -/
theorem runSteps_writes (ord : BitOrder) {fields : List (Nat × Lane)} (hlegal : ∀ f ∈ fields, 1 ≤ f.1 ∧ f.1 ≤ 8) :
    ∃ t k, runSteps (fields.length + 1) ((State.construct ord ord []).withHost
        (fields.map (fun f => commandOf (.wrBits f.1) f.2 0#64 []) ++ [commandOf .wrFlush 0#64 0#64 []])) = .next t ∧
      k ≤ 7 ∧ (RdUnit.construct ord t.wr.snk).pending = fields.flatMap fieldBits ++ List.replicate k false := by
  have hstart : Writing ord (fields.flatMap fieldBits) (fields ++ []) ((State.construct ord ord []).withHost
      (fields.map (fun f => commandOf (.wrBits f.1) f.2 0#64 []) ++ [commandOf .wrFlush 0#64 0#64 []])) := by
    rw [List.append_nil]
    exact ⟨rfl, hlegal, WrUnit.construct_inv ord, rfl, rfl, rfl⟩
  obtain ⟨s, hrun, hwriting⟩ := runSteps_todo (fun _ _ _ h => h.step) fields hstart
  obtain ⟨t, k, hflush, hk, hpending⟩ := hwriting.flush
  exact ⟨t, k, (runSteps_succ_of_run hrun).trans hflush, hk, hpending⟩

/-- The commands of the reader answer each field, and leave the bits of those after it pending. -/
theorem runSteps_reads {rest : List Bool} {done todo : List (Nat × Lane)} {f : Nat × Lane} {s : State}
    (h : Reading rest (done ++ f :: todo) s) :
    ∃ t, runSteps (done.length + 1) s = .next t ∧ Reading rest todo t ∧
      t.rd.rsp = ⟨.ok, BitVec.ofNat 64 (f.2.toNat % 2 ^ f.1), BitVec.ofNat 4 f.1, 0⟩ := by
  have hstep : ∀ g todo s, Reading rest (g :: todo) s → ∃ t, Machine.step s = .next t ∧ Reading rest todo t := by
    intro g todo s h
    obtain ⟨t, ht, hreading, -⟩ := h.step
    exact ⟨t, ht, hreading⟩
  obtain ⟨u, hrun, hreading⟩ := runSteps_todo hstep done h
  obtain ⟨t, ht, hlast⟩ := hreading.step
  exact ⟨t, (runSteps_succ_of_run hrun).trans ht, hlast⟩

/-- Settles O57: by O32 the writer's run makes the fields the pending stream of a fresh reader, and by O9 the reader's run takes
them from it one by one, to the padding. -/
theorem bitFieldRoundTrip : Obligations.BitFieldRoundTrip := by
  intro ord fields hlegal
  obtain ⟨t, pad, hrun, hpad, hpending⟩ := runSteps_writes ord hlegal
  have hlen : 8 * t.wr.snk.length = (fields.map Prod.fst).sum + pad := by
    rw [← construct_pending_length ord, hpending, List.length_append, flatMap_fieldBits_length, List.length_replicate]
  refine ⟨t, hrun, by omega, fun k w v hfield => ?_⟩
  obtain ⟨hk, hget⟩ := List.getElem?_eq_some_iff.mp hfield
  have hsplit : fields.take k ++ (w, v) :: fields.drop (k + 1) = fields := by
    rw [← hget, ← List.drop_eq_getElem_cons hk, List.take_append_drop]
  have hstart : Reading (List.replicate pad false) (fields.take k ++ (w, v) :: fields.drop (k + 1))
      ((State.construct ord ord t.wr.snk).withHost (fields.map fun f => commandOf (.rdBits f.1) 0#64 0#64 [])) := by
    rw [hsplit]
    exact ⟨rfl, hlegal, RdUnit.construct_inv ord _, hpending⟩
  obtain ⟨r, hreads, hreading, hrsp⟩ := runSteps_reads hstart
  rw [List.length_take_of_le hk.le] at hreads
  refine ⟨r, hreads, hrsp, fun hlast => ?_⟩
  have hleft : r.rd.pending = List.replicate pad false := by
    simpa [hlast] using hreading.pending
  exact hreading.inv.of_pending_zeros hpad hleft

end Sys2Proof.Machine

/-! Scalar and array writes (45_wr_scalars_arrays.md): what the commands over A and over numeric items append to the written stream,
the bytes they count, and the one item kind an open writer refuses. -/

namespace Sys2Proof.Machine

/-! ## The one stop (45_wr_scalars_arrays.md R229) -/

/-- Settles O8: a command of RD always answers, and a command of WR fails to answer only by the refusal of its items. -/
theorem stopsOnlyOnOmemItemKind : Obligations.StopsOnlyOnOmemItemKind := by
  intro i s hstops
  cases hunit : unitOf i with
  | rd => exact absurd (exec_rd_alone hunit s) (hstops _)
  | wr =>
    rcases exec_wr_status hunit s with ⟨v, hanswers, -⟩ | hrefused
    · exact absurd hanswers (hstops _)
    · exact hrefused

/-! ## Scalar writes (45_wr_scalars_arrays.md R220 to R228) -/

/-- Settles O33: an open unit runs the writer of the command, which appends the bytes of its shape. -/
theorem writeScalar : Obligations.WriteScalar := by
  intro i f s hshape hinv ho
  obtain ⟨g, hexec, happends⟩ := scalarWrite_appends hshape
  exact ⟨_, (hexec s).trans (wrCommand_open ho _), (happends hinv.clean _).respond _, rfl⟩

/-! ## Array writes over numeric items (45_wr_scalars_arrays.md R229 to R238) -/

section
variable {s : State} {xs : List Lane}

/-- Numeric items are presented to the command as they stand in OMEM. -/
theorem numericItems_omem (hitems : s.wr.cmd.omem = xs.map .num) : numericItems s.wr.cmd.omem = some xs := by
  rw [hitems, numericItems_map]

theorem exec_wrBitsarr_legal {w : Nat} (hw : 1 ≤ w ∧ w ≤ 8) (ho : s.wr.closed = false)
    (hitems : s.wr.cmd.omem = xs.map .num) :
    exec (.wrBitsarr w) s = .next (s.withWr
      ((writeAll (fun x => writeBits w (low8 x)) xs s.wr).respond (okResponse (BitVec.ofNat 64 xs.length)))) := by
  have hlegal : widthLegal w = true := by simpa [widthLegal] using hw
  rw [exec, execWrBitsarr]
  exact wrOmemCommand_run ho hlegal (numericItems_omem hitems)

theorem exec_wrBytes_legal {bo : ByteOrder} (ho : s.wr.closed = false) (hitems : s.wr.cmd.omem = xs.map .num)
    (ha : s.wr.cmd.a.toInt ≤ (xs.length : Int)) :
    exec (.wrBytes bo) s = .next (s.withWr
      ((writeAll (fun x => wrByte (low8 x)) (bytesOrder bo (bytesCount s.wr.cmd.a xs.length) xs) s.wr).respond
        (okResponse (BitVec.ofNat 64 (bytesCount s.wr.cmd.a xs.length))))) := by
  have hfits : decide (s.wr.cmd.a.toInt ≤ itemCount s.wr.cmd.omem) = true := by simpa [itemCount, hitems] using ha
  rw [exec, execWrBytes]
  exact wrOmemCommand_run ho hfits (numericItems_omem hitems)

end

/-- Settles O34: each item adds the low W bits of its low byte, which are those of the item. -/
theorem writeBitGroups : Obligations.WriteBitGroups := by
  intro s w xs hinv ho hw1 hw8 hitems
  have hwrote := writeAll_wrote (fun hu x => writeBits_wrote hu w (low8 x)) hinv.clean xs
  simp only [lowBits_low8 hw8] at hwrote
  exact ⟨_, exec_wrBitsarr_legal ⟨hw1, hw8⟩ ho hitems, hwrote.respond _, rfl⟩

theorem bytesOrder_eq (bo : ByteOrder) (n : Nat) (xs : List Lane) :
    bytesOrder bo n xs = if bo = .big then xs.take n else (xs.take n).reverse := by
  cases bo <;> rfl

theorem ofNat_toNat_eq_low8 (x : Lane) : BitVec.ofNat 8 x.toNat = low8 x := BitVec.eq_of_toNat_eq (by simp [low8])

/-- Settles O35: WR.BYTES writes the low byte of each of its `bytesCount` items, in the order `bytesOrder`. -/
theorem writeBytes : Obligations.WriteBytes := by
  intro s bo xs n hinv ho hitems ha hn
  have hwrote := writeAll_wrote (fun hu x => wrByte_wrote hu (low8 x)) hinv.clean (bytesOrder bo n xs)
  have hcount : bytesCount s.wr.cmd.a xs.length = n := hn.symm
  refine ⟨_, exec_wrBytes_legal ho hitems ha, ?_, congrArg (fun n => okResponse (BitVec.ofNat 64 n)) hcount⟩
  rw [hcount, ← bytesOrder_eq, bytesBits, List.flatMap_map]
  simp only [ofNat_toNat_eq_low8]
  exact hwrote.respond _

/-- Settles O36: an open unit runs the item writer of the command over all of OMEM. -/
theorem writeArray : Obligations.WriteArray := by
  intro i f s xs hshape hinv ho hitems
  obtain ⟨g, hexec, happends⟩ := arrayWrite_appends hshape
  have hwrote := writeAll_wrote (fun hu x => happends hu x) hinv.clean xs
  rw [flatMap_bytesBits] at hwrote
  exact ⟨_, (hexec s).trans (wrOmemCommand_run ho rfl (numericItems_omem hitems)), hwrote.respond _, rfl⟩

/-! ## The byte counter (45_wr_scalars_arrays.md R240) -/

/-- Every byte of the sink is eight bits of the written stream, and the rest of it is in the buffer. -/
theorem WrUnit.written_length (u : WrUnit) : u.written.length = 8 * u.snk.length + u.bitCnt.toNat := by
  rw [WrUnit.written, List.length_append, lowBits_length, ← List.flatMap_map, ← bytesBits, bytesBits_length,
    List.length_map]

/-- Bits written fill bytes from the buffer on: BYTECNT counts the bytes filled, and what is left over is pending. -/
theorem Wrote.counts {u v : WrUnit} {bits : List Bool} (h : Wrote u v bits) (hu : u.Clean) :
    v.byteCnt = u.byteCnt + BitVec.ofNat 64 ((u.bitCnt.toNat + bits.length) / 8) ∧
      v.bitCnt.toNat = (u.bitCnt.toNat + bits.length) % 8 := by
  have hlength : 8 * v.snk.length + v.bitCnt.toNat = 8 * u.snk.length + u.bitCnt.toNat + bits.length := by
    rw [← v.written_length, h.written, List.length_append, u.written_length]
  have hv := h.bufferCount
  obtain ⟨hcount, -⟩ := hu
  have hbytes : v.snk.length - u.snk.length = (u.bitCnt.toNat + bits.length) / 8 := by omega
  exact ⟨hbytes ▸ h.byteCnt, by omega⟩

/-- Whole bytes written leave as many bits pending as before. -/
theorem Wrote.counts_bytes {u v : WrUnit} {bs : List Byte} (h : Wrote u v (bytesBits bs)) (hu : u.Clean) :
    v.byteCnt = u.byteCnt + BitVec.ofNat 64 bs.length ∧ v.bitCnt = u.bitCnt := by
  obtain ⟨hbyte, hbit⟩ := h.counts hu
  obtain ⟨hcount, -⟩ := hu
  rw [bytesBits_length] at hbyte hbit
  have hdiv : (u.bitCnt.toNat + 8 * bs.length) / 8 = bs.length := by omega
  exact ⟨hdiv ▸ hbyte, BitVec.eq_of_toNat_eq (by omega)⟩

/-- Settles O42: what each command appends (for the arrays by O36 and O34) has a known number of bits, and that number decides
both counters. -/
theorem writeByteCounts : Obligations.WriteByteCounts := by
  intro s hinv ho
  refine ⟨fun i f t hshape hexec => ?_, fun i f xs t hshape hitems hexec => ?_,
    fun w xs t hw1 hw8 hitems hexec => ?_⟩
  · exact (exec_scalarWrite_wrote hshape hinv.clean ho hexec).counts_bytes hinv.clean
  · obtain ⟨v, hnext, hwrote, -⟩ := writeArray i f s xs hshape hinv ho hitems
    cases hnext.symm.trans hexec
    exact hwrote.counts_bytes hinv.clean
  · obtain ⟨v, hnext, hwrote, -⟩ := writeBitGroups s w xs hinv ho hw1 hw8 hitems
    cases hnext.symm.trans hexec
    have hbits : (xs.flatMap fun x => (List.range w).map x.getLsbD).length = xs.length * w := by simp
    exact hbits ▸ hwrote.counts hinv.clean

end Sys2Proof.Machine

/-! Writer alignment, flush and close (46_wr_align_flush.md): what a closed unit still does, the padding that WR.ALIGN, WR.FLUSH and
WR.CLOSE append, and the length of the sink that a WR.FLUSH publishes after a run of writes. -/

namespace Sys2Proof.Machine

/-! ## The closed rule (46_wr_align_flush.md R254) -/

/-- Every command of WR but WR.GETCNT checks CLOSED before anything else (30_encoding.md R95 step 6): on a closed unit each of
them computes to IllegalState, whatever the buffer and the operands hold. -/
theorem exec_wr_closed {i : Instr} (hu : unitOf i = .wr) (hcount : i ≠ .wrGetcnt) {s : State} (hc : s.wr.closed = true) :
    exec i s = .next (s.withWr (wrRaise .illegalState s.wr)) := by
  obtain ⟨rd, ⟨_, _, _, _, _, _, _, _, _, _⟩, host⟩ := s
  cases hc
  cases i
  case wrGetcnt => exact absurd rfl hcount
  all_goals first
    | exact absurd hu (by rw [unitOf, encode, unitOfWord_commandWord]; decide)
    | rfl

theorem WrUnit.SameRegs.closed {u v : WrUnit} (h : u.SameRegs v) : v.closed = u.closed := by
  obtain ⟨-, -, -, -, -, hclosed, -⟩ := h
  exact hclosed

/-- No command reopens a closed unit. -/
theorem wrBody_closed {i : Instr} (hu : unitOf i = .wr) {u v : WrUnit} (hc : u.closed = true) (hv : wrBody i u = some v) :
    v.closed = true := by
  by_cases hcount : i = .wrGetcnt
  · subst hcount
    cases hv
    exact hc
  · rw [wrBody, exec_wr_closed hu hcount hc] at hv
    cases hv
    exact (wrRaise_sameRegs _ u).closed.trans hc

/-- No turn, of an illegal command either, reopens a closed unit. -/
theorem WrTurn.closed {c : HostCommand} {u v : WrUnit} (h : WrTurn c u v) (hc : u.closed = true) : v.closed = true := by
  have haccepted : (wrAccept c.tx u).closed = true := hc
  cases h with
  | runs i _ hi hv => exact wrBody_closed hi haccepted hv
  | illegal _ hv => exact hv ▸ (wrRaise_sameRegs _ _).closed.trans haccepted

/-- Settles O39: the two shapes of a command check CLOSED first, and the word is checked before either is run. -/
theorem closedRule : Obligations.ClosedRule := by
  intro s hc
  refine ⟨fun i hu hcount => ?_, rfl, fun c cs t hs hp hillegal hstep => ?_, fun t hstep => ?_⟩
  · rw [exec_wr_closed hu hcount hc]
    exact wrFaults_raise .illegalState s s.wr
  · have hport : (∃ e, decode c.tx.cw = .error e) ∨ unitOfWord c.tx.cw ≠ c.port :=
      hillegal.imp_right fun hrd => by simp [hrd, hp]
    rw [step_of_illegal hs (not_is_of_illegal hport), hp] at hstep
    cases hstep
    exact wrRaise_st _ _
  · rcases (step_turn hstep).wr_cases with hwr | ⟨c, cs, -, -, hturn⟩
    · exact hwr ▸ hc
    · exact hturn.closed hc

/-! ## Padding (46_wr_align_flush.md R250 to R253) -/

/-- `PadByte()` counts the byte in progress, if there is one. -/
theorem padByte_byteCnt (u : WrUnit) : (padByte u).byteCnt = u.byteCnt + if u.bitCnt = 0#4 then 0#64 else 1#64 := by
  by_cases hz : u.bitCnt = 0#4
  · simp [padByte, hz]
  · have hpos : 0#4 < u.bitCnt := by bv_omega
    simp [padByte, hz, hpos]

theorem exec_wrAlign_positive {s : State} (ho : s.wr.closed = false) (ha : 0 < s.wr.cmd.a.toInt) :
    exec .wrAlign s = .next (s.withWr
      ((padZeros s.wr.cmd.a.toNat s.wr.cmd.a.toNat (padByte s.wr)).respond (okResponse 0#64))) := by
  simp only [exec, execWrAlign, wrCommand_open ho, if_neg (not_le.mpr ha)]

/-- Settles O40: the zero bits of `padByte`, then the zero bytes of `padZeros`, whose count starts from the byte just filled. -/
theorem alignWriter : Obligations.AlignWriter := by
  intro s hinv ho ha
  have hsigned := lane_toInt_of_nonneg ha.le
  have hpos : 0 < s.wr.cmd.a.toNat := by omega
  obtain ⟨hpad, hempty⟩ := padByte_wrote hinv.clean
  obtain ⟨k, hk, hzeros, hcnt, -, hmultiple, hleast⟩ := padZeros_wrote hpad.clean hempty hpos
  have hbits := (hpad.trans hzeros).respond (okResponse 0#64)
  rw [List.replicate_append_replicate] at hbits
  rw [padByte_byteCnt] at hleast
  rw [exec_wrAlign_positive ho ha, hsigned]
  exact ⟨_, k, rfl, by omega, hbits, hcnt, hmultiple, hleast, rfl⟩

theorem exec_wrFlush_open {s : State} (ho : s.wr.closed = false) :
    exec .wrFlush s = .next (s.withWr ((publish (padByte s.wr)).respond (okResponse 0#64))) :=
  wrCommand_open ho fun u => (publish (padByte u)).respond (okResponse 0#64)

theorem exec_wrClose_open {s : State} (ho : s.wr.closed = false) :
    exec .wrClose s = .next (s.withWr (((publish (padByte s.wr)).setClosed true).respond (okResponse 0#64))) :=
  wrCommand_open ho fun u => ((publish (padByte u)).setClosed true).respond (okResponse 0#64)

/-- Settles O41: both commands append what `padByte` does, and beside that write FLUSHED, CLOSED and the response alone. -/
theorem flushAndClose : Obligations.FlushAndClose := by
  intro s hinv ho
  obtain ⟨hpad, hempty⟩ := padByte_wrote hinv.clean
  exact ⟨⟨_, exec_wrFlush_open ho, { hpad with flushed := rfl }, hempty, rfl, rfl⟩,
    ⟨_, exec_wrClose_open ho, { hpad with flushed := rfl, closed := ho.symm }, hempty, rfl, rfl, rfl⟩⟩

/-! ## The bits of a run of writes (44_wr_bits.md R214, 46_wr_align_flush.md R255) -/

/-- An open unit that has written `n` bits since construction, BYTECNT never cleared. -/
structure WrUnit.Counted (u : WrUnit) (n : Nat) : Prop where
  clean : u.Clean
  isOpen : u.closed = false
  written : u.written.length = n
  byteCnt : u.byteCnt = BitVec.ofNat 64 u.snk.length

section
variable {u v : WrUnit} {n : Nat}

theorem WrUnit.construct_counted (ord : BitOrder) : (WrUnit.construct ord).Counted 0 := ⟨clean_empty, rfl, rfl, rfl⟩

theorem WrUnit.Counted.accept (h : u.Counted n) (tx : Transaction) : (wrAccept tx u).Counted n :=
  ⟨h.clean, h.isOpen, h.written, h.byteCnt⟩

theorem WrUnit.Counted.respond (h : u.Counted n) (r : Response) : (u.respond r).Counted n :=
  ⟨h.clean, h.isOpen, h.written, h.byteCnt⟩

/-- A command turned away writes nothing. -/
theorem WrUnit.Counted.raise (h : u.Counted n) (c : Cause) : (wrRaise c u).Counted n :=
  ⟨h.clean, h.isOpen, h.written, h.byteCnt⟩

theorem WrUnit.Counted.wrote (h : u.Counted n) {bits : List Bool} (hw : Wrote u v bits) : v.Counted (n + bits.length) where
  clean := hw.clean
  isOpen := hw.closed.trans h.isOpen
  written := by rw [hw.written, List.length_append, h.written]
  byteCnt := by rw [hw.byteCnt, h.byteCnt, ← BitVec.ofNat_add, Nat.add_sub_cancel' hw.grows.length_le]

end

/-! ## The bits of each command -/

section
variable {i : Instr} {s t : State} {n m : Nat}

theorem wrCommand_counted {body : WrUnit → WrUnit} (hs : s.wr.Counted n) (h : wrCommand body s = .next t)
    (hbody : (body s.wr).Counted m) : t.wr.Counted m := by
  cases (wrCommand_open hs.isOpen body).symm.trans h
  exact hbody

/-- A command over OMEM that answers: its argument check has turned it away, or it has run on the items. -/
theorem wrOmemCommand_counted {α : Type} {check : WrUnit → Bool} {read : List Item → Option (List α)}
    {body : List α → WrUnit → WrUnit} (hs : s.wr.Counted n) (h : wrOmemCommand check read body s = .next t)
    (haway : check s.wr = false → n = m)
    (hbody : ∀ xs, check s.wr = true → read s.wr.cmd.omem = some xs → (body xs s.wr).Counted m) : t.wr.Counted m := by
  rcases wrOmemCommand_cases check read body s with ⟨hc, -⟩ | ⟨-, hk, ha⟩ | ⟨-, hk, xs, hr, ha⟩ | ⟨-, -, -, ha⟩
  · exact absurd (hs.isOpen.symm.trans hc) (by decide)
  · cases ha.symm.trans h
    exact haway hk ▸ hs.raise _
  · cases ha.symm.trans h
    exact hbody xs hk hr
  · cases ha.symm.trans h

theorem wordBytes_length (bo : ByteOrder) (k v : Nat) : (wordBytes bo k v).length = k := lenBytes_length v k bo

/-- The width of the value that a scalar write takes is that of the bytes of its shape. -/
theorem scalarWrite_bits {f : Lane → List Byte} (hf : scalarWrite i = some f) (tx : Transaction) :
    bitsOfCommand i tx = 8 * (f tx.a).length := by
  cases i <;> simp only [scalarWrite, Option.some.injEq, reduceCtorEq] at hf
  all_goals
    subst hf
    simp only [bitsOfCommand, wordBytes_length, List.length_singleton]

/-- The same for every item of OMEM. -/
theorem arrayWrite_bits {f : Lane → List Byte} (hf : arrayWrite i = some f) {tx : Transaction} {xs : List Lane}
    (hxs : xs.length = tx.omem.length) : bitsOfCommand i tx = 8 * (xs.flatMap f).length := by
  cases i <;> simp only [arrayWrite, Option.some.injEq, reduceCtorEq] at hf
  all_goals
    subst hf
    simp only [bitsOfCommand, List.length_flatMap, wordBytes_length, List.length_singleton, List.map_const',
      List.sum_replicate_nat, hxs]
    omega

end

theorem stringItems_eq_map {items : List Item} {xs : List StrItem} (h : stringItems items = some xs) :
    items = xs.map .str := by
  induction items generalizing xs with
  | nil =>
    cases h
    rfl
  | cons x items ih =>
    cases x with
    | num v => cases h
    | str v =>
      obtain ⟨ys, hys, rfl⟩ := Option.map_eq_some_iff.mp h
      rw [ih hys, List.map_cons]

theorem noRowFor_str (x : StrItem) : noRowFor (.str x) = payloadTooLong x := by
  cases x <;> rfl

/-- The bits of the encodings are those the encoder appends, and none where a payload is too long. -/
theorem stringBits_map (bo : ByteOrder) (xs : List StrItem) :
    stringBits (xs.map .str) =
      if xs.any payloadTooLong then 0 else (xs.flatMap fun x => bytesBits (stringBytes bo x)).length := by
  simp [stringBits, List.any_map, Function.comp_def, noRowFor_str, List.length_flatMap, bytesBits_length, stringBytes_length,
    encodingBits]

theorem widthLegal_iff {w : Nat} : widthLegal w = true ↔ 1 ≤ w ∧ w ≤ 8 := by simp [widthLegal]

theorem bytesOrder_length (bo : ByteOrder) (k : Nat) (xs : List Lane) : (bytesOrder bo k xs).length = min k xs.length := by
  cases bo <;> simp [bytesOrder]

section
variable {i : Instr} {s t : State} {n : Nat}

theorem wrBits_counted {w : Nat} (hs : s.wr.Counted n) (h : exec (.wrBits w) s = .next t) :
    t.wr.Counted (n + bitsOfCommand (.wrBits w) s.wr.cmd) := by
  by_cases hw : 1 ≤ w ∧ w ≤ 8
  · cases (exec_wrBits_legal hw hs.isOpen).symm.trans h
    have hcounted := hs.wrote (writeBits_wrote hs.clean w (low8 s.wr.cmd.a))
    rw [lowBits_length] at hcounted
    simpa [bitsOfCommand, hw] using hcounted.respond _
  · obtain ⟨hexec, -⟩ := exec_wr_width (widthLegal_eq_false hw) hs.isOpen
    cases hexec.symm.trans h
    simpa [bitsOfCommand, hw] using hs.raise .invalidArgument

theorem wrBitsarr_counted {w : Nat} (hs : s.wr.Counted n) (h : exec (.wrBitsarr w) s = .next t) :
    t.wr.Counted (n + bitsOfCommand (.wrBitsarr w) s.wr.cmd) := by
  rw [exec, execWrBitsarr] at h
  refine wrOmemCommand_counted hs h (fun hw => ?_) fun xs hw hxs => ?_
  · rw [bitsOfCommand, if_neg fun hle => Bool.false_ne_true (hw.symm.trans (widthLegal_iff.mpr hle)), Nat.add_zero]
  · have hcounted := hs.wrote (writeAll_wrote (fun hu x => writeBits_wrote hu w (low8 x)) hs.clean xs)
    rw [bitsOfCommand, if_pos (widthLegal_iff.mp hw), ← numericItems_length hxs]
    simpa [List.length_flatMap, lowBits_length] using hcounted.respond (okResponse (BitVec.ofNat 64 xs.length))

theorem wrBytes_counted {bo : ByteOrder} (hs : s.wr.Counted n) (h : exec (.wrBytes bo) s = .next t) :
    t.wr.Counted (n + bitsOfCommand (.wrBytes bo) s.wr.cmd) := by
  rw [exec, execWrBytes] at h
  refine wrOmemCommand_counted hs h (fun ha => ?_) fun xs ha hxs => ?_
  · have hmany : (s.wr.cmd.omem.length : Int) < s.wr.cmd.a.toInt := not_le.mp (of_decide_eq_false ha)
    rw [bitsOfCommand, if_neg (by omega), if_pos hmany, Nat.add_zero]
  · have hfits : s.wr.cmd.a.toInt ≤ (s.wr.cmd.omem.length : Int) := of_decide_eq_true ha
    have hcounted := hs.wrote (writeAll_wrote (fun hu x => wrByte_wrote hu (low8 x)) hs.clean
      (bytesOrder bo (bytesCount s.wr.cmd.a xs.length) xs))
    have hbits : bitsOfCommand (.wrBytes bo) s.wr.cmd = 8 * min (bytesCount s.wr.cmd.a xs.length) xs.length := by
      rw [bitsOfCommand, bytesCount, numericItems_length hxs, if_neg (not_lt.mpr hfits)]
      split <;> omega
    rw [hbits, ← bytesOrder_length bo]
    simpa [byteBits, lowBits_length, List.length_flatMap, Nat.mul_comm] using hcounted.respond _

/-- The two string commands write what `stringBits` counts. -/
theorem strings_counted {u : WrUnit} (hu : u.Counted n) {bo : ByteOrder} {xs : List StrItem}
    (hxs : stringItems u.cmd.omem = some xs) (r : Response) :
    (if xs.any payloadTooLong then wrRaise .invalidArgument u
      else (writeAll (encodeString bo) xs u).respond r).Counted (n + stringBits u.cmd.omem) := by
  rw [stringItems_eq_map hxs, stringBits_map bo]
  split
  · exact hu.raise _
  · exact (hu.wrote (writeAll_wrote (fun hc x => encodeString_wrote hc bo x) hu.clean xs)).respond r

theorem wrString_counted {bo : ByteOrder} (hs : s.wr.Counted n) (h : exec (.wrString bo) s = .next t) :
    t.wr.Counted (n + bitsOfCommand (.wrString bo) s.wr.cmd) := by
  rw [exec, execWrString] at h
  refine wrOmemCommand_counted hs h (fun hone => ?_) fun xs hone hxs => ?_
  · rw [bitsOfCommand, if_neg (of_decide_eq_false hone), Nat.add_zero]
  · rw [bitsOfCommand, if_pos (of_decide_eq_true hone)]
    exact strings_counted hs hxs _

theorem wrStrarr_counted {bo : ByteOrder} (hs : s.wr.Counted n) (h : exec (.wrStrarr bo) s = .next t) :
    t.wr.Counted (n + bitsOfCommand (.wrStrarr bo) s.wr.cmd) := by
  rw [exec, execWrStrarr] at h
  exact wrOmemCommand_counted hs h nofun fun xs _ hxs => strings_counted hs hxs _

theorem scalarWrite_counted {f : Lane → List Byte} (hf : scalarWrite i = some f) (hs : s.wr.Counted n)
    (h : exec i s = .next t) : t.wr.Counted (n + bitsOfCommand i s.wr.cmd) := by
  rw [scalarWrite_bits hf, ← bytesBits_length]
  exact hs.wrote (exec_scalarWrite_wrote hf hs.clean hs.isOpen h)

theorem arrayWrite_counted {f : Lane → List Byte} (hf : arrayWrite i = some f) (hs : s.wr.Counted n)
    (h : exec i s = .next t) : t.wr.Counted (n + bitsOfCommand i s.wr.cmd) := by
  obtain ⟨g, hexec, happends⟩ := arrayWrite_appends hf
  refine wrOmemCommand_counted hs ((hexec s).symm.trans h) nofun fun xs _ hxs => ?_
  have hwrote := writeAll_wrote (fun hu x => happends hu x) hs.clean xs
  rw [flatMap_bytesBits] at hwrote
  rw [arrayWrite_bits hf (numericItems_length hxs), ← bytesBits_length]
  exact (hs.wrote hwrote).respond _

/-- The commands that R255 leaves out: those that pad, and the one that clears BYTECNT. -/
def LeftOut (i : Instr) : Prop := i = .wrAlign ∨ i = .wrRstcnt ∨ i = .wrFlush ∨ i = .wrClose

/-- Every other command of WR writes the bits that `bitsOfCommand` counts. -/
theorem exec_counted (hu : unitOf i = .wr) (hi : ¬ LeftOut i) (hs : s.wr.Counted n) (h : exec i s = .next t) :
    t.wr.Counted (n + bitsOfCommand i s.wr.cmd) := by
  cases i
  case wrBits => exact wrBits_counted hs h
  case wrBitsarr => exact wrBitsarr_counted hs h
  case wrBytes => exact wrBytes_counted hs h
  case wrString => exact wrString_counted hs h
  case wrStrarr => exact wrStrarr_counted hs h
  case wrGetcnt =>
    cases h
    exact hs.respond _
  case wrAlign => exact absurd (.inl rfl) hi
  case wrRstcnt => exact absurd (.inr (.inl rfl)) hi
  case wrFlush => exact absurd (.inr (.inr (.inl rfl))) hi
  case wrClose => exact absurd (.inr (.inr (.inr rfl))) hi
  all_goals first
    | exact scalarWrite_counted rfl hs h
    | exact arrayWrite_counted rfl hs h
    | exact absurd hu (by rw [unitOf, encode, unitOfWord_commandWord]; decide)

/-- A command of RD writes nothing to WR. -/
theorem bitsOfCommand_rd (hu : unitOf i = .rd) (tx : Transaction) : bitsOfCommand i tx = 0 := by
  cases i
  all_goals first
    | rfl
    | exact absurd hu (by rw [unitOf, encode, unitOfWord_commandWord]; decide)

end

/-! ## The bits of a run -/

/-- The host command is none of those that R255 leaves out. -/
def HostCommand.IsCounted (c : HostCommand) : Prop := ∀ i, c.Is i → ¬ LeftOut i

section
variable {c : HostCommand} {i : Instr} {n : Nat}

theorem HostCommand.isCounted_iff :
    c.IsCounted ↔ ¬ c.Is .wrAlign ∧ ¬ c.Is .wrRstcnt ∧ ¬ c.Is .wrFlush ∧ ¬ c.Is .wrClose := by
  simp only [HostCommand.IsCounted, LeftOut, not_or, imp_and, forall_and, imp_not_comm, forall_eq]

theorem HostCommand.bitsWritten_of_rd (hp : c.port = .rd) : c.bitsWritten = 0 := by
  simp [HostCommand.bitsWritten, hp]

theorem HostCommand.Is.bitsWritten (hi : c.Is i) (hp : c.port = .wr) : c.bitsWritten = bitsOfCommand i c.tx := by
  obtain ⟨hd, -⟩ := hi
  simp [HostCommand.bitsWritten, hp, hd]

/-- A word that is no instruction on the port of WR does not decode, or decodes to a command of RD. -/
theorem HostCommand.bitsWritten_of_illegal (hi : ∀ i, ¬ c.Is i) (hp : c.port = .wr) : c.bitsWritten = 0 := by
  rw [HostCommand.bitsWritten, if_pos hp]
  cases hd : decode c.tx.cw with
  | error e => rfl
  | ok i =>
    refine bitsOfCommand_rd ?_ c.tx
    cases hu : unitOf i with
    | rd => rfl
    | wr => exact absurd ⟨hd, (unitOf_decode hd).symm.trans (hu.trans hp.symm)⟩ (hi i)

/-- What a command presented to WR writes is what is counted from the command. -/
theorem WrTurn.counted {u v : WrUnit} (h : WrTurn c u v) (hp : c.port = .wr) (hc : c.IsCounted) (hu : u.Counted n) :
    v.Counted (n + c.bitsWritten) := by
  cases h with
  | runs i hi hunit hv =>
    have hexec : exec i ⟨.construct .lsb0 [], wrAccept c.tx u, []⟩ = _ := exec_wr_alone hunit _
    rw [hv] at hexec
    rw [hi.bitsWritten hp]
    exact exec_counted hunit (hc i hi) (hu.accept c.tx) hexec
  | illegal hi hv =>
    rw [HostCommand.bitsWritten_of_illegal hi hp, hv]
    exact (hu.accept c.tx).raise _

/-- A step writes the bits of the command it takes. -/
theorem StepTurn.counted {s t : State} (h : StepTurn s t) (hcmd : ∀ c ∈ s.host.take 1, c.IsCounted)
    (hs : s.wr.Counted n) : t.wr.Counted (n + ((s.host.take 1).map HostCommand.bitsWritten).sum) := by
  cases h with
  | idle hhost ht => simpa [hhost, ht] using hs
  | rd c cs v hhost hp _ ht => simpa [hhost, ht, HostCommand.bitsWritten_of_rd hp] using hs
  | wr c cs v hhost hp hv ht =>
    have hcounted := hv.counted hp (hcmd c (by simp [hhost])) hs
    simpa [hhost, ht] using hcounted

/-- A run writes the bits of the commands it takes. -/
theorem runSteps_counted {k : Nat} {s t : State} (hcmds : ∀ c ∈ s.host.take k, c.IsCounted) (hs : s.wr.Counted n)
    (h : runSteps k s = .next t) : t.wr.Counted (n + ((s.host.take k).map HostCommand.bitsWritten).sum) := by
  induction k generalizing s n with
  | zero =>
    cases h
    exact hs
  | succ k ih =>
    obtain ⟨u, hstep, hrun⟩ := runSteps_succ_eq_next.mp h
    have hturn := step_turn hstep
    have hsplit : s.host.take (k + 1) = s.host.take 1 ++ u.host.take k := by
      rw [hturn.host_tail, ← List.drop_one, Nat.add_comm, List.take_add]
    rw [hsplit] at hcmds ⊢
    have hfirst := hturn.counted (fun c hc => hcmds c (List.mem_append_left _ hc)) hs
    rw [List.map_append, List.sum_append, ← Nat.add_assoc]
    exact ih (fun c hc => hcmds c (List.mem_append_right _ hc)) hfirst hrun

end

/-! ## The flush (46_wr_align_flush.md R252, R255) -/

/-- `PadByte()` leaves a sink of as many bytes as the bits written need. -/
theorem WrUnit.Counted.padded {u : WrUnit} {n : Nat} (h : u.Counted n) :
    (padByte u).snk.length = (n + 7) / 8 ∧ (padByte u).byteCnt = BitVec.ofNat 64 ((n + 7) / 8) := by
  obtain ⟨hpad, hempty⟩ := padByte_wrote h.clean
  obtain ⟨hcount, -⟩ := h.clean
  have hpadded := h.wrote hpad
  have hbefore := u.written_length
  have hafter := (padByte u).written_length
  rw [h.written] at hbefore
  rw [hpadded.written, List.length_replicate, hempty, BitVec.toNat_zero] at hafter
  have hlength : (padByte u).snk.length = (n + 7) / 8 := by omega
  exact ⟨hlength, hlength ▸ hpadded.byteCnt⟩

/-- Settles O60: every command of the run adds the bits counted from it, and the padding of WR.FLUSH rounds their sum up to
bytes. -/
theorem byteCountAtFlush : Obligations.ByteCountAtFlush := by
  intro r w src cmds n total s t hcmds hrun hflush htotal
  have hcounted : s.wr.Counted total := by
    rw [htotal, ← Nat.zero_add (List.sum _)]
    exact runSteps_counted (s := (State.construct r w src).withHost cmds)
      (fun c hc => HostCommand.isCounted_iff.mpr (hcmds c (List.mem_of_mem_take hc))) (WrUnit.construct_counted w) hrun
  cases (exec_wrFlush_open hcounted.isOpen).symm.trans hflush
  obtain ⟨hlength, hbyteCnt⟩ := hcounted.padded
  exact ⟨hlength, hlength, hbyteCnt⟩

end Sys2Proof.Machine

/-! Strings (47_strings.md): the decoder at a position in a row of encodings, and what RD.STRING and
RD.STRARR make of it. -/

namespace Sys2Proof.Machine

/-! ## The decoder after the bytes `pre` (47_strings.md R264, R265) -/

/-- A byte with which no encoding begins (47_strings.md R264). -/
abbrev NoPrefix (b : Byte) : Prop := b = 0x80#8 ∨ (0x85 ≤ b.toNat ∧ b.toNat ≤ 0xFE)

theorem firstByte_malformed : ∀ {b : Byte}, NoPrefix b → firstByte b = .malformed := by
  decide

section
variable {bo : ByteOrder} {u : RdUnit} {pre : List Byte}

theorem RdUnit.Upcoming.stands (hpre : u.Upcoming pre) (hu : u.Inv) : u.Stands u.bitPos pre := (upcoming_stands hu pre).mp hpre

theorem RdUnit.Upcoming.consume_at (hpre : u.Upcoming pre) (hu : u.Inv) :
    (u.consume (8 * pre.length)).At (u.bitPos + 8 * pre.length) :=
  Machine.consume_at hu.at (hpre.stands hu).1

/-- After bytes that stand at the cursor, what is upcoming stands at the cursor moved past them. -/
theorem upcoming_append (hu : u.Inv) (hpre : u.Upcoming pre) (bs : List Byte) :
    u.Upcoming (pre ++ bs) ↔ (u.consume (8 * pre.length)).Stands (u.bitPos + 8 * pre.length) bs := by
  rw [upcoming_stands hu, stands_append, and_iff_right (hpre.stands hu)]
  exact ⟨fun h => h.consume _, fun ⟨hroom, hbytes⟩ => ⟨hroom, by rwa [consume_bytesAt] at hbytes⟩⟩

/-- A first byte with which no encoding begins is consumed. -/
theorem decodeString_noPrefix (hu : u.Inv) (hpre : u.Upcoming pre) {b : Byte} (hb : NoPrefix b)
    (hnext : u.Upcoming (pre ++ [b])) :
    decodeString bo (u.consume (8 * pre.length)) = .raise (.malformedWireData b) (u.consume (8 * (pre.length + 1))) := by
  have hat := hpre.consume_at hu
  obtain ⟨hroom, hbyte⟩ := (upcoming_append hu hpre [b]).mp hnext
  obtain ⟨-, -, -, hmalformed⟩ := decodeString_after_first bo hat hroom (bytesAt_head hbyte).1
  rw [hmalformed (firstByte_malformed hb), consume_consume hu.at _ _ (hpre.stands hu).1, Nat.mul_add_one]

/-- Where neither such a byte nor a whole encoding is next, everything left is consumed. -/
theorem decodeString_cutOff (hu : u.Inv) (hpre : u.Upcoming pre)
    (hbyte : ∀ b, NoPrefix b → ¬ u.Upcoming (pre ++ [b]))
    (hwire : ∀ x bs, StringWire bo x bs → ¬ u.Upcoming (pre ++ bs)) :
    decodeString bo (u.consume (8 * pre.length)) = .raise .endOfData (u.consume (pendingBits u)) := by
  have hroom := (hpre.stands hu).1
  have hp := hu.pending
  have hleft : 8 * pre.length + (8 * u.src.length - (u.bitPos + 8 * pre.length)) = pendingBits u := by omega
  rcases decodeString_cases bo (hpre.consume_at hu) with ⟨x, bs, hx, hfits, hbs, -⟩ | ⟨b, hfits, hbs, hb, -⟩ | hend
  · exact absurd ((upcoming_append hu hpre bs).mpr ⟨hfits, hbs⟩) (hwire x bs hx)
  · exact absurd ((upcoming_append hu hpre [b]).mpr ⟨hfits, congrArg (fun c => [c]) hbs.symm⟩) (hbyte b hb)
  · rw [hend, consume_src, consume_consume hu.at _ _ hroom, hleft]

end

/-! ## RD.STRING (47_strings.md R266) -/

theorem exec_rdString (bo : ByteOrder) (s : State) :
    exec (.rdString bo) s = .next (s.withRd (rdEnd (decodeString bo s.rd) fun x u =>
      (u.setRmem [.str x]).respond ⟨.ok, stringVal x, 0#4, 1⟩)) := rfl

/-- Settles O21: the decoder answers the item whose encoding stands at the cursor. -/
theorem readString : Obligations.ReadString := by
  intro s bo x bs hinv hwire hnext
  obtain ⟨hroom, hbytes⟩ := hnext.stands hinv
  rw [exec_rdString, decodeString_wire hinv.at hwire hroom hbytes, rdEnd_ok]

/-- The offending byte is in VAL[7:0], whatever the free value above it is (30_encoding.md R96). -/
theorem rdFaults_malformed (s : State) (b : Byte) (u : RdUnit) :
    RdFaults (.next (s.withRd (rdRaise (.malformedWireData b) u))) s .malformedWireData u ∧
      ∀ t, Host.Outcome.next (s.withRd (rdRaise (.malformedWireData b) u)) = (.next t : Host.Outcome State Fault Refusal) →
        low8 t.rd.rsp.val = b := by
  refine ⟨rdFaults_raise _ s u, fun t ht => ?_⟩
  cases ht
  exact faultVal_malformed b _

theorem upcoming_nil (u : RdUnit) : u.Upcoming [] := ⟨Nat.zero_le _, rfl⟩

/-- Settles O22: what the decoder does at the cursor, with no bytes before it. -/
theorem readStringFaults : Obligations.ReadStringFaults := by
  intro s bo hinv
  refine ⟨fun b hb hnext => ?_, fun hbyte hwire => ?_⟩
  · have hdecode := decodeString_noPrefix (bo := bo) hinv (upcoming_nil _) hb hnext
    rw [List.length_nil, consume_zero hinv.at] at hdecode
    rw [exec_rdString, hdecode, rdEnd_raise]
    exact rdFaults_malformed s b _
  · have hdecode := decodeString_cutOff hinv (upcoming_nil _) hbyte hwire
    rw [List.length_nil, consume_zero hinv.at] at hdecode
    rw [exec_rdString, hdecode, rdEnd_raise]
    exact rdFaults_raise .endOfData s _

/-! ## RD.STRARR (47_strings.md R268) -/

theorem exec_rdStrarr (bo : ByteOrder) (s : State) : exec (.rdStrarr bo) s = rdArray (stringItem bo) id s := rfl

/-- DETLIM is no part of the stream. -/
theorem upcoming_setDetLim {u : RdUnit} (d : Bool) {bs : List Byte} : (u.setDetLim d).Upcoming bs ↔ u.Upcoming bs := by
  simp only [RdUnit.Upcoming, bytesAt_congr (u := u) (v := u.setDetLim d) rfl rfl]
  rfl

theorem RdUnit.Inv.setDetLim {u : RdUnit} (hu : u.Inv) (d : Bool) : (u.setDetLim d).Inv := hu

/-- The last of some strings and the strings before it. -/
theorem wires_concat {bo : ByteOrder} {xs : List StrItem} {wires : List (List Byte)}
    (hw : List.Forall₂ (StringWire bo) xs wires) (hne : xs ≠ []) :
    ∃ ys y ws bs, xs = ys ++ [y] ∧ wires = ws ++ [bs] ∧ List.Forall₂ (StringWire bo) ys ws ∧ StringWire bo y bs := by
  induction hw with
  | nil => exact absurd rfl hne
  | @cons x bs xs wires hx hxs ih =>
    cases hxs with
    | nil => exact ⟨[], x, [], bs, rfl, rfl, .nil, hx⟩
    | cons hy hys =>
      obtain ⟨ys, y, ws, bs', hxs, hwires, hpre, hlast⟩ := ih (List.cons_ne_nil _ _)
      exact ⟨x :: ys, y, bs :: ws, bs', by rw [hxs]; rfl, by rw [hwires]; rfl, .cons hx hpre, hlast⟩

section
variable {bo : ByteOrder} {xs : List StrItem} {wires : List (List Byte)} {u : RdUnit}

/-- No more strings than pending bits. -/
theorem strings_le_pendingBits (hw : List.Forall₂ (StringWire bo) xs wires) (hs : u.Upcoming wires.flatten) :
    xs.length ≤ pendingBits u := by
  have hbytes := wires_length hw
  have hbits := hs.1
  omega

/-- Fixed mode over just the strings that stand at the cursor. -/
theorem readFixed_strings_all (hw : List.Forall₂ (StringWire bo) xs wires) (hu : u.Inv) (hs : u.Upcoming wires.flatten) :
    readFixed (stringItem bo) xs.length u = .ok (xs.map .str) (u.consume (8 * wires.flatten.length)) := by
  have hread := readFixed_strings hw 0 hu.at (hs.stands hu)
  simpa [readFixed, RdResult.map, RdResult.bind] using hread

/-- Until-exhaustion mode over strings that the limiter lets through. -/
theorem readUntil_strings_allowed (hw : List.Forall₂ (StringWire bo) xs wires) (hu : u.Inv) (hs : u.Upcoming wires.flatten)
    {l : Int} (hl : AllowsItems l xs.length) (fuel : Nat) :
    readUntil (stringItem bo) l (xs.length + fuel) [] u =
      readUntil (stringItem bo) l fuel (xs.map .str) (u.consume (8 * wires.flatten.length)) :=
  readUntil_strings hw l fuel [] hu.at (hs.stands hu) fun i _ hi => hl.proceed (by simpa using hi)

/-- The limiter lets all strings but the last through, and interrupts the loop there. -/
theorem readUntil_strings_last (hw : List.Forall₂ (StringWire bo) xs wires) (hu : u.Inv) (hs : u.Upcoming wires.flatten)
    {l : Int} {n : Nat} (hn : xs.length = n + 1) (hl : AllowsItems l n) (fuel : Nat) :
    (limiterVerdict l xs.length = .exceeded → readUntil (stringItem bo) l (xs.length + fuel) [] u =
      .raise .arraySizeExceeded (u.consume (8 * wires.flatten.length))) ∧
    (limiterVerdict l xs.length = .softStop → readUntil (stringItem bo) l (xs.length + fuel) [] u =
      .ok (xs.map .str) (markSoftStop (u.consume (8 * wires.flatten.length)))) := by
  obtain ⟨ys, y, ws, bs, rfl, rfl, hys, hy⟩ := wires_concat hw (List.ne_nil_of_length_eq_add_one hn)
  have hcount : ys.length = n := by simpa using hn
  have hflat : (ws ++ [bs]).flatten = ws.flatten ++ bs := by simp
  rw [hflat] at hs ⊢
  obtain ⟨hbefore, -⟩ := stands_append.mp (hs.stands hu)
  have hws : u.Upcoming ws.flatten := (upcoming_stands hu _).mpr hbefore
  have hbs := (upcoming_append hu hws bs).mp hs
  have hinside : u.bitPos + 8 * ws.flatten.length < 8 * (u.consume (8 * ws.flatten.length)).src.length := by
    have hfits := hbs.1
    have hpos := hy.pos
    omega
  have hturns : (ys ++ [y]).length + fuel = ys.length + (fuel + 1) := by
    rw [List.length_append, List.length_singleton, Nat.add_assoc, Nat.add_comm 1]
  have hitems : (ys.map Item.str).length + 1 = (ys ++ [y]).length := by simp
  rw [hturns, readUntil_strings_allowed hys hu hws (hcount ▸ hl),
    readUntil_one l fuel _ (hws.consume_at hu) hinside (stringItem_wire (hws.consume_at hu) hy hbs),
    consume_consume hu.at _ _ hbefore.1, ← Nat.mul_add, ← List.length_append, hitems]
  refine ⟨fun hexceeded => by rw [hexceeded], fun hsoft => ?_⟩
  rw [hsoft, List.map_append]
  rfl

/-- The array read that the limiter interrupts at the last string: DETLIM is 0 after a hard cap and 1 after a soft cap. -/
theorem readArray_strings_capped (hw : List.Forall₂ (StringWire bo) xs wires) (hu : u.Inv) (hs : u.Upcoming wires.flatten)
    (ha : u.cmd.a.toInt < 0) {n : Nat} (hn : xs.length = n + 1) (hl : AllowsItems u.cmd.l.toInt n) :
    (limiterVerdict u.cmd.l.toInt xs.length = .exceeded → readArray (stringItem bo) u.cmd.a u.cmd.l u =
      .raise .arraySizeExceeded ((u.consume (8 * wires.flatten.length)).setDetLim false)) ∧
    (limiterVerdict u.cmd.l.toInt xs.length = .softStop → readArray (stringItem bo) u.cmd.a u.cmd.l u =
      .ok (xs.map .str) ((u.consume (8 * wires.flatten.length)).setDetLim true)) := by
  have hfuel := (Nat.add_sub_cancel' (strings_le_pendingBits hw hs)).symm
  rw [readArray_untilExhaustion _ ha, hfuel]
  exact readUntil_strings_last hw (hu.setDetLim false) ((upcoming_setDetLim false).mpr hs) hn hl _

/-- The array read that ends with the source. -/
theorem readArray_strings_all (hw : List.Forall₂ (StringWire bo) xs wires) (hu : u.Inv) (hs : u.Upcoming wires.flatten)
    (ha : u.cmd.a.toInt < 0) (hl : AllowsItems u.cmd.l.toInt xs.length) (hend : 8 * wires.flatten.length = pendingBits u) :
    readArray (stringItem bo) u.cmd.a u.cmd.l u =
      .ok (xs.map .str) ((u.consume (8 * wires.flatten.length)).setDetLim false) := by
  have hinv : (clearDetLim u).Inv := hu.setDetLim false
  have hs' : (clearDetLim u).Upcoming wires.flatten := (upcoming_setDetLim false).mpr hs
  have hfuel := (Nat.add_sub_cancel' (strings_le_pendingBits hw hs)).symm
  have hp : (clearDetLim u).bitPos + pendingBits u = 8 * (clearDetLim u).src.length := hu.pending
  rw [readArray_untilExhaustion _ ha, hfuel, readUntil_strings_allowed hw hinv hs' hl,
    readUntil_exhausted _ _ _ _ (hs'.consume_at hinv) (by rw [consume_src]; omega), consume_clearDetLim]

/-- One string more is asked for after `n` of them, which take `k` bits: in fixed mode A is greater than `n`; in until-exhaustion
mode a bit is pending and the limiter lets `n` strings through. -/
def AsksForMore (u : RdUnit) (n k : Nat) : Prop :=
  (0 ≤ u.cmd.a.toInt ∧ (n : Int) < u.cmd.a.toInt) ∨
    (u.cmd.a.toInt < 0 ∧ k < pendingBits u ∧ AllowsItems u.cmd.l.toInt n)

/-- A fault of the decoder, whatever DETLIM is, ends the array read that asks it for one string more: DETLIM is unchanged in fixed
mode and 0 in the other. -/
theorem readArray_strings_raise (hw : List.Forall₂ (StringWire bo) xs wires) (hu : u.Inv) (hs : u.Upcoming wires.flatten)
    (hask : AsksForMore u xs.length (8 * wires.flatten.length)) {c : Cause} {m : Nat}
    (hraise : ∀ d, decodeString bo ((u.setDetLim d).consume (8 * wires.flatten.length)) =
      .raise c ((u.setDetLim d).consume m)) :
    readArray (stringItem bo) u.cmd.a u.cmd.l u =
      .raise c ((u.consume m).setDetLim (decide (0 ≤ u.cmd.a.toInt) && u.detLim)) := by
  have hitem (d : Bool) : stringItem bo ((u.setDetLim d).consume (8 * wires.flatten.length)) =
      .raise c ((u.setDetLim d).consume m) := by
    rw [stringItem, hraise d]
    rfl
  rcases hask with ⟨ha, hmore⟩ | ⟨ha, hleft, hl⟩
  · have hcount : u.cmd.a.toInt.toNat = xs.length + (u.cmd.a.toInt.toNat - xs.length - 1 + 1) := by omega
    have hfirst : stringItem bo (u.consume (8 * wires.flatten.length)) = .raise c (u.consume m) := hitem u.detLim
    rw [readArray_fixed _ ha, hcount, readFixed_strings hw _ hu.at (hs.stands hu), readFixed, hfirst,
      decide_eq_true ha]
    rfl
  · have hs' : (clearDetLim u).Upcoming wires.flatten := (upcoming_setDetLim false).mpr hs
    have hp : (clearDetLim u).bitPos + pendingBits u = 8 * (clearDetLim u).src.length := hu.pending
    have hbytes := wires_length hw
    have hfuel : pendingBits u = xs.length + (pendingBits u - xs.length - 1 + 1) := by omega
    have hinv : (clearDetLim u).Inv := hu.setDetLim false
    rw [readArray_untilExhaustion _ ha, hfuel, readUntil_strings_allowed hw hinv hs' hl,
      readUntil_raise _ _ _ (hs'.consume_at hinv) (by rw [consume_src]; omega) (hitem false),
      decide_eq_false (not_le.mpr ha)]
    rfl

end

/-- Settles O23: every string is read in turn, and the loop ends by its count, at the soft cap, or with the source. -/
theorem readStringArray : Obligations.ReadStringArray := by
  intro s bo xs wires hinv hw hnext
  rw [exec_rdStrarr]
  refine ⟨fun ha => ?_, fun ha hl hcap => ?_, fun ha hhard hsoft hend => ?_⟩
  · apply rdArray_of_ok (List.length_map ..)
    rw [readArray_fixed _ (by omega), show s.rd.cmd.a.toInt.toNat = xs.length by omega, readFixed_strings_all hw hinv hnext]
  · obtain ⟨n, hn, -⟩ := softCap_eq hl
    obtain ⟨-, hread⟩ := readArray_strings_capped hw hinv hnext ha (show xs.length = n + 1 by omega)
      (hn ▸ allowsItems_softCap n)
    exact rdArray_of_ok (List.length_map ..) (hread (limiterVerdict_softStop hl (by omega)))
  · exact rdArray_of_ok (List.length_map ..) (readArray_strings_all hw hinv hnext ha ⟨hhard, hsoft⟩ hend)

/-- Settles O24: the string after a hard cap ends the loop; where the loop asks for one string more, the fault is the
decoder's. -/
theorem readStringArrayFaults : Obligations.ReadStringArrayFaults := by
  intro s bo xs wires hinv hw hnext
  rw [exec_rdStrarr]
  refine ⟨fun ha hl hcap => ?_, fun hask => ⟨fun b hb hbyte => ?_, fun hbyte hwire => ?_⟩⟩
  · obtain ⟨n, hn, -⟩ := hardCap_eq hl
    obtain ⟨hread, -⟩ := readArray_strings_capped hw hinv hnext ha (show xs.length = n + 1 by omega)
      (hn ▸ allowsItems_hardCap n)
    exact rdArray_of_raise (hread (limiterVerdict_exceeded hl (by omega)))
  · have hread := readArray_strings_raise hw hinv hnext hask fun d => decodeString_noPrefix (bo := bo) (hinv.setDetLim d)
      ((upcoming_setDetLim d).mpr hnext) hb ((upcoming_setDetLim d).mpr hbyte)
    rw [rdArray, rdCommand_eq, hread, rdEnd_raise]
    exact rdFaults_malformed s b _
  · have hread := readArray_strings_raise (c := .endOfData) (m := pendingBits s.rd) hw hinv hnext hask fun d =>
      decodeString_cutOff (hinv.setDetLim d) ((upcoming_setDetLim d).mpr hnext)
        (fun b hb h => hbyte b hb ((upcoming_setDetLim d).mp h)) fun x bs hx h => hwire x bs hx ((upcoming_setDetLim d).mp h)
    exact rdArray_of_raise hread

end Sys2Proof.Machine

/-! Writing strings (47_strings.md): the shortest encodings that the writer appends, their size, and the round trip through
RD.STRING. -/

namespace Sys2Proof.Machine

/-! ## WR.STRING and WR.STRARR (47_strings.md R267, R269) -/

theorem payloadTooLong_eq_false {x : StrItem} :
    payloadTooLong x = false ↔ ∀ p, x = .present p → p.length ≤ 0xFFFFFFFF := by
  cases x with
  | absent => simp [payloadTooLong]
  | present p =>
    rw [payloadTooLong, decide_eq_false_iff_not, not_lt]
    exact ⟨fun h q hq => by cases hq; exact h, fun h => h p rfl⟩

/-- The encodings of the items, in index order. -/
theorem writeAll_encodeString_wrote {u : WrUnit} (hu : u.Clean) (bo : ByteOrder) (xs : List StrItem) :
    Wrote u (writeAll (encodeString bo) xs u) (bytesBits (xs.flatMap (stringBytes bo))) := by
  rw [← flatMap_bytesBits]
  exact writeAll_wrote (fun h x => encodeString_wrote h bo x) hu xs

section
variable {s : State} {bo : ByteOrder} {xs : List StrItem}

theorem stringItems_omem (hitems : s.wr.cmd.omem = xs.map .str) : stringItems s.wr.cmd.omem = some xs := by
  rw [hitems, stringItems_map]

theorem exec_wrStrarr_open (ho : s.wr.closed = false) (hitems : s.wr.cmd.omem = xs.map .str) :
    exec (.wrStrarr bo) s = .next (s.withWr (writeStrings bo xs s.wr)) := by
  rw [exec, execWrStrarr]
  exact wrOmemCommand_run ho rfl (stringItems_omem hitems)

theorem exec_wrString_open (ho : s.wr.closed = false) (hitems : s.wr.cmd.omem = xs.map .str) (hone : xs.length = 1) :
    exec (.wrString bo) s = .next (s.withWr (writeOneString bo xs s.wr)) := by
  have holen : s.wr.cmd.omem.length = 1 := by rw [hitems, List.length_map, hone]
  rw [exec, execWrString]
  exact wrOmemCommand_run ho (decide_eq_true holen) (stringItems_omem hitems)

end

/-- Settles O37 (`writeStrings` is the model's own operation): the bytes of each item are those of
`stringBytes`, which no encoding of the item undercuts. -/
theorem writeStrings_shortest : Obligations.WriteStrings := by
  intro s bo xs hinv ho hitems hfits
  have hany : xs.any payloadTooLong = false :=
    List.any_eq_false.mpr fun x hx => by simpa using payloadTooLong_eq_false.mpr (hfits x hx)
  have hwrote := writeAll_encodeString_wrote hinv.clean bo xs
  refine ⟨xs.map (stringBytes bo), ?_, ⟨_, exec_wrStrarr_open ho hitems, ?_⟩,
    fun hone => ⟨_, exec_wrString_open ho hitems hone, ?_⟩⟩
  · rw [List.forall₂_map_right_iff, List.forall₂_same]
    exact fun x hx => stringBytes_shortest bo (hfits x hx)
  · rw [writeStrings, hany]
    exact ⟨hwrote.respond _, rfl⟩
  · rw [writeOneString, hany]
    exact ⟨hwrote.respond _, rfl⟩

/-! ## One string written (47_strings.md R271, R272) -/

/-- A WR.STRING that answers OK: the unit is open, the payload has a row, and the encoding has been appended. -/
theorem exec_wrString_ok {s t : State} {bo : ByteOrder} {x : StrItem} (hc : s.wr.Clean) (hitem : s.wr.cmd.omem = [.str x])
    (h : exec (.wrString bo) s = .next t) (hok : t.wr.rsp.st = .ok) :
    s.wr.closed = false ∧ payloadTooLong x = false ∧ Wrote s.wr t.wr (bytesBits (stringBytes bo x)) := by
  cases ho : s.wr.closed with
  | true =>
    have hu : unitOf (.wrString bo) = .wr := unitOfWord_commandWord 0x8A#8 _ _
    cases (exec_wr_closed hu (by simp) ho).symm.trans h
    cases hok
  | false =>
    cases (exec_wrString_open (xs := [x]) ho hitem rfl).symm.trans h
    have hwrote := writeAll_encodeString_wrote hc bo [x]
    rw [List.flatMap_singleton] at hwrote
    cases hx : payloadTooLong x with
    | true => simp [writeOneString, hx, causeStatus] at hok
    | false =>
      simp only [State.withWr_wr, writeOneString, List.any_cons, hx, List.any_nil, Bool.or_self, Bool.false_eq_true, if_false]
      exact ⟨trivial, trivial, hwrote.respond _⟩

/-- Settles O43: the bytes appended are `encodedSize` many, and whole bytes leave as many bits pending as before. -/
theorem stringSizeLaw : Obligations.StringSizeLaw := by
  intro s t bo x n hinv ho hitem hexec hok habsent hpresent
  obtain ⟨-, -, hwrote⟩ := exec_wrString_ok hinv.clean hitem hexec hok
  have hn : n = encodedSize x := by
    cases x with
    | absent => exact habsent rfl
    | present p => exact hpresent p rfl
  have hsize : (stringBytes bo x).length = n := hn ▸ stringBytes_length bo x
  obtain ⟨hbyteCnt, hbitCnt⟩ := hwrote.counts_bytes hinv.clean
  have hlength := congrArg List.length hwrote.written
  rw [List.length_append, bytesBits_length, WrUnit.written_length, WrUnit.written_length, hbitCnt] at hlength
  exact ⟨by omega, hsize ▸ hbyteCnt, hbitCnt⟩

/-- Settles O58: the encoding written stands at the cursor of the reader, and by O21 it is read back. -/
theorem stringRoundTrip : Obligations.StringRoundTrip := by
  intro s t f r bo x hs hitem hwrite hok hflush hr hord hsrc hpos
  obtain ⟨ho, hfits, hwrote⟩ := exec_wrString_ok hs.clean hitem hwrite hok
  obtain ⟨hprefix, hempty, hflushord⟩ := exec_wrFlush_written hwrote.clean (hwrote.closed.trans ho) hflush
  have hsame : r.rd.bitOrder = f.wr.bitOrder := by rw [hord, hflushord, hwrote.bitOrder]
  have hstands : r.rd.Stands r.rd.bitPos (stringBytes bo x) :=
    hpos ▸ stands_of_written hsrc hsame hempty (hwrote.written ▸ hprefix)
  have hcount : t.wr.written.length - s.wr.written.length = 8 * (stringBytes bo x).length := by
    rw [hwrote.written, List.length_append, bytesBits_length, Nat.add_sub_cancel_left]
  obtain ⟨hwire, -⟩ := stringBytes_shortest bo (payloadTooLong_eq_false.mp hfits)
  rw [hcount]
  exact readString r bo x _ hr hwire ((upcoming_stands hr _).mpr hstands)

end Sys2Proof.Machine

/-! Status and counters (48_status.md): the registers that the get commands answer, and what RSTCNT clears. -/

namespace Sys2Proof.Machine

theorem bitOrderCode_lane (o : BitOrder) :
    (bitOrderCode o).setWidth 64 = if o = .lsb0 then 0#64 else 1#64 := by
  cases o <;> rfl

/-- Settles O29: each command is its register put into the response, and RD.SETDL the write of DETLIM. -/
theorem statusCommands : Obligations.StatusCommands := by
  intro s
  refine ⟨rfl, ?_, ?_, ?_, rfl, rfl, rfl⟩
  · rw [← bitOrderCode_lane]
    rfl
  · rw [BitVec.ofNat_toNat]
    rfl
  · rw [BitVec.ofNat_toNat]
    rfl

/-- Settles O30: by O29 the two answers are BITBUF and BITCNT, which the invariant bounds. -/
theorem bufferReadsInRange : Obligations.BufferReadsInRange := by
  intro s t u hinv hbuf hcnt
  obtain ⟨-, -, hgetbuf, hgetnbits, -⟩ := statusCommands s
  cases hgetbuf.symm.trans hbuf
  cases hgetnbits.symm.trans hcnt
  have hclean := hinv.bitBuf_lt
  obtain ⟨⟨hcount, -⟩, -⟩ := hinv
  have hbyte := s.rd.bitBuf.isLt
  simp only [State.withRd_rd, BitVec.toNat_ofNat]
  rw [Nat.mod_eq_of_lt (by omega), Nat.mod_eq_of_lt (by omega)]
  exact ⟨hclean, hcount⟩

/-- RD.RSTCNT in its registers, for either value of the parameter. -/
theorem rdResetCounter_eq (clears : Bool) (u : RdUnit) :
    rdResetCounter clears u = { u with
      byteCnt := 0#64
      bitBuf := if clears then 0#8 else u.bitBuf
      bitCnt := if clears then 0#4 else u.bitCnt } := by
  cases clears <;> rfl

/-- WR.RSTCNT in its registers, for either value of the parameter. -/
theorem wrResetCounter_eq (clears : Bool) (u : WrUnit) :
    wrResetCounter clears u = { u with
      byteCnt := 0#64
      bitBuf := if clears then 0#8 else u.bitBuf
      bitCnt := if clears then 0#4 else u.bitCnt } := by
  cases clears <;> rfl

/-- Settles O31: both commands are the reset of their unit's registers, whatever the parameter is. -/
theorem counterReset : Obligations.CounterReset := by
  intro s
  refine ⟨?_, fun ho => ?_⟩
  · rw [exec, execRdRstcnt, rdCommand_eq, rdResetCounter_eq]
    rfl
  · rw [exec, execWrRstcnt, wrCommand_open ho, wrResetCounter_eq]
    rfl

end Sys2Proof.Machine

/-! Faults (60_exceptions.md): every step answers, which status a command can end in and for which operands, what a fault leaves
alone, and what follows after EndOfData (70_reset_and_hazards.md R347). -/

namespace Sys2Proof.Machine

/-! ## A step answers (60_exceptions.md R308) -/

/-- An instruction whose OMEM holds the kind of items it takes answers a next state. -/
theorem exec_answers {i : Instr} {s : State} (hfits : OmemFits i s) : ∃ t, exec i s = .next t := by
  by_contra hstops
  obtain ⟨-, -, hkind⟩ := stopsOnlyOnOmemItemKind i s (not_exists.mp hstops)
  exact hkind hfits

/-- Settles O7: by O8 the one stop is an OMEM of the other kind, and a step that answers takes the first command. -/
theorem stepCompletes : Obligations.StepCompletes := by
  intro s hfits
  have hanswers : ∃ t, step s = .next t := by
    rcases step_cases s with ⟨-, hidle⟩ | ⟨c, cs, hs, ⟨i, hi, -, hrun⟩ | ⟨-, hillegal⟩⟩
    · exact ⟨s, hidle⟩
    · exact hrun ▸ exec_answers (hfits c cs i hs hi)
    · exact ⟨_, hillegal⟩
  obtain ⟨t, ht⟩ := hanswers
  exact ⟨t, ht, (step_turn ht).host_tail⟩

/-! ## The causes of RD (60_exceptions.md R301) -/

/-- What must hold of an instruction of RD and the unit it starts from where it ends in a status. -/
def RdCause (i : Instr) (u : RdUnit) : Status → Prop
  | .ok => True
  | .eof => ∃ w, i = .rdBits w
  | .endOfData => (scalarRead i).isSome = true ∨ isArrayRead i = true ∨ i = .rdAlign ∨ ∃ bo, i = .rdString bo
  | .invalidArgument => (∃ w, (i = .rdBits w ∨ i = .rdBitsarr w) ∧ ¬ (1 ≤ w ∧ w ≤ 8)) ∨
      (i = .rdAlign ∧ u.cmd.a.toInt ≤ 0) ∨ (i = .rdMark ∧ u.cmd.a.toInt < 0)
  | .arraySizeExceeded => isArrayRead i = true ∧ u.cmd.a.toInt < 0 ∧ 0 < u.cmd.l.toInt
  | .malformedWireData => ∃ bo, i = .rdString bo ∨ i = .rdStrarr bo
  | .illegalCommand => False
  | .illegalState => i = .rdReset ∧ (u.markValid = false ∨ (u.markLim.toNat : Int) < (u.srcPos : Int) - u.markPos)

theorem RdFrame.cause {i : Instr} {u v : RdUnit} (h : RdFrame i u v) : RdCause i u v.rsp.st := by
  cases h with
  | read _ hs _ =>
    rcases hs with hs | ⟨hs, hi⟩ | ⟨hs, hi⟩ | ⟨hs, hi⟩ <;> rw [hs]
    · trivial
    all_goals exact hi
  | array d _ hi ha _ hs =>
    rcases hs with hs | hs | ⟨hs, bo, hb⟩ | ⟨hs, hl⟩ <;> rw [hs]
    · trivial
    · exact .inr (.inl hi)
    · exact ⟨bo, .inr hb⟩
    · exact ⟨hi, ha, hl⟩
  | argument _ hs hi =>
    rw [hs]
    exact hi
  | noMark _ hs hi hm =>
    rw [hs]
    exact ⟨hi, hm⟩
  | mark _ hv =>
    rw [hv]
    trivial
  | limit _ hv =>
    rw [hv]
    trivial

theorem exec_rd_of_next {i : Instr} (hu : unitOf i = .rd) {s t : State} (h : exec i s = .next t) :
    RdFrame i s.rd t.rd := by
  obtain ⟨v, hexec, hframe⟩ := exec_rd_frame hu s
  cases hexec.symm.trans h
  exact hframe

/-! ## The causes of WR (60_exceptions.md R301, R302) -/

/-- The operands for which an open unit refuses a command of WR with InvalidArgument. -/
def WrArgument (i : Instr) (u : WrUnit) : Prop :=
  (∃ w, (i = .wrBits w ∨ i = .wrBitsarr w) ∧ ¬ (1 ≤ w ∧ w ≤ 8)) ∨
  (i = .wrAlign ∧ u.cmd.a.toInt ≤ 0) ∨
  (∃ bo, i = .wrBytes bo ∧ (u.cmd.omem.length : Int) < u.cmd.a.toInt) ∨
  (∃ bo, i = .wrString bo ∧ (u.cmd.omem.length ≠ 1 ∨ ∃ x ∈ u.cmd.omem, noRowFor x = true)) ∨
  (∃ bo, i = .wrStrarr bo ∧ ∃ x ∈ u.cmd.omem, noRowFor x = true)

section
variable {i : Instr} {s t : State}

/-- A command on an open unit whose body refuses A. -/
theorem wrCommand_invalid {body : WrUnit → WrUnit} (ho : s.wr.closed = false) (h : wrCommand body s = .next t)
    (hst : t.wr.rsp.st = .invalidArgument) : (body s.wr).rsp.st = .invalidArgument := by
  cases (wrCommand_open ho body).symm.trans h
  exact hst

/-- A command over OMEM on an open unit: its argument check refuses, or its body refuses the items. -/
theorem wrOmemCommand_invalid {α : Type} {check : WrUnit → Bool} {read : List Item → Option (List α)}
    {body : List α → WrUnit → WrUnit} (ho : s.wr.closed = false) (h : wrOmemCommand check read body s = .next t)
    (hst : t.wr.rsp.st = .invalidArgument) :
    check s.wr = false ∨
      ∃ xs, read s.wr.cmd.omem = some xs ∧ (body xs s.wr).rsp.st = .invalidArgument := by
  rcases wrOmemCommand_cases check read body s with ⟨hc, -⟩ | ⟨-, hk, -⟩ | ⟨-, -, xs, hr, hexec⟩ | ⟨-, -, -, hexec⟩
  · exact absurd (ho.symm.trans hc) (by decide)
  · exact .inl hk
  · cases hexec.symm.trans h
    exact .inr ⟨xs, hr, hst⟩
  · cases hexec.symm.trans h

/-- A payload that a string command refuses is an item of OMEM. -/
theorem exists_noRowFor {items : List Item} {xs : List StrItem} (hxs : stringItems items = some xs)
    (hlong : xs.any payloadTooLong = true) : ∃ x ∈ items, noRowFor x = true := by
  obtain ⟨x, hx, htoo⟩ := List.any_eq_true.mp hlong
  rw [stringItems_eq_map hxs]
  exact ⟨.str x, List.mem_map_of_mem hx, (noRowFor_str x).trans htoo⟩

/-- The string commands refuse their items for nothing but a payload that is too long. -/
theorem strings_invalid {xs : List StrItem} {u : WrUnit} {bo : ByteOrder} {v : Lane}
    (h : (if xs.any payloadTooLong then wrRaise .invalidArgument u
      else (writeAll (encodeString bo) xs u).respond (okResponse v)).rsp.st = .invalidArgument) :
    xs.any payloadTooLong = true := by
  split at h
  · assumption
  · cases h

/-- A command of an open unit that ends in InvalidArgument has bad operands. -/
theorem exec_wr_invalid (hu : unitOf i = .wr) (ho : s.wr.closed = false) (h : exec i s = .next t)
    (hst : t.wr.rsp.st = .invalidArgument) : WrArgument i s.wr := by
  have scalar (f : Lane → List Byte) (hf : scalarWrite i = some f) : WrArgument i s.wr := by
    obtain ⟨g, hexec, -⟩ := scalarWrite_appends hf
    cases wrCommand_invalid ho ((hexec s).symm.trans h) hst
  have array (f : Lane → List Byte) (hf : arrayWrite i = some f) : WrArgument i s.wr := by
    obtain ⟨g, hexec, -⟩ := arrayWrite_appends hf
    rcases wrOmemCommand_invalid ho ((hexec s).symm.trans h) hst with hk | ⟨xs, -, hbody⟩
    · cases hk
    · cases hbody
  cases i
  case wrBits w =>
    rw [exec, execWrBits] at h
    have hbody := wrCommand_invalid ho h hst
    split at hbody
    · cases hbody
    · rename_i hw
      exact .inl ⟨w, .inl rfl, fun hle => hw (widthLegal_iff.mpr hle)⟩
  case wrBitsarr w =>
    rw [exec, execWrBitsarr] at h
    rcases wrOmemCommand_invalid ho h hst with hk | ⟨xs, -, hbody⟩
    · exact .inl ⟨w, .inr rfl, fun hle => Bool.false_ne_true (hk.symm.trans (widthLegal_iff.mpr hle))⟩
    · cases hbody
  case wrBytes bo =>
    rw [exec, execWrBytes] at h
    rcases wrOmemCommand_invalid ho h hst with hk | ⟨xs, -, hbody⟩
    · exact .inr (.inr (.inl ⟨bo, rfl, not_le.mp (of_decide_eq_false hk)⟩))
    · cases hbody
  case wrString bo =>
    rw [exec, execWrString] at h
    refine .inr (.inr (.inr (.inl ⟨bo, rfl, ?_⟩)))
    rcases wrOmemCommand_invalid ho h hst with hk | ⟨xs, hxs, hbody⟩
    · exact .inl (of_decide_eq_false hk)
    · exact .inr (exists_noRowFor hxs (strings_invalid hbody))
  case wrStrarr bo =>
    rw [exec, execWrStrarr] at h
    rcases wrOmemCommand_invalid ho h hst with hk | ⟨xs, hxs, hbody⟩
    · cases hk
    · exact .inr (.inr (.inr (.inr ⟨bo, rfl, exists_noRowFor hxs (strings_invalid hbody)⟩)))
  case wrAlign =>
    rw [exec, execWrAlign] at h
    have hbody := wrCommand_invalid ho h hst
    split at hbody
    · rename_i ha
      exact .inr (.inl ⟨rfl, ha⟩)
    · cases hbody
  case wrFlush =>
    rw [exec, execWrFlush] at h
    cases wrCommand_invalid ho h hst
  case wrClose =>
    rw [exec, execWrClose] at h
    cases wrCommand_invalid ho h hst
  case wrRstcnt =>
    rw [exec, execWrRstcnt] at h
    cases wrCommand_invalid ho h hst
  case wrGetcnt =>
    cases h
    cases hst
  all_goals first
    | exact scalar _ rfl
    | exact array _ rfl
    | exact absurd hu (by rw [unitOf, encode, unitOfWord_commandWord]; decide)

theorem exec_wr_of_next (hu : unitOf i = .wr) (h : exec i s = .next t) :
    TurnedAway s.wr t.wr ∨ t.wr.rsp.st = .ok := by
  rcases exec_wr_status hu s with ⟨v, hexec, hv⟩ | ⟨hexec, -, -⟩
  · cases hexec.symm.trans h
    exact hv
  · cases hexec.symm.trans h

end

/-- Settles O54: the frame of a command of RD names its status, and a command of WR is turned away by CLOSED or by its
operands. -/
theorem causesOfFaults : Obligations.CausesOfFaults := by
  intro i s t h
  refine ⟨fun hu => ?_, fun hu => ?_⟩
  · have cause {st : Status} (hst : t.rd.rsp.st = st) : RdCause i s.rd st := hst ▸ (exec_rd_of_next hu h).cause
    exact ⟨cause, cause, cause, cause, cause, cause, cause⟩
  · rcases exec_wr_of_next hu h with ⟨-, ⟨hc, hst⟩ | ⟨ho, hst⟩⟩ | hok
    · refine .inr (.inl ⟨hst, hc, ?_⟩)
      rintro rfl
      cases h
      cases hst
    · exact .inr (.inr ⟨hst, ho, exec_wr_invalid hu ho h hst⟩)
    · exact .inl hok

/-! ## What a fault leaves (60_exceptions.md R306) -/

/-- A fault of class (3) or (4) changes no register of RD. -/
theorem RdFrame.sameRegs {i : Instr} {u v : RdUnit} (h : RdFrame i u v)
    (hst : v.rsp.st = .invalidArgument ∨ v.rsp.st = .illegalState) : u.SameRegs v := by
  cases h with
  | read _ hs _ => rcases hs with hs | ⟨hs, -⟩ | ⟨hs, -⟩ | ⟨hs, -⟩ <;> simp [hs] at hst
  | array _ _ _ _ _ hs => rcases hs with hs | hs | ⟨hs, -⟩ | ⟨hs, -⟩ <;> simp [hs] at hst
  | argument h _ _ => exact h
  | noMark h _ _ _ => exact h
  | mark _ hv => simp [hv, okResponse] at hst
  | limit _ hv => simp [hv, okResponse] at hst

/-- The fault of an array read in until-exhaustion mode that has begun (42_rd_arrays.md R163). -/
def FaultsBegun (i : Instr) (u v : RdUnit) : Prop :=
  isArrayRead i = true ∧ u.cmd.a.toInt < 0 ∧ v.rsp.st ≠ .invalidArgument

/-- A fault of RD leaves everything but the cursor as it was; where an array read in until-exhaustion mode has begun, DETLIM
is 0. -/
theorem RdFrame.fault_cases {i : Instr} {u v : RdUnit} (h : RdFrame i u v) (hfault : v.rsp.st ≠ .ok) :
    (FaultsBegun i u v ∧ Still (u.setDetLim false) v) ∨ (¬ FaultsBegun i u v ∧ Still u v) := by
  cases h with
  | read h _ hmode => exact .inr ⟨fun ⟨hi, ha, _⟩ => absurd ha (not_lt.mpr (hmode hi)), h⟩
  | array d h hi ha hd hs =>
    have hbegun : v.rsp.st ≠ .invalidArgument := by
      rcases hs with hs | hs | ⟨hs, -⟩ | ⟨hs, -⟩ <;> simp [hs]
    have hclear : d = false := by
      cases d with
      | false => rfl
      | true => exact absurd (hd rfl).2 hfault
    exact .inl ⟨⟨hi, ha, hbegun⟩, hclear ▸ h⟩
  | argument h hs _ => exact .inr ⟨fun ⟨_, _, hst⟩ => hst hs, h.still⟩
  | noMark h _ hi _ => exact .inr ⟨fun ⟨ha, _⟩ => notArray (hi ▸ rfl) ha, h.still⟩
  | mark _ hv => exact absurd (by rw [hv]; rfl) hfault
  | limit _ hv => exact absurd (by rw [hv]; rfl) hfault

/-- Settles O53: the frame of a command of RD says what its faults leave, and a command of WR that faults has been turned
away. -/
theorem faultsArePrecise : Obligations.FaultsArePrecise := by
  intro i s t h
  refine ⟨fun hu hst => (exec_rd_of_next hu h).sameRegs hst, fun hu hst => ?_, fun hu hok _ => ?_⟩
  · rcases exec_wr_of_next hu h with haway | hok
    · exact haway.sameRegs
    · simp [hok] at hst
  · rcases (exec_rd_of_next hu h).fault_cases hok with ⟨hbegun, hstill⟩ | ⟨hnot, hstill⟩
    · exact ⟨hstill.markValid, hstill.markPos, hstill.markLim, hstill.snapBitBuf, hstill.snapBitCnt, hstill.snapByteCnt,
        fun _ => hstill.detLim, fun hn => absurd hbegun hn⟩
    · exact ⟨hstill.markValid, hstill.markPos, hstill.markLim, hstill.snapBitBuf, hstill.snapBitCnt, hstill.snapByteCnt,
        fun hb => absurd hb hnot, fun _ => hstill.detLim⟩

/-! ## The argument checks of WR (60_exceptions.md R301, R306) -/

section
variable {s : State}

theorem wrOmemCommand_refused {α : Type} {check : WrUnit → Bool} {read : List Item → Option (List α)}
    {body : List α → WrUnit → WrUnit} (ho : s.wr.closed = false) (hk : check s.wr = false) :
    WrFaults (wrOmemCommand check read body s) s .invalidArgument s.wr := by
  have hexec : wrOmemCommand check read body s = .next (s.withWr (wrRaise .invalidArgument s.wr)) := by
    simp [wrOmemCommand, ho, hk]
  exact hexec ▸ wrFaults_raise .invalidArgument s s.wr

/-- A payload that no row of the encoder takes. -/
theorem any_payloadTooLong {xs : List StrItem} {p : List Byte} (hp : .present p ∈ xs) (hlong : 0xFFFFFFFF < p.length) :
    xs.any payloadTooLong = true :=
  List.any_eq_true.mpr ⟨_, hp, decide_eq_true hlong⟩

end

/-- Settles O38: each check stands before the first write of its command. -/
theorem writerArgumentChecks : Obligations.WriterArgumentChecks := by
  intro s bo ho
  refine ⟨fun ha => ?_, fun ha => ?_, fun hone => ?_, fun p hitem hlong => ?_, fun xs p hitems hp hlong => ?_⟩
  · rw [exec, execWrBytes]
    exact wrOmemCommand_refused ho (decide_eq_false (not_le.mpr ha))
  · rw [exec, execWrAlign, wrCommand_open ho, if_pos ha]
    exact wrFaults_raise .invalidArgument s s.wr
  · rw [exec, execWrString]
    exact wrOmemCommand_refused ho (decide_eq_false hone)
  · have hany : [StrItem.present p].any payloadTooLong = true := any_payloadTooLong (List.mem_singleton_self _) hlong
    rw [exec_wrString_open (xs := [.present p]) ho hitem rfl, writeOneString, if_pos hany]
    exact wrFaults_raise .invalidArgument s s.wr
  · rw [exec_wrStrarr_open ho hitems, writeStrings, if_pos (any_payloadTooLong hp hlong)]
    exact wrFaults_raise .invalidArgument s s.wr

/-! ## After EndOfData (70_reset_and_hazards.md R347) -/

theorem RdUnit.SameRegs.pendingBits {u v : RdUnit} (h : u.SameRegs v) : Machine.pendingBits v = Machine.pendingBits u := by
  obtain ⟨-, hsrc, hpos, -, hcnt, -⟩ := h
  rw [Machine.pendingBits, hsrc, hpos, hcnt, Machine.pendingBits]

/-- Of the effects of a command only a read can end in EndOfData, and it has consumed everything. -/
theorem RdEffect.pendingBits_of_endOfData {i : Instr} {u v : RdUnit} (h : RdEffect i u v) (hu : u.Inv)
    (hst : v.rsp.st = .endOfData) : pendingBits v = 0 := by
  cases h with
  | reads h =>
    obtain ⟨n, d, -, hmoved, hall⟩ := h
    have hp := hu.pending
    have hat : (u.consume n).At (u.bitPos + n) := consume_at hu.at (by have := hall hst; omega)
    have hleft : pendingBits ((u.consume n).setDetLim d) = 8 * u.src.length - (u.bitPos + n) := hat.pendingBits
    rw [hmoved.pendingBits, hleft, hall hst, hp, Nat.sub_self]
  | mark _ _ hv => simp [hv, okResponse] at hst
  | reset _ _ _ hv => simp [hv, okResponse] at hst
  | count _ hv => simp [hv, okResponse] at hst
  | limit _ hv => simp [hv, okResponse] at hst

theorem scalarRead_bytes_pos {i : Instr} {sh : ReadShape} (h : scalarRead i = some sh) : 0 < sh.bytes := by
  cases i <;> simp only [scalarRead, Option.some.injEq, reduceCtorEq] at h <;> subst h <;> simp

/-- Settles O55: with nothing pending, O10, O14 and O22 say that every read meets the end and consumes nothing. -/
theorem endOfDataIsFinal : Obligations.EndOfDataIsFinal := by
  intro i s t hinv hu h hst
  obtain ⟨v, hexec, heffect⟩ := exec_rd hu hinv
  cases hexec.symm.trans h
  have hinv' : v.Inv := heffect.inv hinv
  have hnone : pendingBits v = 0 := heffect.pendingBits_of_endOfData hinv hst
  have hstill : v.consume (pendingBits v) = v := by rw [hnone, consume_zero hinv'.at]
  refine ⟨hnone, fun w hw1 hw8 => (readBitField _ w hinv' hw1 hw8).1 hnone, fun j hj => ?_, fun bo => ?_⟩
  · obtain ⟨sh, hsh⟩ := Option.isSome_iff_exists.mp hj
    have hbytes := scalarRead_bytes_pos hsh
    have hcut : pendingBits v < 8 * sh.bytes := by omega
    have hfaults := readScalarCutOff j sh (s.withRd v) hsh hinv' hcut
    rwa [State.withRd_rd, hstill] at hfaults
  · obtain ⟨-, hend⟩ := readStringFaults (s.withRd v) bo hinv'
    have hempty (bs : List Byte) (hpos : 1 ≤ bs.length) : ¬ v.Upcoming bs := fun ⟨hbits, _⟩ => by omega
    have hfaults := hend (fun b _ => hempty [b] (Nat.le_refl 1)) fun x bs hx => hempty bs hx.pos
    rwa [State.withRd_rd, hstill] at hfaults

end Sys2Proof.Machine
